-- ==== Sys2Proof/Word.lean ====
section
/-! DEFINITION. The widths the spec gives its words: bytes of the byte memories and of the bit stream, 16-bit symbol
buffer entries, the 24-bit immediate of a command, and 32-bit registers, frequency counts and command words
(spec/10_state.md R23 and R47, spec/30_encoding.md R100). -/

namespace Sys2Proof

/-- An 8-bit element: LEN, BUF, WIN, SUF, WOUT and TSTK (spec/10_state.md R47). -/
abbrev Byte := BitVec 8

/-- A 16-bit element of the symbol buffer SYM (spec/10_state.md R52). -/
abbrev Half := BitVec 16

/-- The IMM field of a command word (spec/30_encoding.md R100). -/
abbrev Imm := BitVec 24

/-- A register, a FREQ element or a command word (spec/10_state.md R23 and R50, spec/30_encoding.md R100). -/
abbrev Word := BitVec 32

/-- A word, a suffix or a stack content: a sequence of character codes (spec/00_scope.md R14). -/
abbrev Str := List Byte

end Sys2Proof
end

