-- ==== Sys2Proof/Config.lean ====
section
/-! DEFINITION. What an implementation fixes: the parameters of spec/00_scope.md R8 with their legal ranges and
defaults, the constants of R9 and R10, and the one free value of the spec (a TSTK byte at or above the stack depth). -/

namespace Sys2Proof

/-- The implementation parameters of spec/00_scope.md R8. "A model takes them as arguments": they are a read-only
field of the machine's state, which the CAP registers report (spec/10_state.md R39) and no step changes. -/
structure Params where
  /-- SYM_LIMIT_MAX: the largest symbol limit, and the number of FREQ and of LEN elements. -/
  symLimitMax : Nat
  /-- MAX_CODE_LEN: the longest code length. -/
  maxCodeLen : Nat
  /-- BUF_SIZE: bytes of BUF. -/
  bufSize : Nat
  /-- SYM_SIZE: 16-bit entries of SYM. -/
  symSize : Nat
  /-- WIN_SIZE: bytes of WIN. -/
  winSize : Nat
  /-- SUF_SIZE: bytes of SUF. -/
  sufSize : Nat
  /-- WOUT_SIZE: bytes of WOUT. -/
  woutSize : Nat
deriving DecidableEq, Repr

namespace Params

/-- The defaults of spec/00_scope.md R8. -/
def default : Params where
  symLimitMax := 65535
  maxCodeLen := 32
  bufSize := 1048576
  symSize := 262144
  winSize := 1048576
  sufSize := 1792
  woutSize := 1048576

/-- The legal ranges of spec/00_scope.md R8. -/
abbrev Legal (p : Params) : Prop :=
  (2 ≤ p.symLimitMax ∧ p.symLimitMax ≤ 65535) ∧ (1 ≤ p.maxCodeLen ∧ p.maxCodeLen ≤ 255) ∧
  (1 ≤ p.bufSize ∧ p.bufSize ≤ 16777215) ∧ (1 ≤ p.symSize ∧ p.symSize ≤ 8388608) ∧
  (1 ≤ p.winSize ∧ p.winSize ≤ 16777215) ∧ (1 ≤ p.sufSize ∧ p.sufSize ≤ 16777215) ∧
  (1 ≤ p.woutSize ∧ p.woutSize ≤ 16777215)

end Params

namespace Config

/-- WORD_MARKER (spec/00_scope.md R9). -/
def wordMarker : Nat := 31

/-- SUFFIX_MARKER (spec/00_scope.md R9). -/
def suffixMarker : Nat := 128

/-- MAX_BKSP, the largest backspace count (spec/00_scope.md R9). -/
def maxBksp : Nat := 30

/-- MAX_SUFFIXES and BANK_MAX (spec/00_scope.md R9 and R10). -/
def maxSuffixes : Nat := 7

/-- RUN_CAP, the longest run one run entry carries (spec/00_scope.md R9). -/
def runCap : Nat := 255

/-- FREQ_MAX, the largest count (spec/00_scope.md R10). -/
def freqMax : Word := 0x7FFFFFFF#32

/-- STACK_MAX: the capacity of the trie decoder stack and the longest word or suffix (spec/00_scope.md R10). -/
def stackMax : Nat := 255

/-- The lowest and the highest character code (spec/00_scope.md R10). -/
def charMin : Nat := 32
def charMax : Nat := 127

/-- ID, "the bytes "BIB" followed by 0x01" (spec/10_state.md R39). -/
def idWord : Word := 0x42494201#32

/-- FREE VALUE: the byte a host read of TSTK[d] returns when d is at or above the stack depth. "A read at d ≥ DEPTH
returns an unspecified byte" (spec/10_state.md R57). Its arguments are the state's free counter and d. It has no body,
so nothing can be proved of its value. Log entry 3. -/
opaque tstkByte : Nat → Nat → Byte

end Config

end Sys2Proof
end

