-- ==== Sys2Proof/Syntax.lean ====
section
/-! DEFINITION. The instructions: one constructor per row of spec/opcode_table.json. The table has three encodings
(spec/30_encoding.md): 25 command words, the six classes of the trie code alphabet, and the two entry kinds of the
code-length table. -/

namespace Sys2Proof

/-- One constructor per row of spec/opcode_table.json, in the table's order. -/
inductive Instr where
  -- command words (spec/30_encoding.md R102); an immediate is the whole IMM field
  | nop
  | sreset
  | bsWinit (a : Imm)
  | bsPut (n : Imm)
  | bsWalign
  | bsRinit (a : Imm)
  | bsGet (n : Imm)
  | bsRalign
  | ftInit (limit : Imm)
  | ftInc (sym : Imm)
  | ftSet (sym : Imm)
  | ftGet (sym : Imm)
  | hufBuild
  | hufCanon (limit : Imm)
  | hufTwrite
  | hufTread
  | hufEnc (sym : Imm)
  | hufDec
  | hufBenc
  | hufBdec (n : Imm)
  | trieEnc
  | trieDinit
  | trieDstep (c : Imm)
  | trieDend
  | trieDrun
  -- trie code classes (spec/30_encoding.md R111)
  | sufdef
  /-- MASK m, code 128 + m. -/
  | mask (m : Byte)
  /-- BKSP n, code n. -/
  | bksp (n : Byte)
  | word
  /-- CHAR c, code c. -/
  | char (c : Byte)
  /-- A code of 256 or above: up to 16 bits in SYM, up to 24 bits as the operand of TRIE_DSTEP (R269). -/
  | invalidCode (c : Imm)
  -- entries of the code-length table (spec/30_encoding.md R116)
  /-- A literal entry: flag 1, then the length in `bpl` bits, `bpl` being the table header's bitsPerLength. -/
  | tableLiteral (bpl : Byte) (len : Nat)
  /-- A run entry: flag 0, then the run count in 8 bits. -/
  | tableRun (r : Byte)
deriving DecidableEq, Repr

end Sys2Proof
end

