-- ==== Sys2Proof/WellFormed.lean ====
section
/-! DEFINITION. Which instruction terms are instructions: the ranges that spec/30_encoding.md R111 and R116 give the
operands of trie codes and table entries. Every command word's immediate may be any 24-bit value (R101: a command's
own rule range-checks it). -/

namespace Sys2Proof

/-- The operand ranges of spec/30_encoding.md R111 (trie codes) and R116 (a length in `bpl` bits). -/
def Instr.wf : Instr → Bool
  | .nop => true
  | .sreset => true
  | .bsWinit _ => true
  | .bsPut _ => true
  | .bsWalign => true
  | .bsRinit _ => true
  | .bsGet _ => true
  | .bsRalign => true
  | .ftInit _ => true
  | .ftInc _ => true
  | .ftSet _ => true
  | .ftGet _ => true
  | .hufBuild => true
  | .hufCanon _ => true
  | .hufTwrite => true
  | .hufTread => true
  | .hufEnc _ => true
  | .hufDec => true
  | .hufBenc => true
  | .hufBdec _ => true
  | .trieEnc => true
  | .trieDinit => true
  | .trieDstep _ => true
  | .trieDend => true
  | .trieDrun => true
  | .sufdef => true
  | .mask m => decide (1 ≤ m.toNat) && decide (m.toNat ≤ 127)
  | .bksp n => decide (n.toNat ≤ Config.maxBksp)
  | .word => true
  | .char c => decide (Config.charMin ≤ c.toNat) && decide (c.toNat ≤ Config.charMax)
  | .invalidCode c => decide (256 ≤ c.toNat)
  | .tableLiteral bpl len => decide (len < 2 ^ bpl.toNat)
  | .tableRun _ => true

end Sys2Proof
end

