-- ==== Sys2Proof/Decode.lean ====
section
/-! DEFINITION. The three encodings of spec/30_encoding.md, decoders first and then the encoder: command words
(R100 to R106), trie codes (R110 to R113) and code-length table entries (R114 to R117). -/

namespace Sys2Proof

/-! ## Bits in transmission order (spec/00_scope.md R16) -/

/-- The k bits of v in transmission order: v[k-1] first (spec/00_scope.md R16, `PutField`). -/
def fieldBits : Nat → Nat → List Bool
  | 0, _ => []
  | k + 1, v => v.testBit k :: fieldBits k v

/-- The number whose bits, in transmission order, are `bs`: each further bit shifts the value left by one
(spec/00_scope.md R16, `GetField`). -/
def bitsToNat (bs : List Bool) : Nat :=
  bs.foldl (fun v b => 2 * v + b.toNat) 0

/-! ## Decoders -/

/-- Why a decoder rejects: the encoding is no instruction of the spec. -/
inductive DecodeReject where
  /-- An OP value that the opcode map does not list (spec/30_encoding.md R104). -/
  | reservedOpcode (op : Byte)
  /-- The bits end inside a table entry. -/
  | truncatedEntry
deriving DecidableEq, Repr

/-- OP, bits 31:24 of a command word (spec/30_encoding.md R100). -/
def opField (w : Word) : Byte := w.extractLsb' 24 8

/-- IMM, bits 23:0 of a command word (spec/30_encoding.md R100). -/
def immField (w : Word) : Imm := w.extractLsb' 0 24

/-- A command word, by the opcode map of spec/30_encoding.md R102. The IMM bits of a command that reads no immediate
are ignored (R105); an unlisted OP is rejected (R104). -/
def decodeCommand (w : Word) : Except DecodeReject Instr :=
  let imm := immField w
  match (opField w).toNat with
  | 0x00 => .ok .nop
  | 0x01 => .ok .sreset
  | 0x10 => .ok (.bsWinit imm)
  | 0x11 => .ok (.bsPut imm)
  | 0x12 => .ok .bsWalign
  | 0x18 => .ok (.bsRinit imm)
  | 0x19 => .ok (.bsGet imm)
  | 0x1A => .ok .bsRalign
  | 0x20 => .ok (.ftInit imm)
  | 0x21 => .ok (.ftInc imm)
  | 0x22 => .ok (.ftSet imm)
  | 0x23 => .ok (.ftGet imm)
  | 0x30 => .ok .hufBuild
  | 0x31 => .ok (.hufCanon imm)
  | 0x32 => .ok .hufTwrite
  | 0x33 => .ok .hufTread
  | 0x34 => .ok (.hufEnc imm)
  | 0x35 => .ok .hufDec
  | 0x36 => .ok .hufBenc
  | 0x37 => .ok (.hufBdec imm)
  | 0x40 => .ok .trieEnc
  | 0x48 => .ok .trieDinit
  | 0x49 => .ok (.trieDstep imm)
  | 0x4A => .ok .trieDend
  | 0x4B => .ok .trieDrun
  | _ => .error (.reservedOpcode (opField w))

/-- The class of a trie code, tested in the order of spec/30_encoding.md R111. Every code has a class. -/
def decodeTrieCode (c : Imm) : Instr :=
  if c.toNat = Config.suffixMarker then .sufdef
  else if 129 ≤ c.toNat ∧ c.toNat ≤ 255 then .mask (BitVec.ofNat 8 (c.toNat - Config.suffixMarker))
  else if c.toNat ≤ Config.maxBksp then .bksp (c.setWidth 8)
  else if c.toNat = Config.wordMarker then .word
  else if Config.charMin ≤ c.toNat ∧ c.toNat ≤ Config.charMax then .char (c.setWidth 8)
  else .invalidCode c

/-- The next entry of a code-length table whose header gave `bpl`, and the bits after it: the first bit tells the
kind, and the kind fixes the length (spec/30_encoding.md R116). -/
def decodeTableEntry (bpl : Byte) : List Bool → Except DecodeReject (Instr × List Bool)
  | [] => .error .truncatedEntry
  | true :: bs =>
    if bs.length < bpl.toNat then .error .truncatedEntry
    else .ok (.tableLiteral bpl (bitsToNat (bs.take bpl.toNat)), bs.drop bpl.toNat)
  | false :: bs =>
    if bs.length < 8 then .error .truncatedEntry
    else .ok (.tableRun (BitVec.ofNat 8 (bitsToNat (bs.take 8))), bs.drop 8)

/-- The `bitsPerLength` under which `decodeTableWord` and `State.withFetchWord` read an opcode-table word of a
code-length table entry. Log entry 8. -/
def tableWordBpl : Byte := 8#8

/-- The first k bits of w in the numbering of spec/opcode_table.json: bit 0 first. -/
def tableWordBits : Nat → Nat → List Bool
  | 0, _ => []
  | k + 1, w => w.testBit 0 :: tableWordBits k (w / 2)

/-- The instruction the decoders read from an opcode-table word: 32 bits are a command word, 16 bits a trie code (an
element of SYM), and 8 bits the start of a table entry, whose bit 0 is the first bit transmitted. Every bit above
`nbits` is 0. Log entry 8. -/
def decodeTableWord (nbits w : Nat) : Option Instr :=
  match nbits with
  | 32 => (decodeCommand (BitVec.ofNat 32 w)).toOption
  | 16 => some (decodeTrieCode ((BitVec.ofNat 16 w).setWidth 24))
  | 8 => ((decodeTableEntry tableWordBpl (tableWordBits 9 (w % 256))).toOption).map Prod.fst
  | _ => none

/-! ## Encoder -/

/-- What encodes an instruction: a command word, a trie code, or the bits of a table entry in transmission order. -/
inductive Encoding where
  | command (w : Word)
  | trieCode (c : Imm)
  | tableEntry (bits : List Bool)
deriving DecidableEq, Repr

/-- The opcode under which an instruction executes: OP of spec/30_encoding.md R102 for a command. A trie code stepped
by itself executes as the operand of TRIE_DSTEP (0x49, spec/46_trie_decoder.md R263), and a table entry inside
HUF_TREAD (0x33, spec/43_table_io.md R205): log entries 6 and 7. -/
def Instr.opcode : Instr → Byte
  | .nop => 0x00#8
  | .sreset => 0x01#8
  | .bsWinit _ => 0x10#8
  | .bsPut _ => 0x11#8
  | .bsWalign => 0x12#8
  | .bsRinit _ => 0x18#8
  | .bsGet _ => 0x19#8
  | .bsRalign => 0x1A#8
  | .ftInit _ => 0x20#8
  | .ftInc _ => 0x21#8
  | .ftSet _ => 0x22#8
  | .ftGet _ => 0x23#8
  | .hufBuild => 0x30#8
  | .hufCanon _ => 0x31#8
  | .hufTwrite => 0x32#8
  | .hufTread => 0x33#8
  | .hufEnc _ => 0x34#8
  | .hufDec => 0x35#8
  | .hufBenc => 0x36#8
  | .hufBdec _ => 0x37#8
  | .trieEnc => 0x40#8
  | .trieDinit => 0x48#8
  | .trieDstep _ => 0x49#8
  | .trieDend => 0x4A#8
  | .trieDrun => 0x4B#8
  | .sufdef => 0x49#8
  | .mask _ => 0x49#8
  | .bksp _ => 0x49#8
  | .word => 0x49#8
  | .char _ => 0x49#8
  | .invalidCode _ => 0x49#8
  | .tableLiteral _ _ => 0x33#8
  | .tableRun _ => 0x33#8

/-- `(OP << 24) | imm` (spec/30_encoding.md R102). -/
def commandWord (op : Byte) (imm : Imm) : Word := op ++ imm

/-- The encoding of an instruction; a command that reads no immediate is written with IMM = 0 (spec/30_encoding.md
R105). -/
def Instr.encode (i : Instr) : Encoding :=
  match i with
  | .nop => .command (commandWord i.opcode 0)
  | .sreset => .command (commandWord i.opcode 0)
  | .bsWinit a => .command (commandWord i.opcode a)
  | .bsPut n => .command (commandWord i.opcode n)
  | .bsWalign => .command (commandWord i.opcode 0)
  | .bsRinit a => .command (commandWord i.opcode a)
  | .bsGet n => .command (commandWord i.opcode n)
  | .bsRalign => .command (commandWord i.opcode 0)
  | .ftInit limit => .command (commandWord i.opcode limit)
  | .ftInc sym => .command (commandWord i.opcode sym)
  | .ftSet sym => .command (commandWord i.opcode sym)
  | .ftGet sym => .command (commandWord i.opcode sym)
  | .hufBuild => .command (commandWord i.opcode 0)
  | .hufCanon limit => .command (commandWord i.opcode limit)
  | .hufTwrite => .command (commandWord i.opcode 0)
  | .hufTread => .command (commandWord i.opcode 0)
  | .hufEnc sym => .command (commandWord i.opcode sym)
  | .hufDec => .command (commandWord i.opcode 0)
  | .hufBenc => .command (commandWord i.opcode 0)
  | .hufBdec n => .command (commandWord i.opcode n)
  | .trieEnc => .command (commandWord i.opcode 0)
  | .trieDinit => .command (commandWord i.opcode 0)
  | .trieDstep c => .command (commandWord i.opcode c)
  | .trieDend => .command (commandWord i.opcode 0)
  | .trieDrun => .command (commandWord i.opcode 0)
  | .sufdef => .trieCode (BitVec.ofNat 24 Config.suffixMarker)
  | .mask m => .trieCode (BitVec.ofNat 24 (Config.suffixMarker + m.toNat))
  | .bksp n => .trieCode (n.setWidth 24)
  | .word => .trieCode (BitVec.ofNat 24 Config.wordMarker)
  | .char c => .trieCode (c.setWidth 24)
  | .invalidCode c => .trieCode c
  | .tableLiteral bpl len => .tableEntry (true :: fieldBits bpl.toNat len)
  | .tableRun r => .tableEntry (false :: fieldBits 8 r.toNat)

/-- The instruction an encoding stands for. A table entry is read under the header's `bpl`, and must be whole, with
no bit after it. -/
def Encoding.decode (bpl : Byte) : Encoding → Option Instr
  | .command w => (decodeCommand w).toOption
  | .trieCode c => some (decodeTrieCode c)
  | .tableEntry bits =>
    match decodeTableEntry bpl bits with
    | .ok (i, []) => some i
    | .ok (_, _ :: _) => none
    | .error _ => none

end Sys2Proof
end

