-- ==== Sys2Proof/Machine/State.lean ====
section
/-! DEFINITION. The machine's state as plain data: every register of spec/10_state.md R23 and its fields, the trie
decoder's state (R44 to R46), the memories (R47), the table reader's working state (spec/43_table_io.md R204), and
the host port. Why a step can stop: `Fault` and `Refusal`. -/

namespace Sys2Proof.Machine

/-- The engine-local memories (spec/10_state.md R47). -/
inductive Space where
  | freq | len | sym | buf | win | suf | wout | tstk
deriving DecidableEq, Repr

/-- Why the model stops. The spec's own faults (E_BAD_CMD and the rest) are no stops: they are next states, with
STATUS.FAULT set (spec/60_exceptions.md R302). Each constructor is raised only in states that no run reaches. -/
inductive Fault where
  /-- An engine access to an element its memory does not have (spec/10_state.md R47, spec/20_memory.md R70). Raised by
  the element operations of Machine/Ops.lean, only when LIMIT, RLIM or a count breaks its bound (R30, R33). Safe. -/
  | noElement (space : Space) (index : Nat)
  /-- CODE_VALID = 1 but LEN[0..LIMIT) has no code tree, or a symbol with a nonzero length has no leaf in it, which
  spec/10_state.md R25 and spec/42_huffman_build.md R182 exclude. Raised by the Huffman coders. Safe. -/
  | noCodeTree
  /-- The table reader read more entries than its stream has bits. Never raised: each entry takes at least one bit
  (spec/43_table_io.md R204), and the bound is the number of unread bits plus one. Safe. -/
  | entryBound
deriving DecidableEq, Repr

/-- Why a step has no meaning. -/
inductive Refusal where
  /-- An instruction of the table that has no meaning yet. Raised by no arm: every instruction has its meaning. Safe. -/
  | notModelled (mnemonic : String)
deriving DecidableEq, Repr

/-- The spec's fault codes (spec/60_exceptions.md R300), by name. -/
inductive FaultCode where
  | badCmd | arg | config | negFreq | freqMax | underfull | overfull | lenRange | notReady | noCode
  | eos | bufFull | tableFormat | symFull | bkspOvf | trieInput | trieCode | stackOvf | wordLong | woutFull
deriving DecidableEq, Repr

/-- A memory: the elements that are not 0, as (index, element) pairs in strictly rising index order. An unlisted
element reads as 0 (log entry 1). For the byte memories a pair is a `Host.Cell`. -/
abbrev Mem (w : Nat) := List (Nat × BitVec w)

/-- The fields of STATUS (spec/10_state.md R24) that are stored. BUSY is not among them: it is 1 exactly while a table
read is in progress, which no host access observes (`State.busy`). -/
structure Status where
  /-- FAULT, bit 1. -/
  fault : Bool
  /-- CODE_VALID, bit 2 (R25). -/
  codeValid : Bool
  /-- FAULT_CODE, bits 15:8. -/
  faultCode : Byte
  /-- FAULT_OP, bits 23:16. -/
  faultOp : Byte
deriving DecidableEq, Repr

/-- The registers of spec/10_state.md R23, less the constants (ID and the CAP registers are `Config.idWord` and the
parameters) and the views of the decoder state (TRIE_STATE). -/
structure Regs where
  /-- STATUS (R24). -/
  status : Status
  /-- ARG (R27). -/
  arg : Word
  /-- RESULT (R28). -/
  result : Word
  /-- FAULT_INFO (R29). -/
  faultInfo : Word
  /-- LIMIT (R30). -/
  limit : Word
  /-- MAXLEN (R31). -/
  maxlen : Word
  /-- BS_WPOS: WPOS (R32). -/
  wpos : Word
  /-- BS_WSTATE bits 3:0: WNB (R32). -/
  wnb : BitVec 4
  /-- BS_WSTATE bits 15:8: WACC (R32). -/
  wacc : Byte
  /-- BS_WCNT: WCNT (R32). -/
  wcnt : Word
  /-- BS_RPOS: RPOS (R33). -/
  rpos : Word
  /-- BS_RLIM: RLIM (R33). -/
  rlim : Word
  /-- BS_RSTATE bits 3:0: RNB (R33). -/
  rnb : BitVec 4
  /-- BS_RSTATE bits 15:8: RACC (R33). -/
  racc : Byte
  /-- BS_RCNT: RCNT (R33). -/
  rcnt : Word
  /-- SYM_CNT (R34). -/
  symCnt : Word
  /-- WIN_CNT (R35). -/
  winCnt : Word
  /-- SUF_CNT (R36). -/
  sufCnt : Word
  /-- WOUT_CNT (R37). -/
  woutCnt : Word
  /-- WOUT_PTR (R37). -/
  woutPtr : Word
deriving DecidableEq, Repr

/-- The trie decoder's state (spec/10_state.md R44 to R46). DEPTH is the length of `stk`, and BANKCNT that of `bank`. -/
structure Decoder where
  /-- STK, bottom first (R44). -/
  stk : Str
  /-- BANK[0..BANKCNT) (R45). -/
  bank : List Str
  /-- EMITTED (R46). -/
  emitted : Bool
deriving DecidableEq, Repr

/-- The working state of a table read (spec/43_table_io.md R204: n, bpl, i, have, last), and the registers its command
started with. No command leaves one behind (spec/10_state.md R21 and R49: it is not architectural). Log entry 7. -/
structure TableRead where
  /-- The registers before the command, which a fault restores (spec/60_exceptions.md R302). -/
  start : Regs
  n : Nat
  bpl : Byte
  i : Nat
  /-- `have` of R204: a literal has been read. -/
  haveLast : Bool
  last : Byte
deriving DecidableEq, Repr

/-- One host access, at the width it has on the port (spec/20_memory.md R71 and R72). -/
inductive HostOp where
  | read8 (addr : Word)
  | read16 (addr : Word)
  | read32 (addr : Word)
  | write8 (addr : Word) (v : Byte)
  | write16 (addr : Word) (v : Half)
  | write32 (addr : Word) (v : Word)
deriving DecidableEq, Repr

/-- What the port answered to the last host access. -/
inductive PortResp where
  /-- No access yet. -/
  | none
  /-- A write was admitted. -/
  | done
  /-- A read was admitted and returned the element, zero-extended. -/
  | data (v : Word)
  /-- The access was not admitted: an error response and no data (spec/20_memory.md R71). -/
  | error
deriving DecidableEq, Repr

/-- The machine. The engine is everything but the last three fields, which are the host's side of the port. -/
structure State where
  /-- The implementation's parameters (spec/00_scope.md R8): constant. -/
  params : Params
  regs : Regs
  dec : Decoder
  /-- FREQ (R50). -/
  freq : Mem 32
  /-- LEN (R51). -/
  len : Mem 8
  /-- SYM (R52). -/
  sym : Mem 16
  /-- BUF (R53). -/
  buf : Mem 8
  /-- WIN (R54). -/
  win : Mem 8
  /-- SUF (R55). -/
  suf : Mem 8
  /-- WOUT (R56). -/
  wout : Mem 8
  /-- A table read in progress; none between commands. -/
  tread : Option TableRead
  /-- The host accesses still to come, in the order the host issues them (spec/20_memory.md R83). -/
  inbox : List HostOp
  /-- The port's last answer. -/
  resp : PortResp
  /-- The model's own counter of host accesses other than reads: the argument of the free value `Config.tstkByte`. -/
  free : Nat
deriving DecidableEq, Repr

/-- The reset values of spec/10_state.md R23 and R58: every register 0. -/
def Regs.reset : Regs where
  status := { fault := false, codeValid := false, faultCode := 0, faultOp := 0 }
  arg := 0
  result := 0
  faultInfo := 0
  limit := 0
  maxlen := 0
  wpos := 0
  wnb := 0
  wacc := 0
  wcnt := 0
  rpos := 0
  rlim := 0
  rnb := 0
  racc := 0
  rcnt := 0
  symCnt := 0
  winCnt := 0
  sufCnt := 0
  woutCnt := 0
  woutPtr := 0

/-- STK = [], BANKCNT = 0 with every BANK entry empty, EMITTED = 0 (spec/10_state.md R58). -/
def Decoder.reset : Decoder where
  stk := []
  bank := []
  emitted := false

/-- The machine with parameters p after power-on reset (spec/70_reset_and_hazards.md R340). The memories' contents are
unspecified there; with nothing listed they read as 0 (log entry 1). -/
def State.resetWith (p : Params) : State where
  params := p
  regs := Regs.reset
  dec := Decoder.reset
  freq := []
  len := []
  sym := []
  buf := []
  win := []
  suf := []
  wout := []
  tread := none
  inbox := []
  resp := .none
  free := 0

/-- The machine right after power-on reset, with the default parameters of spec/00_scope.md R8. -/
def State.reset : State := State.resetWith Params.default

end Sys2Proof.Machine
end

