-- ==== Sys2Proof/Machine/Operands.lean ====
section
/-! DEFINITION. Every operand form of spec/30_encoding.md R101: the zero-extended immediate (a bit count, a BUF
address, a symbol limit, a symbol, a symbol count or a trie code), and the second operand in ARG. -/

namespace Sys2Proof.Machine

/-- `imm = zext_32(CMD[23:0])` (spec/30_encoding.md R100). -/
def zextImm (imm : Imm) : Word := imm.setWidth 32

/-- The bits of ARG[n-1:0] in transmission order, the field BS_PUT writes (spec/30_encoding.md R101: the ARG bits above
n - 1 are ignored). -/
def argField (n : Nat) (arg : Word) : List Bool := fieldBits n arg.toNat

/-- Bit 31 of a count: the "negative frequency" test (spec/00_scope.md R12, spec/10_state.md R50). -/
def isNegative (f : Word) : Bool := f.getLsbD 31

/-- FAULT_INFO with a sub-code in [31:24] and an index or a code in [23:0] (spec/60_exceptions.md R300). -/
def subInfo (sub idx : Nat) : Word := BitVec.ofNat 8 sub ++ BitVec.ofNat 24 idx

end Sys2Proof.Machine
end

