-- ==== Sys2Proof/Machine/Flags.lean ====
section
/-! DEFINITION. The flags and the registers assembled from fields (spec/10_state.md section 2): STATUS with BUSY,
FAULT and CODE_VALID, the loading and the invalidation of a code (CODE_VALID with MAXLEN), the bit streams' state
words, and TRIE_STATE. -/

namespace Sys2Proof.Machine

/-- STATUS.BUSY: 1 while a command executes (spec/10_state.md R24). A command is one step, so the only states inside a
command are those with a table read in progress. -/
def State.busy (s : State) : Bool := s.tread.isSome

/-- STATUS as the host reads it: the fields of spec/10_state.md R24, reserved bits 0. -/
def statusWord (busy : Bool) (st : Status) : Word :=
  0#8 ++ st.faultOp ++ st.faultCode ++ 0#5 ++ BitVec.ofBool st.codeValid ++ BitVec.ofBool st.fault ++
    BitVec.ofBool busy

/-- BS_WSTATE and BS_RSTATE: a bit count in [3:0] and a byte in [15:8] (spec/10_state.md R32 and R33). -/
def streamWord (nb : BitVec 4) (acc : Byte) : Word := 0#16 ++ acc ++ 0#4 ++ nb

/-- TRIE_STATE: DEPTH in [7:0], BANKCNT in [10:8], EMITTED in bit 16 (spec/10_state.md R38). -/
def trieStateWord (d : Decoder) : Word :=
  0#15 ++ BitVec.ofBool d.emitted ++ 0#5 ++ BitVec.ofNat 3 d.bank.length ++ BitVec.ofNat 8 d.stk.length

/-- CODE_VALID ← 1 and MAXLEN ← the longest length (spec/10_state.md R25 and R31). -/
def Regs.loadCode (r : Regs) (maxlen : Nat) : Regs :=
  { r with status := { r.status with codeValid := true }, maxlen := BitVec.ofNat 32 maxlen }

/-- CODE_VALID ← 0 and MAXLEN ← 0 (spec/10_state.md R25 and R31). -/
def Regs.dropCode (r : Regs) : Regs :=
  { r with status := { r.status with codeValid := false }, maxlen := 0 }

end Sys2Proof.Machine
end

