-- ==== Sys2Proof/Machine/Ops.lean ====
section
/-! DEFINITION. The operations every instruction's meaning is written over: reading and writing one element of a
memory; the state of a command at work and how it ends; fault entry and the return from it; the engine's element
accesses. -/

namespace Sys2Proof.Machine

/-! ## Memories -/

/-- `MemRead` (spec/00_scope.md R13): element i, 0 where nothing is listed. -/
def Mem.read {w : Nat} : Mem w → Nat → BitVec w
  | [], _ => 0#w
  | (j, u) :: m, i => if i = j then u else Mem.read m i

/-- `MemWrite` (spec/00_scope.md R13): element i becomes v. Writing 0 removes the entry, so the listing keeps its one
canonical form. -/
def Mem.write {w : Nat} : Mem w → Nat → BitVec w → Mem w
  | [], i, v => if v = 0#w then [] else [(i, v)]
  | (j, u) :: m, i, v =>
    if i < j then if v = 0#w then (j, u) :: m else (i, v) :: (j, u) :: m
    else if i = j then if v = 0#w then m else (i, v) :: m
    else (j, u) :: Mem.write m i v

/-- The canonical form: indices strictly rising, no entry equal to what an unlisted element reads as, and every index
below the memory's size. -/
abbrev Mem.wf {w : Nat} (size : Nat) (m : Mem w) : Prop :=
  (m.map Prod.fst).Pairwise (· < ·) ∧ ∀ c ∈ m, c.2 ≠ 0#w ∧ c.1 < size

/-- Elements 0 to n - 1. -/
def Mem.readList {w : Nat} (m : Mem w) (n : Nat) : List (BitVec w) :=
  (List.range n).map m.read

/-- Writing the elements `vs` one after another from index a, in ascending order. -/
def Mem.writeList {w : Nat} (m : Mem w) : Nat → List (BitVec w) → Mem w
  | _, [] => m
  | a, v :: vs => Mem.writeList (m.write a v) (a + 1) vs

/-- Writing 0 to the elements 0 to n - 1. -/
def Mem.zeroBelow {w : Nat} (m : Mem w) (n : Nat) : Mem w :=
  m.filter (fun c => decide (n ≤ c.1))

/-- The number of elements of a memory (spec/10_state.md R47). -/
def size (p : Params) : Space → Nat
  | .freq => p.symLimitMax
  | .len => p.symLimitMax
  | .sym => p.symSize
  | .buf => p.bufSize
  | .win => p.winSize
  | .suf => p.sufSize
  | .wout => p.woutSize
  | .tstk => Config.stackMax

/-! ## A command at work -/

/-- The state of a command at work, and whether it has written a LEN element, which fault entry asks
(spec/60_exceptions.md R302). -/
structure Work where
  st : State
  wroteLen : Bool
deriving DecidableEq, Repr

/-- How a piece of a command's pseudocode ends: it goes on with a value, it raises a fault of the spec (the work state
holds the memory writes made before the raise), or the model stops. -/
inductive Res (α : Type) where
  | ok (a : α) (w : Work)
  | raise (code : FaultCode) (info : Word) (w : Work)
  | stop (f : Fault)
deriving DecidableEq, Repr

/-- Sequencing: the first raise or stop ends the command (spec/60_exceptions.md R301). -/
def Res.bind {α β : Type} (r : Res α) (f : α → Work → Res β) : Res β :=
  match r with
  | .ok a w => f a w
  | .raise c info w => .raise c info w
  | .stop e => .stop e

/-- A change of the registers. -/
def Work.setRegs (w : Work) (f : Regs → Regs) : Work :=
  { w with st := { w.st with regs := f w.st.regs } }

/-- A change of the trie decoder's state. -/
def Work.setDec (w : Work) (f : Decoder → Decoder) : Work :=
  { w with st := { w.st with dec := f w.st.dec } }

/-- A change of the table reader's working state. -/
def Work.setTread (w : Work) (t : Option TableRead) : Work :=
  { w with st := { w.st with tread := t } }

/-! ## Fault entry and the return from it -/

/-- FAULT_CODE (spec/60_exceptions.md R300). -/
def FaultCode.code : FaultCode → Byte
  | .badCmd => 0x01#8
  | .arg => 0x02#8
  | .config => 0x03#8
  | .negFreq => 0x04#8
  | .freqMax => 0x05#8
  | .underfull => 0x06#8
  | .overfull => 0x07#8
  | .lenRange => 0x08#8
  | .notReady => 0x09#8
  | .noCode => 0x0A#8
  | .eos => 0x0B#8
  | .bufFull => 0x0C#8
  | .tableFormat => 0x0D#8
  | .symFull => 0x0E#8
  | .bkspOvf => 0x0F#8
  | .trieInput => 0x10#8
  | .trieCode => 0x11#8
  | .stackOvf => 0x12#8
  | .wordLong => 0x13#8
  | .woutFull => 0x14#8

/-- Fault entry (spec/60_exceptions.md R302). `regs` and `dec` are the registers and the decoder state before the
command; `w` is the command's work at the raise, whose memory writes persist (R303). CODE_VALID keeps its value from
before the command, unless the command wrote LEN. -/
def faultEntry (op : Byte) (regs : Regs) (dec : Decoder) (w : Work) (code : FaultCode) (info : Word) : State :=
  let kept := if w.wroteLen then regs.dropCode else regs
  { w.st with
    regs := { kept with
      status := { kept.status with fault := true, faultCode := code.code, faultOp := op }
      faultInfo := info }
    dec := dec
    tread := none }

/-- The outcome of the command with opcode `op`: its last work state, or fault entry from the registers and decoder
state given. -/
def finish (op : Byte) (regs : Regs) (dec : Decoder) (r : Res Unit) : Host.Outcome State Fault Refusal :=
  match r with
  | .ok _ w => .next w.st
  | .raise c info w => .next (faultEntry op regs dec w c info)
  | .stop e => .fault e

/-- One command with opcode `op` as one atomic step (spec/20_memory.md R82). -/
def runCommand (op : Byte) (body : Work → Res Unit) (s : State) : Host.Outcome State Fault Refusal :=
  finish op s.regs s.dec (body { st := s, wroteLen := false })

/-- A piece of the command that a table read in progress belongs to (HUF_TREAD): its faults restore the registers that
command started with, and it wrote LEN exactly when a literal has been read. Log entry 7. -/
def runInTableRead (op : Byte) (body : Work → Res Unit) (s : State) : Host.Outcome State Fault Refusal :=
  match s.tread with
  | none => runCommand op body s
  | some t => finish op t.start s.dec (body { st := s, wroteLen := t.haveLast })

/-- The return from the fault state: soft reset (spec/40_control.md R132, spec/60_exceptions.md R305). Every register
and the decoder state take their reset values; no memory element is written. -/
def softReset (s : State) : State :=
  { s with regs := Regs.reset, dec := Decoder.reset, tread := none }

/-! ## The engine's element accesses -/

/-- Element i of a memory must exist. -/
def checkIndex (sp : Space) (i : Nat) (w : Work) : Res Unit :=
  if i < size w.st.params sp then .ok () w else .stop (.noElement sp i)

/-- Elements 0 to n - 1 of a memory must exist. -/
def checkRange (sp : Space) (n : Nat) (w : Work) : Res Unit :=
  if n ≤ size w.st.params sp then .ok () w else .stop (.noElement sp (size w.st.params sp))

/-- `MemRead(FREQ, i)`. -/
def readFreq (i : Nat) (w : Work) : Res Word :=
  (checkIndex .freq i w).bind fun _ w => .ok (w.st.freq.read i) w

/-- FREQ[0..n). -/
def readFreqs (n : Nat) (w : Work) : Res (List Word) :=
  (checkRange .freq n w).bind fun _ w => .ok (w.st.freq.readList n) w

/-- `MemWrite(FREQ, i, v)`. -/
def writeFreq (i : Nat) (v : Word) (w : Work) : Res Unit :=
  (checkIndex .freq i w).bind fun _ w => .ok () { w with st := { w.st with freq := w.st.freq.write i v } }

/-- `for s in 0..n: MemWrite(FREQ, s, 0)`. -/
def zeroFreqs (n : Nat) (w : Work) : Res Unit :=
  (checkRange .freq n w).bind fun _ w => .ok () { w with st := { w.st with freq := w.st.freq.zeroBelow n } }

/-- `MemRead(LEN, i)`. -/
def readLen (i : Nat) (w : Work) : Res Byte :=
  (checkIndex .len i w).bind fun _ w => .ok (w.st.len.read i) w

/-- LEN[0..n), as numbers. -/
def readLens (n : Nat) (w : Work) : Res (List Nat) :=
  (checkRange .len n w).bind fun _ w => .ok ((w.st.len.readList n).map BitVec.toNat) w

/-- `MemWrite(LEN, k, v)` for the elements `vs` from index a; from the first write on, the command has written LEN. -/
def writeLens (a : Nat) (vs : List Byte) (w : Work) : Res Unit :=
  (checkRange .len (a + vs.length) w).bind fun _ w =>
    .ok () { st := { w.st with len := w.st.len.writeList a vs }, wroteLen := w.wroteLen || !vs.isEmpty }

/-- SYM[0..n). -/
def readSyms (n : Nat) (w : Work) : Res (List Half) :=
  (checkRange .sym n w).bind fun _ w => .ok (w.st.sym.readList n) w

/-- `MemWrite(SYM, i, v)`. -/
def writeSym (i : Nat) (v : Half) (w : Work) : Res Unit :=
  (checkIndex .sym i w).bind fun _ w => .ok () { w with st := { w.st with sym := w.st.sym.write i v } }

/-- `MemWrite(SYM, k, v)` for the elements `vs` from index 0. -/
def writeSyms (vs : List Half) (w : Work) : Res Unit :=
  (checkRange .sym vs.length w).bind fun _ w =>
    .ok () { w with st := { w.st with sym := w.st.sym.writeList 0 vs } }

/-- `MemRead(BUF, a)`. -/
def readBuf (a : Nat) (w : Work) : Res Byte :=
  (checkIndex .buf a w).bind fun _ w => .ok (w.st.buf.read a) w

/-- `MemWrite(BUF, a, v)`. -/
def writeBuf (a : Nat) (v : Byte) (w : Work) : Res Unit :=
  (checkIndex .buf a w).bind fun _ w => .ok () { w with st := { w.st with buf := w.st.buf.write a v } }

/-- `MemWrite(WOUT, k, v)` for the elements `vs` from index a. -/
def writeWouts (a : Nat) (vs : List Byte) (w : Work) : Res Unit :=
  (checkRange .wout (a + vs.length) w).bind fun _ w =>
    .ok () { w with st := { w.st with wout := w.st.wout.writeList a vs } }

end Sys2Proof.Machine
end

