-- ==== Sys2Proof/Machine/Control.lean ====
section
/-! DEFINITION. The engine control commands: NOP and SRESET (spec/40_control.md). -/

namespace Sys2Proof.Machine

/-- NOP (spec/40_control.md R130): `skip`. -/
def execNop (s : State) : Host.Outcome State Fault Refusal :=
  runCommand (Instr.opcode .nop) (fun w => .ok () w) s

/-- SRESET (spec/40_control.md R132): soft reset. -/
def execSreset (s : State) : Host.Outcome State Fault Refusal :=
  .next (softReset s)

end Sys2Proof.Machine
end

