-- ==== Sys2Proof/Machine/BitStream.lean ====
section
/-! DEFINITION. The bit-stream primitives and the six bit-stream commands (spec/41_bitstream.md). The primitives are
shared by the table I/O and the Huffman coders. -/

namespace Sys2Proof.Machine

/-! ## Write primitives -/

/-- `PutBit(b)` (spec/41_bitstream.md R141): the eighth bit of a byte stores it at once. -/
def putBit (b : Bool) (w : Work) : Res Unit :=
  let acc := (w.st.regs.wacc <<< 1) ||| (BitVec.ofBool b).setWidth 8
  let nb := w.st.regs.wnb + 1
  if nb = 8#4 then
    if w.st.params.bufSize ≤ w.st.regs.wpos.toNat then .raise .bufFull w.st.regs.wpos w
    else
      (writeBuf w.st.regs.wpos.toNat acc w).bind fun _ w =>
        .ok () (w.setRegs fun r => { r with wpos := r.wpos + 1, wcnt := r.wcnt + 1, wnb := 0, wacc := 0 })
  else .ok () (w.setRegs fun r => { r with wnb := nb, wacc := acc })

/-- `PutBit` for each of the bits, in order: `PutField` of `fieldBits` (spec/00_scope.md R16). -/
def putBits : List Bool → Work → Res Unit
  | [], w => .ok () w
  | b :: bs, w => (putBit b w).bind fun _ w => putBits bs w

/-- How many zero bits `AlignW()` writes: 8 - WNB, or none on a byte boundary (spec/41_bitstream.md R143). -/
def padCount (nb : BitVec 4) : Nat := (8 - nb.toNat) % 8

/-- `AlignW()` (spec/41_bitstream.md R143): zero bits until WNB = 0. -/
def alignW (w : Work) : Res Unit :=
  putBits (List.replicate (padCount w.st.regs.wnb) false) w

/-! ## Read primitives -/

/-- `GetBit()` (spec/41_bitstream.md R150): a byte is fetched only when a bit is needed and none is left. -/
def getBit (w : Work) : Res Bool :=
  if w.st.regs.rnb = 0#4 then
    if w.st.regs.rlim.toNat ≤ w.st.regs.rpos.toNat then .raise .eos w.st.regs.rpos w
    else
      (readBuf w.st.regs.rpos.toNat w).bind fun b w =>
        .ok (b.getLsbD 7)
          (w.setRegs fun r => { r with racc := b, rpos := r.rpos + 1, rcnt := r.rcnt + 1, rnb := 7#4 })
  else
    .ok (w.st.regs.racc.getLsbD (w.st.regs.rnb.toNat - 1)) (w.setRegs fun r => { r with rnb := r.rnb - 1 })

/-- The next k bits of the read stream, in transmission order. -/
def getBits : Nat → Work → Res (List Bool)
  | 0, w => .ok [] w
  | k + 1, w => (getBit w).bind fun b w => (getBits k w).bind fun bs w => .ok (b :: bs) w

/-- `GetField(k)` (spec/00_scope.md R16). -/
def getField (k : Nat) (w : Work) : Res Nat :=
  (getBits k w).bind fun bs w => .ok (bitsToNat bs) w

/-- `AlignR()` (spec/41_bitstream.md R153): the unread bits of the current byte are discarded; RACC is kept. -/
def alignR (w : Work) : Work :=
  w.setRegs fun r => { r with rnb := 0 }

/-! ## Commands -/

/-- BS_WINIT (spec/41_bitstream.md R140). -/
def execBsWinit (a : Imm) (s : State) : Host.Outcome State Fault Refusal :=
  runCommand (Instr.opcode (.bsWinit a)) (fun w =>
    if w.st.params.bufSize < a.toNat then .raise .arg (zextImm a) w
    else .ok () (w.setRegs fun r => { r with wpos := zextImm a, wnb := 0, wacc := 0, wcnt := 0 })) s

/-- BS_PUT (spec/41_bitstream.md R142). -/
def execBsPut (n : Imm) (s : State) : Host.Outcome State Fault Refusal :=
  runCommand (Instr.opcode (.bsPut n)) (fun w =>
    if 32 < n.toNat then .raise .arg (zextImm n) w
    else putBits (argField n.toNat w.st.regs.arg) w) s

/-- BS_WALIGN (spec/41_bitstream.md R143). -/
def execBsWalign (s : State) : Host.Outcome State Fault Refusal :=
  runCommand (Instr.opcode .bsWalign) alignW s

/-- BS_RINIT (spec/41_bitstream.md R151): ARG is the exclusive end address. -/
def execBsRinit (a : Imm) (s : State) : Host.Outcome State Fault Refusal :=
  runCommand (Instr.opcode (.bsRinit a)) (fun w =>
    if w.st.params.bufSize < w.st.regs.arg.toNat then .raise .arg w.st.regs.arg w
    else if w.st.regs.arg.toNat < a.toNat then .raise .arg (zextImm a) w
    else .ok () (w.setRegs fun r =>
      { r with rpos := zextImm a, rlim := r.arg, rnb := 0, racc := 0, rcnt := 0 })) s

/-- BS_GET (spec/41_bitstream.md R152). -/
def execBsGet (n : Imm) (s : State) : Host.Outcome State Fault Refusal :=
  runCommand (Instr.opcode (.bsGet n)) (fun w =>
    if 32 < n.toNat then .raise .arg (zextImm n) w
    else (getField n.toNat w).bind fun v w =>
      .ok () (w.setRegs fun r => { r with result := BitVec.ofNat 32 v })) s

/-- BS_RALIGN (spec/41_bitstream.md R153). -/
def execBsRalign (s : State) : Host.Outcome State Fault Refusal :=
  runCommand (Instr.opcode .bsRalign) (fun w => .ok () (alignR w)) s

end Sys2Proof.Machine
end

