-- ==== Sys2Proof/Machine/FreqTable.lean ====
section
/-! DEFINITION. The frequency-table commands (spec/42_huffman_build.md section 1). -/

namespace Sys2Proof.Machine

/-- A symbol limit outside 2..SYM_LIMIT_MAX, which E_CONFIG reports (spec/00_scope.md R8, spec/42_huffman_build.md R170
and R186). -/
def badLimit (p : Params) (limit : Nat) : Bool :=
  decide (limit < 2) || decide (p.symLimitMax < limit)

/-- FT_INIT (spec/42_huffman_build.md R170). -/
def execFtInit (limit : Imm) (s : State) : Host.Outcome State Fault Refusal :=
  runCommand (Instr.opcode (.ftInit limit)) (fun w =>
    if badLimit w.st.params limit.toNat then .raise .config (zextImm limit) w
    else (zeroFreqs limit.toNat w).bind fun _ w =>
      .ok () (w.setRegs fun r => { r with limit := zextImm limit }.dropCode)) s

/-- FT_INC (spec/42_huffman_build.md R171). -/
def execFtInc (sym : Imm) (s : State) : Host.Outcome State Fault Refusal :=
  runCommand (Instr.opcode (.ftInc sym)) (fun w =>
    if w.st.regs.limit.toNat ≤ sym.toNat then .raise .arg (zextImm sym) w
    else (readFreq sym.toNat w).bind fun f w =>
      if isNegative f then .raise .negFreq (zextImm sym) w
      else if f = Config.freqMax then .raise .freqMax (zextImm sym) w
      else writeFreq sym.toNat (f + 1) w) s

/-- FT_SET (spec/42_huffman_build.md R172): ARG is the count. -/
def execFtSet (sym : Imm) (s : State) : Host.Outcome State Fault Refusal :=
  runCommand (Instr.opcode (.ftSet sym)) (fun w =>
    if w.st.regs.limit.toNat ≤ sym.toNat then .raise .arg (zextImm sym) w
    else if isNegative w.st.regs.arg then .raise .negFreq (zextImm sym) w
    else writeFreq sym.toNat w.st.regs.arg w) s

/-- FT_GET (spec/42_huffman_build.md R173). -/
def execFtGet (sym : Imm) (s : State) : Host.Outcome State Fault Refusal :=
  runCommand (Instr.opcode (.ftGet sym)) (fun w =>
    if w.st.regs.limit.toNat ≤ sym.toNat then .raise .arg (zextImm sym) w
    else (readFreq sym.toNat w).bind fun f w =>
      .ok () (w.setRegs fun r => { r with result := f })) s

end Sys2Proof.Machine
end

