-- ==== Sys2Proof/Machine/HuffBuild.lean ====
section
/-! DEFINITION. The optimal code, the full-tree check, the canonical code, and the commands HUF_BUILD and HUF_CANON
(spec/42_huffman_build.md sections 2 to 4). -/

namespace Sys2Proof.Machine

/-- A code tree: "internal (ownership of a left and a right child) and leaf (holds exactly one symbol)"
(spec/42_huffman_build.md R174). Left is 0, right is 1. -/
inductive Tree where
  | leaf (sym : Nat)
  | node (left right : Tree)
deriving DecidableEq, Repr

/-- A node of the merge queue: a tree with its weight and its lowest symbol (spec/42_huffman_build.md R174). -/
structure QNode where
  weight : Nat
  low : Nat
  tree : Tree
deriving DecidableEq, Repr

/-- Lower priority, removed first: (a.w, a.m) < (b.w, b.m) (spec/42_huffman_build.md R174). -/
def QNode.before (a b : QNode) : Bool :=
  decide (a.weight < b.weight) || (decide (a.weight = b.weight) && decide (a.low < b.low))

/-- The queue in priority order, lowest first: where a node stands in it. -/
def insertNode (a : QNode) : List QNode → List QNode
  | [] => [a]
  | b :: q => if a.before b then a :: b :: q else b :: insertNode a q

/-- `Internal(left = x, right = y)` (spec/42_huffman_build.md R174 and R175). -/
def mergeNodes (x y : QNode) : QNode :=
  { weight := x.weight + y.weight, low := min x.low y.low, tree := .node x.tree y.tree }

/-- The greedy merge of spec/42_huffman_build.md R175: the two lowest nodes are merged until one is left. `k` bounds the
merges; a queue of n nodes takes n - 1. -/
def mergeQueue : Nat → List QNode → Option Tree
  | _, [] => none
  | _, [x] => some x.tree
  | 0, _ :: _ :: _ => none
  | k + 1, x :: y :: q => mergeQueue k (insertNode (mergeNodes x y) q)

/-- The symbols the tree gets leaves for (spec/42_huffman_build.md R175 and R176): those with a count, and where fewer
than two have one, the lowest symbols without a count until there are two. -/
def leafSymbols (freqs : List Nat) : List Nat :=
  let used := (List.range freqs.length).filter fun s => decide (0 < freqs.getD s 0)
  let unused := (List.range freqs.length).filter fun s => decide (freqs.getD s 0 = 0)
  used ++ unused.take (2 - used.length)

/-- `BuildTree()` (spec/42_huffman_build.md R175) over FREQ[0..LIMIT). It is none only for fewer than two symbols. -/
def buildTree (freqs : List Nat) : Option Tree :=
  let syms := leafSymbols freqs
  let leaves := syms.map fun s => ({ weight := freqs.getD s 0, low := s, tree := .leaf s } : QNode)
  mergeQueue syms.length (leaves.foldr insertNode [])

/-- The leaves of a tree with their depths, the root being at depth d (spec/42_huffman_build.md R179). -/
def Tree.depths : Tree → Nat → List (Nat × Nat)
  | .leaf s, d => [(s, d)]
  | .node l r, d => l.depths (d + 1) ++ r.depths (d + 1)

/-- d[0..n) (spec/42_huffman_build.md R179): the depth of each symbol's leaf, 0 when it has none. -/
def depthList (t : Tree) (n : Nat) : List Nat :=
  (List.range n).map fun s => ((t.depths 0).lookup s).getD 0

/-- The longest length of an array. -/
def maxLen (lens : List Nat) : Nat := lens.foldr max 0

/-- What `Validate` returns (spec/42_huffman_build.md R180). -/
inductive Verdict where
  | full
  | underfull (level : Nat)
  | overfull (count : Nat)
deriving DecidableEq, Repr

/-- The level-by-level halving: at each level from `level` down to 1 the nodes are those carried from below and the
lengths equal to the level; an odd number is under-full, an even one pairs up (spec/42_huffman_build.md R180). -/
def foldLevels (lens : List Nat) : Nat → Nat → Verdict
  | 0, count => if 1 < count then .overfull count else .full
  | level + 1, count =>
    let here := count + lens.count (level + 1)
    if here % 2 = 1 then .underfull (level + 1) else foldLevels lens level (here / 2)

/-- `Validate(L)` (spec/42_huffman_build.md R180). Log entry 9. -/
def validate (lens : List Nat) : Verdict :=
  if maxLen lens = 0 then .underfull 0 else foldLevels lens (maxLen lens) 0

/-- The leaves of one level, in ascending symbol order (spec/42_huffman_build.md R182). -/
def leavesAt (lens : List Nat) (level : Nat) : List Tree :=
  ((List.range lens.length).filter fun s => decide (lens.getD s 0 = level)).map Tree.leaf

/-- Pairing in list order; none for an odd list, which `Validate` excludes (spec/42_huffman_build.md R182). -/
def pairUp : List Tree → Option (List Tree)
  | [] => some []
  | [_] => none
  | a :: b :: ts => (pairUp ts).map (Tree.node a b :: ·)

/-- The levels of `CanonTree` from `level` down to 0: the leaves of the level, then the nodes paired from the deeper
one (spec/42_huffman_build.md R182). -/
def canonLevels (lens : List Nat) : Nat → List Tree → Option (List Tree)
  | 0, nodes => pairUp nodes
  | level + 1, nodes =>
    (pairUp nodes).bind fun up => canonLevels lens level (leavesAt lens (level + 1) ++ up)

/-- `CanonTree(L)` (spec/42_huffman_build.md R182): exactly one node remains. -/
def canonTree (lens : List Nat) : Option Tree :=
  match canonLevels lens (maxLen lens) [] with
  | some [t] => some t
  | some [] => none
  | some (_ :: _ :: _) => none
  | none => none

/-- The path from the root to the leaf of a symbol, left = 0 and right = 1 (spec/42_huffman_build.md R183). -/
def Tree.path (s : Nat) : Tree → Option (List Bool)
  | .leaf s' => if s = s' then some [] else none
  | .node l r => ((l.path s).map (false :: ·)).or ((r.path s).map (true :: ·))

/-- LEN[0..LIMIT) of the loaded code, as its canonical tree (spec/42_huffman_build.md R182 and R183). -/
def loadedTree (w : Work) : Res Tree :=
  (readLens w.st.regs.limit.toNat w).bind fun lens w =>
    match canonTree lens with
    | some t => .ok t w
    | none => .stop .noCodeTree

/-- The lowest index whose element has the property. -/
def lowestIndex {α : Type} (p : α → Bool) (xs : List α) : Option Nat := xs.findIdx? p

/-- The end of HUF_BUILD after its LIMIT and sign checks: the tree's depths are checked against MAX_CODE_LEN, written to
LEN, and loaded (spec/42_huffman_build.md R185). -/
def buildAndLoad (n : Nat) (w : Work) : Res Unit :=
  (readFreqs n w).bind fun freqs w =>
    match buildTree (freqs.map BitVec.toNat) with
    | none => .stop .noCodeTree
    | some t =>
      let d := depthList t n
      match lowestIndex (fun l => decide (w.st.params.maxCodeLen < l)) d with
      | some s => .raise .lenRange (BitVec.ofNat 32 s) w
      | none =>
        (writeLens 0 (d.map (BitVec.ofNat 8)) w).bind fun _ w =>
          .ok () (w.setRegs fun r => r.loadCode (maxLen d))

/-- The faults of `Validate` (spec/42_huffman_build.md R181). -/
def checkFull (lens : List Nat) (w : Work) : Res Unit :=
  match validate lens with
  | .full => .ok () w
  | .underfull v => .raise .underfull (BitVec.ofNat 32 v) w
  | .overfull c => .raise .overfull (BitVec.ofNat 32 c) w

/-- HUF_BUILD (spec/42_huffman_build.md R185). -/
def execHufBuild (s : State) : Host.Outcome State Fault Refusal :=
  runCommand (Instr.opcode .hufBuild) (fun w =>
    if w.st.regs.limit.toNat < 2 then .raise .config w.st.regs.limit w
    else (readFreqs w.st.regs.limit.toNat w).bind fun freqs w =>
      match lowestIndex isNegative freqs with
      | some i => .raise .negFreq (BitVec.ofNat 32 i) w
      | none => buildAndLoad w.st.regs.limit.toNat w) s

/-- HUF_CANON (spec/42_huffman_build.md R186). -/
def execHufCanon (limit : Imm) (s : State) : Host.Outcome State Fault Refusal :=
  runCommand (Instr.opcode (.hufCanon limit)) (fun w =>
    if badLimit w.st.params limit.toNat then .raise .config (zextImm limit) w
    else (readLens limit.toNat w).bind fun lens w =>
      match lowestIndex (fun l => decide (w.st.params.maxCodeLen < l)) lens with
      | some i => .raise .lenRange (BitVec.ofNat 32 i) w
      | none =>
        (checkFull lens w).bind fun _ w =>
          .ok () (w.setRegs fun r => { r with limit := zextImm limit }.loadCode (maxLen lens))) s

end Sys2Proof.Machine
end

