-- ==== Sys2Proof/Machine/TableIO.lean ====
section
/-! DEFINITION. The code-length table: the writer with HUF_TWRITE, the reader with HUF_TREAD, and the two entry kinds
as the reader executes them (spec/43_table_io.md, spec/30_encoding.md R114 to R117). -/

namespace Sys2Proof.Machine

/-! ## Writer -/

/-- bitlength (spec/00_scope.md R11). -/
def bitlength (v : Nat) : Nat := if v = 0 then 0 else Nat.log2 v + 1

/-- How many of the following entries, at most `cap`, equal l (the inner loop of spec/43_table_io.md R201). -/
def runLength (l : Nat) : Nat → List Nat → Nat
  | 0, _ => 0
  | _ + 1, [] => 0
  | cap + 1, x :: xs => if x = l then runLength l cap xs + 1 else 0

/-- The entries for the lengths, after passing over `skip` of them that a run has covered (spec/43_table_io.md R201): a
literal, then a run exactly when it saves bits, r·(1 + bpl) > 9 (R202). -/
def tableEntries (bpl : Nat) : Nat → List Nat → List Instr
  | _, [] => []
  | skip + 1, _ :: ls => tableEntries bpl skip ls
  | 0, l :: ls =>
    let r := runLength l Config.runCap ls
    if 0 < r ∧ 9 < r * (1 + bpl) then
      .tableLiteral (BitVec.ofNat 8 bpl) l :: .tableRun (BitVec.ofNat 8 r) :: tableEntries bpl r ls
    else .tableLiteral (BitVec.ofNat 8 bpl) l :: tableEntries bpl 0 ls

/-- The bits of a table entry, in transmission order (spec/30_encoding.md R116). -/
def entryBits (i : Instr) : List Bool :=
  match i.encode with
  | .tableEntry bits => bits
  | .command _ => []
  | .trieCode _ => []

/-- The table's bits between its two alignments: symbolCount, bitsPerLength and the entries (spec/30_encoding.md R114 and
R115, spec/43_table_io.md R200 and R201). -/
def tableBits (lens : List Nat) (maxlen : Nat) : List Bool :=
  let bpl := bitlength maxlen
  fieldBits 16 lens.length ++ fieldBits 8 bpl ++ (tableEntries bpl 0 lens).flatMap entryBits

/-- `TableWrite()` (spec/43_table_io.md R201). -/
def tableWrite (w : Work) : Res Unit :=
  (alignW w).bind fun _ w =>
    (readLens w.st.regs.limit.toNat w).bind fun lens w =>
      (putBits (tableBits lens w.st.regs.maxlen.toNat) w).bind fun _ w => alignW w

/-- HUF_TWRITE (spec/43_table_io.md R203). -/
def execHufTwrite (s : State) : Host.Outcome State Fault Refusal :=
  runCommand (Instr.opcode .hufTwrite) (fun w =>
    if w.st.regs.status.codeValid then tableWrite w else .raise .notReady 0 w) s

/-! ## Reader -/

/-- A literal entry of length v (spec/43_table_io.md R204): the next length is v. An entry that no table read is waiting
for is not read: "the reader stops by counting" (spec/30_encoding.md R117). Log entry 7. -/
def literalEntry (v : Nat) (w : Work) : Res Unit :=
  match w.st.tread with
  | none => .ok () w
  | some t =>
    if t.n ≤ t.i then .ok () w
    else if w.st.params.maxCodeLen < v then .raise .lenRange (BitVec.ofNat 32 t.i) w
    else (writeLens t.i [BitVec.ofNat 8 v] w).bind fun _ w =>
      .ok () (w.setTread (some { t with last := BitVec.ofNat 8 v, haveLast := true, i := t.i + 1 }))

/-- A run entry of count r (spec/43_table_io.md R204): the next r lengths equal the last one. -/
def runEntry (r : Nat) (w : Work) : Res Unit :=
  match w.st.tread with
  | none => .ok () w
  | some t =>
    if t.n ≤ t.i then .ok () w
    else if !t.haveLast then .raise .tableFormat (subInfo 1 t.i) w
    else if t.n < t.i + r then .raise .tableFormat (subInfo 2 t.i) w
    else (writeLens t.i (List.replicate r t.last) w).bind fun _ w =>
      .ok () (w.setTread (some { t with i := t.i + r }))

/-- The flag bit of the next entry and its field: a length in bpl bits for a literal (flag 1), a count in 8 bits for a
run (flag 0) (spec/43_table_io.md R204). -/
def fetchEntry (bpl : Byte) (w : Work) : Res (Bool × Nat) :=
  (getBit w).bind fun flag w =>
    (getField (if flag then bpl.toNat else 8) w).bind fun v w => .ok (flag, v) w

/-- An entry as the reader executes it. -/
def entry (e : Bool × Nat) (w : Work) : Res Unit :=
  if e.1 then literalEntry e.2 w else runEntry e.2 w

/-- The header: the reader aligns, and takes symbolCount and bitsPerLength (spec/43_table_io.md R204). -/
def tableHeader (start : Regs) (w : Work) : Res Unit :=
  (getField 16 (alignR w)).bind fun n w =>
    if badLimit w.st.params n then .raise .config (BitVec.ofNat 32 n) w
    else (getField 8 w).bind fun bpl w =>
      .ok () (w.setTread
        (some { start := start, n := n, bpl := BitVec.ofNat 8 bpl, i := 0, haveLast := false, last := 0 }))

/-- `while i < n`: the entries (spec/43_table_io.md R204). The first argument bounds their number. -/
def entryLoop : Nat → Work → Res Unit
  | 0, _ => .stop .entryBound
  | k + 1, w =>
    match w.st.tread with
    | none => .ok () w
    | some t =>
      if t.i < t.n then
        (fetchEntry t.bpl w).bind fun e w => (entry e w).bind fun _ w => entryLoop k w
      else .ok () w

/-- The number of bits left in the read stream. -/
def unreadCount (r : Regs) : Nat := 8 * (r.rlim.toNat - r.rpos.toNat) + r.rnb.toNat

/-- After the last entry: the pad bits are discarded, the array is checked, and the code is loaded (spec/43_table_io.md
R204). -/
def tableFinish (w : Work) : Res Unit :=
  match w.st.tread with
  | none => .ok () w
  | some t =>
    (readLens t.n (alignR w)).bind fun lens w =>
      (checkFull lens w).bind fun _ w =>
        .ok () ((w.setRegs fun r => { r with limit := BitVec.ofNat 32 t.n }.loadCode (maxLen lens)).setTread none)

/-- `TableRead()` (spec/43_table_io.md R204), in a command that started with the registers `start`. -/
def tableRead (start : Regs) (w : Work) : Res Unit :=
  (tableHeader start w).bind fun _ w =>
    (entryLoop (unreadCount w.st.regs + 1) w).bind fun _ w => tableFinish w

/-- HUF_TREAD (spec/43_table_io.md R205). -/
def execHufTread (s : State) : Host.Outcome State Fault Refusal :=
  runCommand (Instr.opcode .hufTread) (tableRead s.regs) s

/-- TABLE_LITERAL (spec/43_table_io.md R204, spec/30_encoding.md R116): one literal entry, in the table read in
progress. -/
def execTableLiteral (bpl : Byte) (len : Nat) (s : State) : Host.Outcome State Fault Refusal :=
  runInTableRead (Instr.opcode (.tableLiteral bpl len)) (literalEntry len) s

/-- TABLE_RUN (spec/43_table_io.md R204, spec/30_encoding.md R116): one run entry, in the table read in progress. -/
def execTableRun (r : Byte) (s : State) : Host.Outcome State Fault Refusal :=
  runInTableRead (Instr.opcode (.tableRun r)) (runEntry r.toNat) s

end Sys2Proof.Machine
end

