-- ==== Sys2Proof/Machine/HuffCode.lean ====
section
/-! DEFINITION. Symbol encode and decode, and the block commands (spec/44_huffman_coding.md). -/

namespace Sys2Proof.Machine

/-! ## Primitives -/

/-- `Encode(s)` (spec/44_huffman_coding.md R220): the code bits of s, root-most first. -/
def encodeSymbol (t : Tree) (s : Nat) (w : Work) : Res Unit :=
  match t.path s with
  | some bits => putBits bits w
  | none => .stop .noCodeTree

/-- `Encode` for each of the symbols, in order. -/
def encodeSymbols (t : Tree) : List Nat → Work → Res Unit
  | [], w => .ok () w
  | s :: ss, w => (encodeSymbol t s w).bind fun _ w => encodeSymbols t ss w

/-- `Decode()` (spec/44_huffman_coding.md R222): the descent from a node to a leaf, one bit a step, 0 left and 1
right. -/
def decodeSymbol : Tree → Work → Res Nat
  | .leaf s, w => .ok s w
  | .node l r, w => (getBit w).bind fun b w => if b then decodeSymbol r w else decodeSymbol l w

/-- `for k in ..: MemWrite(SYM, k, Decode())`, for `count` symbols from index k (spec/44_huffman_coding.md R226). -/
def decodeInto (t : Tree) : Nat → Nat → Work → Res Unit
  | 0, _, w => .ok () w
  | count + 1, k, w =>
    (decodeSymbol t w).bind fun s w =>
      (writeSym k (BitVec.ofNat 16 s) w).bind fun _ w => decodeInto t count (k + 1) w

/-! ## Commands on one symbol -/

/-- HUF_ENC (spec/44_huffman_coding.md R221). -/
def execHufEnc (sym : Imm) (s : State) : Host.Outcome State Fault Refusal :=
  runCommand (Instr.opcode (.hufEnc sym)) (fun w =>
    if !w.st.regs.status.codeValid then .raise .notReady 0 w
    else if w.st.regs.limit.toNat ≤ sym.toNat then .raise .noCode (zextImm sym) w
    else (readLen sym.toNat w).bind fun l w =>
      if l = 0 then .raise .noCode (zextImm sym) w
      else (loadedTree w).bind fun t w => encodeSymbol t sym.toNat w) s

/-- HUF_DEC (spec/44_huffman_coding.md R223). -/
def execHufDec (s : State) : Host.Outcome State Fault Refusal :=
  runCommand (Instr.opcode .hufDec) (fun w =>
    if !w.st.regs.status.codeValid then .raise .notReady 0 w
    else (loadedTree w).bind fun t w =>
      (decodeSymbol t w).bind fun v w =>
        .ok () (w.setRegs fun r => { r with result := BitVec.ofNat 32 v })) s

/-! ## Block commands -/

/-- `FREQ[s] ← FREQ[s] + 1` for each of the symbols, in order (spec/44_huffman_coding.md R225). -/
def countSymbols : List Nat → Work → Res Unit
  | [], w => .ok () w
  | s :: ss, w =>
    (readFreq s w).bind fun f w => (writeFreq s (f + 1) w).bind fun _ w => countSymbols ss w

/-- HUF_BENC (spec/44_huffman_coding.md R225): the FT_INIT step, the counts, the HUF_BUILD step, the table, the codes
and the padding. -/
def execHufBenc (s : State) : Host.Outcome State Fault Refusal :=
  runCommand (Instr.opcode .hufBenc) (fun w =>
    let n := w.st.regs.symCnt.toNat
    if w.st.params.symSize < n then .raise .arg w.st.regs.symCnt w
    else if n = 0 then .raise .config 0 w
    else (readSyms n w).bind fun syms w =>
      let list := syms.map BitVec.toNat
      let m := maxLen list + 1
      if badLimit w.st.params m then .raise .config (BitVec.ofNat 32 m) w
      else (zeroFreqs m w).bind fun _ w =>
        (countSymbols list (w.setRegs fun r => { r with limit := BitVec.ofNat 32 m })).bind fun _ w =>
          (buildAndLoad m w).bind fun _ w =>
            (tableWrite w).bind fun _ w =>
              (loadedTree w).bind fun t w =>
                (encodeSymbols t list w).bind fun _ w => alignW w) s

/-- HUF_BDEC (spec/44_huffman_coding.md R226): the table, n symbols, and the pad bits. -/
def execHufBdec (n : Imm) (s : State) : Host.Outcome State Fault Refusal :=
  runCommand (Instr.opcode (.hufBdec n)) (fun w =>
    if w.st.params.symSize < n.toNat then .raise .arg (zextImm n) w
    else (tableRead s.regs w).bind fun _ w =>
      (loadedTree w).bind fun t w =>
        (decodeInto t n.toNat 0 w).bind fun _ w =>
          .ok () (alignR (w.setRegs fun r => { r with symCnt := zextImm n }))) s

end Sys2Proof.Machine
end

