-- ==== Sys2Proof/Machine/TrieDec.lean ====
section
/-! DEFINITION. The prefix-trie dictionary decoder: a stack machine whose instructions are the trie codes
(spec/46_trie_decoder.md). -/

namespace Sys2Proof.Machine

/-! ## Output -/

/-- `EmitWord(x)` (spec/46_trie_decoder.md R261): one record at WOUT_PTR. -/
def emitWord (x : Str) (w : Work) : Res Unit :=
  if Config.stackMax < x.length then .raise .wordLong (BitVec.ofNat 32 x.length) w
  else if w.st.params.woutSize < w.st.regs.woutPtr.toNat + 1 + x.length then
    .raise .woutFull w.st.regs.woutPtr w
  else
    (writeWouts w.st.regs.woutPtr.toNat (BitVec.ofNat 8 x.length :: x) w).bind fun _ w =>
      .ok () (w.setRegs fun r =>
        { r with woutPtr := r.woutPtr + 1 + BitVec.ofNat 32 x.length, woutCnt := r.woutCnt + 1 })

/-- `EmitStack()` (spec/46_trie_decoder.md R262): the stack content, unless it has been emitted since it last
changed. -/
def emitStack (w : Work) : Res Unit :=
  if w.st.dec.emitted then .ok () w
  else (emitWord w.st.dec.stk w).bind fun _ w => .ok () (w.setDec fun d => { d with emitted := true })

/-! ## One code -/

/-- `DInit()` (spec/46_trie_decoder.md R260). -/
def decoderInit (w : Work) : Work :=
  (w.setDec fun _ => Decoder.reset).setRegs fun r => { r with woutCnt := 0, woutPtr := 0 }

/-- `SufDef()` (spec/46_trie_decoder.md R264). -/
def sufDef (w : Work) : Res Unit :=
  if w.st.dec.bank.length = Config.maxSuffixes then .raise .trieCode (subInfo 2 Config.suffixMarker) w
  else .ok () (w.setDec fun d => { stk := [], bank := d.bank ++ [d.stk], emitted := false })

/-- The bank indices that the bits of m select, in ascending order (spec/30_encoding.md R113). -/
def maskBits (m : Nat) : List Nat := (List.range Config.maxSuffixes).filter fun i => m.testBit i

/-- `EmitWord(STK ++ BANK[i])` for each of the indices, in order (spec/46_trie_decoder.md R265). -/
def emitSuffixed : List Nat → Work → Res Unit
  | [], w => .ok () w
  | i :: is, w =>
    (emitWord (w.st.dec.stk ++ w.st.dec.bank.getD i []) w).bind fun _ w => emitSuffixed is w

/-- `MaskClose(c)` with c = 128 + m (spec/46_trie_decoder.md R265): a bit of an undefined bank entry faults before
anything is emitted. -/
def maskClose (m : Nat) (w : Work) : Res Unit :=
  if (maskBits m).any fun i => decide (w.st.dec.bank.length ≤ i) then
    .raise .trieCode (subInfo 3 (Config.suffixMarker + m)) w
  else (emitStack w).bind fun _ w => emitSuffixed (maskBits m) w

/-- `Backspace(n)` (spec/46_trie_decoder.md R266). -/
def backspace (n : Nat) (w : Work) : Res Unit :=
  if w.st.dec.stk.length < n then .raise .trieCode (subInfo 4 n) w
  else (emitStack w).bind fun _ w =>
    .ok () (w.setDec fun d =>
      { d with stk := d.stk.take (d.stk.length - n), emitted := d.emitted && decide (n = 0) })

/-- `Push(c)` (spec/46_trie_decoder.md R268). -/
def push (c : Byte) (w : Work) : Res Unit :=
  if w.st.dec.stk.length = Config.stackMax then .raise .stackOvf (c.setWidth 32) w
  else .ok () (w.setDec fun d => { d with stk := d.stk ++ [c], emitted := false })

/-- A code of 256 or above (spec/46_trie_decoder.md R269). -/
def invalidCode (c : Imm) (w : Work) : Res Unit :=
  .raise .trieCode (subInfo 1 c.toNat) w

/-- `DStep(c)` (spec/46_trie_decoder.md R263), the tests in its order. -/
def decoderStep (c : Imm) (w : Work) : Res Unit :=
  if c.toNat = Config.suffixMarker then sufDef w
  else if 129 ≤ c.toNat ∧ c.toNat ≤ 255 then maskClose (c.toNat - Config.suffixMarker) w
  else if c.toNat ≤ Config.maxBksp then backspace c.toNat w
  else if c.toNat = Config.wordMarker then emitStack w
  else if Config.charMin ≤ c.toNat ∧ c.toNat ≤ Config.charMax then push (c.setWidth 8) w
  else invalidCode c w

/-- `DStep` for each of the codes, in order. -/
def decoderSteps : List Half → Work → Res Unit
  | [], w => .ok () w
  | c :: cs, w => (decoderStep (c.setWidth 24) w).bind fun _ w => decoderSteps cs w

/-- `DEnd()` (spec/46_trie_decoder.md R270). -/
def decoderEnd (w : Work) : Res Unit :=
  if !w.st.dec.stk.isEmpty && !w.st.dec.emitted then
    (emitWord w.st.dec.stk w).bind fun _ w => .ok () (w.setDec fun d => { d with emitted := true })
  else .ok () w

/-! ## Commands -/

/-- TRIE_DINIT (spec/46_trie_decoder.md R260). -/
def execTrieDinit (s : State) : Host.Outcome State Fault Refusal :=
  runCommand (Instr.opcode .trieDinit) (fun w => .ok () (decoderInit w)) s

/-- TRIE_DSTEP (spec/46_trie_decoder.md R263). -/
def execTrieDstep (c : Imm) (s : State) : Host.Outcome State Fault Refusal :=
  runCommand (Instr.opcode (.trieDstep c)) (decoderStep c) s

/-- TRIE_DEND (spec/46_trie_decoder.md R270). -/
def execTrieDend (s : State) : Host.Outcome State Fault Refusal :=
  runCommand (Instr.opcode .trieDend) decoderEnd s

/-- TRIE_DRUN (spec/46_trie_decoder.md R271). -/
def execTrieDrun (s : State) : Host.Outcome State Fault Refusal :=
  runCommand (Instr.opcode .trieDrun) (fun w =>
    if w.st.params.symSize < w.st.regs.symCnt.toNat then .raise .arg w.st.regs.symCnt w
    else (readSyms w.st.regs.symCnt.toNat (decoderInit w)).bind fun codes w =>
      (decoderSteps codes w).bind fun _ w => decoderEnd w) s

/-! ## Trie codes by themselves: each as the one code of a TRIE_DSTEP (log entry 6) -/

/-- SUFDEF (spec/46_trie_decoder.md R264). -/
def execSufdef (s : State) : Host.Outcome State Fault Refusal :=
  runCommand (Instr.opcode .sufdef) sufDef s

/-- MASK m (spec/46_trie_decoder.md R265). -/
def execMask (m : Byte) (s : State) : Host.Outcome State Fault Refusal :=
  runCommand (Instr.opcode (.mask m)) (maskClose m.toNat) s

/-- BKSP n (spec/46_trie_decoder.md R266). -/
def execBksp (n : Byte) (s : State) : Host.Outcome State Fault Refusal :=
  runCommand (Instr.opcode (.bksp n)) (backspace n.toNat) s

/-- WORD (spec/46_trie_decoder.md R267). -/
def execWord (s : State) : Host.Outcome State Fault Refusal :=
  runCommand (Instr.opcode .word) emitStack s

/-- CHAR c (spec/46_trie_decoder.md R268). -/
def execChar (c : Byte) (s : State) : Host.Outcome State Fault Refusal :=
  runCommand (Instr.opcode (.char c)) (push c) s

/-- An invalid code (spec/46_trie_decoder.md R269). -/
def execInvalidCode (c : Imm) (s : State) : Host.Outcome State Fault Refusal :=
  runCommand (Instr.opcode (.invalidCode c)) (invalidCode c) s

end Sys2Proof.Machine
end

