-- ==== Sys2Proof/Machine/TrieEnc.lean ====
section
/-! DEFINITION. The prefix-trie dictionary encoder (spec/45_trie_encoder.md). -/

namespace Sys2Proof.Machine

/-! ## Inputs -/

/-- Lexicographic order on unsigned bytes, a proper prefix first (spec/45_trie_encoder.md R241). -/
def strLt : Str → Str → Bool
  | _, [] => false
  | [], _ :: _ => true
  | a :: as, b :: bs => decide (a.toNat < b.toNat) || (decide (a = b) && strLt as bs)

/-- A byte that is no character code: outside 32..127 (spec/30_encoding.md R112). -/
def badChar (c : Byte) : Bool :=
  decide (c.toNat < Config.charMin) || decide (Config.charMax < c.toNat)

/-- The bytes a to a + n - 1 of a memory. -/
def readBytes (m : Mem 8) (a n : Nat) : Str := (List.range n).map fun t => m.read (a + t)

/-- W[j-1] < W[j], which holds of the first word (spec/45_trie_encoder.md R241, check 5). -/
def inOrder : Option Str → Str → Bool
  | none, _ => true
  | some p, x => strLt p x

/-- The records of WIN or SUF (spec/45_trie_encoder.md R240), each checked before the next is parsed (R241,
spec/90_conflicts.md C11): it ends inside the memory, is not empty, holds only character codes and, for words, is above
the one before. The four checks have the sub-codes `sub` to `sub + 3`; a failure is (sub-code, index). `cnt` records
remain from index j at address p, and `prev` is the record before. -/
def parseRecords (m : Mem 8) (size sub : Nat) (ordered : Bool) :
    (cnt j p : Nat) → (prev : Option Str) → Except (Nat × Nat) (List Str)
  | 0, _, _, _ => .ok []
  | cnt + 1, j, p, prev =>
    if size ≤ p then .error (sub, j)
    else
      let n := (m.read p).toNat
      let x := readBytes m (p + 1) n
      if size < p + 1 + n then .error (sub, j)
      else if n = 0 then .error (sub + 1, j)
      else if x.any badChar then .error (sub + 2, j)
      else if ordered && !inOrder prev x then .error (sub + 3, j)
      else
        match parseRecords m size sub ordered cnt (j + 1) (p + 1 + n) (some x) with
        | .ok xs => .ok (x :: xs)
        | .error e => .error e

/-- The input of TRIE_ENC, checked in the order of spec/45_trie_encoder.md R241: the suffix count, the words with
sub-codes 2 to 5, the suffixes with sub-codes 6 to 8. -/
def trieInput (s : State) : Except (Nat × Nat) (List Str × List Str) :=
  if Config.maxSuffixes < s.regs.sufCnt.toNat then .error (1, s.regs.sufCnt.toNat)
  else
    match parseRecords s.win s.params.winSize 2 true s.regs.winCnt.toNat 0 0 none with
    | .error e => .error e
    | .ok words =>
      match parseRecords s.suf s.params.sufSize 6 false s.regs.sufCnt.toNat 0 0 none with
      | .error e => .error e
      | .ok sufs => .ok (words, sufs)

/-! ## Algorithm (spec/45_trie_encoder.md R242) -/

/-- Step 1: each suffix, closed by SUFFIX_MARKER. -/
def suffixBank (sufs : List Str) : List Nat :=
  sufs.flatMap fun x => x.map BitVec.toNat ++ [Config.suffixMarker]

/-- Step 3a: the stack is popped until it is a prefix of w. The first argument is the stack's length; the result is the
stack left and the number of pops. -/
def popToPrefix (w : Str) : Nat → Str → Nat → Str × Nat
  | 0, stk, pops => (stk, pops)
  | k + 1, stk, pops =>
    if !stk.isEmpty && !stk.isPrefixOf w then popToPrefix w k stk.dropLast (pops + 1) else (stk, pops)

/-- A trailing WORD_MARKER is dropped (steps 3b and 4). -/
def dropMarker (out : List Nat) : List Nat :=
  if out.getLast? = some Config.wordMarker then out.dropLast else out

/-- Step 3d for one base word w: for each suffix in index order, the later word not yet removed that equals w followed
by the suffix is removed, and the suffix's bit is set. `rest` holds the later words with their indices. -/
def foldSuffixes (w : Str) (rest : List (Str × Nat)) : List Str → Nat → List Nat → Nat → List Nat × Nat
  | [], _, removed, mask => (removed, mask)
  | x :: xs, i, removed, mask =>
    match rest.find? fun e => !removed.contains e.2 && e.1 == w ++ x with
    | some e => foldSuffixes w rest xs (i + 1) (e.2 :: removed) (mask + 2 ^ i)
    | none => foldSuffixes w rest xs (i + 1) removed mask

/-- The code that closes a word: MASK, or WORD_MARKER where no suffix was folded (step 3d). -/
def closeCode (mask : Nat) : Nat :=
  if 0 < mask then Config.suffixMarker + mask else Config.wordMarker

/-- Step 3 from a word list with indices. A backspace above MAX_BKSP fails with the pop count and the word index. -/
def encodeWords (sufs : List Str) :
    List (Str × Nat) → (stk : Str) → (removed out : List Nat) → Except (Nat × Nat) (List Nat)
  | [], _, _, out => .ok out
  | (w, j) :: rest, stk, removed, out =>
    if removed.contains j then encodeWords sufs rest stk removed out
    else
      let (kept, pops) := popToPrefix w stk.length stk 0
      if Config.maxBksp < pops then .error (pops, j)
      else
        let out := if 0 < pops then dropMarker out ++ [pops] else out
        let (removed, mask) := foldSuffixes w rest sufs 0 removed 0
        encodeWords sufs rest w removed
          (out ++ (w.drop kept.length).map BitVec.toNat ++ [closeCode mask])

/-- `TrieEncode(W, S)` (spec/45_trie_encoder.md R242). -/
def trieEncode (words sufs : List Str) : Except (Nat × Nat) (List Nat) :=
  match encodeWords sufs words.zipIdx [] [] (suffixBank sufs) with
  | .ok out => .ok (dropMarker out)
  | .error e => .error e

/-! ## Command -/

/-- TRIE_ENC (spec/45_trie_encoder.md R248): every check runs before SYM is written. -/
def execTrieEnc (s : State) : Host.Outcome State Fault Refusal :=
  runCommand (Instr.opcode .trieEnc) (fun w =>
    match trieInput w.st with
    | .error (sub, idx) => .raise .trieInput (subInfo sub idx) w
    | .ok (words, sufs) =>
      match trieEncode words sufs with
      | .error (pops, j) => .raise .bkspOvf (subInfo pops j) w
      | .ok out =>
        if w.st.params.symSize < out.length then .raise .symFull 0 w
        else (writeSyms (out.map (BitVec.ofNat 16)) w).bind fun _ w =>
          .ok () (w.setRegs fun r => { r with symCnt := BitVec.ofNat 32 out.length })) s

end Sys2Proof.Machine
end

