-- ==== Sys2Proof/Machine/Dispatch.lean ====
section
/-! DEFINITION. The dispatch: one arm per constructor of Instr, each a direct call of its meaning. -/

namespace Sys2Proof.Machine

def exec (i : Instr) (s : State) : Host.Outcome State Fault Refusal :=
  match i with
  -- spec/40_control.md
  | .nop => Sys2Proof.Machine.execNop s
  | .sreset => Sys2Proof.Machine.execSreset s
  -- spec/41_bitstream.md
  | .bsWinit a => Sys2Proof.Machine.execBsWinit a s
  | .bsPut n => Sys2Proof.Machine.execBsPut n s
  | .bsWalign => Sys2Proof.Machine.execBsWalign s
  | .bsRinit a => Sys2Proof.Machine.execBsRinit a s
  | .bsGet n => Sys2Proof.Machine.execBsGet n s
  | .bsRalign => Sys2Proof.Machine.execBsRalign s
  -- spec/42_huffman_build.md
  | .ftInit limit => Sys2Proof.Machine.execFtInit limit s
  | .ftInc sym => Sys2Proof.Machine.execFtInc sym s
  | .ftSet sym => Sys2Proof.Machine.execFtSet sym s
  | .ftGet sym => Sys2Proof.Machine.execFtGet sym s
  | .hufBuild => Sys2Proof.Machine.execHufBuild s
  | .hufCanon limit => Sys2Proof.Machine.execHufCanon limit s
  -- spec/43_table_io.md
  | .hufTwrite => Sys2Proof.Machine.execHufTwrite s
  | .hufTread => Sys2Proof.Machine.execHufTread s
  -- spec/44_huffman_coding.md
  | .hufEnc sym => Sys2Proof.Machine.execHufEnc sym s
  | .hufDec => Sys2Proof.Machine.execHufDec s
  | .hufBenc => Sys2Proof.Machine.execHufBenc s
  | .hufBdec n => Sys2Proof.Machine.execHufBdec n s
  -- spec/45_trie_encoder.md
  | .trieEnc => Sys2Proof.Machine.execTrieEnc s
  -- spec/46_trie_decoder.md
  | .trieDinit => Sys2Proof.Machine.execTrieDinit s
  | .trieDstep c => Sys2Proof.Machine.execTrieDstep c s
  | .trieDend => Sys2Proof.Machine.execTrieDend s
  | .trieDrun => Sys2Proof.Machine.execTrieDrun s
  | .sufdef => Sys2Proof.Machine.execSufdef s
  | .mask m => Sys2Proof.Machine.execMask m s
  | .bksp n => Sys2Proof.Machine.execBksp n s
  | .word => Sys2Proof.Machine.execWord s
  | .char c => Sys2Proof.Machine.execChar c s
  | .invalidCode c => Sys2Proof.Machine.execInvalidCode c s
  -- spec/43_table_io.md, entries
  | .tableLiteral bpl len => Sys2Proof.Machine.execTableLiteral bpl len s
  | .tableRun r => Sys2Proof.Machine.execTableRun r s

end Sys2Proof.Machine
end

