-- ==== Sys2Proof/Machine/Port.lean ====
section
/-! DEFINITION. The host port: the address map, host reads and writes (spec/20_memory.md sections 1 and 3,
spec/10_state.md section 2), the command dispatch cycle (spec/40_control.md R131), and the entries of a table read in
progress. -/

namespace Sys2Proof.Machine

/-! ## Commands -/

/-- The command dispatch cycle for a word written to CMD (spec/40_control.md R131). In the fault state everything but
SRESET is ignored (spec/60_exceptions.md R304); an opcode that the map does not list raises E_BAD_CMD with the whole
word (spec/30_encoding.md R104). -/
def issueCommand (w : Word) (s : State) : Host.Outcome State Fault Refusal :=
  if s.regs.status.fault then
    if opField w = Instr.opcode .sreset then exec .sreset s else .next s
  else
    match decodeCommand w with
    | .ok i => exec i s
    | .error _ => runCommand (opField w) (fun x => .raise .badCmd w x) s

/-! ## The address map -/

/-- Where an address lies: its window, and its offset from the window's base (spec/20_memory.md R70). -/
inductive Window where
  | regs (offset : Nat)
  | mem (sp : Space) (offset : Nat)
  | unmapped
deriving DecidableEq, Repr

/-- The windows of spec/20_memory.md R70: each is 16 MiB wide. -/
def window (addr : Word) : Window :=
  let offset := addr.toNat % 0x1000000
  match addr.toNat / 0x1000000 with
  | 0 => .regs offset
  | 1 => .mem .freq offset
  | 2 => .mem .len offset
  | 3 => .mem .sym offset
  | 4 => .mem .buf offset
  | 5 => .mem .win offset
  | 6 => .mem .suf offset
  | 7 => .mem .wout offset
  | 8 => .mem .tstk offset
  | _ => .unmapped

/-- The element at an offset, for an access of `bytes` bytes to a space of elements of that width: the access is
admitted when it is aligned and the element exists (spec/20_memory.md R71 and R73). -/
def element (p : Params) (sp : Space) (bytes offset : Nat) : Option Nat :=
  if offset % bytes = 0 ∧ offset / bytes < size p sp then some (offset / bytes) else none

/-! ## Reads (spec/20_memory.md R80: no side effects) -/

/-- A register by its offset; CMD and the reserved offsets read 0 (spec/10_state.md R23, R26 and R40). An offset that is
no multiple of 4 or is past 0xFC is not admitted. -/
def readReg (s : State) (offset : Nat) : Option Word :=
  if offset % 4 = 0 ∧ offset < 0x100 then
    match offset with
    | 0x00 => some Config.idWord
    | 0x04 => some (statusWord s.busy s.regs.status)
    | 0x08 => some 0
    | 0x0C => some s.regs.arg
    | 0x10 => some s.regs.result
    | 0x14 => some s.regs.faultInfo
    | 0x18 => some s.regs.limit
    | 0x1C => some s.regs.maxlen
    | 0x20 => some s.regs.wpos
    | 0x24 => some (streamWord s.regs.wnb s.regs.wacc)
    | 0x28 => some s.regs.wcnt
    | 0x30 => some s.regs.rpos
    | 0x34 => some s.regs.rlim
    | 0x38 => some (streamWord s.regs.rnb s.regs.racc)
    | 0x3C => some s.regs.rcnt
    | 0x40 => some s.regs.symCnt
    | 0x44 => some s.regs.winCnt
    | 0x48 => some s.regs.sufCnt
    | 0x4C => some s.regs.woutCnt
    | 0x50 => some s.regs.woutPtr
    | 0x54 => some (trieStateWord s.dec)
    | 0x60 => some (BitVec.ofNat 32 s.params.symLimitMax)
    | 0x64 => some (BitVec.ofNat 32 s.params.maxCodeLen)
    | 0x68 => some (BitVec.ofNat 32 s.params.bufSize)
    | 0x6C => some (BitVec.ofNat 32 s.params.symSize)
    | 0x70 => some (BitVec.ofNat 32 s.params.winSize)
    | 0x74 => some (BitVec.ofNat 32 s.params.sufSize)
    | 0x78 => some (BitVec.ofNat 32 s.params.woutSize)
    | _ => some 0
  else none

/-- TSTK[d]: STK[d] below the depth, a free value at or above it (spec/10_state.md R57, log entry 3). -/
def readTstk (s : State) (d : Nat) : Byte :=
  if d < s.dec.stk.length then s.dec.stk.getD d 0 else Config.tstkByte s.free d

/-- An element read at the width of its space (spec/20_memory.md R72), zero-extended; none where not admitted. -/
def hostRead (s : State) (bytes : Nat) (addr : Word) : Option Word :=
  match window addr with
  | .regs offset => if bytes = 4 then readReg s offset else none
  | .mem .freq offset => if bytes = 4 then (element s.params .freq 4 offset).map s.freq.read else none
  | .mem .sym offset =>
    if bytes = 2 then (element s.params .sym 2 offset).map fun i => (s.sym.read i).setWidth 32 else none
  | .mem .len offset =>
    if bytes = 1 then (element s.params .len 1 offset).map fun i => (s.len.read i).setWidth 32 else none
  | .mem .buf offset =>
    if bytes = 1 then (element s.params .buf 1 offset).map fun i => (s.buf.read i).setWidth 32 else none
  | .mem .win offset =>
    if bytes = 1 then (element s.params .win 1 offset).map fun i => (s.win.read i).setWidth 32 else none
  | .mem .suf offset =>
    if bytes = 1 then (element s.params .suf 1 offset).map fun i => (s.suf.read i).setWidth 32 else none
  | .mem .wout offset =>
    if bytes = 1 then (element s.params .wout 1 offset).map fun i => (s.wout.read i).setWidth 32 else none
  | .mem .tstk offset =>
    if bytes = 1 then (element s.params .tstk 1 offset).map fun d => (readTstk s d).setWidth 32 else none
  | .unmapped => none

/-! ## Writes -/

/-- A register write other than to CMD: the RW registers store any value, every other register ignores it
(spec/10_state.md R40 and R41). None where not admitted. -/
def writeReg (s : State) (offset : Nat) (v : Word) : Option State :=
  if offset % 4 = 0 ∧ offset < 0x100 then
    match offset with
    | 0x0C => some { s with regs := { s.regs with arg := v } }
    | 0x40 => some { s with regs := { s.regs with symCnt := v } }
    | 0x44 => some { s with regs := { s.regs with winCnt := v } }
    | 0x48 => some { s with regs := { s.regs with sufCnt := v } }
    | _ => some s
  else none

/-- An 8-bit write. Writing a LEN element drops the loaded code (spec/20_memory.md R79); a write to TSTK is ignored
(spec/10_state.md R57). A write to WOUT is stored, as the access column of spec/20_memory.md R70 has it, though the list
of WOUT's writers in spec/10_state.md R47 has no host: DESIGN CHOICE, log entry 18. -/
def write8 (s : State) (addr : Word) (v : Byte) : Option State :=
  match window addr with
  | .mem .len offset =>
    (element s.params .len 1 offset).map fun i => { s with len := s.len.write i v, regs := s.regs.dropCode }
  | .mem .buf offset => (element s.params .buf 1 offset).map fun i => { s with buf := s.buf.write i v }
  | .mem .win offset => (element s.params .win 1 offset).map fun i => { s with win := s.win.write i v }
  | .mem .suf offset => (element s.params .suf 1 offset).map fun i => { s with suf := s.suf.write i v }
  | .mem .wout offset => (element s.params .wout 1 offset).map fun i => { s with wout := s.wout.write i v }
  | .mem .tstk offset => (element s.params .tstk 1 offset).map fun _ => s
  | .mem .freq _ => none
  | .mem .sym _ => none
  | .regs _ => none
  | .unmapped => none

/-- A 16-bit write: only SYM has 16-bit elements (spec/20_memory.md R72). -/
def write16 (s : State) (addr : Word) (v : Half) : Option State :=
  match window addr with
  | .mem .sym offset => (element s.params .sym 2 offset).map fun i => { s with sym := s.sym.write i v }
  | _ => none

/-- A 32-bit write other than to CMD: registers and FREQ (spec/20_memory.md R72). -/
def write32 (s : State) (addr : Word) (v : Word) : Option State :=
  match window addr with
  | .regs offset => writeReg s offset v
  | .mem .freq offset => (element s.params .freq 4 offset).map fun i => { s with freq := s.freq.write i v }
  | _ => none

/-! ## One host access -/

/-- The address of CMD (spec/10_state.md R23 and R26). -/
def cmdAddr : Word := 0x08#32

/-- A read's answer: the data, or an error response. No engine state changes (spec/20_memory.md R80). -/
def answerRead (s : State) (v : Option Word) : State :=
  match v with
  | some v => { s with resp := .data v }
  | none => { s with resp := .error }

/-- A write's answer: the state it left, or an error response and no effect (spec/20_memory.md R71). -/
def answerWrite (s : State) (t : Option State) : State :=
  match t with
  | some t => { t with resp := .done }
  | none => { s with resp := .error }

/-- A host access that may change state counts for the free value (log entry 3). -/
def countAccess (s : State) : State := { s with free := s.free + 1 }

/-- One host access, as one step of the total order of spec/20_memory.md R83. A write to CMD issues a command (R79). -/
def hostAccess (op : HostOp) (s : State) : Host.Outcome State Fault Refusal :=
  match op with
  | .read8 a => .next (answerRead s (hostRead s 1 a))
  | .read16 a => .next (answerRead s (hostRead s 2 a))
  | .read32 a => .next (answerRead s (hostRead s 4 a))
  | .write8 a v => .next (answerWrite (countAccess s) (write8 (countAccess s) a v))
  | .write16 a v => .next (answerWrite (countAccess s) (write16 (countAccess s) a v))
  | .write32 a v =>
    if a = cmdAddr then issueCommand v { countAccess s with resp := .done }
    else .next (answerWrite (countAccess s) (write32 (countAccess s) a v))

/-! ## A table read in progress -/

/-- The entry instruction that a flag bit and a field are (spec/30_encoding.md R116). -/
def entryInstr (bpl : Byte) (e : Bool × Nat) : Instr :=
  if e.1 then .tableLiteral bpl e.2 else .tableRun (BitVec.ofNat 8 e.2)

/-- The first bit of an opcode-table word in bit 7 of a byte: the byte of the bit stream whose bits are, in transmission
order, the first eight of `bs`. -/
def firstByte (bs : List Bool) : Byte := BitVec.ofNat 8 (bitsToNat (bs.take 8))

/-- The next piece of a table read in progress (spec/43_table_io.md R204): while entries are missing, one entry is
fetched from the read stream and executed; then the table is finished. Log entry 7. -/
def tableReadStep (t : TableRead) (s : State) : Host.Outcome State Fault Refusal :=
  if t.i < t.n then
    match fetchEntry t.bpl { st := s, wroteLen := t.haveLast } with
    | .ok e w => exec (entryInstr t.bpl e) w.st
    | .raise c info w => finish (Instr.opcode .hufTread) t.start s.dec (.raise c info w)
    | .stop f => .fault f
  else runInTableRead (Instr.opcode .hufTread) tableFinish s

end Sys2Proof.Machine
end

