-- ==== Sys2Proof/Machine/Step.lean ====
section
/-! DEFINITION. One step of the machine: the next host access, in the order the host issues them (spec/20_memory.md
R83). With nothing to do the engine is idle, with all state kept (spec/60_exceptions.md R327). -/

namespace Sys2Proof.Machine

/-- One step. No host access takes effect inside a command (spec/20_memory.md R78 and R82), so a table read in progress
goes first. -/
def step (s : State) : Host.Outcome State Fault Refusal :=
  match s.tread with
  | some t => tableReadStep t s
  | none =>
    match s.inbox with
    | [] => .next s
    | op :: rest => hostAccess op { s with inbox := rest }

/-- The state whose very next step runs the instruction with the bits w (numbered as spec/opcode_table.json numbers
them). A command word is the host's next write, to CMD. A trie code is the operand of a TRIE_DSTEP that the host writes
next. A table entry stands in BUF at the read cursor, inside a table read that waits for it: its second entry of two,
after a literal 1, with 8-bit lengths. Log entry 8. -/
def State.withFetchWord (s : State) (nbits w : Nat) : State :=
  match nbits with
  | 32 => { s with tread := none, inbox := .write32 cmdAddr (BitVec.ofNat 32 w) :: s.inbox }
  | 16 =>
    { s with
      tread := none
      inbox := .write32 cmdAddr (commandWord 0x49#8 ((BitVec.ofNat 16 w).setWidth 24)) :: s.inbox }
  | _ =>
    { s with
      buf := (s.buf.write s.regs.rpos.toNat (firstByte (tableWordBits 8 w))).write (s.regs.rpos.toNat + 1) 0
      regs := { s.regs with rnb := 0, rlim := s.regs.rpos + 2 }
      tread := some
        { start := s.regs, n := 2, bpl := tableWordBpl, i := 1, haveLast := true, last := 1#8 } }

end Sys2Proof.Machine
end

