-- ==== Sys2Proof/Machine/Views.lean ====
section
/-! DEFINITION. Views of the state that statements are written in: host accesses by memory and element, a fault that
wrote no memory, runs of several instructions, the bits in the two streams, the bits of a table and of a block, second
forms of the full-tree check and of the canonical codes, and the trie codec's records. No meaning uses them. -/

namespace Sys2Proof.Machine

/-! ## Faults and runs -/

/-- The state s after a fault that wrote no memory element (spec/60_exceptions.md R302): STATUS and FAULT_INFO are
written, and nothing else. -/
def State.faulted (s : State) (op : Byte) (code : FaultCode) (info : Word) : State :=
  { s with
    regs := { s.regs with
      status := { s.regs.status with fault := true, faultCode := code.code, faultOp := op }
      faultInfo := info }
    tread := none }

/-- The instructions one after another; a fault of the spec does not stop the run, a stop of the model does. -/
def execAll : List Instr → State → Host.Outcome State Fault Refusal
  | [], s => .next s
  | i :: is, s =>
    match exec i s with
    | .next t => execAll is t
    | .fault f => .fault f
    | .refused r => .refused r

/-! ## The host port (spec/20_memory.md R70 to R72) -/

/-- The first address of a memory's window. -/
def Space.base : Space → Nat
  | .freq => 0x01000000
  | .len => 0x02000000
  | .sym => 0x03000000
  | .buf => 0x04000000
  | .win => 0x05000000
  | .suf => 0x06000000
  | .wout => 0x07000000
  | .tstk => 0x08000000

/-- The width of a memory's elements in bytes. -/
def Space.bytes : Space → Nat
  | .freq => 4
  | .len => 1
  | .sym => 2
  | .buf => 1
  | .win => 1
  | .suf => 1
  | .wout => 1
  | .tstk => 1

/-- The host address of element i. -/
def Space.addr (sp : Space) (i : Nat) : Word := BitVec.ofNat 32 (sp.base + sp.bytes * i)

/-- A host access of `bytes` bytes is admitted: it is to a register, or to an element its memory has (spec/20_memory.md
R70 to R73). -/
abbrev Admitted (p : Params) (bytes : Nat) (addr : Word) : Prop :=
  (bytes = 4 ∧ ∃ r < 64, addr.toNat = 4 * r) ∨
    ∃ sp i, i < size p sp ∧ bytes = sp.bytes ∧ addr.toNat = sp.base + sp.bytes * i

/-- The host read of element i, at its width. -/
def Space.readOp (sp : Space) (i : Nat) : HostOp :=
  match sp.bytes with
  | 4 => .read32 (sp.addr i)
  | 2 => .read16 (sp.addr i)
  | _ => .read8 (sp.addr i)

/-- The host write of v to element i, at its width. -/
def Space.writeOp (sp : Space) (i v : Nat) : HostOp :=
  match sp.bytes with
  | 4 => .write32 (sp.addr i) (BitVec.ofNat 32 v)
  | 2 => .write16 (sp.addr i) (BitVec.ofNat 16 v)
  | _ => .write8 (sp.addr i) (BitVec.ofNat 8 v)

/-- The value of element i of a memory, as the host reads it. -/
def State.element (s : State) (sp : Space) (i : Nat) : Nat :=
  match sp with
  | .freq => (s.freq.read i).toNat
  | .len => (s.len.read i).toNat
  | .sym => (s.sym.read i).toNat
  | .buf => (s.buf.read i).toNat
  | .win => (s.win.read i).toNat
  | .suf => (s.suf.read i).toNat
  | .wout => (s.wout.read i).toNat
  | .tstk => (readTstk s i).toNat

/-! ## The write stream (spec/41_bitstream.md section 1) -/

/-- The bits of the partial byte, oldest first (spec/10_state.md R32). -/
def Regs.pendingBits (r : Regs) : List Bool := fieldBits r.wnb.toNat r.wacc.toNat

/-- The whole bytes at the front of a bit sequence, each with its first bit in bit 7 (spec/20_memory.md R74). -/
def packBytes (bs : List Bool) : List Byte :=
  (List.range (bs.length / 8)).map fun k => BitVec.ofNat 8 (bitsToNat ((bs.drop (8 * k)).take 8))

/-- The bits after the last whole byte. -/
def tailBits (bs : List Bool) : List Bool := bs.drop (8 * (bs.length / 8))

/-- The zero bits that pad n bits to a byte boundary (spec/41_bitstream.md R143). -/
def padTo (n : Nat) : List Bool := List.replicate ((8 - n % 8) % 8) false

/-- The state after `bits` are appended to the write stream: the whole bytes stored, the rest pending. -/
def State.afterBits (s : State) (bits : List Bool) : State :=
  let all := s.regs.pendingBits ++ bits
  { s with
    buf := s.buf.writeList s.regs.wpos.toNat (packBytes all)
    regs := { s.regs with
      wpos := s.regs.wpos + BitVec.ofNat 32 (packBytes all).length
      wcnt := s.regs.wcnt + BitVec.ofNat 32 (packBytes all).length
      wnb := BitVec.ofNat 4 (tailBits all).length
      wacc := BitVec.ofNat 8 (bitsToNat (tailBits all)) } }

/-- BUF when the write stream fills it: of the whole bytes of `bits`, those that fit are stored. -/
def State.bufFilled (s : State) (bits : List Bool) : Mem 8 :=
  s.buf.writeList s.regs.wpos.toNat
    ((packBytes (s.regs.pendingBits ++ bits)).take (s.params.bufSize - s.regs.wpos.toNat))

/-- BUF has room for n more bits of the write stream. -/
abbrev State.HasRoom (s : State) (n : Nat) : Prop :=
  s.regs.wpos.toNat + (s.regs.wnb.toNat + n) / 8 ≤ s.params.bufSize

/-! ## The read stream (spec/41_bitstream.md section 2) -/

/-- The bits the read stream still holds: the unread bits of the current byte, then the bytes up to RLIM. -/
def State.unreadBits (s : State) : List Bool :=
  fieldBits s.regs.rnb.toNat s.regs.racc.toNat ++
    (List.range (s.regs.rlim.toNat - s.regs.rpos.toNat)).flatMap fun k =>
      fieldBits 8 (s.buf.read (s.regs.rpos.toNat + k)).toNat

/-- How many bytes the reader fetches to return k bits. -/
def Regs.fetches (r : Regs) (k : Nat) : Nat := (k - r.rnb.toNat + 7) / 8

/-- The state after the next k bits of the read stream are read. -/
def State.afterReading (s : State) (k : Nat) : State :=
  { s with
    regs := { s.regs with
      rpos := s.regs.rpos + BitVec.ofNat 32 (s.regs.fetches k)
      rcnt := s.regs.rcnt + BitVec.ofNat 32 (s.regs.fetches k)
      rnb := BitVec.ofNat 4 (s.regs.rnb.toNat + 8 * s.regs.fetches k - k)
      racc :=
        if s.regs.fetches k = 0 then s.regs.racc
        else s.buf.read (s.regs.rpos.toNat + s.regs.fetches k - 1) } }

/-- The state after `AlignR()`. -/
def State.readAligned (s : State) : State := { s with regs := { s.regs with rnb := 0 } }

/-! ## Codes and tables (spec/42_huffman_build.md, spec/43_table_io.md) -/

/-- LEN[0..n). -/
def State.lens (s : State) (n : Nat) : List Nat := (s.len.readList n).map BitVec.toNat

/-- LEN[0..LIMIT), the loaded code's length array. -/
def State.loadedLens (s : State) : List Nat := s.lens s.regs.limit.toNat

/-- FREQ[0..n). -/
def State.freqs (s : State) (n : Nat) : List Nat := (s.freq.readList n).map BitVec.toNat

/-- SYM[0..n). -/
def State.syms (s : State) (n : Nat) : List Nat := (s.sym.readList n).map BitVec.toNat

/-- The leaves the greedy merge starts with: weight FREQ[s], lowest symbol s (spec/42_huffman_build.md R174, R175). -/
def leafNodes (freqs : List Nat) : List QNode :=
  (leafSymbols freqs).map fun s => { weight := freqs.getD s 0, low := s, tree := .leaf s }

/-- a is removed before b: (a.w, a.m) < (b.w, b.m) in lexicographic order (spec/42_huffman_build.md R174). -/
abbrev Lower (a b : QNode) : Prop := a.weight < b.weight ∨ (a.weight = b.weight ∧ a.low < b.low)

/-- A tree that the greedy merge gives from the nodes of a queue, in whatever order they are listed: as long as there are
two nodes, the two lowest, x before y, are replaced by the internal node with x on the left (spec/42_huffman_build.md R174
and R175). -/
inductive GreedyMerge : List QNode → Tree → Prop where
  | single (x : QNode) : GreedyMerge [x] x.tree
  | merge (q rest : List QNode) (x y : QNode) (t : Tree) : q.Perm (x :: y :: rest) → Lower x y →
      (∀ z ∈ rest, Lower y z) →
      GreedyMerge
        ({ weight := x.weight + y.weight, low := min x.low y.low, tree := .node x.tree y.tree } :: rest) t →
      GreedyMerge q t

/-- The code of a symbol under a length array: the path to its leaf in the canonical tree (spec/42_huffman_build.md
R183). -/
def codeOf (lens : List Nat) (sym : Nat) : Option (List Bool) := (canonTree lens).bind fun t => t.path sym

/-- The codes of the symbols of a list, one after another; a symbol without a code adds nothing. -/
def codeBits (lens : List Nat) (list : List Nat) : List Bool :=
  list.flatMap fun s => (codeOf lens s).getD []

/-- The Kraft sum Σ 2^(-L[s]) over the nonzero lengths (spec/42_huffman_build.md R180). -/
def kraftSum (lens : List Nat) : Rat :=
  ((lens.filter fun l => decide (0 < l)).map fun l => (1 / 2 : Rat) ^ l).sum

/-- The loop `while level > l` of the full-tree check, `k` levels from `level` down (spec/42_huffman_build.md R180). -/
def halveLevels : (k level count : Nat) → Except Verdict Nat
  | 0, _, count => .ok count
  | k + 1, level, count =>
    if count % 2 = 1 then .error (.underfull level) else halveLevels k (level - 1) (count / 2)

/-- The loops of the full-tree check over the lengths in descending order (spec/42_huffman_build.md R180). -/
def foldSorted : List Nat → (level count : Nat) → Verdict
  | [], level, count =>
    match halveLevels level level count with
    | .error v => v
    | .ok c => if 1 < c then .overfull c else .full
  | l :: ls, level, count =>
    match halveLevels (level - l) level count with
    | .error v => v
    | .ok c => foldSorted ls l (c + 1)

/-- `Validate(L)` as the loop of spec/42_huffman_build.md R180 over the sorted lengths; `validate` is the form the machine
runs. Log entry 9. -/
def validateSorted (lens : List Nat) : Verdict :=
  match (lens.filter fun l => decide (0 < l)).mergeSort fun a b => decide (b ≤ a) with
  | [] => .underfull 0
  | l :: ls => foldSorted (l :: ls) l 0

/-- start[l]: start[1] = 0 and start[l + 1] = (start[l] + bl[l]) << 1, where bl[l] counts the symbols of length l
(spec/42_huffman_build.md R184). -/
def firstCode (lens : List Nat) : Nat → Nat
  | 0 => 0
  | l + 1 => if l = 0 then 0 else 2 * (firstCode lens l + lens.count l)

/-- What a table writes from a write cursor with `nb` pending bits: the alignment, the table, the padding
(spec/43_table_io.md R201). -/
def tableStreamBits (nb : Nat) (lens : List Nat) : List Bool :=
  padTo nb ++ tableBits lens (maxLen lens) ++ padTo (tableBits lens (maxLen lens)).length

/-- A block (spec/30_encoding.md R118): the table, then the codes, then the padding. -/
def blockBits (nb : Nat) (lens list : List Nat) : List Bool :=
  tableStreamBits nb lens ++ codeBits lens list ++ padTo (codeBits lens list).length

/-- The bits of a table with the header (n, bpl) and the entries `es`, each a flag and its field (spec/30_encoding.md
R114 to R116). -/
def tableWith (n bpl : Nat) (es : List (Bool × Nat)) : List Bool :=
  fieldBits 16 n ++ fieldBits 8 bpl ++
    es.flatMap fun e => e.1 :: fieldBits (if e.1 then bpl else 8) e.2

/-- The lengths that entries stand for, after a last length where there is one; none for a run before any literal
(spec/43_table_io.md R204). -/
def expandEntries : Option Nat → List (Bool × Nat) → Option (List Nat)
  | _, [] => some []
  | _, (true, v) :: es => (expandEntries (some v) es).map (v :: ·)
  | some v, (false, r) :: es => (expandEntries (some v) es).map (List.replicate r v ++ ·)
  | none, (false, _) :: _ => none

/-- The table at the read cursor has a legal count, and its first entry is whole, a literal, and at most MAX_CODE_LEN: then,
and only then, a read of this table writes LEN before it can fault (spec/43_table_io.md R204). -/
abbrev State.FirstLiteralFits (s : State) : Prop :=
  let bits := s.readAligned.unreadBits
  let n := bitsToNat (bits.take 16)
  let bpl := bitsToNat ((bits.drop 16).take 8)
  2 ≤ n ∧ n ≤ s.params.symLimitMax ∧ 25 + bpl ≤ bits.length ∧ bits.getD 24 false = true ∧
    bitsToNat ((bits.drop 25).take bpl) ≤ s.params.maxCodeLen

/-- The flag and the field of a table entry. -/
def entryFields : Instr → Option (Bool × Nat)
  | .tableLiteral _ l => some (true, l)
  | .tableRun r => some (false, r.toNat)
  | _ => none

/-! ## The trie codec (spec/45_trie_encoder.md, spec/46_trie_decoder.md) -/

/-- Records back to back (spec/20_memory.md R77). -/
def recordBytes (xs : List Str) : List Byte := xs.flatMap fun x => BitVec.ofNat 8 x.length :: x

/-- A memory of `size` bytes that starts with the records of the words. -/
abbrev Stored (m : Mem 8) (size : Nat) (xs : List Str) : Prop :=
  (recordBytes xs).length ≤ size ∧ m.readList (recordBytes xs).length = recordBytes xs

/-- How many characters two words have in common at the front. -/
def commonLength : Str → Str → Nat
  | a :: as, b :: bs => if a = b then commonLength as bs + 1 else 0
  | _, _ => 0

/-- How many characters are popped between two words that follow each other (spec/45_trie_encoder.md R242, step 3a). -/
def popsBetween (u v : Str) : Nat := u.length - commonLength u v

/-- The state after the words are written to WOUT, one record each. -/
def State.emitting (s : State) (xs : List Str) : State :=
  { s with
    wout := s.wout.writeList s.regs.woutPtr.toNat (recordBytes xs)
    regs := { s.regs with
      woutPtr := s.regs.woutPtr + BitVec.ofNat 32 (recordBytes xs).length
      woutCnt := s.regs.woutCnt + BitVec.ofNat 32 xs.length } }

/-- Every word is short enough for a record, and WOUT has room for all of them. -/
abbrev State.CanEmit (s : State) (xs : List Str) : Prop :=
  (∀ x ∈ xs, x.length ≤ 255) ∧ s.regs.woutPtr.toNat + (recordBytes xs).length ≤ s.params.woutSize

/-- What `EmitStack()` writes: the stack's content, unless it has been emitted already (spec/46_trie_decoder.md R262). -/
def Decoder.pendingWord (d : Decoder) : List Str := if d.emitted then [] else [d.stk]

end Sys2Proof.Machine
end

