-- ==== Sys2Proof/Safety.lean ====
section
/-! DEFINITION. What every state between commands satisfies, and what a safe run is. -/

namespace Sys2Proof.Machine

/-- A character code (spec/30_encoding.md R112). -/
abbrev IsChar (c : Byte) : Prop := Config.charMin ≤ c.toNat ∧ c.toNat ≤ Config.charMax

/-- The bounds the spec gives the state between commands, all but what CODE_VALID says of LEN. -/
structure State.Sane (s : State) : Prop where
  /-- The parameters are in their legal ranges (spec/00_scope.md R8). -/
  params : s.params.Legal
  /-- Each memory is in canonical form and holds only elements it has (spec/10_state.md R47). -/
  freq : Mem.wf s.params.symLimitMax s.freq
  len : Mem.wf s.params.symLimitMax s.len
  sym : Mem.wf s.params.symSize s.sym
  buf : Mem.wf s.params.bufSize s.buf
  win : Mem.wf s.params.winSize s.win
  suf : Mem.wf s.params.sufSize s.suf
  wout : Mem.wf s.params.woutSize s.wout
  /-- LIMIT is 0 or 2..SYM_LIMIT_MAX (spec/10_state.md R30). -/
  limit : s.regs.limit = 0 ∨ (2 ≤ s.regs.limit.toNat ∧ s.regs.limit.toNat ≤ s.params.symLimitMax)
  /-- Without a loaded code MAXLEN is 0 (spec/10_state.md R31). -/
  maxlen : s.regs.status.codeValid = false → s.regs.maxlen = 0
  /-- The fault fields are 0 while FAULT = 0 (spec/10_state.md R24 and R29). -/
  noFault : s.regs.status.fault = false →
    s.regs.status.faultCode = 0 ∧ s.regs.status.faultOp = 0 ∧ s.regs.faultInfo = 0
  /-- FAULT_CODE is one of 0x01 to 0x14 while FAULT = 1 (spec/60_exceptions.md R300). -/
  faultCode : s.regs.status.fault = true →
    1 ≤ s.regs.status.faultCode.toNat ∧ s.regs.status.faultCode.toNat ≤ 0x14
  /-- The bit writer (spec/10_state.md R42); WCNT counts the bytes stored since BS_WINIT (spec/41_bitstream.md R144). -/
  writer : s.regs.wnb.toNat ≤ 7 ∧ s.regs.wacc.toNat < 2 ^ s.regs.wnb.toNat ∧
    s.regs.wpos.toNat ≤ s.params.bufSize ∧ s.regs.wcnt.toNat ≤ s.regs.wpos.toNat
  /-- The bit reader (spec/10_state.md R43); RCNT counts the bytes fetched since BS_RINIT (spec/41_bitstream.md R154). -/
  reader : s.regs.rnb.toNat ≤ 7 ∧ s.regs.rpos.toNat ≤ s.regs.rlim.toNat ∧
    s.regs.rlim.toNat ≤ s.params.bufSize ∧ s.regs.rcnt.toNat ≤ s.regs.rpos.toNat
  /-- The trie decoder's stack (spec/10_state.md R44). -/
  stack : s.dec.stk.length ≤ 255 ∧ ∀ c ∈ s.dec.stk, IsChar c
  /-- The suffix bank (spec/10_state.md R45). -/
  bank : s.dec.bank.length ≤ 7 ∧ ∀ x ∈ s.dec.bank, x.length ≤ 255 ∧ ∀ c ∈ x, IsChar c
  /-- The output cursor (spec/10_state.md R37): every record has at least its length byte. -/
  output : s.regs.woutPtr.toNat ≤ s.params.woutSize ∧ s.regs.woutCnt.toNat ≤ s.regs.woutPtr.toNat
  /-- No command is at work (spec/20_memory.md R82). -/
  idle : s.tread = none

/-- "STATUS.CODE_VALID = 1 means that LEN[0..LIMIT) holds a length array that passed the full-tree check ..., with every
entry ≤ MAX_CODE_LEN" (spec/10_state.md R25), and MAXLEN is its longest length (R31). -/
structure State.CodeOk (s : State) : Prop where
  limit : s.regs.status.codeValid = true → 2 ≤ s.regs.limit.toNat
  full : s.regs.status.codeValid = true → validate s.loadedLens = .full
  range : s.regs.status.codeValid = true → ∀ l ∈ s.loadedLens, l ≤ s.params.maxCodeLen
  maxlen : s.regs.status.codeValid = true → s.regs.maxlen.toNat = maxLen s.loadedLens

/-- The invariant of the machine between commands. -/
structure State.Inv (s : State) : Prop where
  sane : s.Sane
  code : s.CodeOk

/-- A state from which no run stops: every step, however many, answers a next state. -/
def Safe (s : State) : Prop :=
  ∀ n, ∃ t, Host.Core.run Sys2Proof.core n s = .next t

end Sys2Proof.Machine
end

