-- ==== Sys2Proof/Certificates/Slice0/Obligations.lean ====
section
/-! DEFINITION. The statements for the provers, from the numbered rules of spec/: encodings, steps and reset, the host
port, whole-machine rules, and each instruction's result. `State.Sane` and `State.Inv` (Sys2Proof/Safety.lean) are the
invariants of the machine between commands; that every step keeps them is stated here as well. -/

section Slice0

open Sys2Proof Sys2Proof.Machine

/-! ## Encodings (spec/30_encoding.md) -/

/-- Every well-formed instruction decodes from its encoding, with every operand value; a table entry does so under its
header's bitsPerLength, whatever bits follow it (spec/30_encoding.md R100 to R102, R111, R116). -/
def Obligations.EncodeThenDecode : Prop :=
  ∀ i : Instr, i.wf = true → ∀ bpl, (∀ b l, i = .tableLiteral b l → bpl = b) →
    i.encode.decode bpl = some i ∧
    ∀ bits, i.encode = .tableEntry bits → ∀ rest, decodeTableEntry bpl (bits ++ rest) = .ok (i, rest)

/-- What the decoders give is well formed and encodes to what was decoded; of a command word either the whole word is
encoded again, or its opcode decodes to the same instruction under every IMM (spec/30_encoding.md R105, R111, R116). -/
def Obligations.DecodeThenEncode : Prop :=
  (∀ w i, decodeCommand w = .ok i → i.wf = true ∧ i.opcode = opField w ∧
    (i.encode = .command w ∨ ∀ imm, decodeCommand (commandWord (opField w) imm) = .ok i)) ∧
  (∀ c, (decodeTrieCode c).wf = true ∧ (decodeTrieCode c).encode = .trieCode c) ∧
  ∀ bpl bits i rest, decodeTableEntry bpl bits = .ok (i, rest) →
    i.wf = true ∧ ∃ bs, i.encode = .tableEntry bs ∧ bits = bs ++ rest

/-- The reserved opcodes are exactly those of spec/30_encoding.md R104, and each raises E_BAD_CMD with the whole command
word. -/
def Obligations.ReservedOpcodesFault : Prop :=
  ∀ w : Word,
    let op := (opField w).toNat
    let reserved := (0x02 ≤ op ∧ op ≤ 0x0F) ∨ (0x13 ≤ op ∧ op ≤ 0x17) ∨ (0x1B ≤ op ∧ op ≤ 0x1F) ∨
      (0x24 ≤ op ∧ op ≤ 0x2F) ∨ (0x38 ≤ op ∧ op ≤ 0x3F) ∨ (0x41 ≤ op ∧ op ≤ 0x47) ∨ 0x4C ≤ op
    (reserved → decodeCommand w = .error (.reservedOpcode (opField w)) ∧
      ∀ s : State, s.regs.status.fault = false →
        issueCommand w s = .next (s.faulted (opField w) .badCmd w)) ∧
    (¬reserved → ∃ i, decodeCommand w = .ok i)

/-- Words written out from spec/30_encoding.md R102, R111 and R116, and what they decode to. -/
def Obligations.DecodedSamples : Prop :=
  decodeCommand 0x11000003#32 = .ok (.bsPut 3) ∧
  decodeCommand 0x31000004#32 = .ok (.hufCanon 4) ∧
  decodeCommand 0x10FFFFFF#32 = .ok (.bsWinit 0xFFFFFF#24) ∧
  decodeCommand 0x49000061#32 = .ok (.trieDstep 97) ∧
  decodeTrieCode 128 = .sufdef ∧ decodeTrieCode 130 = .mask 2 ∧ decodeTrieCode 30 = .bksp 30 ∧
  decodeTrieCode 31 = .word ∧ decodeTrieCode 32 = .char 32 ∧ decodeTrieCode 256 = .invalidCode 256 ∧
  decodeTableEntry 2 [true, true, false, true] = .ok (.tableLiteral 2 2, [true]) ∧
  decodeTableEntry 2 [false, false, false, false, false, false, true, false, true] = .ok (.tableRun 5, [])

/-! ## Steps (spec/40_control.md R131, spec/20_memory.md R82 and R83) -/

/-- A step takes the next host access. A word written to CMD that decodes to an instruction is that instruction's
`exec`, at the state in which the write has been answered; outside the map it raises E_BAD_CMD; in the fault state
only SRESET executes (spec/40_control.md R131). With no access to come the machine is idle. The model's choices: that
the host's accesses are a queue whose head a step takes, and that an empty queue leaves the state as it is (log entry
5, which rests on spec/20_memory.md R83 and spec/60_exceptions.md R327), the answer `resp` (entry 4) and the counter
`free` (entry 3). -/
def Obligations.StepRunsDecodedCommand : Prop :=
  ∀ s : State, s.tread = none →
    (s.inbox = [] → step s = .next s) ∧
    ∀ op rest, s.inbox = op :: rest →
      step s = hostAccess op { s with inbox := rest } ∧
      ∀ w, op = .write32 cmdAddr w →
        let s1 : State := { s with inbox := rest, resp := .done, free := s.free + 1 }
        (s.regs.status.fault = false → ∀ i, decodeCommand w = .ok i → step s = exec i s1) ∧
        (s.regs.status.fault = false → (∀ i, decodeCommand w ≠ .ok i) →
          step s = .next (s1.faulted (opField w) .badCmd w)) ∧
        (s.regs.status.fault = true → step s = if opField w = 0x01#8 then exec .sreset s1 else .next s1)

/-- TRIE_DSTEP executes the code's own instruction, in the order of tests of the pseudocode of spec/46_trie_decoder.md
R263; with a character code and room on the stack it completes by pushing it. That a trie code is an instruction by
itself too, which acts as the code of a TRIE_DSTEP, is the model's choice (log entry 6). -/
def Obligations.DstepRunsTheCode : Prop :=
  ∀ (c : Imm) (s : State),
    decodeCommand (0x49#8 ++ c) = .ok (.trieDstep c) ∧
    (exec (.trieDstep c) s =
      if c.toNat = 128 then exec .sufdef s
      else if 129 ≤ c.toNat ∧ c.toNat ≤ 255 then exec (.mask (BitVec.ofNat 8 (c.toNat - 128))) s
      else if c.toNat ≤ 30 then exec (.bksp (BitVec.ofNat 8 c.toNat)) s
      else if c.toNat = 31 then exec .word s
      else if 32 ≤ c.toNat ∧ c.toNat ≤ 127 then exec (.char (BitVec.ofNat 8 c.toNat)) s
      else exec (.invalidCode c) s) ∧
    (32 ≤ c.toNat → c.toNat ≤ 127 → s.dec.stk.length ≠ 255 → exec (.trieDstep c) s =
      .next { s with dec := { s.dec with stk := s.dec.stk ++ [BitVec.ofNat 8 c.toNat], emitted := false } })

/-- The fault state is left only by SRESET, which gives every register and the decoder state their reset values and
leaves the memories alone; any other step keeps FAULT, FAULT_CODE, FAULT_OP, FAULT_INFO and the decoder state
(spec/60_exceptions.md R304 to R306). That a step takes the next access of a queue is log entry 5. -/
def Obligations.FaultStateLeftOnlyBySreset : Prop :=
  ∀ s t : State, s.tread = none → s.regs.status.fault = true → step s = .next t →
    ((∃ w rest, s.inbox = .write32 cmdAddr w :: rest ∧ opField w = 0x01#8) →
      t.regs = Regs.reset ∧ t.dec = Decoder.reset ∧ t.freq = s.freq ∧ t.len = s.len ∧ t.sym = s.sym ∧ t.buf = s.buf ∧
      t.win = s.win ∧ t.suf = s.suf ∧ t.wout = s.wout) ∧
    ((¬∃ w rest, s.inbox = .write32 cmdAddr w :: rest ∧ opField w = 0x01#8) →
      t.regs.status.fault = true ∧ t.regs.status.faultCode = s.regs.status.faultCode ∧
      t.regs.status.faultOp = s.regs.status.faultOp ∧ t.regs.faultInfo = s.regs.faultInfo ∧ t.dec = s.dec)

/-- Reading a table entry by entry, as the steps of a table read in progress do, ends in what HUF_TREAD does as one
command (spec/43_table_io.md R204 and R205; log entry 7 is the model's own account of the entries). -/
def Obligations.TableReadIsItsEntrySteps : Prop :=
  ∀ (s : State) (w : Work), s.tread = none →
    tableHeader s.regs { st := s, wroteLen := false } = .ok () w →
    ∃ k, Host.Core.run Sys2Proof.core k w.st = exec .hufTread s

/-- The two entry instructions inside a table read, and the step that runs the decoded entry (spec/43_table_io.md R204).
That an entry which no read is waiting for changes nothing is the model's choice (log entry 7). -/
def Obligations.TableEntryInstructions : Prop :=
  ∀ s : State,
    (s.tread = none → ∀ b v r, exec (.tableLiteral b v) s = .next s ∧ exec (.tableRun r) s = .next s) ∧
    ∀ t, s.tread = some t →
      let failed := { s with regs := if t.haveLast then t.start.dropCode else t.start }
      (t.n ≤ t.i → ∀ b v r, exec (.tableLiteral b v) s = .next s ∧ exec (.tableRun r) s = .next s) ∧
      (t.i < t.n → t.n ≤ s.params.symLimitMax →
        (∀ e w, fetchEntry t.bpl { st := s, wroteLen := t.haveLast } = .ok e w →
          step s = exec (entryInstr t.bpl e) w.st) ∧
        (∀ b v, exec (.tableLiteral b v) s =
          if s.params.maxCodeLen < v then .next (failed.faulted 0x33#8 .lenRange (BitVec.ofNat 32 t.i))
          else .next { s with
            len := s.len.write t.i (BitVec.ofNat 8 v)
            tread := some { t with i := t.i + 1, haveLast := true, last := BitVec.ofNat 8 v } }) ∧
        ∀ r, exec (.tableRun r) s =
          if t.haveLast = false then .next (failed.faulted 0x33#8 .tableFormat (subInfo 1 t.i))
          else if t.n < t.i + r.toNat then .next (failed.faulted 0x33#8 .tableFormat (subInfo 2 t.i))
          else .next { s with
            len := s.len.writeList t.i (List.replicate r.toNat t.last)
            tread := some { t with i := t.i + r.toNat } })

/-! ## Reset and registers (spec/10_state.md) -/

/-- What a 32-bit host read of each of the 64 registers of spec/10_state.md R23 answers, with the fields of R24, R32, R33
and R38 by their bit positions; CMD and the reserved offsets read 0 (R26, R40), and the read changes nothing but the
answer (spec/20_memory.md R80). That the answer is a field of the state is log entry 4, and that BUSY is derived from the
state is log entry 5. -/
def Obligations.RegisterMap : Prop :=
  ∀ s : State,
    let r := s.regs
    let reads := fun (offset : Nat) (v : Word) =>
      hostAccess (.read32 (BitVec.ofNat 32 offset)) s = .next { s with resp := .data v }
    reads 0x00 0x42494201#32 ∧
    reads 0x04 (BitVec.ofNat 32 (s.busy.toNat + 2 * r.status.fault.toNat + 4 * r.status.codeValid.toNat +
      256 * r.status.faultCode.toNat + 65536 * r.status.faultOp.toNat)) ∧
    reads 0x08 0 ∧
    reads 0x0C r.arg ∧ reads 0x10 r.result ∧ reads 0x14 r.faultInfo ∧
    reads 0x18 r.limit ∧ reads 0x1C r.maxlen ∧
    reads 0x20 r.wpos ∧ reads 0x24 (BitVec.ofNat 32 (r.wnb.toNat + 256 * r.wacc.toNat)) ∧
    reads 0x28 r.wcnt ∧
    reads 0x30 r.rpos ∧ reads 0x34 r.rlim ∧
    reads 0x38 (BitVec.ofNat 32 (r.rnb.toNat + 256 * r.racc.toNat)) ∧ reads 0x3C r.rcnt ∧
    reads 0x40 r.symCnt ∧ reads 0x44 r.winCnt ∧ reads 0x48 r.sufCnt ∧
    reads 0x4C r.woutCnt ∧ reads 0x50 r.woutPtr ∧
    (s.dec.stk.length ≤ 255 → s.dec.bank.length ≤ 7 →
      reads 0x54 (BitVec.ofNat 32
        (s.dec.stk.length + 256 * s.dec.bank.length + 65536 * s.dec.emitted.toNat))) ∧
    reads 0x60 (BitVec.ofNat 32 s.params.symLimitMax) ∧
    reads 0x64 (BitVec.ofNat 32 s.params.maxCodeLen) ∧
    reads 0x68 (BitVec.ofNat 32 s.params.bufSize) ∧
    reads 0x6C (BitVec.ofNat 32 s.params.symSize) ∧
    reads 0x70 (BitVec.ofNat 32 s.params.winSize) ∧
    reads 0x74 (BitVec.ofNat 32 s.params.sufSize) ∧
    reads 0x78 (BitVec.ofNat 32 s.params.woutSize) ∧
    reads 0x2C 0 ∧ reads 0x58 0 ∧ reads 0x5C 0 ∧
    ∀ k, 0x1F ≤ k → k < 0x40 → reads (4 * k) 0

/-- NOP changes nothing. SRESET gives every register and the decoder state the values of power-on reset and writes no
memory element. At those values every register but the constants reads 0. Both ignore IMM (spec/40_control.md R130 and
R132, spec/10_state.md R58). -/
def Obligations.NopAndSreset : Prop :=
  ∀ (imm : Imm) (p : Params) (s : State),
    decodeCommand (0x00#8 ++ imm) = .ok .nop ∧ exec .nop s = .next s ∧
    decodeCommand (0x01#8 ++ imm) = .ok .sreset ∧
    exec .sreset s =
      .next { s with regs := (State.resetWith p).regs, dec := (State.resetWith p).dec, tread := none } ∧
    (State.resetWith p).dec = { stk := [], bank := [], emitted := false } ∧
    ∀ k, 1 ≤ k → k < 0x18 → readReg (State.resetWith p) (4 * k) = some 0

/-- The state after power-on reset meets the invariant, for every choice of legal parameters, the defaults among them,
and lists no memory element (spec/70_reset_and_hazards.md R340; that unlisted elements read as 0 is log entry 1). -/
def Obligations.ResetMeetsInv : Prop :=
  (∀ p : Params, p.Legal → (State.resetWith p).Inv) ∧ Params.default.Legal ∧
    State.reset = State.resetWith Params.default

/-! ## Invariants -/

/-- Every step keeps the bounds that spec/10_state.md gives the state between commands (R30 to R33, R37, R42 to R47). -/
def Obligations.StepKeepsSane : Prop :=
  ∀ s t : State, s.Sane → step s = .next t → t.Sane

/-- Every step keeps the whole invariant: CODE_VALID = 1 goes on meaning that LEN[0..LIMIT) passed the full-tree check
with every length in range, and MAXLEN is its longest length (spec/10_state.md R25 and R31). -/
def Obligations.StepKeepsInv : Prop :=
  ∀ s t : State, s.Inv → step s = .next t → t.Inv

/-- From a state with the invariant no run stops: whatever the host does, every step answers a next state. "A host that
skips one gets the fault named there, never undefined behaviour" (spec/70_reset_and_hazards.md R342). -/
def Obligations.InvIsSafe : Prop :=
  ∀ s : State, s.Inv → Safe s

/-! ## The host port (spec/20_memory.md sections 1 and 3) -/

/-- Which accesses are admitted (R70 to R73): an admitted read is answered with data and an admitted write is done; an
access that is not admitted is answered with an error and has no effect. A read changes only the answer, and read
again it gives the same answer (R80). That the index ranges are half-open, so that the index at a memory's size is no
element, is the model's reading (log entry 11); the answers are log entry 4, and the counter `free` is entry 3. -/
def Obligations.AdmittedHostAccesses : Prop :=
  ∀ (s : State) (a : Word), s.params.Legal →
    (∀ n op, (n = 1 ∧ op = HostOp.read8 a) ∨ (n = 2 ∧ op = .read16 a) ∨ (n = 4 ∧ op = .read32 a) →
      ∃ x, hostAccess op s = .next { s with resp := x } ∧
        hostAccess op { s with resp := x } = .next { s with resp := x } ∧
        (Admitted s.params n a → ∃ v, x = .data v) ∧ (¬Admitted s.params n a → x = .error)) ∧
    ∀ n op, (n = 1 ∧ ∃ v, op = HostOp.write8 a v) ∨ (n = 2 ∧ ∃ v, op = .write16 a v) ∨
        (n = 4 ∧ ∃ v, op = .write32 a v) →
      (¬Admitted s.params n a → hostAccess op s = .next { s with free := s.free + 1, resp := .error }) ∧
      (Admitted s.params n a → a ≠ cmdAddr → ∃ t, hostAccess op s = .next t ∧ t.resp = .done)

/-- A host write to an element stores it, and leaves every other element, the decoder and every register alone, but that
a write to LEN drops the loaded code; a read returns the element, and TSTK[d] is STK[d] below the depth. Writes to TSTK
are ignored (spec/20_memory.md R79 and R83, spec/10_state.md R57). That a write to WOUT is stored is the model's choice
(log entry 18); a TSTK byte at or above the depth is a free value (log entry 3), and the answers are log entry 4. -/
def Obligations.HostElementAccess : Prop :=
  ∀ (s : State) (sp : Space) (i : Nat), s.Sane → i < size s.params sp →
    hostAccess (sp.readOp i) s = .next { s with resp := .data (BitVec.ofNat 32 (s.element sp i)) } ∧
    (∀ d, d < s.dec.stk.length → s.element .tstk d = (s.dec.stk.getD d 0).toNat) ∧
    ∀ v, v < 2 ^ (8 * sp.bytes) →
      ∃ t, hostAccess (sp.writeOp i v) s = .next t ∧ t.resp = .done ∧ t.inbox = s.inbox ∧ t.dec = s.dec ∧
        t.regs = (if sp = .len then s.regs.dropCode else s.regs) ∧
        (sp ≠ .tstk → t.element sp i = v) ∧
        ∀ sp' j, sp' ≠ .tstk → (sp' ≠ sp ∨ j ≠ i) → t.element sp' j = s.element sp' j

/-- A host write to a register: ARG, SYM_CNT, WIN_CNT and SUF_CNT store every 32-bit value; a write to any other
register but CMD, or to a reserved offset, has no effect (spec/10_state.md R40 and R41). The answer `resp` is log
entry 4, and the counter `free` log entry 3. -/
def Obligations.RegisterWrites : Prop :=
  ∀ (s : State) (k : Nat) (v : Word), k < 64 → k ≠ 2 →
    hostAccess (.write32 (BitVec.ofNat 32 (4 * k)) v) s =
      .next { s with
        free := s.free + 1
        resp := .done
        regs := { s.regs with
          arg := if k = 3 then v else s.regs.arg
          symCnt := if k = 16 then v else s.regs.symCnt
          winCnt := if k = 17 then v else s.regs.winCnt
          sufCnt := if k = 18 then v else s.regs.sufCnt } }

/-! ## Whole-machine rules -/

/-- Fault entry, for every instruction: the registers but STATUS and FAULT_INFO and the decoder state are as before,
FAULT_OP is the opcode, and CODE_VALID with MAXLEN becomes 0 exactly where the command wrote LEN, else it is kept. LEN
is written before a fault by HUF_BENC when BUF fills, and by HUF_TREAD and HUF_BDEC when the table's first entry is a
literal in range. Memory writes made before the fault stay inside what the command writes (spec/60_exceptions.md R302
and R303). The model's choices: for TRIE_DRUN the WOUT bytes are those from 0 on (log entry 12), and a trie code
executed by itself records FAULT_OP = 0x49 (log entry 6). -/
def Obligations.FaultEntryRollsBack : Prop :=
  ∀ (i : Instr) (s t : State), s.Inv → s.regs.status.fault = false → exec i s = .next t →
    t.regs.status.fault = true →
      let wroteLen := match i with
        | .hufBenc => t.regs.status.faultCode = 0x0C#8
        | .hufTread => s.FirstLiteralFits
        | .hufBdec n => n.toNat ≤ s.params.symSize ∧ s.FirstLiteralFits
        | _ => False
      t.regs = { s.regs with
        status := t.regs.status
        faultInfo := t.regs.faultInfo
        maxlen := t.regs.maxlen } ∧
      t.dec = s.dec ∧ t.tread = none ∧
      t.regs.status.faultOp = i.opcode ∧
      1 ≤ t.regs.status.faultCode.toNat ∧ t.regs.status.faultCode.toNat ≤ 0x14 ∧
      (wroteLen → t.regs.status.codeValid = false ∧ t.regs.maxlen = 0) ∧
      (¬wroteLen → t.regs.status.codeValid = s.regs.status.codeValid ∧ t.regs.maxlen = s.regs.maxlen ∧
        t.len = s.len) ∧
      (i = .hufBenc ∨ t.freq = s.freq) ∧ ((∃ n, i = .hufBdec n) ∨ t.sym = s.sym) ∧
      t.win = s.win ∧ t.suf = s.suf ∧
      (∀ a, a < s.regs.wpos.toNat → t.buf.read a = s.buf.read a) ∧
      (i = .trieDrun ∨ ∀ a, a < s.regs.woutPtr.toNat → t.wout.read a = s.wout.read a)

/-- Which commands write which register (spec/10_state.md R25, R27, R28, R30, R34 to R37): no command but SRESET
writes ARG, WIN_CNT or SUF_CNT; RESULT, LIMIT, SYM_CNT, CODE_VALID with MAXLEN, and the decoder's registers and state
are written by the commands that the rules name. The host's side of the port is no command's to change. -/
def Obligations.RegisterWriters : Prop :=
  ∀ (i : Instr) (s t : State), s.Sane → i ≠ .sreset → exec i s = .next t →
    t.regs.arg = s.regs.arg ∧ t.regs.winCnt = s.regs.winCnt ∧ t.regs.sufCnt = s.regs.sufCnt ∧
    (match i with
      | .bsGet _ => True
      | .ftGet _ => True
      | .hufDec => True
      | _ => t.regs.result = s.regs.result) ∧
    (match i with
      | .ftInit _ => True
      | .hufCanon _ => True
      | .hufTread => True
      | .hufBenc => True
      | .hufBdec _ => True
      | _ => t.regs.limit = s.regs.limit) ∧
    (match i with
      | .ftInit _ => True
      | .hufBuild => True
      | .hufCanon _ => True
      | .hufTread => True
      | .hufBenc => True
      | .hufBdec _ => True
      | _ => t.regs.status.codeValid = s.regs.status.codeValid ∧ t.regs.maxlen = s.regs.maxlen) ∧
    (match i with
      | .trieEnc => True
      | .hufBdec _ => True
      | _ => t.regs.symCnt = s.regs.symCnt) ∧
    (match i with
      | .trieDinit => True
      | .trieDstep _ => True
      | .trieDend => True
      | .trieDrun => True
      | .sufdef => True
      | .mask _ => True
      | .bksp _ => True
      | .word => True
      | .char _ => True
      | _ => t.dec = s.dec ∧ t.regs.woutCnt = s.regs.woutCnt ∧ t.regs.woutPtr = s.regs.woutPtr) ∧
    t.params = s.params ∧ t.inbox = s.inbox ∧ t.resp = s.resp ∧ t.free = s.free

/-- The frame of the tables and the trie inputs, where FAULT = 0, whether the command succeeds or faults: every
element that no store of the command addresses reads as before (spec/10_state.md R47 and R48). For HUF_TREAD and
HUF_BDEC the stored LEN elements are below the count in the table's header. -/
def Obligations.TableMemoryFrame : Prop :=
  ∀ (i : Instr) (s t : State), s.Sane → s.regs.status.fault = false → exec i s = .next t →
    let header := bitsToNat (s.readAligned.unreadBits.take 16)
    let block := maxLen (s.syms s.regs.symCnt.toNat) + 1
    (∀ a, t.win.read a = s.win.read a) ∧ (∀ a, t.suf.read a = s.suf.read a) ∧
    (∀ a, (match i with
        | .ftInit limit => limit.toNat ≤ a
        | .ftInc sym => a ≠ sym.toNat
        | .ftSet sym => a ≠ sym.toNat
        | .hufBenc => block ≤ a
        | _ => True) → t.freq.read a = s.freq.read a) ∧
    (∀ a, (match i with
        | .hufBuild => s.regs.limit.toNat ≤ a
        | .hufTread => header ≤ a
        | .hufBdec _ => header ≤ a
        | .hufBenc => block ≤ a
        | _ => True) → t.len.read a = s.len.read a) ∧
    ∀ a, (match i with
        | .trieEnc => t.regs.symCnt.toNat ≤ a ∨ t.regs.status.fault = true
        | .hufBdec n => n.toNat ≤ a
        | _ => True) → t.sym.read a = s.sym.read a

/-- The frame of the two output streams: BUF is written only by the bit writer's commands, from WPOS on and, by a
command that succeeds, below the new WPOS; WOUT only by the trie decoder's, from WOUT_PTR on (TRIE_DRUN from 0 on)
and, by a command that succeeds, below the new WOUT_PTR (spec/10_state.md R47, spec/41_bitstream.md R144 and R154; for
TRIE_DRUN log entry 12). -/
def Obligations.StreamMemoryFrame : Prop :=
  ∀ (i : Instr) (s t : State), s.Sane → s.regs.status.fault = false → exec i s = .next t →
    (∀ a, (match i with
        | .bsPut _ => a < s.regs.wpos.toNat ∨ (t.regs.status.fault = false ∧ t.regs.wpos.toNat ≤ a)
        | .bsWalign => a < s.regs.wpos.toNat ∨ (t.regs.status.fault = false ∧ t.regs.wpos.toNat ≤ a)
        | .hufTwrite => a < s.regs.wpos.toNat ∨ (t.regs.status.fault = false ∧ t.regs.wpos.toNat ≤ a)
        | .hufEnc _ => a < s.regs.wpos.toNat ∨ (t.regs.status.fault = false ∧ t.regs.wpos.toNat ≤ a)
        | .hufBenc => a < s.regs.wpos.toNat ∨ (t.regs.status.fault = false ∧ t.regs.wpos.toNat ≤ a)
        | _ => True) → t.buf.read a = s.buf.read a) ∧
    ∀ a, (match i with
        | .trieDstep _ => a < s.regs.woutPtr.toNat ∨ (t.regs.status.fault = false ∧ t.regs.woutPtr.toNat ≤ a)
        | .trieDend => a < s.regs.woutPtr.toNat ∨ (t.regs.status.fault = false ∧ t.regs.woutPtr.toNat ≤ a)
        | .mask _ => a < s.regs.woutPtr.toNat ∨ (t.regs.status.fault = false ∧ t.regs.woutPtr.toNat ≤ a)
        | .bksp _ => a < s.regs.woutPtr.toNat ∨ (t.regs.status.fault = false ∧ t.regs.woutPtr.toNat ≤ a)
        | .word => a < s.regs.woutPtr.toNat ∨ (t.regs.status.fault = false ∧ t.regs.woutPtr.toNat ≤ a)
        | .trieDrun => t.regs.status.fault = false ∧ t.regs.woutPtr.toNat ≤ a
        | _ => True) → t.wout.read a = s.wout.read a

/-- "No write command changes a read register, and no read command changes a write register" (spec/41_bitstream.md
R156): of all commands only the bit writer's change WPOS, WNB, WACC and WCNT, and only the bit reader's RPOS, RLIM,
RNB, RACC and RCNT. -/
def Obligations.StreamsAreIndependent : Prop :=
  ∀ (i : Instr) (s t : State), s.Sane → i ≠ .sreset → exec i s = .next t →
    (match i with
      | .bsWinit _ => True
      | .bsPut _ => True
      | .bsWalign => True
      | .hufTwrite => True
      | .hufEnc _ => True
      | .hufBenc => True
      | _ => t.regs.wpos = s.regs.wpos ∧ t.regs.wnb = s.regs.wnb ∧ t.regs.wacc = s.regs.wacc ∧
          t.regs.wcnt = s.regs.wcnt) ∧
    (match i with
      | .bsRinit _ => True
      | .bsGet _ => True
      | .bsRalign => True
      | .hufTread => True
      | .hufDec => True
      | .hufBdec _ => True
      | _ => t.regs.rpos = s.regs.rpos ∧ t.regs.rlim = s.regs.rlim ∧ t.regs.rnb = s.regs.rnb ∧
          t.regs.racc = s.regs.racc ∧ t.regs.rcnt = s.regs.rcnt)

/-! ## Bit-stream commands (spec/41_bitstream.md) -/

/-- BS_WINIT, BS_RINIT and BS_RALIGN, their operand checks in order (R140, R151, R153). -/
def Obligations.StreamStartCommands : Prop :=
  ∀ (a : Imm) (s : State),
    decodeCommand (0x10#8 ++ a) = .ok (.bsWinit a) ∧
    (s.params.bufSize < a.toNat → exec (.bsWinit a) s = .next (s.faulted 0x10#8 .arg (a.setWidth 32))) ∧
    (a.toNat ≤ s.params.bufSize → exec (.bsWinit a) s =
      .next { s with regs := { s.regs with wpos := a.setWidth 32, wnb := 0, wacc := 0, wcnt := 0 } }) ∧
    decodeCommand (0x18#8 ++ a) = .ok (.bsRinit a) ∧
    (s.params.bufSize < s.regs.arg.toNat →
      exec (.bsRinit a) s = .next (s.faulted 0x18#8 .arg s.regs.arg)) ∧
    (s.regs.arg.toNat ≤ s.params.bufSize → s.regs.arg.toNat < a.toNat →
      exec (.bsRinit a) s = .next (s.faulted 0x18#8 .arg (a.setWidth 32))) ∧
    (s.regs.arg.toNat ≤ s.params.bufSize → a.toNat ≤ s.regs.arg.toNat → exec (.bsRinit a) s =
      .next { s with regs :=
        { s.regs with rpos := a.setWidth 32, rlim := s.regs.arg, rnb := 0, racc := 0, rcnt := 0 } }) ∧
    decodeCommand (0x1A#8 ++ a) = .ok .bsRalign ∧
    exec .bsRalign s = .next { s with regs := { s.regs with rnb := 0 } }

/-- BS_PUT n appends the low n bits of ARG to the write stream, bit n - 1 first: whole bytes are stored from WPOS on, the
rest is pending. When BUF fills it faults, and the bytes that fitted are stored (R141, R142). -/
def Obligations.BsPutResult : Prop :=
  ∀ (n : Imm) (s : State), s.Sane →
    decodeCommand (0x11#8 ++ n) = .ok (.bsPut n) ∧
    (32 < n.toNat → exec (.bsPut n) s = .next (s.faulted 0x11#8 .arg (n.setWidth 32))) ∧
    (n.toNat ≤ 32 →
      let bits := (List.range n.toNat).map fun k => s.regs.arg.getLsbD (n.toNat - 1 - k)
      (s.HasRoom n.toNat → exec (.bsPut n) s = .next (s.afterBits bits)) ∧
      (¬s.HasRoom n.toNat → exec (.bsPut n) s = .next
        { s.faulted 0x11#8 .bufFull (BitVec.ofNat 32 s.params.bufSize) with buf := s.bufFilled bits }))

/-- BS_WALIGN: with WNB = k > 0 it stores the partial byte with its low 8 - k bits zero; with WNB = 0 it does nothing;
it faults when a partial byte has no room. Twice in a row is the same as once (R143). -/
def Obligations.BsWalignResult : Prop :=
  ∀ (imm : Imm) (s : State), s.Sane →
    decodeCommand (0x12#8 ++ imm) = .ok .bsWalign ∧
    (s.regs.wnb = 0 → exec .bsWalign s = .next s) ∧
    (s.regs.wnb ≠ 0 → s.regs.wpos.toNat < s.params.bufSize → exec .bsWalign s =
      .next { s with
        buf := s.buf.write s.regs.wpos.toNat (s.regs.wacc <<< (8 - s.regs.wnb.toNat))
        regs := { s.regs with wpos := s.regs.wpos + 1, wcnt := s.regs.wcnt + 1, wnb := 0, wacc := 0 } }) ∧
    (s.regs.wnb ≠ 0 → s.params.bufSize ≤ s.regs.wpos.toNat →
      exec .bsWalign s = .next (s.faulted 0x12#8 .bufFull s.regs.wpos)) ∧
    ∀ t, exec .bsWalign s = .next t → t.regs.wnb = 0 → exec .bsWalign t = .next t

/-- BS_GET n returns the next n bits, the first of them bit n - 1 of RESULT, and advances the read cursor over the
bytes they came from; when fewer are left it faults, with nothing changed but STATUS and FAULT_INFO (R150, R152). The
RNB it leaves is the one of R150's pseudocode and of vector 2.3 #3 (5 after 3 + 8 bits over two bytes), where R152's
own example says 3: that the pseudocode is followed there is the model's reading (log entry 14, DEDUCED). -/
def Obligations.BsGetResult : Prop :=
  ∀ (n : Imm) (s : State), s.Sane →
    decodeCommand (0x19#8 ++ n) = .ok (.bsGet n) ∧
    (32 < n.toNat → exec (.bsGet n) s = .next (s.faulted 0x19#8 .arg (n.setWidth 32))) ∧
    (n.toNat ≤ 32 → n.toNat ≤ s.unreadBits.length →
      ∃ t, exec (.bsGet n) s = .next t ∧
        t = { s.afterReading n.toNat with regs := { (s.afterReading n.toNat).regs with result := t.regs.result } } ∧
        (∀ k < n.toNat, t.regs.result.getLsbD (n.toNat - 1 - k) = s.unreadBits.getD k false) ∧
        t.regs.result.toNat < 2 ^ n.toNat) ∧
    (n.toNat ≤ 32 → s.unreadBits.length < n.toNat →
      exec (.bsGet n) s = .next (s.faulted 0x19#8 .eos s.regs.rlim))

/-- Bits written from a byte boundary, padded, and read back from the same address: the stored bytes are those from WPOS
on, their number is the bits' rounded up to bytes, and the reader gets the bits and then the zero padding (R155). -/
def Obligations.WriteThenRead : Prop :=
  ∀ (s : State) (bits : List Bool) (lim : Word), s.Sane → s.regs.wnb = 0 →
    let m := (bits.length + 7) / 8
    s.regs.wpos.toNat + m ≤ lim.toNat → lim.toNat ≤ s.params.bufSize →
    ∃ t, (putBits bits { st := s, wroteLen := false }).bind (fun _ w => alignW w) =
        .ok () { st := t, wroteLen := false } ∧
      t.regs.wpos.toNat = s.regs.wpos.toNat + m ∧
      (∀ a, a < s.regs.wpos.toNat ∨ s.regs.wpos.toNat + m ≤ a → t.buf.read a = s.buf.read a) ∧
      ∃ u, exec (.bsRinit (s.regs.wpos.setWidth 24)) { t with regs := { t.regs with arg := lim } } = .next u ∧
        ∃ w, getBits (8 * m) { st := u, wroteLen := false } =
          .ok (bits ++ List.replicate (8 * m - bits.length) false) w

/-! ## Frequency table, code build and canonical codes (spec/42_huffman_build.md) -/

/-- FT_INIT: FREQ[0..limit) reads 0, the rest as before; LIMIT is set and the loaded code dropped. FT_INC, FT_SET and
FT_GET: their checks in order, and their one effect (R170 to R173). -/
def Obligations.FrequencyCommands : Prop :=
  ∀ (n : Imm) (s : State), s.Sane →
    decodeCommand (0x20#8 ++ n) = .ok (.ftInit n) ∧ decodeCommand (0x21#8 ++ n) = .ok (.ftInc n) ∧
    decodeCommand (0x22#8 ++ n) = .ok (.ftSet n) ∧ decodeCommand (0x23#8 ++ n) = .ok (.ftGet n) ∧
    (n.toNat < 2 ∨ s.params.symLimitMax < n.toNat →
      exec (.ftInit n) s = .next (s.faulted 0x20#8 .config (n.setWidth 32))) ∧
    (2 ≤ n.toNat → n.toNat ≤ s.params.symLimitMax →
      ∃ t, exec (.ftInit n) s = .next t ∧
        t = { s with freq := t.freq, regs := { s.regs with
          limit := n.setWidth 32
          maxlen := 0
          status := { s.regs.status with codeValid := false } } } ∧
        ∀ i, t.freq.read i = if i < n.toNat then 0 else s.freq.read i) ∧
    let f := s.freq.read n.toNat
    exec (.ftInc n) s =
      (if s.regs.limit.toNat ≤ n.toNat then .next (s.faulted 0x21#8 .arg (n.setWidth 32))
      else if f.getLsbD 31 then .next (s.faulted 0x21#8 .negFreq (n.setWidth 32))
      else if f = 0x7FFFFFFF#32 then .next (s.faulted 0x21#8 .freqMax (n.setWidth 32))
      else .next { s with freq := s.freq.write n.toNat (f + 1) }) ∧
    exec (.ftSet n) s =
      (if s.regs.limit.toNat ≤ n.toNat then .next (s.faulted 0x22#8 .arg (n.setWidth 32))
      else if s.regs.arg.getLsbD 31 then .next (s.faulted 0x22#8 .negFreq (n.setWidth 32))
      else .next { s with freq := s.freq.write n.toNat s.regs.arg }) ∧
    exec (.ftGet n) s =
      if s.regs.limit.toNat ≤ n.toNat then .next (s.faulted 0x23#8 .arg (n.setWidth 32))
      else .next { s with regs := { s.regs with result := f } }

/-- HUF_BUILD: its checks in order, each with the lowest symbol; then LEN[0..LIMIT) holds the depths of the tree that
BuildTree gives, and that code is loaded (R185). The tree is one of the greedy merge over the leaves: the two nodes
least by weight and then by lowest symbol are merged, the first of them to the left, until one is left (R174, R175). -/
def Obligations.HufBuildResult : Prop :=
  ∀ (imm : Imm) (s : State), s.Sane →
    let n := s.regs.limit.toNat
    decodeCommand (0x30#8 ++ imm) = .ok .hufBuild ∧
    (n < 2 → exec .hufBuild s = .next (s.faulted 0x30#8 .config s.regs.limit)) ∧
    (2 ≤ n →
      (∀ i < n, (s.freq.read i).getLsbD 31 = true → (∀ j < i, (s.freq.read j).getLsbD 31 = false) →
        exec .hufBuild s = .next (s.faulted 0x30#8 .negFreq (BitVec.ofNat 32 i))) ∧
      ((∀ i < n, (s.freq.read i).getLsbD 31 = false) →
        ∃ t, buildTree (s.freqs n) = some t ∧ GreedyMerge (leafNodes (s.freqs n)) t ∧
          let d := depthList t n
          (∀ i < n, s.params.maxCodeLen < d.getD i 0 → (∀ j < i, d.getD j 0 ≤ s.params.maxCodeLen) →
            exec .hufBuild s = .next (s.faulted 0x30#8 .lenRange (BitVec.ofNat 32 i))) ∧
          ((∀ i < n, d.getD i 0 ≤ s.params.maxCodeLen) →
            exec .hufBuild s = .next { s with
              len := s.len.writeList 0 (d.map (BitVec.ofNat 8))
              regs := { s.regs with
                maxlen := BitVec.ofNat 32 (maxLen d)
                status := { s.regs.status with codeValid := true } } })))

/-- With fewer than two nonzero counts the code is padded with the lowest symbols without a count, and both leaves get
length 1 (R176). -/
def Obligations.HufBuildPads : Prop :=
  ∀ s : State, s.Sane → 2 ≤ s.regs.limit.toNat →
    (∀ k, (∀ i < s.regs.limit.toNat, i ≠ k → s.freq.read i = 0) → k < s.regs.limit.toNat →
      (s.freq.read k).getLsbD 31 = false →
      let z := if s.freq.read k = 0 then (if k = 0 then 1 else 0) else if k = 0 then 1 else 0
      let k' := if s.freq.read k = 0 then (if k = 0 then 0 else 1) else k
      ∃ t, exec .hufBuild s = .next t ∧ t.regs.status.codeValid = true ∧ t.regs.maxlen = 1 ∧
        t.regs.limit = s.regs.limit ∧
        ∀ i, i < s.regs.limit.toNat → t.len.read i = if i = k' ∨ i = z then 1 else 0)

/-- The built code is always valid and stable: for any counts of two or more symbols the depths pass the full-tree
check, the canonical tree of the depths has those depths, and HUF_CANON accepts what HUF_BUILD wrote and changes
nothing (R187). -/
def Obligations.BuiltCodeIsValid : Prop :=
  (∀ freqs : List Nat, 2 ≤ freqs.length →
    ∃ t, buildTree freqs = some t ∧ validate (depthList t freqs.length) = .full ∧
      ∃ c, canonTree (depthList t freqs.length) = some c ∧
        depthList c freqs.length = depthList t freqs.length) ∧
  ∀ s t : State, s.Sane → s.regs.status.fault = false → exec .hufBuild s = .next t → t.regs.status.fault = false →
    exec (.hufCanon (t.regs.limit.setWidth 24)) t = .next t

/-- The built code is optimal: "among prefix codes over the leaf symbols, Σ FREQ[s]·LEN[s] is minimal" (R187). -/
def Obligations.BuiltCodeIsOptimal : Prop :=
  ∀ (freqs : List Nat) (t : Tree), 2 ≤ freqs.length → buildTree freqs = some t →
    ∀ code : Nat → List Bool,
      (∀ a ∈ leafSymbols freqs, ∀ b ∈ leafSymbols freqs, a ≠ b → ¬ code a <+: code b) →
      ((leafSymbols freqs).map fun s => freqs.getD s 0 * (depthList t freqs.length).getD s 0).sum ≤
        ((leafSymbols freqs).map fun s => freqs.getD s 0 * (code s).length).sum

/-- The full-tree check passes exactly when Kraft's equality holds; when it fails, it fails as the loop of R180 over the
lengths in descending order does. -/
def Obligations.FullTreeCheck : Prop :=
  ∀ lens : List Nat, (validate lens = .full ↔ kraftSum lens = 1) ∧ validate lens = validateSorted lens

/-- HUF_CANON: its checks in order, and the loaded code; LEN is read only (R181, R186). -/
def Obligations.HufCanonResult : Prop :=
  ∀ (limit : Imm) (s : State),
    let lens := s.lens limit.toNat
    decodeCommand (0x31#8 ++ limit) = .ok (.hufCanon limit) ∧
    (limit.toNat < 2 ∨ s.params.symLimitMax < limit.toNat →
      exec (.hufCanon limit) s = .next (s.faulted 0x31#8 .config (limit.setWidth 32))) ∧
    (2 ≤ limit.toNat → limit.toNat ≤ s.params.symLimitMax →
      (∀ i < limit.toNat, s.params.maxCodeLen < (s.len.read i).toNat →
        (∀ j < i, (s.len.read j).toNat ≤ s.params.maxCodeLen) →
        exec (.hufCanon limit) s = .next (s.faulted 0x31#8 .lenRange (BitVec.ofNat 32 i))) ∧
      ((∀ i < limit.toNat, (s.len.read i).toNat ≤ s.params.maxCodeLen) →
        (∀ v, validate lens = .underfull v →
          exec (.hufCanon limit) s = .next (s.faulted 0x31#8 .underfull (BitVec.ofNat 32 v))) ∧
        (∀ c, validate lens = .overfull c →
          exec (.hufCanon limit) s = .next (s.faulted 0x31#8 .overfull (BitVec.ofNat 32 c))) ∧
        (validate lens = .full → exec (.hufCanon limit) s = .next { s with regs := { s.regs with
          limit := limit.setWidth 32
          maxlen := BitVec.ofNat 32 (maxLen lens)
          status := { s.regs.status with codeValid := true } } })))

/-- The canonical codes of a length array that passes the full-tree check: exactly the symbols with a nonzero length have
one, of that length; no code is a prefix of another; and every infinite bit sequence starts with exactly one of them
(R182, R183). -/
def Obligations.CanonicalCodeIsComplete : Prop :=
  ∀ lens : List Nat, validate lens = .full →
    (∀ sym, 0 < lens.getD sym 0 → ∃ c, codeOf lens sym = some c ∧ c.length = lens.getD sym 0) ∧
    (∀ sym, lens.getD sym 0 = 0 → codeOf lens sym = none) ∧
    (∀ a b ca cb, codeOf lens a = some ca → codeOf lens b = some cb → ca <+: cb → a = b) ∧
    ∀ bits : Nat → Bool, ∃ sym c, codeOf lens sym = some c ∧ c = (List.range c.length).map bits

/-- The closed form of the canonical codes: the symbols of one length have consecutive values, in ascending symbol order,
from start[l] (R184). -/
def Obligations.CanonicalCodeClosedForm : Prop :=
  ∀ lens : List Nat, validate lens = .full → ∀ sym, 0 < lens.getD sym 0 →
    ∃ c, codeOf lens sym = some c ∧
      bitsToNat c = firstCode lens (lens.getD sym 0) + (lens.take sym).count (lens.getD sym 0)

/-! ## Code-length tables (spec/43_table_io.md) -/

/-- The writer's run rule: the entries stand for the lengths; each literal is followed by a run exactly when the longest
run of the same length after it, up to 255, saves bits; every run follows a literal (R202). -/
def Obligations.TableRunRule : Prop :=
  ∀ (bpl : Nat) (lens : List Nat),
    let es := tableEntries bpl 0 lens
    (∃ fs, es.mapM entryFields = some fs ∧ expandEntries none fs = some lens) ∧
    (∀ before r after, es = before ++ .tableRun r :: after →
      1 ≤ r.toNat ∧ 9 < r.toNat * (1 + bpl) ∧ ∃ b l before', before = before' ++ [.tableLiteral b l]) ∧
    ∀ before b l after fs done rest, es = before ++ .tableLiteral b l :: after →
      before.mapM entryFields = some fs → expandEntries none fs = some done → lens = done ++ l :: rest →
      let r := runLength l 255 rest
      if 9 < r * (1 + bpl) then ∃ after', after = .tableRun (BitVec.ofNat 8 r) :: after'
      else ∀ r' after', after ≠ .tableRun r' :: after'

/-- HUF_TWRITE appends to the write stream: padding to a byte boundary, the table of the loaded code, padding. Without a
loaded code it faults; when BUF fills it faults, and the bytes that fitted are stored (R200, R201, R203). -/
def Obligations.HufTwriteResult : Prop :=
  ∀ (imm : Imm) (s : State), s.Inv →
    let bits := tableStreamBits s.regs.wnb.toNat s.loadedLens
    decodeCommand (0x32#8 ++ imm) = .ok .hufTwrite ∧
    (s.regs.status.codeValid = false → exec .hufTwrite s = .next (s.faulted 0x32#8 .notReady 0)) ∧
    (s.regs.status.codeValid = true →
      (s.HasRoom bits.length → exec .hufTwrite s = .next (s.afterBits bits)) ∧
      (¬s.HasRoom bits.length → exec .hufTwrite s = .next
        { s.faulted 0x32#8 .bufFull (BitVec.ofNat 32 s.params.bufSize) with buf := s.bufFilled bits }))

/-- HUF_TREAD of a whole table, whatever its bitsPerLength and its choice of runs: LEN holds the lengths, and they are
loaded when they pass the full-tree check; when they fail it the command faults with LEN written and no code loaded
(R204, R205, R207). -/
def Obligations.HufTreadResult : Prop :=
  ∀ (s : State) (n bpl : Nat) (es : List (Bool × Nat)) (lens : List Nat) (rest : List Bool), s.Sane →
    n ≤ s.params.symLimitMax → 2 ≤ n → bpl < 256 →
    (∀ e ∈ es, e.2 < 2 ^ (if e.1 then bpl else 8)) →
    expandEntries none es = some lens → lens.length = n →
    (∀ ls, expandEntries none es.dropLast = some ls → ls.length < n) →
    (∀ l ∈ lens, l ≤ s.params.maxCodeLen) →
    s.readAligned.unreadBits = tableWith n bpl es ++ rest →
    let r := (s.readAligned.afterReading (tableWith n bpl es).length).readAligned
    let len := s.len.writeList 0 (lens.map (BitVec.ofNat 8))
    (validate lens = .full → exec .hufTread s = .next { r with
      len := len
      regs := { r.regs with
        limit := BitVec.ofNat 32 n
        maxlen := BitVec.ofNat 32 (maxLen lens)
        status := { r.regs.status with codeValid := true } } }) ∧
    (∀ v, validate lens = .underfull v → exec .hufTread s =
      .next { { s with regs := s.regs.dropCode }.faulted 0x33#8 .underfull (BitVec.ofNat 32 v) with len := len }) ∧
    (∀ c, validate lens = .overfull c → exec .hufTread s =
      .next { { s with regs := s.regs.dropCode }.faulted 0x33#8 .overfull (BitVec.ofNat 32 c) with len := len })

/-- How HUF_TREAD rejects: a truncated or illegal header, and after some entries an entry that is truncated, too long, a
run before any literal, or a run that overfills the array; the lengths read before are in LEN, and then no code is loaded
(R204, R205). -/
def Obligations.HufTreadRejects : Prop :=
  ∀ (imm : Imm) (s : State), s.Sane →
    decodeCommand (0x33#8 ++ imm) = .ok .hufTread ∧
    (s.readAligned.unreadBits.length < 16 → exec .hufTread s = .next (s.faulted 0x33#8 .eos s.regs.rlim)) ∧
    (∀ n rest, n < 65536 → n < 2 ∨ s.params.symLimitMax < n → s.readAligned.unreadBits = fieldBits 16 n ++ rest →
      exec .hufTread s = .next (s.faulted 0x33#8 .config (BitVec.ofNat 32 n))) ∧
    (∀ n rest, n ≤ s.params.symLimitMax → 2 ≤ n → s.readAligned.unreadBits = fieldBits 16 n ++ rest →
      rest.length < 8 → exec .hufTread s = .next (s.faulted 0x33#8 .eos s.regs.rlim)) ∧
    ∀ (n bpl : Nat) (es : List (Bool × Nat)) (lens : List Nat) (rest : List Bool),
      n ≤ s.params.symLimitMax → 2 ≤ n → bpl < 256 → (∀ e ∈ es, e.2 < 2 ^ (if e.1 then bpl else 8)) →
      expandEntries none es = some lens → lens.length < n → (∀ l ∈ lens, l ≤ s.params.maxCodeLen) →
      s.readAligned.unreadBits = tableWith n bpl es ++ rest →
      let failed := { s with
        len := s.len.writeList 0 (lens.map (BitVec.ofNat 8))
        regs := if lens = [] then s.regs else s.regs.dropCode }
      (rest = [] → exec .hufTread s = .next (failed.faulted 0x33#8 .eos s.regs.rlim)) ∧
      (∀ f fs, rest = f :: fs → fs.length < (if f then bpl else 8) →
        exec .hufTread s = .next (failed.faulted 0x33#8 .eos s.regs.rlim)) ∧
      (∀ v more, v < 2 ^ bpl → s.params.maxCodeLen < v → rest = true :: fieldBits bpl v ++ more →
        exec .hufTread s = .next (failed.faulted 0x33#8 .lenRange (BitVec.ofNat 32 lens.length))) ∧
      ∀ r more, r < 256 → rest = false :: fieldBits 8 r ++ more →
        (lens = [] → exec .hufTread s = .next (failed.faulted 0x33#8 .tableFormat (subInfo 1 lens.length))) ∧
        (lens ≠ [] → n < lens.length + r →
          exec .hufTread s = .next (failed.faulted 0x33#8 .tableFormat (subInfo 2 lens.length)))

/-- "HUF_TWRITE followed, over the same bytes, by HUF_TREAD loads the identical array, LIMIT and MAXLEN" (R206), and the
read cursor ends where the writer's did. -/
def Obligations.TableRoundTrip : Prop :=
  ∀ s : State, s.Inv → s.regs.status.fault = false → s.regs.status.codeValid = true →
    s.HasRoom (tableStreamBits s.regs.wnb.toNat s.loadedLens).length →
    let start := s.regs.wpos.toNat + (s.regs.wnb.toNat + 7) / 8
    ∃ t, exec .hufTwrite s = .next t ∧
      ∀ lim : Word, t.regs.wpos.toNat ≤ lim.toNat → lim.toNat ≤ s.params.bufSize →
        ∃ u, execAll [.bsRinit (BitVec.ofNat 24 start), .hufTread]
            { t with regs := { t.regs with arg := lim } } = .next u ∧
          u.regs.status.fault = false ∧ u.regs.status.codeValid = true ∧ u.loadedLens = s.loadedLens ∧
          u.regs.limit = s.regs.limit ∧ u.regs.maxlen = s.regs.maxlen ∧
          u.regs.rpos = t.regs.wpos ∧ u.regs.rnb = 0

/-! ## Huffman coding (spec/44_huffman_coding.md) -/

/-- HUF_ENC: its checks in order; then the code of the symbol is appended to the write stream (R220, R221). -/
def Obligations.HufEncResult : Prop :=
  ∀ (sym : Imm) (s : State), s.Inv →
    decodeCommand (0x34#8 ++ sym) = .ok (.hufEnc sym) ∧
    (s.regs.status.codeValid = false → exec (.hufEnc sym) s = .next (s.faulted 0x34#8 .notReady 0)) ∧
    (s.regs.status.codeValid = true →
      (s.loadedLens.getD sym.toNat 0 = 0 →
        exec (.hufEnc sym) s = .next (s.faulted 0x34#8 .noCode (sym.setWidth 32))) ∧
      (0 < s.loadedLens.getD sym.toNat 0 →
        ∃ bits, codeOf s.loadedLens sym.toNat = some bits ∧
          (s.HasRoom bits.length → exec (.hufEnc sym) s = .next (s.afterBits bits)) ∧
          (¬s.HasRoom bits.length → exec (.hufEnc sym) s = .next
            { s.faulted 0x34#8 .bufFull (BitVec.ofNat 32 s.params.bufSize) with buf := s.bufFilled bits })))

/-- HUF_DEC: the read stream starts with at most one code; RESULT is its symbol and the code's bits are read. When no
code fits in the bits that are left, it faults. So bits after the last symbol decode as codes too (R222 to R224). -/
def Obligations.HufDecResult : Prop :=
  ∀ (imm : Imm) (s : State), s.Inv →
    decodeCommand (0x35#8 ++ imm) = .ok .hufDec ∧
    (s.regs.status.codeValid = false → exec .hufDec s = .next (s.faulted 0x35#8 .notReady 0)) ∧
    (s.regs.status.codeValid = true →
      (∀ sym bits rest, codeOf s.loadedLens sym = some bits → s.unreadBits = bits ++ rest →
        exec .hufDec s = .next { s.afterReading bits.length with
          regs := { (s.afterReading bits.length).regs with result := BitVec.ofNat 32 sym } }) ∧
      ((∀ sym bits, codeOf s.loadedLens sym = some bits → ¬ bits <+: s.unreadBits) →
        exec .hufDec s = .next (s.faulted 0x35#8 .eos s.regs.rlim)))

/-- HUF_BENC: its checks in order; then FREQ holds the counts of the list's symbols, LEN the depths of the tree built
from them, that code is loaded, and the block is appended to the write stream (R225). -/
def Obligations.HufBencResult : Prop :=
  ∀ (imm : Imm) (s : State), s.Sane →
    let n := s.regs.symCnt.toNat
    let list := s.syms n
    let m := maxLen list + 1
    let counts := (List.range m).map fun i => list.count i
    let freq := s.freq.writeList 0 (counts.map (BitVec.ofNat 32))
    decodeCommand (0x36#8 ++ imm) = .ok .hufBenc ∧
    (s.params.symSize < n → exec .hufBenc s = .next (s.faulted 0x36#8 .arg s.regs.symCnt)) ∧
    (n = 0 → exec .hufBenc s = .next (s.faulted 0x36#8 .config 0)) ∧
    (0 < n → n ≤ s.params.symSize →
      (m < 2 ∨ s.params.symLimitMax < m →
        exec .hufBenc s = .next (s.faulted 0x36#8 .config (BitVec.ofNat 32 m))) ∧
      (2 ≤ m → m ≤ s.params.symLimitMax →
        ∃ t, buildTree counts = some t ∧
          let d := depthList t m
          let bits := blockBits s.regs.wnb.toNat d list
          let len := s.len.writeList 0 (d.map (BitVec.ofNat 8))
          (∀ i < m, s.params.maxCodeLen < d.getD i 0 → (∀ j < i, d.getD j 0 ≤ s.params.maxCodeLen) →
            exec .hufBenc s =
              .next { s.faulted 0x36#8 .lenRange (BitVec.ofNat 32 i) with freq := freq }) ∧
          ((∀ i < m, d.getD i 0 ≤ s.params.maxCodeLen) →
            (s.HasRoom bits.length → exec .hufBenc s = .next { s.afterBits bits with
              freq := freq
              len := len
              regs := { (s.afterBits bits).regs with
                limit := BitVec.ofNat 32 m
                maxlen := BitVec.ofNat 32 (maxLen d)
                status := { s.regs.status with codeValid := true } } }) ∧
            (¬s.HasRoom bits.length → exec .hufBenc s = .next
              { { s with regs := s.regs.dropCode }.faulted 0x36#8 .bufFull (BitVec.ofNat 32 s.params.bufSize) with
                freq := freq
                len := len
                buf := s.bufFilled bits }))))

/-- HUF_BDEC: its check of the count; where its table read faults, it faults as HUF_TREAD does, under its own opcode.
With a whole table, whatever its bitsPerLength and choice of runs, and the codes of all the symbols, the table is
loaded, SYM[0..n) holds the symbols and SYM_CNT is n, and the read cursor is at the byte after the last code. With the
codes of fewer symbols it faults at the end of the stream: no code is loaded, LEN and the SYM entries decoded before
stay, and the other registers, SYM_CNT among them, are as before (R226, spec/60_exceptions.md R302 and R303). -/
def Obligations.HufBdecResult : Prop :=
  ∀ (count : Imm) (s : State), s.Sane →
    decodeCommand (0x37#8 ++ count) = .ok (.hufBdec count) ∧
    (s.params.symSize < count.toNat → exec (.hufBdec count) s = .next (s.faulted 0x37#8 .arg (count.setWidth 32))) ∧
    (count.toNat ≤ s.params.symSize → s.regs.status.fault = false →
      ∀ t, exec .hufTread s = .next t → t.regs.status.fault = true →
        exec (.hufBdec count) s = .next { t with
          regs := { t.regs with status := { t.regs.status with faultOp := 0x37#8 } } }) ∧
    (count.toNat ≤ s.params.symSize →
      ∀ (n bpl : Nat) (es : List (Bool × Nat)) (lens list : List Nat) (rest more : List Bool),
        n ≤ s.params.symLimitMax → 2 ≤ n → bpl < 256 →
        (∀ e ∈ es, e.2 < 2 ^ (if e.1 then bpl else 8)) →
        expandEntries none es = some lens → lens.length = n →
        (∀ ls, expandEntries none es.dropLast = some ls → ls.length < n) →
        (∀ l ∈ lens, l ≤ s.params.maxCodeLen) → validate lens = .full →
        s.readAligned.unreadBits = tableWith n bpl es ++ rest →
        let r := (s.readAligned.afterReading (tableWith n bpl es).length).readAligned
        let len := s.len.writeList 0 (lens.map (BitVec.ofNat 8))
        let sym := s.sym.writeList 0 (list.map (BitVec.ofNat 16))
        (∀ x ∈ list, 0 < lens.getD x 0) → r.unreadBits = codeBits lens list ++ more →
        (list.length = count.toNat →
          let u := (r.afterReading (codeBits lens list).length).readAligned
          exec (.hufBdec count) s = .next { u with
            len := len
            sym := sym
            regs := { u.regs with
              limit := BitVec.ofNat 32 n
              maxlen := BitVec.ofNat 32 (maxLen lens)
              symCnt := count.setWidth 32
              status := { u.regs.status with codeValid := true } } }) ∧
        (list.length < count.toNat → (∀ x bits, codeOf lens x = some bits → ¬ bits <+: more) →
          exec (.hufBdec count) s = .next
            { { s with regs := s.regs.dropCode }.faulted 0x37#8 .eos s.regs.rlim with len := len, sym := sym }))

/-- A successful HUF_BENC does what the host's own sequence does: FT_INIT with the largest symbol + 1, FT_INC for every
symbol, HUF_BUILD, HUF_TWRITE, HUF_ENC for every symbol, BS_WALIGN (R227). -/
def Obligations.BlockIsHostSequence : Prop :=
  ∀ s t : State, s.Sane → s.regs.status.fault = false → exec .hufBenc s = .next t → t.regs.status.fault = false →
    let list := s.syms s.regs.symCnt.toNat
    execAll ([.ftInit (BitVec.ofNat 24 (maxLen list + 1))] ++ list.map (fun x => .ftInc (BitVec.ofNat 24 x)) ++
      [.hufBuild, .hufTwrite] ++ list.map (fun x => .hufEnc (BitVec.ofNat 24 x)) ++ [.bsWalign]) s = .next t

/-- "for any symbol list over an alphabet of size ≥ 2, decode(encode(list)) == list": when HUF_BENC succeeds, BS_RINIT at
the block's start with ARG at its end, and then HUF_BDEC of the list's length, restore SYM and SYM_CNT, whatever SYM
and SYM_CNT have become in between, and the read cursor ends where the writer's did (R228). -/
def Obligations.BlockRoundTrip : Prop :=
  ∀ (s t : State) (sym : Mem 16) (cnt : Word), s.Sane → s.regs.status.fault = false →
    exec .hufBenc s = .next t → t.regs.status.fault = false → Mem.wf s.params.symSize sym →
    let start := s.regs.wpos.toNat + (s.regs.wnb.toNat + 7) / 8
    ∃ u, execAll [.bsRinit (BitVec.ofNat 24 start), .hufBdec (s.regs.symCnt.setWidth 24)]
        { t with sym := sym, regs := { t.regs with arg := t.regs.wpos, symCnt := cnt } } = .next u ∧
      u.regs.status.fault = false ∧ u.regs.symCnt = s.regs.symCnt ∧
      u.syms s.regs.symCnt.toNat = s.syms s.regs.symCnt.toNat ∧ u.regs.rpos = t.regs.wpos

/-! ## Trie encoder (spec/45_trie_encoder.md) -/

/-- The order of the input checks and their sub-codes: after some good records, the first record that fails a check is
the one reported (R240, R241). -/
def Obligations.TrieInputOrder : Prop :=
  ∀ s : State,
    (7 < s.regs.sufCnt.toNat → exec .trieEnc s =
      .next (s.faulted 0x40#8 .trieInput (subInfo 1 s.regs.sufCnt.toNat))) ∧
    (s.regs.sufCnt.toNat ≤ 7 →
      ∀ words : List Str, Stored s.win s.params.winSize words →
        (∀ x ∈ words, x ≠ [] ∧ x.length ≤ 255 ∧ ∀ c ∈ x, IsChar c) → words.Pairwise (· < ·) →
        let p := (recordBytes words).length
        let n := (s.win.read p).toNat
        let x := readBytes s.win (p + 1) n
        (words.length < s.regs.winCnt.toNat →
          ∀ sub, (if s.params.winSize ≤ p ∨ s.params.winSize < p + 1 + n then some 2
              else if n = 0 then some 3
              else if ∃ c ∈ x, ¬IsChar c then some 4
              else if ∃ y ∈ words.getLast?, ¬ y < x then some 5
              else none) = some sub →
            exec .trieEnc s = .next (s.faulted 0x40#8 .trieInput (subInfo sub words.length))) ∧
        (words.length = s.regs.winCnt.toNat →
          ∀ sufs : List Str, Stored s.suf s.params.sufSize sufs →
            (∀ x ∈ sufs, x ≠ [] ∧ x.length ≤ 255 ∧ ∀ c ∈ x, IsChar c) → sufs.length < s.regs.sufCnt.toNat →
            let p := (recordBytes sufs).length
            let n := (s.suf.read p).toNat
            let x := readBytes s.suf (p + 1) n
            ∀ sub, (if s.params.sufSize ≤ p ∨ s.params.sufSize < p + 1 + n then some 6
                else if n = 0 then some 7
                else if ∃ c ∈ x, ¬IsChar c then some 8
                else none) = some sub →
              exec .trieEnc s = .next (s.faulted 0x40#8 .trieInput (subInfo sub sufs.length))))

/-- Which inputs TRIE_ENC accepts: WIN starts with WIN_CNT records of words and SUF with SUF_CNT ≤ 7 records of suffixes,
all of character codes and not empty, the words strictly ascending (R240, R241). -/
def Obligations.TrieInputAccepts : Prop :=
  ∀ (s : State) (words sufs : List Str),
    trieInput s = .ok (words, sufs) ↔
      words.length = s.regs.winCnt.toNat ∧ sufs.length = s.regs.sufCnt.toNat ∧ sufs.length ≤ 7 ∧
      Stored s.win s.params.winSize words ∧ Stored s.suf s.params.sufSize sufs ∧
      (∀ x ∈ words ++ sufs, x ≠ [] ∧ x.length ≤ 255 ∧ ∀ c ∈ x, IsChar c) ∧ words.Pairwise (· < ·)

/-- TRIE_ENC on an accepted input: the code list of R242 in SYM, SYM_CNT its length; a backspace above 30, or a list that
does not fit, faults with nothing written (R248). -/
def Obligations.TrieEncResult : Prop :=
  ∀ (imm : Imm) (s : State) (words sufs : List Str), trieInput s = .ok (words, sufs) →
    decodeCommand (0x40#8 ++ imm) = .ok .trieEnc ∧
    (∀ pops j, trieEncode words sufs = .error (pops, j) →
      exec .trieEnc s = .next (s.faulted 0x40#8 .bkspOvf (subInfo pops j))) ∧
    ∀ out, trieEncode words sufs = .ok out →
      (s.params.symSize < out.length → exec .trieEnc s = .next (s.faulted 0x40#8 .symFull 0)) ∧
      (out.length ≤ s.params.symSize → exec .trieEnc s = .next { s with
        sym := s.sym.writeList 0 (out.map (BitVec.ofNat 16))
        regs := { s.regs with symCnt := BitVec.ofNat 32 out.length } })

/-- The range of the encoder's codes: each suffix closed by 128, and after the bank only characters, backspaces 1 to 30,
WORD and MASK codes (R247). -/
def Obligations.TrieCodeRange : Prop :=
  ∀ (words sufs : List Str) (out : List Nat), trieEncode words sufs = .ok out →
    sufs.length ≤ 7 → (∀ x ∈ words ++ sufs, x ≠ [] ∧ ∀ c ∈ x, IsChar c) →
    ∃ codes, out = sufs.flatMap (fun x => x.map BitVec.toNat ++ [128]) ++ codes ∧
      ∀ c ∈ codes, (32 ≤ c ∧ c ≤ 127) ∨ (1 ≤ c ∧ c ≤ 30) ∨ c = 31 ∨ (129 ≤ c ∧ c ≤ 255)

/-- "the codes after the bank are identical to those produced with SUF_CNT = 0" when no word with a suffix is in the set
(R249). -/
def Obligations.TrieSuffixAccounting : Prop :=
  ∀ words sufs : List Str, (∀ w ∈ words, ∀ x ∈ sufs, w ++ x ∉ words) →
    trieEncode words sufs =
      (trieEncode words []).map fun codes => sufs.flatMap (fun x => x.map BitVec.toNat ++ [128]) ++ codes

/-- Without suffixes, the encoder fails exactly at the first word that needs more than 30 pops, with that count and that
word's index: exactly 30 succeeds (R244). -/
def Obligations.TrieBackspaceBoundary : Prop :=
  ∀ words : List Str, words.Pairwise (· < ·) →
    let pops := fun j => popsBetween (words.getD j []) (words.getD (j + 1) [])
    ((∀ j, j + 1 < words.length → pops j ≤ 30) → ∃ out, trieEncode words [] = .ok out) ∧
    ∀ j, j + 1 < words.length → 30 < pops j → (∀ k < j, pops k ≤ 30) →
      trieEncode words [] = .error (pops j, j + 1)

/-! ## Trie decoder (spec/46_trie_decoder.md) -/

/-- The codes and commands that emit nothing: TRIE_DINIT, SUFDEF, CHAR and a code of 256 or above (R260, R264, R268,
R269). That a code executed by itself records FAULT_OP = 0x49, and that CHAR pushes a byte outside 32..127 as well,
are the model's choices (log entry 6). -/
def Obligations.DecoderStateCodes : Prop :=
  ∀ (imm c : Imm) (b : Byte) (s : State),
    decodeCommand (0x48#8 ++ imm) = .ok .trieDinit ∧
    exec .trieDinit s = .next { s with
      dec := { stk := [], bank := [], emitted := false }
      regs := { s.regs with woutCnt := 0, woutPtr := 0 } } ∧
    (s.dec.bank.length = 7 →
      exec .sufdef s = .next (s.faulted 0x49#8 .trieCode (subInfo 2 128))) ∧
    (s.dec.bank.length ≠ 7 → exec .sufdef s =
      .next { s with dec := { stk := [], bank := s.dec.bank ++ [s.dec.stk], emitted := false } }) ∧
    (s.dec.stk.length = 255 →
      exec (.char b) s = .next (s.faulted 0x49#8 .stackOvf (b.setWidth 32))) ∧
    (s.dec.stk.length ≠ 255 → exec (.char b) s =
      .next { s with dec := { s.dec with stk := s.dec.stk ++ [b], emitted := false } }) ∧
    (256 ≤ c.toNat → decodeTrieCode c = .invalidCode c ∧
      exec (.invalidCode c) s = .next (s.faulted 0x49#8 .trieCode (subInfo 1 c.toNat)))

/-- MASK m: a bit of an undefined bank entry faults before anything is emitted; else the stack is emitted, unless it
has been, and then the stack with each selected suffix, in ascending order; EMITTED is 1 and the stack as before (R262,
R265). That a MASK executed by itself records FAULT_OP = 0x49 is the model's choice (log entry 6). -/
def Obligations.MaskCode : Prop :=
  ∀ (m : Byte) (s : State), s.Sane → 1 ≤ m.toNat → m.toNat ≤ 127 →
    let selected := (List.range 7).filter fun i => m.getLsbD i
    let words := s.dec.pendingWord ++ selected.map fun i => s.dec.stk ++ s.dec.bank.getD i []
    ((∃ i ∈ selected, s.dec.bank.length ≤ i) →
      exec (.mask m) s = .next (s.faulted 0x49#8 .trieCode (subInfo 3 (128 + m.toNat)))) ∧
    ((∀ i ∈ selected, i < s.dec.bank.length) → s.CanEmit words →
      exec (.mask m) s = .next { s.emitting words with dec := { s.dec with emitted := true } })

/-- BKSP, WORD and TRIE_DEND emit the stack, unless it has been emitted (and for TRIE_DEND unless it is empty); BKSP then
pops, and a count above the depth faults before the emission (R262, R266, R267, R270). That a BKSP executed by itself
records FAULT_OP = 0x49, and acts by the same pseudocode with a count above 30, are the model's choices (log entry 6). -/
def Obligations.WordCloseCodes : Prop :=
  ∀ (n : Byte) (imm : Imm) (s : State), s.Sane →
    (s.dec.stk.length < n.toNat →
      exec (.bksp n) s = .next (s.faulted 0x49#8 .trieCode (subInfo 4 n.toNat))) ∧
    (n.toNat ≤ s.dec.stk.length → s.CanEmit s.dec.pendingWord →
      exec (.bksp n) s = .next { s.emitting s.dec.pendingWord with
        dec := { s.dec with
          stk := s.dec.stk.take (s.dec.stk.length - n.toNat)
          emitted := decide (n.toNat = 0) } }) ∧
    (s.CanEmit s.dec.pendingWord →
      exec .word s = .next { s.emitting s.dec.pendingWord with dec := { s.dec with emitted := true } }) ∧
    decodeCommand (0x4A#8 ++ imm) = .ok .trieDend ∧
    (s.dec.stk = [] → exec .trieDend s = .next s) ∧
    (s.dec.stk ≠ [] → s.CanEmit s.dec.pendingWord →
      exec .trieDend s = .next { s.emitting s.dec.pendingWord with dec := { s.dec with emitted := true } })

/-- An emission of WORD, BKSP, MASK or TRIE_DEND that fails: the words before it are in WOUT, and the registers and
the decoder state are as before the command. A word above 255 characters is E_WORD_LONG, a record that does not fit
E_WOUT_FULL (R261, R265). That a code executed by itself records FAULT_OP = 0x49, and what MASK 0, MASK above 127 and
BKSP above 30 do, are the model's choices (log entry 6). -/
def Obligations.EmissionFaults : Prop :=
  ∀ (i : Instr) (s : State) (words : List Str), s.Sane →
    (i = .word ∧ words = s.dec.pendingWord) ∨
      (i = .trieDend ∧ s.dec.stk ≠ [] ∧ words = s.dec.pendingWord) ∨
      (∃ n, i = .bksp n ∧ n.toNat ≤ s.dec.stk.length ∧ words = s.dec.pendingWord) ∨
      (∃ m, i = .mask m ∧ (∀ k < 7, m.getLsbD k = true → k < s.dec.bank.length) ∧
        words = s.dec.pendingWord ++
          ((List.range 7).filter fun k => m.getLsbD k).map fun k => s.dec.stk ++ s.dec.bank.getD k []) →
    ∀ before x after, words = before ++ x :: after → s.CanEmit before →
      let partly := { s with wout := (s.emitting before).wout }
      (255 < x.length → exec i s = .next (partly.faulted i.opcode .wordLong (BitVec.ofNat 32 x.length))) ∧
      (x.length ≤ 255 → s.params.woutSize < s.regs.woutPtr.toNat + (recordBytes (before ++ [x])).length →
        exec i s = .next (partly.faulted i.opcode .woutFull (s.emitting before).regs.woutPtr))

/-- TRIE_DRUN: SYM_CNT above SYM_SIZE faults; otherwise it ends without a fault exactly where the sequence TRIE_DINIT,
TRIE_DSTEP of each code in SYM[0..SYM_CNT), TRIE_DEND does, and in the same state. Where a TRIE_DSTEP or the TRIE_DEND
of that sequence is the first to fault, TRIE_DRUN faults with the same FAULT_CODE and FAULT_INFO, under its own opcode
and with the WOUT bytes written up to there, and its other registers and the decoder state are as before (R270, R271,
spec/60_exceptions.md R302; log entry 12). A list of 1 to 255 characters gives that one word, at the start of WOUT; an
empty list gives nothing. -/
def Obligations.TrieDrunResult : Prop :=
  ∀ (imm : Imm) (s : State), s.Sane →
    decodeCommand (0x4B#8 ++ imm) = .ok .trieDrun ∧
    (s.params.symSize < s.regs.symCnt.toNat →
      exec .trieDrun s = .next (s.faulted 0x4B#8 .arg s.regs.symCnt)) ∧
    (s.regs.symCnt.toNat ≤ s.params.symSize → s.regs.status.fault = false →
      ∀ t : State, t.regs.status.fault = false →
        (exec .trieDrun s = .next t ↔
          execAll ([.trieDinit] ++ (s.syms s.regs.symCnt.toNat).map (fun c => .trieDstep (BitVec.ofNat 24 c)) ++
            [.trieDend]) s = .next t)) ∧
    (s.regs.symCnt.toNat ≤ s.params.symSize → s.regs.status.fault = false →
      ∀ (before : List Nat) (last : Instr) (u v : State),
        (∃ c rest, s.syms s.regs.symCnt.toNat = before ++ c :: rest ∧ last = .trieDstep (BitVec.ofNat 24 c)) ∨
          (s.syms s.regs.symCnt.toNat = before ∧ last = .trieDend) →
        execAll ([.trieDinit] ++ before.map fun c => .trieDstep (BitVec.ofNat 24 c)) s = .next u →
        u.regs.status.fault = false → exec last u = .next v → v.regs.status.fault = true →
        exec .trieDrun s = .next { s with
          wout := v.wout
          regs := { s.regs with
            status := { s.regs.status with
              fault := true, faultCode := v.regs.status.faultCode, faultOp := 0x4B#8 }
            faultInfo := v.regs.faultInfo } }) ∧
    ∀ word : Str, s.regs.symCnt.toNat = word.length → word.length ≤ s.params.symSize → word.length ≤ 255 →
      (∀ c ∈ word, IsChar c) → s.syms word.length = word.map BitVec.toNat →
      1 + word.length ≤ s.params.woutSize →
      exec .trieDrun s = .next { s with
        wout := if word = [] then s.wout else s.wout.writeList 0 (BitVec.ofNat 8 word.length :: word)
        dec := { stk := word, bank := [], emitted := decide (word ≠ []) }
        regs := { s.regs with
          woutCnt := if word = [] then 0 else 1
          woutPtr := if word = [] then 0 else BitVec.ofNat 32 (1 + word.length) } }

/-- The trie round trip: when TRIE_ENC succeeds and WOUT has room for the words' records, TRIE_DRUN on its list succeeds
and writes every word exactly once and no other record (R272). -/
def Obligations.TrieRoundTrip : Prop :=
  ∀ (s t : State) (words sufs : List Str), s.Sane → s.regs.status.fault = false →
    trieInput s = .ok (words, sufs) → exec .trieEnc s = .next t → t.regs.status.fault = false →
    (recordBytes words).length ≤ s.params.woutSize →
    ∃ u out, exec .trieDrun t = .next u ∧ u.regs.status.fault = false ∧ out.Perm words ∧
      u.regs.woutCnt = BitVec.ofNat 32 words.length ∧
      u.regs.woutPtr = BitVec.ofNat 32 (recordBytes words).length ∧
      u.wout = t.wout.writeList 0 (recordBytes out)

end Slice0
end

