-- ==== Sys2Proof/Laws/Bits.lean ====
section
/-! SUPPORT. Fields in transmission order: `fieldBits` and `bitsToNat` are inverse to each other. -/

namespace Sys2Proof

@[simp] theorem fieldBits_zero (v : Nat) : fieldBits 0 v = [] := rfl

@[simp] theorem fieldBits_succ (k v : Nat) : fieldBits (k + 1) v = v.testBit k :: fieldBits k v := rfl

@[simp] theorem fieldBits_length (k v : Nat) : (fieldBits k v).length = k := by
  induction k with
  | zero => rfl
  | succ k ih => simp [ih]

@[simp] theorem bitsToNat_nil : bitsToNat [] = 0 := rfl

theorem bitsToNat_foldl (bs : List Bool) (a : Nat) :
    bs.foldl (fun v b => 2 * v + b.toNat) a = a * 2 ^ bs.length + bitsToNat bs := by
  induction bs generalizing a with
  | nil => simp
  | cons b bs ih =>
    have h0 := ih b.toNat
    have h1 := ih (2 * a + b.toNat)
    simp only [bitsToNat, List.foldl_cons, List.length_cons, Nat.mul_zero, Nat.zero_add] at *
    rw [h1, h0, Nat.pow_succ]
    ring

theorem bitsToNat_cons (b : Bool) (bs : List Bool) :
    bitsToNat (b :: bs) = b.toNat * 2 ^ bs.length + bitsToNat bs := by
  simpa [bitsToNat] using bitsToNat_foldl bs b.toNat

theorem bitsToNat_append (as bs : List Bool) :
    bitsToNat (as ++ bs) = bitsToNat as * 2 ^ bs.length + bitsToNat bs := by
  rw [bitsToNat, List.foldl_append, bitsToNat_foldl]; rfl

theorem bitsToNat_lt (bs : List Bool) : bitsToNat bs < 2 ^ bs.length := by
  induction bs with
  | nil => simp
  | cons b bs ih =>
    rw [bitsToNat_cons, List.length_cons, Nat.pow_succ]
    cases b <;> simp <;> omega

/-- Reading the bits of a field back gives the field's value. -/
theorem bitsToNat_fieldBits (k v : Nat) : bitsToNat (fieldBits k v) = v % 2 ^ k := by
  induction k with
  | zero => simp [Nat.mod_one]
  | succ k ih =>
    rw [fieldBits_succ, bitsToNat_cons, ih, fieldBits_length, Nat.mod_pow_succ, Nat.testBit_eq_decide_div_mod_eq]
    have : v / 2 ^ k % 2 = 0 ∨ v / 2 ^ k % 2 = 1 := by omega
    rcases this with h | h <;> simp [h]
    omega

theorem bitsToNat_fieldBits_of_lt {k v : Nat} (h : v < 2 ^ k) : bitsToNat (fieldBits k v) = v := by
  rw [bitsToNat_fieldBits, Nat.mod_eq_of_lt h]

/-- A field depends on the low bits of the value only. -/
theorem fieldBits_mod (k v n : Nat) (h : k ≤ n) : fieldBits k (v % 2 ^ n) = fieldBits k v := by
  induction k with
  | zero => rfl
  | succ k ih =>
    rw [fieldBits_succ, fieldBits_succ, ih (by omega), Nat.testBit_mod_two_pow]
    simp; omega

/-- Writing the value of a bit sequence as a field of its length gives the sequence back. -/
theorem fieldBits_bitsToNat (bs : List Bool) : fieldBits bs.length (bitsToNat bs) = bs := by
  induction bs with
  | nil => rfl
  | cons b bs ih =>
    have hlt := bitsToNat_lt bs
    rw [List.length_cons, fieldBits_succ, bitsToNat_cons, Nat.testBit_eq_decide_div_mod_eq]
    have hd : (b.toNat * 2 ^ bs.length + bitsToNat bs) / 2 ^ bs.length = b.toNat := by
      rw [Nat.add_comm, Nat.add_mul_div_right _ _ (by positivity), Nat.div_eq_of_lt hlt, Nat.zero_add]
    have hm : (b.toNat * 2 ^ bs.length + bitsToNat bs) % 2 ^ bs.length = bitsToNat bs := by
      rw [Nat.add_comm, Nat.add_mul_mod_self_right, Nat.mod_eq_of_lt hlt]
    rw [← fieldBits_mod bs.length _ bs.length (le_refl _), hm, ih, hd]
    cases b <;> rfl

end Sys2Proof
end

