-- ==== Sys2Proof/Laws/Mem.lean ====
section
/-! SUPPORT. The laws of a memory: reads after writes, and that every operation keeps the canonical form. -/

namespace Sys2Proof.Machine

variable {w : Nat}

@[simp] theorem Mem.read_nil (i : Nat) : Mem.read ([] : Mem w) i = 0#w := rfl

/-- An index below every listed one reads as 0. -/
theorem Mem.read_of_below (m : Mem w) (i : Nat) (h : ∀ c ∈ m, i < c.1) : m.read i = 0#w := by
  induction m with
  | nil => rfl
  | cons c m ih =>
    obtain ⟨j, u⟩ := c
    have hj : i < j := h (j, u) (by simp)
    rw [Mem.read, if_neg (by omega)]
    exact ih fun c hc => h c (by simp [hc])

/-- Strictly rising indices. -/
abbrev Mem.Rising (m : Mem w) : Prop := (m.map Prod.fst).Pairwise (· < ·)

theorem Mem.Rising.tail {c : Nat × BitVec w} {m : Mem w} (h : Mem.Rising (c :: m)) :
    Mem.Rising m ∧ ∀ d ∈ m, c.1 < d.1 := by
  simp only [Mem.Rising, List.map_cons, List.pairwise_cons] at h
  exact ⟨h.2, fun d hd => h.1 d.1 (List.mem_map_of_mem hd)⟩

/-- The value written is the value read. -/
theorem Mem.read_write_same (m : Mem w) (i : Nat) (v : BitVec w) (h : m.Rising) : (m.write i v).read i = v := by
  induction m with
  | nil => by_cases hv : v = 0#w <;> simp [Mem.write, Mem.read, hv]
  | cons c m ih =>
    obtain ⟨j, u⟩ := c
    obtain ⟨ht, hlow⟩ := h.tail
    simp only [Mem.write]
    split
    · rename_i hij
      by_cases hv : v = 0#w
      · subst hv
        rw [if_pos rfl]
        refine Mem.read_of_below _ _ fun c hc => ?_
        rcases List.mem_cons.1 hc with rfl | hc
        · exact hij
        · exact Nat.lt_trans hij (hlow c hc)
      · simp [hv, Mem.read]
    · split
      · rename_i hij
        subst hij
        by_cases hv : v = 0#w
        · subst hv
          rw [if_pos rfl]
          exact Mem.read_of_below _ _ fun c hc => hlow c hc
        · simp [hv, Mem.read]
      · rename_i hij
        rw [Mem.read, if_neg hij]
        exact ih ht

/-- A write leaves every other element alone. -/
theorem Mem.read_write_other (m : Mem w) (i k : Nat) (v : BitVec w) (hk : k ≠ i) :
    (m.write i v).read k = m.read k := by
  induction m with
  | nil => by_cases hv : v = 0#w <;> simp [Mem.write, Mem.read, hv, hk]
  | cons c m ih =>
    obtain ⟨j, u⟩ := c
    simp only [Mem.write]
    split
    · by_cases hv : v = 0#w <;> simp [hv, Mem.read, hk]
    · split
      · rename_i hij
        subst hij
        by_cases hv : v = 0#w <;> simp [hv, Mem.read, hk]
      · simp [Mem.read, ih]

theorem Mem.read_write (m : Mem w) (i k : Nat) (v : BitVec w) (h : m.Rising) :
    (m.write i v).read k = if k = i then v else m.read k := by
  by_cases hk : k = i
  · subst hk; simp [Mem.read_write_same m k v h]
  · simp [hk, Mem.read_write_other m i k v hk]

/-- What a write lists: old entries at other indices, and the new one unless it is 0. -/
theorem Mem.mem_write {m : Mem w} {i : Nat} {v : BitVec w} {c : Nat × BitVec w} (h : c ∈ m.write i v) :
    c ∈ m ∨ (c = (i, v) ∧ v ≠ 0#w) := by
  induction m with
  | nil =>
    by_cases hv : v = 0#w
    · simp [Mem.write, hv] at h
    · simp only [Mem.write, hv, if_false, List.mem_singleton] at h
      exact .inr ⟨h, hv⟩
  | cons d m ih =>
    obtain ⟨j, u⟩ := d
    simp only [Mem.write] at h
    split at h
    · by_cases hv : v = 0#w
      · simp only [hv, if_true] at h; exact .inl h
      · simp only [hv, if_false, List.mem_cons] at h
        rcases h with h | h
        · exact .inr ⟨h, hv⟩
        · exact .inl (List.mem_cons.2 h)
    · split at h
      · by_cases hv : v = 0#w
        · simp only [hv, if_true] at h; exact .inl (List.mem_cons_of_mem _ h)
        · simp only [hv, if_false, List.mem_cons] at h
          rcases h with h | h
          · exact .inr ⟨h, hv⟩
          · exact .inl (List.mem_cons_of_mem _ h)
      · simp only [List.mem_cons] at h
        rcases h with h | h
        · exact .inl (by simp [h])
        · rcases ih h with h | h
          · exact .inl (List.mem_cons_of_mem _ h)
          · exact .inr h

theorem Mem.rising_write {m : Mem w} (i : Nat) (v : BitVec w) (h : m.Rising) : (m.write i v).Rising := by
  induction m with
  | nil => by_cases hv : v = 0#w <;> simp [Mem.write, hv, Mem.Rising]
  | cons d m ih =>
    obtain ⟨j, u⟩ := d
    obtain ⟨ht, hlow⟩ := h.tail
    simp only [Mem.write]
    split
    · rename_i hij
      by_cases hv : v = 0#w
      · simpa [hv] using h
      · simp only [hv, if_false, Mem.Rising, List.map_cons, List.pairwise_cons] at h ⊢
        refine ⟨fun k hk => ?_, h⟩
        rcases List.mem_cons.1 hk with rfl | hk
        · exact hij
        · exact Nat.lt_trans hij (h.1 k hk)
    · split
      · rename_i hij
        subst hij
        by_cases hv : v = 0#w
        · simpa [hv] using ht
        · simpa [hv, Mem.Rising] using h
      · rename_i h1 h2
        simp only [Mem.Rising, List.map_cons, List.pairwise_cons]
        refine ⟨fun k hk => ?_, ih ht⟩
        obtain ⟨c, hc, rfl⟩ := List.mem_map.1 hk
        rcases Mem.mem_write hc with hc | ⟨rfl, -⟩
        · exact hlow c hc
        · simp only; omega

/-- The empty listing is canonical. -/
theorem Mem.wf_nil (size : Nat) : Mem.wf size ([] : Mem w) := ⟨List.Pairwise.nil, by simp⟩

/-- A write to an element the memory has keeps the canonical form. -/
theorem Mem.wf_write {size : Nat} {m : Mem w} (i : Nat) (v : BitVec w) (hi : i < size) (h : m.wf size) :
    (m.write i v).wf size := by
  refine ⟨Mem.rising_write i v h.1, fun c hc => ?_⟩
  rcases Mem.mem_write hc with hc | ⟨rfl, hv⟩
  · exact h.2 c hc
  · exact ⟨hv, hi⟩

/-- Writes of consecutive elements inside the memory keep the canonical form. -/
theorem Mem.wf_writeList {size : Nat} (vs : List (BitVec w)) : ∀ (m : Mem w) (a : Nat), a + vs.length ≤ size →
    m.wf size → (m.writeList a vs).wf size := by
  induction vs with
  | nil => intro m a _ h; exact h
  | cons v vs ih =>
    intro m a ha h
    simp only [List.length_cons] at ha
    exact ih _ _ (by omega) (Mem.wf_write a v (by omega) h)

theorem Mem.rising_writeList (vs : List (BitVec w)) : ∀ (m : Mem w) (a : Nat), m.Rising → (m.writeList a vs).Rising := by
  induction vs with
  | nil => intro m a h; exact h
  | cons v vs ih => intro m a h; exact ih _ _ (Mem.rising_write a v h)

/-- Consecutive writes leave the elements below and at or above the range alone. -/
theorem Mem.read_writeList_outside (vs : List (BitVec w)) : ∀ (m : Mem w) (a k : Nat), k < a ∨ a + vs.length ≤ k →
    (m.writeList a vs).read k = m.read k := by
  induction vs with
  | nil => intro m a k _; rfl
  | cons v vs ih =>
    intro m a k hk
    simp only [List.length_cons] at hk
    rw [Mem.writeList, ih _ _ _ (by omega), Mem.read_write_other _ _ _ _ (by omega)]

/-- Consecutive writes set the elements of the range. -/
theorem Mem.read_writeList_inside (vs : List (BitVec w)) : ∀ (m : Mem w) (a j : Nat) (_ : m.Rising) (hj : j < vs.length),
    (m.writeList a vs).read (a + j) = vs[j] := by
  induction vs with
  | nil => intro m a j _ hj; simp at hj
  | cons v vs ih =>
    intro m a j h hj
    rw [Mem.writeList]
    cases j with
    | zero =>
      rw [Mem.read_writeList_outside vs _ _ _ (by omega)]
      exact Mem.read_write_same m a v h
    | succ j =>
      simp only [List.length_cons] at hj
      have := ih (m.write a v) (a + 1) j (Mem.rising_write a v h) (by omega)
      rw [show a + (j + 1) = a + 1 + j by omega, this]
      rfl

theorem Mem.writeList_append (us vs : List (BitVec w)) : ∀ (m : Mem w) (a : Nat),
    m.writeList a (us ++ vs) = (m.writeList a us).writeList (a + us.length) vs := by
  induction us with
  | nil => intro m a; rfl
  | cons u us ih =>
    intro m a
    simp only [List.cons_append, Mem.writeList, List.length_cons, ih]
    rw [show a + 1 + us.length = a + (us.length + 1) by omega]

/-- Zeroing below n. -/
theorem Mem.read_zeroBelow (m : Mem w) (n i : Nat) : (m.zeroBelow n).read i = if i < n then 0#w else m.read i := by
  induction m with
  | nil => simp [Mem.zeroBelow]
  | cons c m ih =>
    obtain ⟨j, u⟩ := c
    simp only [Mem.zeroBelow, List.filter_cons] at ih ⊢
    by_cases hj : n ≤ j
    · simp only [hj, decide_true, if_true, Mem.read]
      by_cases hij : i = j
      · subst hij; simp; omega
      · simp only [hij, if_false]; exact ih
    · simp only [hj, decide_false, Bool.false_eq_true, if_false, Mem.read, ih]
      by_cases hi : i < n
      · simp [hi]
      · have : i ≠ j := by omega
        simp [this]

theorem Mem.wf_zeroBelow {size : Nat} {m : Mem w} (n : Nat) (h : m.wf size) : (m.zeroBelow n).wf size := by
  refine ⟨?_, fun c hc => h.2 c (List.mem_of_mem_filter hc)⟩
  exact h.1.sublist (List.filter_sublist.map _)

@[simp] theorem Mem.readList_length (m : Mem w) (n : Nat) : (m.readList n).length = n := by
  simp [Mem.readList]

theorem Mem.readList_getElem (m : Mem w) (n i : Nat) (h : i < (m.readList n).length) :
    (m.readList n)[i] = m.read i := by
  simp [Mem.readList]

/-- Two canonical memories that read the same are the same. -/
theorem Mem.ext_read {size : Nat} : ∀ {m m' : Mem w}, m.wf size → m'.wf size → (∀ i, m.read i = m'.read i) → m = m' := by
  intro m
  induction m with
  | nil =>
    intro m' _ h' he
    cases m' with
    | nil => rfl
    | cons c m' =>
      have hc := h'.2 c (by simp)
      have := he c.1
      simp [Mem.read] at this
      exact absurd this.symm hc.1
  | cons c m ih =>
    intro m' h h' he
    obtain ⟨j, u⟩ := c
    have hc := h.2 (j, u) (by simp)
    have hrj : Mem.read ((j, u) :: m) j = u := by simp [Mem.read]
    obtain ⟨ht, hlow⟩ := Mem.Rising.tail h.1
    cases m' with
    | nil =>
      have := he j
      rw [hrj, Mem.read_nil] at this
      exact absurd this hc.1
    | cons c' m' =>
      obtain ⟨j', u'⟩ := c'
      have hc' := h'.2 (j', u') (by simp)
      obtain ⟨ht', hlow'⟩ := Mem.Rising.tail h'.1
      have hrj' : Mem.read ((j', u') :: m') j' = u' := by simp [Mem.read]
      have hjj : j = j' := by
        rcases Nat.lt_trichotomy j j' with hlt | heq | hgt
        · have h0 : Mem.read ((j', u') :: m') j = 0#w := by
            refine Mem.read_of_below _ _ fun c hc => ?_
            rcases List.mem_cons.1 hc with rfl | hc
            · exact hlt
            · exact Nat.lt_trans hlt (hlow' c hc)
          rw [← he j, hrj] at h0
          exact absurd h0 hc.1
        · exact heq
        · have h0 : Mem.read ((j, u) :: m) j' = 0#w := by
            refine Mem.read_of_below _ _ fun c hc => ?_
            rcases List.mem_cons.1 hc with rfl | hc
            · exact hgt
            · exact Nat.lt_trans hgt (hlow c hc)
          rw [he j', hrj'] at h0
          exact absurd h0 hc'.1
      subst hjj
      have huu : u = u' := by rw [← hrj, he j, hrj']
      subst huu
      congr 1
      refine ih ⟨ht, fun c hc => h.2 c (by simp [hc])⟩ ⟨ht', fun c hc => h'.2 c (by simp [hc])⟩ fun i => ?_
      by_cases hij : i = j
      · subst hij
        rw [Mem.read_of_below m i hlow, Mem.read_of_below m' i hlow']
      · have := he i
        simpa [Mem.read, hij] using this

end Sys2Proof.Machine
end

