-- ==== Sys2Proof/Laws/State.lean ====
section
/-! SUPPORT. One lemma per field per update, each true by rfl: the updates of a command at work, of the registers, of
fault entry and reset, of the host port, and of the views that statements are written in. -/

namespace Sys2Proof.Machine

variable (w : Work) (s : State) (r : Regs)


/-! ## A command at work -/

variable (f : Regs → Regs) (g : Decoder → Decoder) (t : Option TableRead)

@[simp] theorem Work.setRegs_wroteLen : (w.setRegs f).wroteLen = w.wroteLen := rfl
@[simp] theorem Work.setRegs_st_regs : (w.setRegs f).st.regs = f w.st.regs := rfl
@[simp] theorem Work.setRegs_st_params : (w.setRegs f).st.params = w.st.params := rfl
@[simp] theorem Work.setRegs_st_dec : (w.setRegs f).st.dec = w.st.dec := rfl
@[simp] theorem Work.setRegs_st_freq : (w.setRegs f).st.freq = w.st.freq := rfl
@[simp] theorem Work.setRegs_st_len : (w.setRegs f).st.len = w.st.len := rfl
@[simp] theorem Work.setRegs_st_sym : (w.setRegs f).st.sym = w.st.sym := rfl
@[simp] theorem Work.setRegs_st_buf : (w.setRegs f).st.buf = w.st.buf := rfl
@[simp] theorem Work.setRegs_st_win : (w.setRegs f).st.win = w.st.win := rfl
@[simp] theorem Work.setRegs_st_suf : (w.setRegs f).st.suf = w.st.suf := rfl
@[simp] theorem Work.setRegs_st_wout : (w.setRegs f).st.wout = w.st.wout := rfl
@[simp] theorem Work.setRegs_st_tread : (w.setRegs f).st.tread = w.st.tread := rfl
@[simp] theorem Work.setRegs_st_inbox : (w.setRegs f).st.inbox = w.st.inbox := rfl
@[simp] theorem Work.setRegs_st_resp : (w.setRegs f).st.resp = w.st.resp := rfl
@[simp] theorem Work.setRegs_st_free : (w.setRegs f).st.free = w.st.free := rfl

@[simp] theorem Work.setDec_wroteLen : (w.setDec g).wroteLen = w.wroteLen := rfl
@[simp] theorem Work.setDec_st_dec : (w.setDec g).st.dec = g w.st.dec := rfl
@[simp] theorem Work.setDec_st_params : (w.setDec g).st.params = w.st.params := rfl
@[simp] theorem Work.setDec_st_regs : (w.setDec g).st.regs = w.st.regs := rfl
@[simp] theorem Work.setDec_st_freq : (w.setDec g).st.freq = w.st.freq := rfl
@[simp] theorem Work.setDec_st_len : (w.setDec g).st.len = w.st.len := rfl
@[simp] theorem Work.setDec_st_sym : (w.setDec g).st.sym = w.st.sym := rfl
@[simp] theorem Work.setDec_st_buf : (w.setDec g).st.buf = w.st.buf := rfl
@[simp] theorem Work.setDec_st_win : (w.setDec g).st.win = w.st.win := rfl
@[simp] theorem Work.setDec_st_suf : (w.setDec g).st.suf = w.st.suf := rfl
@[simp] theorem Work.setDec_st_wout : (w.setDec g).st.wout = w.st.wout := rfl
@[simp] theorem Work.setDec_st_tread : (w.setDec g).st.tread = w.st.tread := rfl
@[simp] theorem Work.setDec_st_inbox : (w.setDec g).st.inbox = w.st.inbox := rfl
@[simp] theorem Work.setDec_st_resp : (w.setDec g).st.resp = w.st.resp := rfl
@[simp] theorem Work.setDec_st_free : (w.setDec g).st.free = w.st.free := rfl

@[simp] theorem Work.setTread_wroteLen : (w.setTread t).wroteLen = w.wroteLen := rfl
@[simp] theorem Work.setTread_st_tread : (w.setTread t).st.tread = t := rfl
@[simp] theorem Work.setTread_st_params : (w.setTread t).st.params = w.st.params := rfl
@[simp] theorem Work.setTread_st_regs : (w.setTread t).st.regs = w.st.regs := rfl
@[simp] theorem Work.setTread_st_dec : (w.setTread t).st.dec = w.st.dec := rfl
@[simp] theorem Work.setTread_st_freq : (w.setTread t).st.freq = w.st.freq := rfl
@[simp] theorem Work.setTread_st_len : (w.setTread t).st.len = w.st.len := rfl
@[simp] theorem Work.setTread_st_sym : (w.setTread t).st.sym = w.st.sym := rfl
@[simp] theorem Work.setTread_st_buf : (w.setTread t).st.buf = w.st.buf := rfl
@[simp] theorem Work.setTread_st_win : (w.setTread t).st.win = w.st.win := rfl
@[simp] theorem Work.setTread_st_suf : (w.setTread t).st.suf = w.st.suf := rfl
@[simp] theorem Work.setTread_st_wout : (w.setTread t).st.wout = w.st.wout := rfl
@[simp] theorem Work.setTread_st_inbox : (w.setTread t).st.inbox = w.st.inbox := rfl
@[simp] theorem Work.setTread_st_resp : (w.setTread t).st.resp = w.st.resp := rfl
@[simp] theorem Work.setTread_st_free : (w.setTread t).st.free = w.st.free := rfl

/-! ## The registers -/

@[simp] theorem Regs.loadCode_maxlen (n : Nat) : (r.loadCode n).maxlen = BitVec.ofNat 32 n := rfl
@[simp] theorem Regs.loadCode_codeValid (n : Nat) : (r.loadCode n).status.codeValid = true := rfl
@[simp] theorem Regs.loadCode_fault (n : Nat) : (r.loadCode n).status.fault = r.status.fault := rfl
@[simp] theorem Regs.loadCode_faultCode (n : Nat) : (r.loadCode n).status.faultCode = r.status.faultCode := rfl
@[simp] theorem Regs.loadCode_faultOp (n : Nat) : (r.loadCode n).status.faultOp = r.status.faultOp := rfl
@[simp] theorem Regs.loadCode_arg (n : Nat) : (r.loadCode n).arg = r.arg := rfl
@[simp] theorem Regs.loadCode_result (n : Nat) : (r.loadCode n).result = r.result := rfl
@[simp] theorem Regs.loadCode_faultInfo (n : Nat) : (r.loadCode n).faultInfo = r.faultInfo := rfl
@[simp] theorem Regs.loadCode_limit (n : Nat) : (r.loadCode n).limit = r.limit := rfl
@[simp] theorem Regs.loadCode_wpos (n : Nat) : (r.loadCode n).wpos = r.wpos := rfl
@[simp] theorem Regs.loadCode_wnb (n : Nat) : (r.loadCode n).wnb = r.wnb := rfl
@[simp] theorem Regs.loadCode_wacc (n : Nat) : (r.loadCode n).wacc = r.wacc := rfl
@[simp] theorem Regs.loadCode_wcnt (n : Nat) : (r.loadCode n).wcnt = r.wcnt := rfl
@[simp] theorem Regs.loadCode_rpos (n : Nat) : (r.loadCode n).rpos = r.rpos := rfl
@[simp] theorem Regs.loadCode_rlim (n : Nat) : (r.loadCode n).rlim = r.rlim := rfl
@[simp] theorem Regs.loadCode_rnb (n : Nat) : (r.loadCode n).rnb = r.rnb := rfl
@[simp] theorem Regs.loadCode_racc (n : Nat) : (r.loadCode n).racc = r.racc := rfl
@[simp] theorem Regs.loadCode_rcnt (n : Nat) : (r.loadCode n).rcnt = r.rcnt := rfl
@[simp] theorem Regs.loadCode_symCnt (n : Nat) : (r.loadCode n).symCnt = r.symCnt := rfl
@[simp] theorem Regs.loadCode_winCnt (n : Nat) : (r.loadCode n).winCnt = r.winCnt := rfl
@[simp] theorem Regs.loadCode_sufCnt (n : Nat) : (r.loadCode n).sufCnt = r.sufCnt := rfl
@[simp] theorem Regs.loadCode_woutCnt (n : Nat) : (r.loadCode n).woutCnt = r.woutCnt := rfl
@[simp] theorem Regs.loadCode_woutPtr (n : Nat) : (r.loadCode n).woutPtr = r.woutPtr := rfl

@[simp] theorem Regs.dropCode_maxlen : r.dropCode.maxlen = 0 := rfl
@[simp] theorem Regs.dropCode_codeValid : r.dropCode.status.codeValid = false := rfl
@[simp] theorem Regs.dropCode_fault : r.dropCode.status.fault = r.status.fault := rfl
@[simp] theorem Regs.dropCode_faultCode : r.dropCode.status.faultCode = r.status.faultCode := rfl
@[simp] theorem Regs.dropCode_faultOp : r.dropCode.status.faultOp = r.status.faultOp := rfl
@[simp] theorem Regs.dropCode_arg : (r.dropCode).arg = r.arg := rfl
@[simp] theorem Regs.dropCode_result : (r.dropCode).result = r.result := rfl
@[simp] theorem Regs.dropCode_faultInfo : (r.dropCode).faultInfo = r.faultInfo := rfl
@[simp] theorem Regs.dropCode_limit : (r.dropCode).limit = r.limit := rfl
@[simp] theorem Regs.dropCode_wpos : (r.dropCode).wpos = r.wpos := rfl
@[simp] theorem Regs.dropCode_wnb : (r.dropCode).wnb = r.wnb := rfl
@[simp] theorem Regs.dropCode_wacc : (r.dropCode).wacc = r.wacc := rfl
@[simp] theorem Regs.dropCode_wcnt : (r.dropCode).wcnt = r.wcnt := rfl
@[simp] theorem Regs.dropCode_rpos : (r.dropCode).rpos = r.rpos := rfl
@[simp] theorem Regs.dropCode_rlim : (r.dropCode).rlim = r.rlim := rfl
@[simp] theorem Regs.dropCode_rnb : (r.dropCode).rnb = r.rnb := rfl
@[simp] theorem Regs.dropCode_racc : (r.dropCode).racc = r.racc := rfl
@[simp] theorem Regs.dropCode_rcnt : (r.dropCode).rcnt = r.rcnt := rfl
@[simp] theorem Regs.dropCode_symCnt : (r.dropCode).symCnt = r.symCnt := rfl
@[simp] theorem Regs.dropCode_winCnt : (r.dropCode).winCnt = r.winCnt := rfl
@[simp] theorem Regs.dropCode_sufCnt : (r.dropCode).sufCnt = r.sufCnt := rfl
@[simp] theorem Regs.dropCode_woutCnt : (r.dropCode).woutCnt = r.woutCnt := rfl
@[simp] theorem Regs.dropCode_woutPtr : (r.dropCode).woutPtr = r.woutPtr := rfl

/-! ## Fault entry and reset -/

variable (op : Byte) (code : FaultCode) (info : Word)

@[simp] theorem State.faulted_params : (s.faulted op code info).params = s.params := rfl
@[simp] theorem State.faulted_dec : (s.faulted op code info).dec = s.dec := rfl
@[simp] theorem State.faulted_freq : (s.faulted op code info).freq = s.freq := rfl
@[simp] theorem State.faulted_len : (s.faulted op code info).len = s.len := rfl
@[simp] theorem State.faulted_sym : (s.faulted op code info).sym = s.sym := rfl
@[simp] theorem State.faulted_buf : (s.faulted op code info).buf = s.buf := rfl
@[simp] theorem State.faulted_win : (s.faulted op code info).win = s.win := rfl
@[simp] theorem State.faulted_suf : (s.faulted op code info).suf = s.suf := rfl
@[simp] theorem State.faulted_wout : (s.faulted op code info).wout = s.wout := rfl
@[simp] theorem State.faulted_inbox : (s.faulted op code info).inbox = s.inbox := rfl
@[simp] theorem State.faulted_resp : (s.faulted op code info).resp = s.resp := rfl
@[simp] theorem State.faulted_free : (s.faulted op code info).free = s.free := rfl
@[simp] theorem State.faulted_tread : (s.faulted op code info).tread = none := rfl
@[simp] theorem State.faulted_status :
    (s.faulted op code info).regs.status = { fault := true, codeValid := s.regs.status.codeValid, faultCode := code.code, faultOp := op } := rfl
@[simp] theorem State.faulted_faultInfo : (s.faulted op code info).regs.faultInfo = info := rfl
@[simp] theorem State.faulted_arg : (s.faulted op code info).regs.arg = s.regs.arg := rfl
@[simp] theorem State.faulted_result : (s.faulted op code info).regs.result = s.regs.result := rfl
@[simp] theorem State.faulted_limit : (s.faulted op code info).regs.limit = s.regs.limit := rfl
@[simp] theorem State.faulted_maxlen : (s.faulted op code info).regs.maxlen = s.regs.maxlen := rfl
@[simp] theorem State.faulted_wpos : (s.faulted op code info).regs.wpos = s.regs.wpos := rfl
@[simp] theorem State.faulted_wnb : (s.faulted op code info).regs.wnb = s.regs.wnb := rfl
@[simp] theorem State.faulted_wacc : (s.faulted op code info).regs.wacc = s.regs.wacc := rfl
@[simp] theorem State.faulted_wcnt : (s.faulted op code info).regs.wcnt = s.regs.wcnt := rfl
@[simp] theorem State.faulted_rpos : (s.faulted op code info).regs.rpos = s.regs.rpos := rfl
@[simp] theorem State.faulted_rlim : (s.faulted op code info).regs.rlim = s.regs.rlim := rfl
@[simp] theorem State.faulted_rnb : (s.faulted op code info).regs.rnb = s.regs.rnb := rfl
@[simp] theorem State.faulted_racc : (s.faulted op code info).regs.racc = s.regs.racc := rfl
@[simp] theorem State.faulted_rcnt : (s.faulted op code info).regs.rcnt = s.regs.rcnt := rfl
@[simp] theorem State.faulted_symCnt : (s.faulted op code info).regs.symCnt = s.regs.symCnt := rfl
@[simp] theorem State.faulted_winCnt : (s.faulted op code info).regs.winCnt = s.regs.winCnt := rfl
@[simp] theorem State.faulted_sufCnt : (s.faulted op code info).regs.sufCnt = s.regs.sufCnt := rfl
@[simp] theorem State.faulted_woutCnt : (s.faulted op code info).regs.woutCnt = s.regs.woutCnt := rfl
@[simp] theorem State.faulted_woutPtr : (s.faulted op code info).regs.woutPtr = s.regs.woutPtr := rfl

variable (regs : Regs) (dec : Decoder)

@[simp] theorem faultEntry_params : (faultEntry op regs dec w code info).params = w.st.params := rfl
@[simp] theorem faultEntry_freq : (faultEntry op regs dec w code info).freq = w.st.freq := rfl
@[simp] theorem faultEntry_len : (faultEntry op regs dec w code info).len = w.st.len := rfl
@[simp] theorem faultEntry_sym : (faultEntry op regs dec w code info).sym = w.st.sym := rfl
@[simp] theorem faultEntry_buf : (faultEntry op regs dec w code info).buf = w.st.buf := rfl
@[simp] theorem faultEntry_win : (faultEntry op regs dec w code info).win = w.st.win := rfl
@[simp] theorem faultEntry_suf : (faultEntry op regs dec w code info).suf = w.st.suf := rfl
@[simp] theorem faultEntry_wout : (faultEntry op regs dec w code info).wout = w.st.wout := rfl
@[simp] theorem faultEntry_inbox : (faultEntry op regs dec w code info).inbox = w.st.inbox := rfl
@[simp] theorem faultEntry_resp : (faultEntry op regs dec w code info).resp = w.st.resp := rfl
@[simp] theorem faultEntry_free : (faultEntry op regs dec w code info).free = w.st.free := rfl
@[simp] theorem faultEntry_dec : (faultEntry op regs dec w code info).dec = dec := rfl
@[simp] theorem faultEntry_tread : (faultEntry op regs dec w code info).tread = none := rfl
@[simp] theorem faultEntry_faultInfo : (faultEntry op regs dec w code info).regs.faultInfo = info := rfl
@[simp] theorem faultEntry_fault : (faultEntry op regs dec w code info).regs.status.fault = true := rfl
@[simp] theorem faultEntry_faultCode : (faultEntry op regs dec w code info).regs.status.faultCode = code.code := rfl
@[simp] theorem faultEntry_faultOp : (faultEntry op regs dec w code info).regs.status.faultOp = op := rfl

@[simp] theorem softReset_regs : (softReset s).regs = Regs.reset := rfl
@[simp] theorem softReset_dec : (softReset s).dec = Decoder.reset := rfl
@[simp] theorem softReset_tread : (softReset s).tread = none := rfl
@[simp] theorem softReset_params : (softReset s).params = s.params := rfl
@[simp] theorem softReset_freq : (softReset s).freq = s.freq := rfl
@[simp] theorem softReset_len : (softReset s).len = s.len := rfl
@[simp] theorem softReset_sym : (softReset s).sym = s.sym := rfl
@[simp] theorem softReset_buf : (softReset s).buf = s.buf := rfl
@[simp] theorem softReset_win : (softReset s).win = s.win := rfl
@[simp] theorem softReset_suf : (softReset s).suf = s.suf := rfl
@[simp] theorem softReset_wout : (softReset s).wout = s.wout := rfl
@[simp] theorem softReset_inbox : (softReset s).inbox = s.inbox := rfl
@[simp] theorem softReset_resp : (softReset s).resp = s.resp := rfl
@[simp] theorem softReset_free : (softReset s).free = s.free := rfl

/-! ## The host port -/

@[simp] theorem countAccess_free : (countAccess s).free = s.free + 1 := rfl
@[simp] theorem countAccess_params : (countAccess s).params = s.params := rfl
@[simp] theorem countAccess_regs : (countAccess s).regs = s.regs := rfl
@[simp] theorem countAccess_dec : (countAccess s).dec = s.dec := rfl
@[simp] theorem countAccess_freq : (countAccess s).freq = s.freq := rfl
@[simp] theorem countAccess_len : (countAccess s).len = s.len := rfl
@[simp] theorem countAccess_sym : (countAccess s).sym = s.sym := rfl
@[simp] theorem countAccess_buf : (countAccess s).buf = s.buf := rfl
@[simp] theorem countAccess_win : (countAccess s).win = s.win := rfl
@[simp] theorem countAccess_suf : (countAccess s).suf = s.suf := rfl
@[simp] theorem countAccess_wout : (countAccess s).wout = s.wout := rfl
@[simp] theorem countAccess_tread : (countAccess s).tread = s.tread := rfl
@[simp] theorem countAccess_inbox : (countAccess s).inbox = s.inbox := rfl
@[simp] theorem countAccess_resp : (countAccess s).resp = s.resp := rfl

/-! ## Views -/

variable (bits : List Bool) (k : Nat) (xs : List Str)

@[simp] theorem State.afterBits_params : (s.afterBits bits).params = s.params := rfl
@[simp] theorem State.afterBits_dec : (s.afterBits bits).dec = s.dec := rfl
@[simp] theorem State.afterBits_freq : (s.afterBits bits).freq = s.freq := rfl
@[simp] theorem State.afterBits_len : (s.afterBits bits).len = s.len := rfl
@[simp] theorem State.afterBits_sym : (s.afterBits bits).sym = s.sym := rfl
@[simp] theorem State.afterBits_win : (s.afterBits bits).win = s.win := rfl
@[simp] theorem State.afterBits_suf : (s.afterBits bits).suf = s.suf := rfl
@[simp] theorem State.afterBits_wout : (s.afterBits bits).wout = s.wout := rfl
@[simp] theorem State.afterBits_tread : (s.afterBits bits).tread = s.tread := rfl
@[simp] theorem State.afterBits_inbox : (s.afterBits bits).inbox = s.inbox := rfl
@[simp] theorem State.afterBits_resp : (s.afterBits bits).resp = s.resp := rfl
@[simp] theorem State.afterBits_free : (s.afterBits bits).free = s.free := rfl
@[simp] theorem State.afterBits_status : (s.afterBits bits).regs.status = s.regs.status := rfl
@[simp] theorem State.afterBits_arg : (s.afterBits bits).regs.arg = s.regs.arg := rfl
@[simp] theorem State.afterBits_result : (s.afterBits bits).regs.result = s.regs.result := rfl
@[simp] theorem State.afterBits_faultInfo : (s.afterBits bits).regs.faultInfo = s.regs.faultInfo := rfl
@[simp] theorem State.afterBits_limit : (s.afterBits bits).regs.limit = s.regs.limit := rfl
@[simp] theorem State.afterBits_maxlen : (s.afterBits bits).regs.maxlen = s.regs.maxlen := rfl
@[simp] theorem State.afterBits_rpos : (s.afterBits bits).regs.rpos = s.regs.rpos := rfl
@[simp] theorem State.afterBits_rlim : (s.afterBits bits).regs.rlim = s.regs.rlim := rfl
@[simp] theorem State.afterBits_rnb : (s.afterBits bits).regs.rnb = s.regs.rnb := rfl
@[simp] theorem State.afterBits_racc : (s.afterBits bits).regs.racc = s.regs.racc := rfl
@[simp] theorem State.afterBits_rcnt : (s.afterBits bits).regs.rcnt = s.regs.rcnt := rfl
@[simp] theorem State.afterBits_symCnt : (s.afterBits bits).regs.symCnt = s.regs.symCnt := rfl
@[simp] theorem State.afterBits_winCnt : (s.afterBits bits).regs.winCnt = s.regs.winCnt := rfl
@[simp] theorem State.afterBits_sufCnt : (s.afterBits bits).regs.sufCnt = s.regs.sufCnt := rfl
@[simp] theorem State.afterBits_woutCnt : (s.afterBits bits).regs.woutCnt = s.regs.woutCnt := rfl
@[simp] theorem State.afterBits_woutPtr : (s.afterBits bits).regs.woutPtr = s.regs.woutPtr := rfl

@[simp] theorem State.afterReading_params : (s.afterReading k).params = s.params := rfl
@[simp] theorem State.afterReading_dec : (s.afterReading k).dec = s.dec := rfl
@[simp] theorem State.afterReading_freq : (s.afterReading k).freq = s.freq := rfl
@[simp] theorem State.afterReading_len : (s.afterReading k).len = s.len := rfl
@[simp] theorem State.afterReading_sym : (s.afterReading k).sym = s.sym := rfl
@[simp] theorem State.afterReading_buf : (s.afterReading k).buf = s.buf := rfl
@[simp] theorem State.afterReading_win : (s.afterReading k).win = s.win := rfl
@[simp] theorem State.afterReading_suf : (s.afterReading k).suf = s.suf := rfl
@[simp] theorem State.afterReading_wout : (s.afterReading k).wout = s.wout := rfl
@[simp] theorem State.afterReading_tread : (s.afterReading k).tread = s.tread := rfl
@[simp] theorem State.afterReading_inbox : (s.afterReading k).inbox = s.inbox := rfl
@[simp] theorem State.afterReading_resp : (s.afterReading k).resp = s.resp := rfl
@[simp] theorem State.afterReading_free : (s.afterReading k).free = s.free := rfl
@[simp] theorem State.afterReading_status : (s.afterReading k).regs.status = s.regs.status := rfl
@[simp] theorem State.afterReading_arg : (s.afterReading k).regs.arg = s.regs.arg := rfl
@[simp] theorem State.afterReading_result : (s.afterReading k).regs.result = s.regs.result := rfl
@[simp] theorem State.afterReading_faultInfo : (s.afterReading k).regs.faultInfo = s.regs.faultInfo := rfl
@[simp] theorem State.afterReading_limit : (s.afterReading k).regs.limit = s.regs.limit := rfl
@[simp] theorem State.afterReading_maxlen : (s.afterReading k).regs.maxlen = s.regs.maxlen := rfl
@[simp] theorem State.afterReading_wpos : (s.afterReading k).regs.wpos = s.regs.wpos := rfl
@[simp] theorem State.afterReading_wnb : (s.afterReading k).regs.wnb = s.regs.wnb := rfl
@[simp] theorem State.afterReading_wacc : (s.afterReading k).regs.wacc = s.regs.wacc := rfl
@[simp] theorem State.afterReading_wcnt : (s.afterReading k).regs.wcnt = s.regs.wcnt := rfl
@[simp] theorem State.afterReading_rlim : (s.afterReading k).regs.rlim = s.regs.rlim := rfl
@[simp] theorem State.afterReading_symCnt : (s.afterReading k).regs.symCnt = s.regs.symCnt := rfl
@[simp] theorem State.afterReading_winCnt : (s.afterReading k).regs.winCnt = s.regs.winCnt := rfl
@[simp] theorem State.afterReading_sufCnt : (s.afterReading k).regs.sufCnt = s.regs.sufCnt := rfl
@[simp] theorem State.afterReading_woutCnt : (s.afterReading k).regs.woutCnt = s.regs.woutCnt := rfl
@[simp] theorem State.afterReading_woutPtr : (s.afterReading k).regs.woutPtr = s.regs.woutPtr := rfl

@[simp] theorem State.readAligned_params : s.readAligned.params = s.params := rfl
@[simp] theorem State.readAligned_dec : s.readAligned.dec = s.dec := rfl
@[simp] theorem State.readAligned_freq : s.readAligned.freq = s.freq := rfl
@[simp] theorem State.readAligned_len : s.readAligned.len = s.len := rfl
@[simp] theorem State.readAligned_sym : s.readAligned.sym = s.sym := rfl
@[simp] theorem State.readAligned_buf : s.readAligned.buf = s.buf := rfl
@[simp] theorem State.readAligned_win : s.readAligned.win = s.win := rfl
@[simp] theorem State.readAligned_suf : s.readAligned.suf = s.suf := rfl
@[simp] theorem State.readAligned_wout : s.readAligned.wout = s.wout := rfl
@[simp] theorem State.readAligned_tread : s.readAligned.tread = s.tread := rfl
@[simp] theorem State.readAligned_inbox : s.readAligned.inbox = s.inbox := rfl
@[simp] theorem State.readAligned_resp : s.readAligned.resp = s.resp := rfl
@[simp] theorem State.readAligned_free : s.readAligned.free = s.free := rfl
@[simp] theorem State.readAligned_rnb : s.readAligned.regs.rnb = 0 := rfl
@[simp] theorem State.readAligned_status : s.readAligned.regs.status = s.regs.status := rfl
@[simp] theorem State.readAligned_arg : s.readAligned.regs.arg = s.regs.arg := rfl
@[simp] theorem State.readAligned_result : s.readAligned.regs.result = s.regs.result := rfl
@[simp] theorem State.readAligned_faultInfo : s.readAligned.regs.faultInfo = s.regs.faultInfo := rfl
@[simp] theorem State.readAligned_limit : s.readAligned.regs.limit = s.regs.limit := rfl
@[simp] theorem State.readAligned_maxlen : s.readAligned.regs.maxlen = s.regs.maxlen := rfl
@[simp] theorem State.readAligned_wpos : s.readAligned.regs.wpos = s.regs.wpos := rfl
@[simp] theorem State.readAligned_wnb : s.readAligned.regs.wnb = s.regs.wnb := rfl
@[simp] theorem State.readAligned_wacc : s.readAligned.regs.wacc = s.regs.wacc := rfl
@[simp] theorem State.readAligned_wcnt : s.readAligned.regs.wcnt = s.regs.wcnt := rfl
@[simp] theorem State.readAligned_rpos : s.readAligned.regs.rpos = s.regs.rpos := rfl
@[simp] theorem State.readAligned_rlim : s.readAligned.regs.rlim = s.regs.rlim := rfl
@[simp] theorem State.readAligned_racc : s.readAligned.regs.racc = s.regs.racc := rfl
@[simp] theorem State.readAligned_rcnt : s.readAligned.regs.rcnt = s.regs.rcnt := rfl
@[simp] theorem State.readAligned_symCnt : s.readAligned.regs.symCnt = s.regs.symCnt := rfl
@[simp] theorem State.readAligned_winCnt : s.readAligned.regs.winCnt = s.regs.winCnt := rfl
@[simp] theorem State.readAligned_sufCnt : s.readAligned.regs.sufCnt = s.regs.sufCnt := rfl
@[simp] theorem State.readAligned_woutCnt : s.readAligned.regs.woutCnt = s.regs.woutCnt := rfl
@[simp] theorem State.readAligned_woutPtr : s.readAligned.regs.woutPtr = s.regs.woutPtr := rfl

@[simp] theorem State.emitting_params : (s.emitting xs).params = s.params := rfl
@[simp] theorem State.emitting_dec : (s.emitting xs).dec = s.dec := rfl
@[simp] theorem State.emitting_freq : (s.emitting xs).freq = s.freq := rfl
@[simp] theorem State.emitting_len : (s.emitting xs).len = s.len := rfl
@[simp] theorem State.emitting_sym : (s.emitting xs).sym = s.sym := rfl
@[simp] theorem State.emitting_buf : (s.emitting xs).buf = s.buf := rfl
@[simp] theorem State.emitting_win : (s.emitting xs).win = s.win := rfl
@[simp] theorem State.emitting_suf : (s.emitting xs).suf = s.suf := rfl
@[simp] theorem State.emitting_tread : (s.emitting xs).tread = s.tread := rfl
@[simp] theorem State.emitting_inbox : (s.emitting xs).inbox = s.inbox := rfl
@[simp] theorem State.emitting_resp : (s.emitting xs).resp = s.resp := rfl
@[simp] theorem State.emitting_free : (s.emitting xs).free = s.free := rfl
@[simp] theorem State.emitting_status : (s.emitting xs).regs.status = s.regs.status := rfl
@[simp] theorem State.emitting_arg : (s.emitting xs).regs.arg = s.regs.arg := rfl
@[simp] theorem State.emitting_result : (s.emitting xs).regs.result = s.regs.result := rfl
@[simp] theorem State.emitting_faultInfo : (s.emitting xs).regs.faultInfo = s.regs.faultInfo := rfl
@[simp] theorem State.emitting_limit : (s.emitting xs).regs.limit = s.regs.limit := rfl
@[simp] theorem State.emitting_maxlen : (s.emitting xs).regs.maxlen = s.regs.maxlen := rfl
@[simp] theorem State.emitting_wpos : (s.emitting xs).regs.wpos = s.regs.wpos := rfl
@[simp] theorem State.emitting_wnb : (s.emitting xs).regs.wnb = s.regs.wnb := rfl
@[simp] theorem State.emitting_wacc : (s.emitting xs).regs.wacc = s.regs.wacc := rfl
@[simp] theorem State.emitting_wcnt : (s.emitting xs).regs.wcnt = s.regs.wcnt := rfl
@[simp] theorem State.emitting_rpos : (s.emitting xs).regs.rpos = s.regs.rpos := rfl
@[simp] theorem State.emitting_rlim : (s.emitting xs).regs.rlim = s.regs.rlim := rfl
@[simp] theorem State.emitting_rnb : (s.emitting xs).regs.rnb = s.regs.rnb := rfl
@[simp] theorem State.emitting_racc : (s.emitting xs).regs.racc = s.regs.racc := rfl
@[simp] theorem State.emitting_rcnt : (s.emitting xs).regs.rcnt = s.regs.rcnt := rfl
@[simp] theorem State.emitting_symCnt : (s.emitting xs).regs.symCnt = s.regs.symCnt := rfl
@[simp] theorem State.emitting_winCnt : (s.emitting xs).regs.winCnt = s.regs.winCnt := rfl
@[simp] theorem State.emitting_sufCnt : (s.emitting xs).regs.sufCnt = s.regs.sufCnt := rfl

end Sys2Proof.Machine
end

