-- ==== Sys2Proof/Laws/Ops.lean ====
section
/-! SUPPORT. What the shared operations of Machine/Ops.lean can do: sequencing, the end of a command, fault entry, and
the engine's element accesses inside and outside their memory. -/

namespace Sys2Proof.Machine

variable {α β γ : Type}

/-! ## Sequencing -/

@[simp] theorem Res.bind_ok (a : α) (w : Work) (f : α → Work → Res β) : (Res.ok a w).bind f = f a w := rfl

@[simp] theorem Res.bind_raise (c : FaultCode) (i : Word) (w : Work) (f : α → Work → Res β) :
    (Res.raise c i w).bind f = .raise c i w := rfl

@[simp] theorem Res.bind_stop (e : Fault) (f : α → Work → Res β) : (Res.stop e).bind f = .stop e := rfl

theorem Res.bind_assoc (r : Res α) (f : α → Work → Res β) (g : β → Work → Res γ) :
    (r.bind f).bind g = r.bind fun a w => (f a w).bind g := by
  cases r <;> rfl

theorem Res.bind_eq_ok {r : Res α} {f : α → Work → Res β} {b : β} {w : Work} :
    r.bind f = .ok b w ↔ ∃ a v, r = .ok a v ∧ f a v = .ok b w := by
  cases r <;> simp

theorem Res.bind_eq_raise {r : Res α} {f : α → Work → Res β} {c : FaultCode} {i : Word} {w : Work} :
    r.bind f = .raise c i w ↔ r = .raise c i w ∨ ∃ a v, r = .ok a v ∧ f a v = .raise c i w := by
  cases r <;> simp

theorem Res.bind_eq_stop {r : Res α} {f : α → Work → Res β} {e : Fault} :
    r.bind f = .stop e ↔ r = .stop e ∨ ∃ a v, r = .ok a v ∧ f a v = .stop e := by
  cases r <;> simp

/-! ## The end of a command -/

/-- Every fault code is one of 0x01 to 0x14 (spec/60_exceptions.md R300). -/
theorem FaultCode.code_bounds (c : FaultCode) : 1 ≤ c.code.toNat ∧ c.code.toNat ≤ 0x14 := by
  cases c <;> decide

/-- Different faults have different codes. -/
theorem FaultCode.code_injective : Function.Injective FaultCode.code := by
  intro a b h
  cases a <;> cases b <;> first | rfl | exact absurd h (by decide)

/-- A command that raises before it has changed anything leaves the state `State.faulted`. -/
@[simp] theorem faultEntry_unchanged (op : Byte) (s : State) (c : FaultCode) (i : Word) :
    faultEntry op s.regs s.dec { st := s, wroteLen := false } c i = s.faulted op c i := rfl

/-- Fault entry: the registers but STATUS, FAULT_INFO and MAXLEN are those given, and CODE_VALID with MAXLEN is kept
unless LEN was written. -/
theorem faultEntry_regs (op : Byte) (r : Regs) (d : Decoder) (w : Work) (c : FaultCode) (i : Word) :
    (faultEntry op r d w c i).regs = { r with
      status := { fault := true, codeValid := r.status.codeValid && !w.wroteLen, faultCode := c.code, faultOp := op }
      faultInfo := i
      maxlen := if w.wroteLen then 0 else r.maxlen } := by
  unfold faultEntry
  cases w.wroteLen <;> simp [Regs.dropCode]

@[simp] theorem finish_ok (op : Byte) (r : Regs) (d : Decoder) (w : Work) :
    finish op r d (.ok () w) = .next w.st := rfl

@[simp] theorem finish_raise (op : Byte) (r : Regs) (d : Decoder) (c : FaultCode) (i : Word) (w : Work) :
    finish op r d (.raise c i w) = .next (faultEntry op r d w c i) := rfl

@[simp] theorem finish_stop (op : Byte) (r : Regs) (d : Decoder) (e : Fault) : finish op r d (.stop e) = .fault e := rfl

/-- The two ways a command ends in a next state: its body succeeds, or a fault of the spec is entered. -/
theorem runCommand_next {op : Byte} {body : Work → Res Unit} {s t : State} (h : runCommand op body s = .next t) :
    (∃ w, body { st := s, wroteLen := false } = .ok () w ∧ t = w.st) ∨
      ∃ c i w, body { st := s, wroteLen := false } = .raise c i w ∧ t = faultEntry op s.regs s.dec w c i := by
  unfold runCommand at h
  cases hb : body { st := s, wroteLen := false } with
  | ok a w => rw [hb, finish_ok] at h; exact .inl ⟨w, rfl, by simpa using h.symm⟩
  | raise c i w => rw [hb] at h; exact .inr ⟨c, i, w, rfl, by simpa using h.symm⟩
  | stop e => rw [hb] at h; cases h

theorem runCommand_of_ok {op : Byte} {body : Work → Res Unit} {s : State} {w : Work}
    (h : body { st := s, wroteLen := false } = .ok () w) : runCommand op body s = .next w.st := by
  simp [runCommand, h]

theorem runCommand_of_raise {op : Byte} {body : Work → Res Unit} {s : State} {c : FaultCode} {i : Word} {w : Work}
    (h : body { st := s, wroteLen := false } = .raise c i w) :
    runCommand op body s = .next (faultEntry op s.regs s.dec w c i) := by
  simp [runCommand, h]

/-- Between commands an entry instruction runs as a command of its own. -/
theorem runInTableRead_idle {op : Byte} {body : Work → Res Unit} {s : State} (h : s.tread = none) :
    runInTableRead op body s = runCommand op body s := by
  unfold runInTableRead
  rw [h]

/-! ## Element accesses -/

theorem checkIndex_ok {sp : Space} {i : Nat} {w : Work} (h : i < size w.st.params sp) :
    checkIndex sp i w = .ok () w := by
  simp [checkIndex, h]

theorem checkRange_ok {sp : Space} {n : Nat} {w : Work} (h : n ≤ size w.st.params sp) :
    checkRange sp n w = .ok () w := by
  simp [checkRange, h]

theorem readFreq_ok {i : Nat} {w : Work} (h : i < w.st.params.symLimitMax) :
    readFreq i w = .ok (w.st.freq.read i) w := by
  simp [readFreq, checkIndex_ok (sp := .freq) (i := i) (w := w) h]

theorem readFreqs_ok {n : Nat} {w : Work} (h : n ≤ w.st.params.symLimitMax) :
    readFreqs n w = .ok (w.st.freq.readList n) w := by
  simp [readFreqs, checkRange_ok (sp := .freq) (n := n) (w := w) h]

theorem writeFreq_ok {i : Nat} {v : Word} {w : Work} (h : i < w.st.params.symLimitMax) :
    writeFreq i v w = .ok () { w with st := { w.st with freq := w.st.freq.write i v } } := by
  simp [writeFreq, checkIndex_ok (sp := .freq) (i := i) (w := w) h]

theorem zeroFreqs_ok {n : Nat} {w : Work} (h : n ≤ w.st.params.symLimitMax) :
    zeroFreqs n w = .ok () { w with st := { w.st with freq := w.st.freq.zeroBelow n } } := by
  simp [zeroFreqs, checkRange_ok (sp := .freq) (n := n) (w := w) h]

theorem readLen_ok {i : Nat} {w : Work} (h : i < w.st.params.symLimitMax) :
    readLen i w = .ok (w.st.len.read i) w := by
  simp [readLen, checkIndex_ok (sp := .len) (i := i) (w := w) h]

theorem readLens_ok {n : Nat} {w : Work} (h : n ≤ w.st.params.symLimitMax) :
    readLens n w = .ok (w.st.lens n) w := by
  simp [readLens, checkRange_ok (sp := .len) (n := n) (w := w) h, State.lens]

theorem writeLens_ok {a : Nat} {vs : List Byte} {w : Work} (h : a + vs.length ≤ w.st.params.symLimitMax) :
    writeLens a vs w = .ok ()
      { st := { w.st with len := w.st.len.writeList a vs }, wroteLen := w.wroteLen || !vs.isEmpty } := by
  simp [writeLens, checkRange_ok (sp := .len) (n := a + vs.length) (w := w) h]

theorem readSyms_ok {n : Nat} {w : Work} (h : n ≤ w.st.params.symSize) :
    readSyms n w = .ok (w.st.sym.readList n) w := by
  simp [readSyms, checkRange_ok (sp := .sym) (n := n) (w := w) h]

theorem writeSym_ok {i : Nat} {v : Half} {w : Work} (h : i < w.st.params.symSize) :
    writeSym i v w = .ok () { w with st := { w.st with sym := w.st.sym.write i v } } := by
  simp [writeSym, checkIndex_ok (sp := .sym) (i := i) (w := w) h]

theorem writeSyms_ok {vs : List Half} {w : Work} (h : vs.length ≤ w.st.params.symSize) :
    writeSyms vs w = .ok () { w with st := { w.st with sym := w.st.sym.writeList 0 vs } } := by
  simp [writeSyms, checkRange_ok (sp := .sym) (n := vs.length) (w := w) h]

theorem readBuf_ok {a : Nat} {w : Work} (h : a < w.st.params.bufSize) : readBuf a w = .ok (w.st.buf.read a) w := by
  simp [readBuf, checkIndex_ok (sp := .buf) (i := a) (w := w) h]

theorem writeBuf_ok {a : Nat} {v : Byte} {w : Work} (h : a < w.st.params.bufSize) :
    writeBuf a v w = .ok () { w with st := { w.st with buf := w.st.buf.write a v } } := by
  simp [writeBuf, checkIndex_ok (sp := .buf) (i := a) (w := w) h]

theorem writeWouts_ok {a : Nat} {vs : List Byte} {w : Work} (h : a + vs.length ≤ w.st.params.woutSize) :
    writeWouts a vs w = .ok () { w with st := { w.st with wout := w.st.wout.writeList a vs } } := by
  simp [writeWouts, checkRange_ok (sp := .wout) (n := a + vs.length) (w := w) h]

end Sys2Proof.Machine
end

