-- ==== Sys2Proof/Laws/BitStream.lean ====
section
/-! SUPPORT. The two bit streams in closed form: what appending bits to the write stream does, and what reading bits of
the read stream returns, up to the fault at the end of BUF or at RLIM. -/

namespace Sys2Proof.Machine

/-! ## Whole bytes of a bit sequence -/

theorem packBytes_length (bs : List Bool) : (packBytes bs).length = bs.length / 8 := by simp [packBytes]

theorem tailBits_length (bs : List Bool) : (tailBits bs).length = bs.length % 8 := by
  simp only [tailBits, List.length_drop]; omega

theorem packBytes_short {bs : List Bool} (h : bs.length < 8) : packBytes bs = [] := by
  simp [packBytes, Nat.div_eq_of_lt h]

theorem tailBits_short {bs : List Bool} (h : bs.length < 8) : tailBits bs = bs := by
  simp [tailBits, Nat.div_eq_of_lt h]

/-- The first eight bits make the first byte. -/
theorem packBytes_cons {as : List Bool} (h : as.length = 8) (bs : List Bool) :
    packBytes (as ++ bs) = BitVec.ofNat 8 (bitsToNat as) :: packBytes bs := by
  have hl : (as ++ bs).length / 8 = bs.length / 8 + 1 := by rw [List.length_append, h]; omega
  rw [packBytes, hl, List.range_succ_eq_map, List.map_cons, List.map_map, packBytes]
  congr 1
  · simp [← h]
  · refine List.map_congr_left fun k _ => ?_
    simp only [Function.comp_apply]
    rw [show 8 * (k + 1) = as.length + 8 * k by omega, List.drop_append, List.drop_eq_nil_of_le (by omega)]
    simp

theorem tailBits_cons {as : List Bool} (h : as.length = 8) (bs : List Bool) : tailBits (as ++ bs) = tailBits bs := by
  have hl : (as ++ bs).length / 8 = bs.length / 8 + 1 := by rw [List.length_append, h]; omega
  rw [tailBits, hl, show 8 * (bs.length / 8 + 1) = as.length + 8 * (bs.length / 8) by omega, List.drop_append,
    List.drop_eq_nil_of_le (by omega), tailBits]
  simp

/-- Packing bits and then more: the bits left over stand before the new ones. -/
theorem packBytes_append (as bs : List Bool) :
    packBytes (as ++ bs) = packBytes as ++ packBytes (tailBits as ++ bs) ∧
      tailBits (as ++ bs) = tailBits (tailBits as ++ bs) := by
  by_cases h : as.length < 8
  · simp [packBytes_short h, tailBits_short h]
  · have h8 : (as.take 8).length = 8 := by simp; omega
    have ih := packBytes_append (as.drop 8) bs
    have e : as = as.take 8 ++ as.drop 8 := (List.take_append_drop 8 as).symm
    constructor
    · conv_lhs => rw [e, List.append_assoc, packBytes_cons h8, ih.1]
      conv_rhs => rw [e, packBytes_cons h8, tailBits_cons h8]
      simp
    · conv_lhs => rw [e, List.append_assoc, tailBits_cons h8, ih.2]
      conv_rhs => rw [e, tailBits_cons h8]
termination_by as.length
decreasing_by simp; omega

/-! ## The write stream -/

/-- The invariant of the bit writer (spec/10_state.md R42), with BUF inside the address range. -/
structure WriterOk (s : State) : Prop where
  nb : s.regs.wnb.toNat ≤ 7
  acc : s.regs.wacc.toNat < 2 ^ s.regs.wnb.toNat
  pos : s.regs.wpos.toNat ≤ s.params.bufSize
  cnt : s.regs.wcnt.toNat ≤ s.regs.wpos.toNat
  size : s.params.bufSize ≤ 16777215

theorem State.Sane.writerOk {s : State} (h : s.Sane) : WriterOk s :=
  ⟨h.writer.1, h.writer.2.1, h.writer.2.2.1, h.writer.2.2.2, h.params.2.2.1.2⟩

@[simp] theorem pendingBits_length (r : Regs) : r.pendingBits.length = r.wnb.toNat := by simp [Regs.pendingBits]

/-- The partial byte holds exactly the pending bits. -/
theorem WriterOk.acc_eq {s : State} (h : WriterOk s) :
    s.regs.wacc = BitVec.ofNat 8 (bitsToNat s.regs.pendingBits) := by
  rw [Regs.pendingBits, bitsToNat_fieldBits_of_lt h.acc]; simp

theorem afterBits_nil {s : State} (h : WriterOk s) : s.afterBits [] = s := by
  have hs : s.regs.pendingBits.length < 8 := by have := h.nb; simp; omega
  simp only [State.afterBits, List.append_nil, packBytes_short hs, tailBits_short hs, ← h.acc_eq]
  simp [Mem.writeList]

theorem afterBits_pendingBits (s : State) (bs : List Bool) :
    (s.afterBits bs).regs.pendingBits = tailBits (s.regs.pendingBits ++ bs) := by
  have hl := tailBits_length (s.regs.pendingBits ++ bs)
  have hlt := bitsToNat_lt (tailBits (s.regs.pendingBits ++ bs))
  have hn : (BitVec.ofNat 4 (tailBits (s.regs.pendingBits ++ bs)).length).toNat
      = (tailBits (s.regs.pendingBits ++ bs)).length := by
    rw [BitVec.toNat_ofNat, Nat.mod_eq_of_lt]; omega
  have h8 : 2 ^ (tailBits (s.regs.pendingBits ++ bs)).length ≤ 2 ^ 8 := Nat.pow_le_pow_right (by omega) (by omega)
  simp only [State.afterBits, Regs.pendingBits] at *
  rw [hn, BitVec.toNat_ofNat, Nat.mod_eq_of_lt (by omega), fieldBits_bitsToNat]

/-- BUF has room for more bits exactly when it has room for the whole bytes. -/
theorem hasRoom_iff (s : State) (n : Nat) (bs : List Bool) (hn : bs.length = n) :
    s.HasRoom n ↔ s.regs.wpos.toNat + (packBytes (s.regs.pendingBits ++ bs)).length ≤ s.params.bufSize := by
  simp [State.HasRoom, packBytes_length, hn]

theorem afterBits_writerOk {s : State} (h : WriterOk s) {bs : List Bool} (hr : s.HasRoom bs.length) :
    WriterOk (s.afterBits bs) ∧
      (s.afterBits bs).regs.wpos.toNat = s.regs.wpos.toNat + (s.regs.wnb.toNat + bs.length) / 8 ∧
      (s.afterBits bs).regs.wnb.toNat = (s.regs.wnb.toNat + bs.length) % 8 := by
  have hp := (hasRoom_iff s bs.length bs rfl).1 hr
  have h1 := h.size
  have hl := tailBits_length (s.regs.pendingBits ++ bs)
  have hlt := bitsToNat_lt (tailBits (s.regs.pendingBits ++ bs))
  have hpl := packBytes_length (s.regs.pendingBits ++ bs)
  have h3 := h.cnt
  simp only [List.length_append, pendingBits_length] at hl hpl
  have hn : (BitVec.ofNat 4 (tailBits (s.regs.pendingBits ++ bs)).length).toNat
      = (tailBits (s.regs.pendingBits ++ bs)).length := by
    rw [BitVec.toNat_ofNat, Nat.mod_eq_of_lt]; omega
  have h8 : 2 ^ (tailBits (s.regs.pendingBits ++ bs)).length ≤ 2 ^ 8 := Nat.pow_le_pow_right (by omega) (by omega)
  have hw : (s.regs.wpos + BitVec.ofNat 32 (packBytes (s.regs.pendingBits ++ bs)).length).toNat
      = s.regs.wpos.toNat + (packBytes (s.regs.pendingBits ++ bs)).length := by
    rw [BitVec.toNat_add, BitVec.toNat_ofNat]; omega
  have hc : (s.regs.wcnt + BitVec.ofNat 32 (packBytes (s.regs.pendingBits ++ bs)).length).toNat
      = s.regs.wcnt.toNat + (packBytes (s.regs.pendingBits ++ bs)).length := by
    rw [BitVec.toNat_add, BitVec.toNat_ofNat]; omega
  refine ⟨⟨?_, ?_, ?_, ?_, h1⟩, ?_, ?_⟩
  · simp only [State.afterBits, hn]; omega
  · simp only [State.afterBits, hn]
    rw [BitVec.toNat_ofNat, Nat.mod_eq_of_lt (by omega)]; exact hlt
  · simp only [State.afterBits, hw]; exact hp
  · simp only [State.afterBits, hw, hc]; omega
  · simp only [State.afterBits, hw]; omega
  · simp only [State.afterBits, hn]; omega

/-- Appending bits and then more is appending them all. -/
theorem afterBits_append {s : State} (h : WriterOk s) {as : List Bool} (hr : s.HasRoom as.length) (bs : List Bool) :
    (s.afterBits as).afterBits bs = s.afterBits (as ++ bs) := by
  have hpb := packBytes_append (s.regs.pendingBits ++ as) bs
  rw [List.append_assoc] at hpb
  have hp := afterBits_pendingBits s as
  have hw : (s.afterBits as).regs.wpos.toNat = s.regs.wpos.toNat + (packBytes (s.regs.pendingBits ++ as)).length := by
    rw [(afterBits_writerOk h hr).2.1, packBytes_length]; simp
  have e : (s.afterBits as).afterBits bs = { s.afterBits as with
      buf := (s.afterBits as).buf.writeList (s.afterBits as).regs.wpos.toNat
        (packBytes ((s.afterBits as).regs.pendingBits ++ bs))
      regs := { (s.afterBits as).regs with
        wpos := (s.afterBits as).regs.wpos + BitVec.ofNat 32 (packBytes ((s.afterBits as).regs.pendingBits ++ bs)).length
        wcnt := (s.afterBits as).regs.wcnt + BitVec.ofNat 32 (packBytes ((s.afterBits as).regs.pendingBits ++ bs)).length
        wnb := BitVec.ofNat 4 (tailBits ((s.afterBits as).regs.pendingBits ++ bs)).length
        wacc := BitVec.ofNat 8 (bitsToNat (tailBits ((s.afterBits as).regs.pendingBits ++ bs))) } } := rfl
  rw [e, hp, hw]
  simp only [State.afterBits, hpb.1, ← hpb.2, Mem.writeList_append, List.length_append, BitVec.ofNat_add,
    BitVec.add_assoc]

/-- A bit enters the partial byte at its low end. -/
theorem shiftIn_eq (a : Byte) (b : Bool) :
    (a <<< 1) ||| (BitVec.ofBool b).setWidth 8 = BitVec.ofNat 8 (2 * a.toNat + b.toNat) := by
  have h := Nat.shiftLeft_add_eq_or_of_lt (a := a.toNat) (b := b.toNat) (i := 1) (by cases b <;> simp)
  rw [show 2 * a.toNat + b.toNat = a.toNat <<< 1 + b.toNat by rw [Nat.shiftLeft_eq]; omega, h]
  apply BitVec.eq_of_toNat_eq
  rw [BitVec.toNat_or, BitVec.toNat_shiftLeft, BitVec.toNat_ofNat, Nat.or_mod_two_pow]
  cases b <;> simp

/-- One bit with room for it. -/
theorem putBit_room {w : Work} (h : WriterOk w.st) (b : Bool) (hr : w.st.HasRoom 1) :
    putBit b w = .ok () { w with st := w.st.afterBits [b] } := by
  have h1 := h.nb
  have h2 := h.size
  have hv : (w.st.regs.wacc <<< 1) ||| (BitVec.ofBool b).setWidth 8 =
      BitVec.ofNat 8 (bitsToNat (w.st.regs.pendingBits ++ [b])) := by
    rw [shiftIn_eq, bitsToNat_append, Regs.pendingBits, bitsToNat_fieldBits_of_lt h.acc]
    simp [bitsToNat, Nat.mul_comm]
  simp only [State.HasRoom] at hr
  by_cases hn : w.st.regs.wnb + 1 = 8#4
  · have h7 : w.st.regs.wnb.toNat = 7 := by
      have := congrArg BitVec.toNat hn
      rw [BitVec.toNat_add] at this
      simp at this
      omega
    have hl : (w.st.regs.pendingBits ++ [b]).length = 8 := by simp [h7]
    have hp : packBytes (w.st.regs.pendingBits ++ [b]) = [BitVec.ofNat 8 (bitsToNat (w.st.regs.pendingBits ++ [b]))] := by
      simpa [packBytes] using packBytes_cons hl []
    have ht : tailBits (w.st.regs.pendingBits ++ [b]) = [] := by
      simpa [tailBits] using tailBits_cons hl []
    have hb : ¬ w.st.params.bufSize ≤ w.st.regs.wpos.toNat := by omega
    unfold putBit
    simp only [hn, if_true, hb, if_false]
    rw [writeBuf_ok (by omega), hv]
    simp [State.afterBits, hp, ht, Work.setRegs, Mem.writeList]
  · have h6 : w.st.regs.wnb.toNat ≠ 7 := by
      intro h7
      apply hn
      apply BitVec.eq_of_toNat_eq
      rw [BitVec.toNat_add, h7]
      rfl
    have hl : (w.st.regs.pendingBits ++ [b]).length < 8 := by simp; omega
    unfold putBit
    simp only [hn, if_false, hv]
    simp [State.afterBits, packBytes_short hl, tailBits_short hl, Work.setRegs, Mem.writeList, BitVec.ofNat_add]

/-- One bit that completes a byte with no room for it. -/
theorem putBit_full {w : Work} (h : WriterOk w.st) (b : Bool) (hr : ¬w.st.HasRoom 1) :
    putBit b w = .raise .bufFull (BitVec.ofNat 32 w.st.params.bufSize) w ∧ w.st.regs.wpos.toNat = w.st.params.bufSize := by
  have h1 := h.pos
  have h2 := h.nb
  simp only [State.HasRoom, not_le] at hr
  have hn : w.st.regs.wnb = 7#4 := by apply BitVec.eq_of_toNat_eq; simp; omega
  have hp : w.st.regs.wpos.toNat = w.st.params.bufSize := by omega
  refine ⟨?_, hp⟩
  have hw : BitVec.ofNat 32 w.st.params.bufSize = w.st.regs.wpos := by rw [← hp]; simp
  rw [hw]
  unfold putBit
  simp [hn, hp]

/-- Room for bits is room for the first and then for the rest. -/
theorem hasRoom_cons {s : State} (h : WriterOk s) (b : Bool) (n : Nat) :
    s.HasRoom (n + 1) ↔ s.HasRoom 1 ∧ (s.afterBits [b]).HasRoom n := by
  constructor
  · intro hr
    have h1 : s.HasRoom 1 := by simp only [State.HasRoom] at hr ⊢; omega
    have h2 := afterBits_writerOk h (bs := [b]) h1
    refine ⟨h1, ?_⟩
    simp only [State.HasRoom, h2.2.1, h2.2.2, List.length_singleton, State.afterBits_params] at hr ⊢
    omega
  · rintro ⟨h1, hr⟩
    have h2 := afterBits_writerOk h (bs := [b]) h1
    simp only [State.HasRoom, h2.2.1, h2.2.2, List.length_singleton, State.afterBits_params] at hr ⊢
    omega

/-- Bits that BUF has room for: they are appended (spec/41_bitstream.md R141). -/
theorem putBits_room (bits : List Bool) : ∀ {w : Work}, WriterOk w.st → w.st.HasRoom bits.length →
    putBits bits w = .ok () { w with st := w.st.afterBits bits } := by
  induction bits with
  | nil => intro w h _; rw [afterBits_nil h]; rfl
  | cons b bs ih =>
    intro w h hr
    obtain ⟨h1, h2⟩ := (hasRoom_cons h b bs.length).1 hr
    rw [putBits, putBit_room h b h1, Res.bind_ok, ih (afterBits_writerOk h (bs := [b]) h1).1 h2]
    simp only [afterBits_append h (as := [b]) h1, List.singleton_append]

/-- Bits that BUF has no room for: the whole bytes that fit are stored, and then E_BUF_FULL is raised with WPOS, the end
of BUF (spec/41_bitstream.md R141). -/
theorem putBits_full (bits : List Bool) : ∀ {w : Work}, WriterOk w.st → ¬w.st.HasRoom bits.length →
    ∃ r, putBits bits w = .raise .bufFull (BitVec.ofNat 32 w.st.params.bufSize)
      { w with st := { w.st with buf := w.st.bufFilled bits, regs := r } } := by
  induction bits with
  | nil =>
    intro w h hr
    have := h.pos
    have := h.nb
    simp only [State.HasRoom, List.length_nil] at hr
    omega
  | cons b bs ih =>
    intro w h hr
    by_cases h1 : w.st.HasRoom 1
    · have h2 : ¬(w.st.afterBits [b]).HasRoom bs.length := fun h2 => hr ((hasRoom_cons h b bs.length).2 ⟨h1, h2⟩)
      have ha := afterBits_writerOk h (bs := [b]) h1
      obtain ⟨r, hr'⟩ := ih (w := { w with st := w.st.afterBits [b] }) ha.1 h2
      refine ⟨r, ?_⟩
      have hb : (w.st.afterBits [b]).bufFilled bs = w.st.bufFilled (b :: bs) := by
        have hp := packBytes_append (w.st.regs.pendingBits ++ [b]) bs
        rw [List.append_assoc, List.singleton_append] at hp
        have hl : (packBytes (w.st.regs.pendingBits ++ [b])).length = (w.st.regs.wnb.toNat + 1) / 8 := by
          rw [packBytes_length]; simp
        rw [State.bufFilled, State.bufFilled, afterBits_pendingBits, hp.1, ha.2.1, State.afterBits_params,
          List.take_append, Mem.writeList_append]
        simp only [State.HasRoom] at h1
        rw [List.take_of_length_le (i := w.st.params.bufSize - w.st.regs.wpos.toNat) (by omega), hl]
        simp only [List.length_singleton, Nat.sub_add_eq]
        rfl
      rw [putBits, putBit_room h b h1, Res.bind_ok, hr', hb]
      rfl
    · obtain ⟨hp, hf⟩ := putBit_full h b h1
      refine ⟨w.st.regs, ?_⟩
      rw [putBits, hp, Res.bind_raise]
      simp [State.bufFilled, hf, Mem.writeList]

/-- `AlignW()` is bits of value 0. -/
theorem alignW_eq (w : Work) : alignW w = putBits (List.replicate (padCount w.st.regs.wnb) false) w := rfl

theorem putBits_append (as bs : List Bool) (w : Work) :
    putBits (as ++ bs) w = (putBits as w).bind fun _ w => putBits bs w := by
  induction as generalizing w with
  | nil => rfl
  | cons a as ih =>
    rw [List.cons_append, putBits, putBits, Res.bind_assoc]
    congr 1
    funext _ v
    exact ih v

/-! ## The read stream -/

/-- The invariant of the bit reader (spec/10_state.md R43), with BUF inside the address range. -/
structure ReaderOk (s : State) : Prop where
  nb : s.regs.rnb.toNat ≤ 7
  pos : s.regs.rpos.toNat ≤ s.regs.rlim.toNat
  lim : s.regs.rlim.toNat ≤ s.params.bufSize
  cnt : s.regs.rcnt.toNat ≤ s.regs.rpos.toNat
  size : s.params.bufSize ≤ 16777215

theorem State.Sane.readerOk {s : State} (h : s.Sane) : ReaderOk s :=
  ⟨h.reader.1, h.reader.2.1, h.reader.2.2.1, h.reader.2.2.2, h.params.2.2.1.2⟩

/-- `AlignR()` keeps the reader's invariant, and leaves the bytes that have not been fetched. -/
theorem ReaderOk.aligned {s : State} (h : ReaderOk s) : ReaderOk s.readAligned :=
  ⟨by simp, h.pos, h.lim, h.cnt, h.size⟩

theorem unreadBits_length (s : State) :
    s.unreadBits.length = s.regs.rnb.toNat + 8 * (s.regs.rlim.toNat - s.regs.rpos.toNat) := by
  simp [State.unreadBits, Nat.mul_comm]

theorem fetches_one_pos {r : Regs} (h : r.rnb = 0#4) : r.fetches 1 = 1 := by simp [Regs.fetches, h]

theorem fetches_one_zero {r : Regs} (h : r.rnb ≠ 0#4) : r.fetches 1 = 0 := by
  have : r.rnb.toNat ≠ 0 := fun h0 => h (BitVec.eq_of_toNat_eq (by simpa using h0))
  simp only [Regs.fetches]; omega

/-- The next bit, where one is left: the first of the unread bits. -/
theorem getBit_ok {w : Work} (h : ReaderOk w.st) (hl : 1 ≤ w.st.unreadBits.length) :
    ∃ b, getBit w = .ok b { w with st := w.st.afterReading 1 } ∧
      w.st.unreadBits = b :: (w.st.afterReading 1).unreadBits ∧ ReaderOk (w.st.afterReading 1) := by
  have hnb := h.nb
  have hpos := h.pos
  have hlim := h.lim
  have hcnt := h.cnt
  have hsize := h.size
  rw [unreadBits_length] at hl
  by_cases hn : w.st.regs.rnb = 0#4
  · have hf := fetches_one_pos hn
    have hlt : w.st.regs.rpos.toNat < w.st.regs.rlim.toNat := by simp [hn] at hl; omega
    have hp1 : (w.st.regs.rpos + 1#32).toNat = w.st.regs.rpos.toNat + 1 := by
      rw [BitVec.toNat_add]; simp; omega
    have hc1 : (w.st.regs.rcnt + 1#32).toNat = w.st.regs.rcnt.toNat + 1 := by
      rw [BitVec.toNat_add]; simp; omega
    refine ⟨(w.st.buf.read w.st.regs.rpos.toNat).getLsbD 7, ?_, ?_, ?_⟩
    · unfold getBit
      rw [if_pos hn, if_neg (by omega), readBuf_ok (by omega)]
      simp [State.afterReading, hf, hn, Work.setRegs]
    · simp only [State.unreadBits, State.afterReading, hf, hn]
      rw [show w.st.regs.rlim.toNat - w.st.regs.rpos.toNat = (w.st.regs.rlim.toNat - w.st.regs.rpos.toNat - 1) + 1 by omega,
        List.range_succ_eq_map, List.flatMap_cons, List.flatMap_map]
      simp only [Nat.add_zero, fieldBits_succ, hp1, BitVec.toNat_ofNat, Nat.add_sub_cancel, Nat.sub_sub]
      simp [BitVec.getLsbD, Nat.add_assoc, Nat.add_comm 1]
    · refine ⟨?_, ?_, hlim, ?_, hsize⟩ <;> simp only [State.afterReading, hf, hn, hp1, hc1]
      · simp
      · omega
      · omega
  · have hf := fetches_one_zero hn
    have hn0 : w.st.regs.rnb.toNat ≠ 0 := fun h0 => hn (BitVec.eq_of_toNat_eq (by simpa using h0))
    have hd : BitVec.ofNat 4 (w.st.regs.rnb.toNat - 1) = w.st.regs.rnb - 1#4 := by
      apply BitVec.eq_of_toNat_eq
      rw [BitVec.toNat_sub, BitVec.toNat_ofNat]
      simp
      omega
    have hd1 : (w.st.regs.rnb - 1#4).toNat = w.st.regs.rnb.toNat - 1 := by
      rw [← hd, BitVec.toNat_ofNat]; omega
    refine ⟨w.st.regs.racc.getLsbD (w.st.regs.rnb.toNat - 1), ?_, ?_, ?_⟩
    · unfold getBit
      rw [if_neg hn]
      simp [State.afterReading, hf, Work.setRegs, hd]
    · simp only [State.unreadBits, State.afterReading, hf, Nat.mul_zero, Nat.add_zero, hd, hd1]
      rw [show w.st.regs.rnb.toNat = (w.st.regs.rnb.toNat - 1) + 1 by omega, fieldBits_succ]
      simp [BitVec.getLsbD]
    · refine ⟨?_, ?_, hlim, ?_, hsize⟩ <;> simp only [State.afterReading, hf, Nat.mul_zero, Nat.add_zero, hd, hd1]
      · omega
      · simpa using hpos
      · simpa using hcnt

/-- The next bit, where none is left: E_EOS with RPOS, which is RLIM. -/
theorem getBit_eos {w : Work} (h : ReaderOk w.st) (hl : w.st.unreadBits.length = 0) :
    getBit w = .raise .eos w.st.regs.rlim w := by
  have hpos := h.pos
  rw [unreadBits_length] at hl
  have hn : w.st.regs.rnb = 0#4 := BitVec.eq_of_toNat_eq (by simp; omega)
  have he : w.st.regs.rpos = w.st.regs.rlim := BitVec.eq_of_toNat_eq (by omega)
  unfold getBit
  rw [if_pos hn, if_pos (by omega), he]

theorem afterReading_zero {s : State} (h : ReaderOk s) : s.afterReading 0 = s := by
  have := h.nb
  simp [State.afterReading, Regs.fetches]

/-- The fields of the state after reading, given the number of bytes fetched. -/
theorem afterReading_of_fetches {s : State} {k F : Nat} (h : s.regs.fetches k = F) :
    s.afterReading k = { s with regs := { s.regs with
      rpos := s.regs.rpos + BitVec.ofNat 32 F
      rcnt := s.regs.rcnt + BitVec.ofNat 32 F
      rnb := BitVec.ofNat 4 (s.regs.rnb.toNat + 8 * F - k)
      racc := if F = 0 then s.regs.racc else s.buf.read (s.regs.rpos.toNat + F - 1) } } := by
  subst h; rfl

/-- Reading one bit and then k more is reading k + 1. -/
theorem afterReading_one_add {s : State} (h : ReaderOk s) (k : Nat) (hk : k + 1 ≤ s.unreadBits.length) :
    (s.afterReading 1).afterReading k = s.afterReading (k + 1) := by
  have hnb := h.nb
  have hsize := h.size
  have hlim := h.lim
  rw [unreadBits_length] at hk
  by_cases hn : s.regs.rnb = 0#4
  · have hf := fetches_one_pos hn
    have hp1 : (s.regs.rpos + 1#32).toNat = s.regs.rpos.toNat + 1 := by
      have : s.regs.rpos.toNat < s.regs.rlim.toNat := by simp [hn] at hk; omega
      rw [BitVec.toNat_add]; simp; omega
    have hk1 : s.regs.fetches (k + 1) = 1 + k / 8 := by
      simp only [Regs.fetches, hn]
      simp
      omega
    have e1 : s.afterReading 1 = { s with regs := { s.regs with
        rpos := s.regs.rpos + 1#32
        rcnt := s.regs.rcnt + 1#32
        rnb := 7#4
        racc := s.buf.read s.regs.rpos.toNat } } := by
      rw [afterReading_of_fetches hf, hn]; rfl
    rw [e1, afterReading_of_fetches hk1, afterReading_of_fetches (F := k / 8) (by simp [Regs.fetches]; omega)]
    simp only [State.mk.injEq, Regs.mk.injEq, true_and, and_true, hp1, BitVec.ofNat_add, BitVec.add_assoc]
    refine ⟨?_, ?_⟩
    · rw [hn]
      congr 1
      simp
      omega
    · rw [if_neg (c := 1 + k / 8 = 0) (by omega)]
      by_cases h0 : k / 8 = 0
      · simp [h0]
      · rw [if_neg h0]
        congr 1
        omega
  · have hf := fetches_one_zero hn
    have hn0 : s.regs.rnb.toNat ≠ 0 := fun h0 => hn (BitVec.eq_of_toNat_eq (by simpa using h0))
    have hd : (BitVec.ofNat 4 (s.regs.rnb.toNat - 1)).toNat = s.regs.rnb.toNat - 1 := by
      rw [BitVec.toNat_ofNat]; omega
    have e1 : s.afterReading 1 = { s with regs := { s.regs with
        rnb := BitVec.ofNat 4 (s.regs.rnb.toNat - 1) } } := by
      rw [afterReading_of_fetches hf]; simp
    rw [e1, afterReading_of_fetches (s := s) (k := k + 1) rfl,
      afterReading_of_fetches (F := s.regs.fetches (k + 1)) (by simp only [Regs.fetches, hd]; omega)]
    simp only [State.mk.injEq, Regs.mk.injEq, true_and, and_true, hd]
    congr 1
    omega

/-- The next k bits, where they are left: the first k of the unread bits (spec/41_bitstream.md R150). -/
theorem getBits_ok (k : Nat) : ∀ {w : Work}, ReaderOk w.st → k ≤ w.st.unreadBits.length →
    getBits k w = .ok (w.st.unreadBits.take k) { w with st := w.st.afterReading k } ∧
      (w.st.afterReading k).unreadBits = w.st.unreadBits.drop k ∧ ReaderOk (w.st.afterReading k) := by
  induction k with
  | zero => intro w h _; rw [afterReading_zero h]; exact ⟨rfl, rfl, h⟩
  | succ k ih =>
    intro w h hk
    obtain ⟨b, hb, hu, h1⟩ := getBit_ok h (by omega)
    have hk1 : k ≤ (w.st.afterReading 1).unreadBits.length := by rw [hu] at hk; simpa using hk
    obtain ⟨h2, h3, h4⟩ := ih (w := { w with st := w.st.afterReading 1 }) h1 hk1
    simp only [afterReading_one_add h k hk] at h2 h3 h4
    refine ⟨?_, ?_, h4⟩
    · rw [getBits, hb, Res.bind_ok, h2, Res.bind_ok, hu, List.take_succ_cons]
    · rw [h3, hu, List.drop_succ_cons]

/-- The next k bits, where fewer are left: E_EOS with RLIM, and nothing but the read registers has changed
(spec/41_bitstream.md R150). -/
theorem getBits_eos (k : Nat) : ∀ {w : Work}, ReaderOk w.st → w.st.unreadBits.length < k →
    ∃ r, getBits k w = .raise .eos w.st.regs.rlim { w with st := { w.st with regs := r } } := by
  induction k with
  | zero => intro w _ hk; omega
  | succ k ih =>
    intro w h hk
    by_cases hl : w.st.unreadBits.length = 0
    · exact ⟨w.st.regs, by rw [getBits, getBit_eos h hl, Res.bind_raise]⟩
    · obtain ⟨b, hb, hu, h1⟩ := getBit_ok h (by omega)
      have hk1 : (w.st.afterReading 1).unreadBits.length < k := by rw [hu] at hk; simpa using hk
      obtain ⟨r, hr⟩ := ih (w := { w with st := w.st.afterReading 1 }) h1 hk1
      refine ⟨r, ?_⟩
      rw [getBits, hb, Res.bind_ok, hr, Res.bind_raise]
      rfl

/-- `GetField(k)`, where k bits are left. -/
theorem getField_ok {k : Nat} {w : Work} (h : ReaderOk w.st) (hk : k ≤ w.st.unreadBits.length) :
    getField k w = .ok (bitsToNat (w.st.unreadBits.take k)) { w with st := w.st.afterReading k } := by
  rw [getField, (getBits_ok k h hk).1, Res.bind_ok]

/-- `GetField(k)`, where fewer bits are left. -/
theorem getField_eos {k : Nat} {w : Work} (h : ReaderOk w.st) (hk : w.st.unreadBits.length < k) :
    ∃ r, getField k w = .raise .eos w.st.regs.rlim { w with st := { w.st with regs := r } } := by
  obtain ⟨r, hr⟩ := getBits_eos k h hk
  exact ⟨r, by rw [getField, hr, Res.bind_raise]⟩

end Sys2Proof.Machine
end

