-- ==== Sys2Proof/Laws/HuffBuild.lean ====
section
/-! SUPPORT. The merge queue of the code build: an insertion keeps the nodes and their priority order
(spec/42_huffman_build.md R174), so the head of the queue is its lowest node. -/

namespace Sys2Proof.Machine

theorem QNode.before_iff (a b : QNode) : a.before b = true ↔ Lower a b := by
  simp [QNode.before]

theorem Lower.trans {a b c : QNode} (h1 : Lower a b) (h2 : Lower b c) : Lower a c := by
  unfold Lower at *
  omega

/-- Two nodes with different lowest symbols are ordered one way or the other. -/
theorem lower_of_not {a b : QNode} (hne : a.low ≠ b.low) (h : ¬Lower a b) : Lower b a := by
  unfold Lower at *
  omega

theorem insertNode_perm (a : QNode) (q : List QNode) : (insertNode a q).Perm (a :: q) := by
  induction q with
  | nil => exact .refl _
  | cons b q ih =>
    unfold insertNode
    split
    · exact .refl _
    · exact (ih.cons b).trans (.swap a b q)

/-- Inserting a node whose lowest symbol is new keeps the queue in strict priority order. -/
theorem insertNode_pairwise {a : QNode} {q : List QNode} (hq : q.Pairwise Lower)
    (hne : ∀ b ∈ q, a.low ≠ b.low) : (insertNode a q).Pairwise Lower := by
  induction q with
  | nil => simp [insertNode]
  | cons b q ih =>
    obtain ⟨hb, hq⟩ := List.pairwise_cons.1 hq
    unfold insertNode
    split
    · rename_i h
      have hab := (QNode.before_iff a b).1 h
      refine List.pairwise_cons.2 ⟨?_, List.pairwise_cons.2 ⟨hb, hq⟩⟩
      intro c hc
      rcases List.mem_cons.1 hc with rfl | hc
      · exact hab
      · exact hab.trans (hb c hc)
    · rename_i h
      have hba := lower_of_not (hne b (by simp)) (mt (QNode.before_iff a b).2 h)
      refine List.pairwise_cons.2 ⟨?_, ih hq fun c hc => hne c (by simp [hc])⟩
      intro c hc
      rcases List.mem_cons.1 ((insertNode_perm a q).mem_iff.1 hc) with rfl | hc
      · exact hba
      · exact hb c hc

/-- The leaves in `buildTree` are those of `leafNodes`, in some order. -/
theorem foldr_insertNode_perm (q : List QNode) : (q.foldr insertNode []).Perm q := by
  induction q with
  | nil => exact .refl _
  | cons a q ih => exact (insertNode_perm a _).trans (ih.cons a)

theorem buildTree_eq (freqs : List Nat) :
    buildTree freqs = mergeQueue (leafNodes freqs).length ((leafNodes freqs).foldr insertNode []) := by
  simp [buildTree, leafNodes]

end Sys2Proof.Machine
end

