-- ==== Sys2Proof/Laws/PerInstr.lean ====
section
/-! SUPPORT. The per-instruction family CommandOpcode: where an instruction's encoding is a command word, the word's OP
field is the instruction's opcode, and IMM is an operand or 0 (spec/30_encoding.md R100 and R102). -/

namespace Sys2Proof

/-- OP of an assembled command word. -/
@[simp] theorem opField_commandWord (op : Byte) (imm : Imm) : opField (commandWord op imm) = op := by
  apply BitVec.eq_of_toNat_eq
  have := imm.isLt
  have := op.isLt
  simp only [opField, commandWord, BitVec.extractLsb'_toNat, BitVec.toNat_append, Nat.shiftLeft_eq]
  rw [Nat.shiftRight_eq_div_pow, ← Nat.shiftLeft_eq, ← Nat.shiftLeft_add_eq_or_of_lt imm.isLt, Nat.shiftLeft_eq]
  omega

/-- IMM of an assembled command word. -/
@[simp] theorem immField_commandWord (op : Byte) (imm : Imm) : immField (commandWord op imm) = imm := by
  apply BitVec.eq_of_toNat_eq
  have := imm.isLt
  simp only [immField, commandWord, BitVec.extractLsb'_toNat, BitVec.toNat_append, Nat.shiftLeft_eq]
  rw [Nat.shiftRight_eq_div_pow, ← Nat.shiftLeft_eq, ← Nat.shiftLeft_add_eq_or_of_lt imm.isLt, Nat.shiftLeft_eq]
  omega

/-- A command word's OP field is the instruction's opcode. -/
def Laws.CommandOpcode.Statement (i : Instr) : Prop :=
  ∀ w, i.encode = .command w → opField w = i.opcode

namespace Laws.CommandOpcode

theorem nop : Statement (.nop) := by
  intro w h
  cases h
  exact opField_commandWord _ _

theorem sreset : Statement (.sreset) := by
  intro w h
  cases h
  exact opField_commandWord _ _

theorem bsWinit : ∀ a, Statement (.bsWinit a) := by
  intro a w h
  cases h
  exact opField_commandWord _ _

theorem bsPut : ∀ a, Statement (.bsPut a) := by
  intro a w h
  cases h
  exact opField_commandWord _ _

theorem bsWalign : Statement (.bsWalign) := by
  intro w h
  cases h
  exact opField_commandWord _ _

theorem bsRinit : ∀ a, Statement (.bsRinit a) := by
  intro a w h
  cases h
  exact opField_commandWord _ _

theorem bsGet : ∀ a, Statement (.bsGet a) := by
  intro a w h
  cases h
  exact opField_commandWord _ _

theorem bsRalign : Statement (.bsRalign) := by
  intro w h
  cases h
  exact opField_commandWord _ _

theorem ftInit : ∀ a, Statement (.ftInit a) := by
  intro a w h
  cases h
  exact opField_commandWord _ _

theorem ftInc : ∀ a, Statement (.ftInc a) := by
  intro a w h
  cases h
  exact opField_commandWord _ _

theorem ftSet : ∀ a, Statement (.ftSet a) := by
  intro a w h
  cases h
  exact opField_commandWord _ _

theorem ftGet : ∀ a, Statement (.ftGet a) := by
  intro a w h
  cases h
  exact opField_commandWord _ _

theorem hufBuild : Statement (.hufBuild) := by
  intro w h
  cases h
  exact opField_commandWord _ _

theorem hufCanon : ∀ a, Statement (.hufCanon a) := by
  intro a w h
  cases h
  exact opField_commandWord _ _

theorem hufTwrite : Statement (.hufTwrite) := by
  intro w h
  cases h
  exact opField_commandWord _ _

theorem hufTread : Statement (.hufTread) := by
  intro w h
  cases h
  exact opField_commandWord _ _

theorem hufEnc : ∀ a, Statement (.hufEnc a) := by
  intro a w h
  cases h
  exact opField_commandWord _ _

theorem hufDec : Statement (.hufDec) := by
  intro w h
  cases h
  exact opField_commandWord _ _

theorem hufBenc : Statement (.hufBenc) := by
  intro w h
  cases h
  exact opField_commandWord _ _

theorem hufBdec : ∀ a, Statement (.hufBdec a) := by
  intro a w h
  cases h
  exact opField_commandWord _ _

theorem trieEnc : Statement (.trieEnc) := by
  intro w h
  cases h
  exact opField_commandWord _ _

theorem trieDinit : Statement (.trieDinit) := by
  intro w h
  cases h
  exact opField_commandWord _ _

theorem trieDstep : ∀ a, Statement (.trieDstep a) := by
  intro a w h
  cases h
  exact opField_commandWord _ _

theorem trieDend : Statement (.trieDend) := by
  intro w h
  cases h
  exact opField_commandWord _ _

theorem trieDrun : Statement (.trieDrun) := by
  intro w h
  cases h
  exact opField_commandWord _ _

theorem sufdef : Statement (.sufdef) := by
  intro w h
  cases h

theorem mask : ∀ a, Statement (.mask a) := by
  intro a w h
  cases h

theorem bksp : ∀ a, Statement (.bksp a) := by
  intro a w h
  cases h

theorem word : Statement (.word) := by
  intro w h
  cases h

theorem char : ∀ a, Statement (.char a) := by
  intro a w h
  cases h

theorem invalidCode : ∀ a, Statement (.invalidCode a) := by
  intro a w h
  cases h

theorem tableLiteral : ∀ a b, Statement (.tableLiteral a b) := by
  intro a b w h
  cases h

theorem tableRun : ∀ a, Statement (.tableRun a) := by
  intro a w h
  cases h

end Laws.CommandOpcode

end Sys2Proof
end

