-- ==== Sys2Proof/Laws/Port.lean ====
section
/-! SUPPORT. The host port: where a register's address lies, and what a host read of a register answers
(spec/20_memory.md R70, spec/10_state.md R23). -/

namespace Sys2Proof.Machine

theorem window_reg {offset : Nat} (h : offset < 0x100) : window (BitVec.ofNat 32 offset) = .regs offset := by
  have ht : (BitVec.ofNat 32 offset).toNat = offset := by
    rw [BitVec.toNat_ofNat, Nat.mod_eq_of_lt (by omega)]
  have hd : offset / 0x1000000 = 0 := Nat.div_eq_of_lt (by omega)
  have hm : offset % 0x1000000 = offset := Nat.mod_eq_of_lt (by omega)
  simp only [window, ht, hd, hm]

/-- A 32-bit host read of a register answers `readReg`, and changes nothing but the answer. -/
theorem hostAccess_read32_reg {s : State} {offset : Nat} (h : offset < 0x100) :
    hostAccess (.read32 (BitVec.ofNat 32 offset)) s = .next (answerRead s (readReg s offset)) := by
  simp [hostAccess, hostRead, window_reg h]

theorem answerRead_some (s : State) (v : Word) : answerRead s (some v) = { s with resp := .data v } := rfl

theorem answerRead_none (s : State) : answerRead s none = { s with resp := .error } := rfl

end Sys2Proof.Machine
end

