-- ==== Sys2Proof/Laws/Trie.lean ====
section
/-! SUPPORT. The trie decoder's output primitive: the three ways `EmitWord` can end (spec/46_trie_decoder.md R261). -/

namespace Sys2Proof.Machine

theorem recordBytes_cons (x : Str) (xs : List Str) :
    recordBytes (x :: xs) = (BitVec.ofNat 8 x.length :: x) ++ recordBytes xs := rfl

theorem recordBytes_append (xs ys : List Str) : recordBytes (xs ++ ys) = recordBytes xs ++ recordBytes ys := by
  simp [recordBytes]

theorem recordBytes_singleton_length (x : Str) : (recordBytes [x]).length = x.length + 1 := by
  simp [recordBytes]

/-- A word that is short enough and fits: one record is written. -/
theorem emitWord_ok {x : Str} {w : Work} (hx : x.length ≤ 255)
    (hr : w.st.regs.woutPtr.toNat + 1 + x.length ≤ w.st.params.woutSize) :
    emitWord x w = .ok () { w with st := w.st.emitting [x] } := by
  have h1 : ¬Config.stackMax < x.length := by simpa [Config.stackMax] using hx
  rw [emitWord, if_neg h1, if_neg (by omega), writeWouts_ok (by simp only [List.length_cons]; omega)]
  simp [State.emitting, Work.setRegs, recordBytes, BitVec.ofNat_add, BitVec.add_assoc, BitVec.add_comm 1#32]

theorem emitWord_long {x : Str} {w : Work} (hx : 255 < x.length) :
    emitWord x w = .raise .wordLong (BitVec.ofNat 32 x.length) w := by
  rw [emitWord, if_pos (by simpa [Config.stackMax] using hx)]

theorem emitWord_full {x : Str} {w : Work} (hx : x.length ≤ 255)
    (hr : w.st.params.woutSize < w.st.regs.woutPtr.toNat + 1 + x.length) :
    emitWord x w = .raise .woutFull w.st.regs.woutPtr w := by
  have h1 : ¬Config.stackMax < x.length := by simpa [Config.stackMax] using hx
  rw [emitWord, if_neg h1, if_pos hr]

/-- `EmitStack()` emits the pending word (spec/46_trie_decoder.md R262). -/
theorem emitStack_emitted {w : Work} (h : w.st.dec.emitted = true) : emitStack w = .ok () w := by
  rw [emitStack, if_pos h]

theorem emitStack_pending {w : Work} (h : w.st.dec.emitted = false) :
    emitStack w = (emitWord w.st.dec.stk w).bind
      fun _ w => .ok () (w.setDec fun d => { d with emitted := true }) := by
  rw [emitStack, if_neg (by simp [h])]

end Sys2Proof.Machine
end

