-- ==== Sys2Proof/Tests/Slice0.lean ====
section
/-! SUPPORT. Tests: the well-formedness checks refuse, the decoders read words written out from the spec, single steps give
the results of spec/95_test_vectors.md and of the rules' own examples, and for every statement with hypotheses a witness
that meets them. -/

namespace Sys2Proof.Machine.Tests

/-! ## Helpers -/

/-- The next state, if there is one. -/
def nextOf (o : Host.Outcome State Fault Refusal) : Option State :=
  match o with
  | .next s => some s
  | .fault _ => none
  | .refused _ => none

/-- A next state with a property. -/
theorem exists_next {o : Host.Outcome State Fault Refusal} {p : State → Bool} (h : (nextOf o).any p = true) :
    ∃ t, o = .next t ∧ p t = true := by
  cases o with
  | next s => exact ⟨s, rfl, h⟩
  | fault f => cases h
  | refused r => cases h

/-- The result of a piece of a command, if it succeeds. -/
def okOf {α : Type} (r : Res α) : Option (α × Work) :=
  match r with
  | .ok a w => some (a, w)
  | .raise _ _ _ => none
  | .stop _ => none

theorem eq_ok {α : Type} {r : Res α} {p : α × Work} (h : okOf r = some p) : r = .ok p.1 p.2 := by
  cases r with
  | ok a w => cases h; rfl
  | raise c i w => cases h
  | stop e => cases h

theorem exists_ok {α : Type} {r : Res α} (h : (okOf r).isSome = true) : ∃ a w, r = .ok a w := by
  cases r with
  | ok a w => exact ⟨a, w, rfl⟩
  | raise c i w => cases h
  | stop e => cases h

/-- `State.Sane`, as a check. -/
def sane (s : State) : Bool :=
  decide s.params.Legal && decide (Mem.wf s.params.symLimitMax s.freq) && decide (Mem.wf s.params.symLimitMax s.len) &&
  decide (Mem.wf s.params.symSize s.sym) && decide (Mem.wf s.params.bufSize s.buf) &&
  decide (Mem.wf s.params.winSize s.win) && decide (Mem.wf s.params.sufSize s.suf) &&
  decide (Mem.wf s.params.woutSize s.wout) &&
  decide (s.regs.limit = 0 ∨ (2 ≤ s.regs.limit.toNat ∧ s.regs.limit.toNat ≤ s.params.symLimitMax)) &&
  decide (s.regs.status.codeValid = false → s.regs.maxlen = 0) &&
  decide (s.regs.status.fault = false →
    s.regs.status.faultCode = 0 ∧ s.regs.status.faultOp = 0 ∧ s.regs.faultInfo = 0) &&
  decide (s.regs.status.fault = true →
    1 ≤ s.regs.status.faultCode.toNat ∧ s.regs.status.faultCode.toNat ≤ 0x14) &&
  decide (s.regs.wnb.toNat ≤ 7 ∧ s.regs.wacc.toNat < 2 ^ s.regs.wnb.toNat ∧
    s.regs.wpos.toNat ≤ s.params.bufSize ∧ s.regs.wcnt.toNat ≤ s.regs.wpos.toNat) &&
  decide (s.regs.rnb.toNat ≤ 7 ∧ s.regs.rpos.toNat ≤ s.regs.rlim.toNat ∧
    s.regs.rlim.toNat ≤ s.params.bufSize ∧ s.regs.rcnt.toNat ≤ s.regs.rpos.toNat) &&
  decide (s.dec.stk.length ≤ 255 ∧ ∀ c ∈ s.dec.stk, IsChar c) &&
  decide (s.dec.bank.length ≤ 7 ∧ ∀ x ∈ s.dec.bank, x.length ≤ 255 ∧ ∀ c ∈ x, IsChar c) &&
  decide (s.regs.woutPtr.toNat ≤ s.params.woutSize ∧ s.regs.woutCnt.toNat ≤ s.regs.woutPtr.toNat) &&
  decide (s.tread = none)

theorem sane_of {s : State} (h : sane s = true) : s.Sane := by
  simp only [sane, Bool.and_eq_true, decide_eq_true_eq] at h
  obtain ⟨⟨⟨⟨⟨⟨⟨⟨⟨⟨⟨⟨⟨⟨⟨⟨⟨h1, h2⟩, h3⟩, h4⟩, h5⟩, h6⟩, h7⟩, h8⟩, h9⟩, h10⟩, h11⟩, h12⟩, h13⟩, h14⟩, h15⟩, h16⟩, h17⟩, h18⟩ := h
  exact ⟨h1, h2, h3, h4, h5, h6, h7, h8, h9, h10, h11, h12, h13, h14, h15, h16, h17, h18⟩

/-- `State.Inv`, as a check. -/
def inv (s : State) : Bool :=
  sane s && decide (s.regs.status.codeValid = true → 2 ≤ s.regs.limit.toNat) &&
  decide (s.regs.status.codeValid = true → validate s.loadedLens = .full) &&
  decide (s.regs.status.codeValid = true → ∀ l ∈ s.loadedLens, l ≤ s.params.maxCodeLen) &&
  decide (s.regs.status.codeValid = true → s.regs.maxlen.toNat = maxLen s.loadedLens)

theorem inv_of {s : State} (h : inv s = true) : s.Inv := by
  simp only [inv, Bool.and_eq_true, decide_eq_true_eq] at h
  obtain ⟨⟨⟨⟨h1, h2⟩, h3⟩, h4⟩, h5⟩ := h
  exact ⟨sane_of h1, ⟨h2, h3, h4, h5⟩⟩

/-- A machine with small memories. -/
def params : Params where
  symLimitMax := 4
  maxCodeLen := 3
  bufSize := 8
  symSize := 12
  winSize := 16
  sufSize := 6
  woutSize := 12

def base : State := State.resetWith params

/-- A memory with its first elements given. -/
def mem {w : Nat} (vs : List Nat) : Mem w := Mem.writeList ([] : Mem w) 0 (vs.map (BitVec.ofNat w))

/-- A string from its characters' codes. -/
def str (cs : List Nat) : Str := cs.map (BitVec.ofNat 8)

/-- The code [3,3,2,1] of spec/95_test_vectors.md 1.1, loaded. -/
def loaded : State :=
  { base with
    len := mem [3, 3, 2, 1]
    regs := { base.regs with
      limit := 4
      maxlen := 3
      status := { base.regs.status with codeValid := true } } }

/-- FREQ = [1,2,3,4] with LIMIT = 4 (1.1). -/
def counted : State := { base with freq := mem [1, 2, 3, 4], regs := { base.regs with limit := 4 } }

/-- The table of 1.1 in BUF, before a read cursor with RLIM = 5. -/
def table : State := { base with buf := mem [0x00, 0x04, 0x02, 0xFF, 0x50], regs := { base.regs with rlim := 5 } }

/-- Some bits pending in the bit writer: 101 (spec/41_bitstream.md R143). -/
def pending : State := { base with regs := { base.regs with wpos := 1, wcnt := 1, wnb := 3, wacc := 5 } }

/-- The write cursor at the end of BUF with seven bits pending. -/
def full : State := { base with regs := { base.regs with wpos := 8, wcnt := 8, wnb := 7, wacc := 0x2A } }

/-- The trie decoder of spec/46_trie_decoder.md R265: STK = "act", BANK = ["es", "ed"]. -/
def act : State :=
  { base with dec := { stk := str [97, 99, 116], bank := [str [101, 115], str [101, 100]], emitted := false } }

/-- A fault state. -/
def faulted : State := base.faulted 0x19#8 .eos 2

/-! ## Well-formedness: one ill-formed term for each check -/

theorem test_wf_refuses_mask_0 : (Instr.mask 0).wf = false := by decide
theorem test_wf_refuses_mask_128 : (Instr.mask 128).wf = false := by decide
theorem test_wf_refuses_bksp_31 : (Instr.bksp 31).wf = false := by decide
theorem test_wf_refuses_char_31 : (Instr.char 31).wf = false := by decide
theorem test_wf_refuses_char_128 : (Instr.char 128).wf = false := by decide
theorem test_wf_refuses_invalid_255 : (Instr.invalidCode 255).wf = false := by decide
theorem test_wf_refuses_literal_4_in_2_bits : (Instr.tableLiteral 2 4).wf = false := by decide
theorem test_wf_accepts : (Instr.mask 127).wf = true ∧ (Instr.bksp 30).wf = true ∧ (Instr.char 32).wf = true ∧
    (Instr.char 127).wf = true ∧ (Instr.invalidCode 256).wf = true ∧ (Instr.tableLiteral 2 3).wf = true := by decide

/-! ## Decoding: words written out from spec/30_encoding.md R100, R102, R111 and R116 -/

theorem test_decode_control :
    decodeCommand 0b00000000_000000000000000000000000#32 = .ok .nop ∧
    decodeCommand 0b00000001_000000000000000000000000#32 = .ok .sreset ∧
    decodeCommand 0b00000001_111111111111111111111111#32 = .ok .sreset := by decide

theorem test_decode_bit_stream :
    decodeCommand 0b00010000_100000000000000000000001#32 = .ok (.bsWinit 0x800001) ∧
    decodeCommand 0b00010001_000000000000000000000011#32 = .ok (.bsPut 3) ∧
    decodeCommand 0b00010010_000000000000000000000000#32 = .ok .bsWalign ∧
    decodeCommand 0b00011000_000000000000000000000101#32 = .ok (.bsRinit 5) ∧
    decodeCommand 0b00011001_000000000000000000100000#32 = .ok (.bsGet 32) ∧
    decodeCommand 0b00011010_000000000000000000000000#32 = .ok .bsRalign := by decide

theorem test_decode_frequency :
    decodeCommand 0b00100000_000000000000000000000100#32 = .ok (.ftInit 4) ∧
    decodeCommand 0b00100001_000000000000000000000010#32 = .ok (.ftInc 2) ∧
    decodeCommand 0b00100010_000000000000000000000001#32 = .ok (.ftSet 1) ∧
    decodeCommand 0b00100011_000000001111111111111111#32 = .ok (.ftGet 0xFFFF) := by decide

theorem test_decode_huffman :
    decodeCommand 0b00110000_000000000000000000000000#32 = .ok .hufBuild ∧
    decodeCommand 0b00110001_000000000000000000000100#32 = .ok (.hufCanon 4) ∧
    decodeCommand 0b00110010_000000000000000000000000#32 = .ok .hufTwrite ∧
    decodeCommand 0b00110011_000000000000000000000000#32 = .ok .hufTread ∧
    decodeCommand 0b00110100_000000000000000000000011#32 = .ok (.hufEnc 3) ∧
    decodeCommand 0b00110101_000000000000000000000000#32 = .ok .hufDec ∧
    decodeCommand 0b00110110_000000000000000000000000#32 = .ok .hufBenc ∧
    decodeCommand 0b00110111_000000000000000000001010#32 = .ok (.hufBdec 10) := by decide

theorem test_decode_trie_commands :
    decodeCommand 0b01000000_000000000000000000000000#32 = .ok .trieEnc ∧
    decodeCommand 0b01001000_000000000000000000000000#32 = .ok .trieDinit ∧
    decodeCommand 0b01001001_000000000000000001100001#32 = .ok (.trieDstep 97) ∧
    decodeCommand 0b01001010_000000000000000000000000#32 = .ok .trieDend ∧
    decodeCommand 0b01001011_000000000000000000000000#32 = .ok .trieDrun := by decide

theorem test_decode_reserved :
    decodeCommand 0x02000000#32 = .error (.reservedOpcode 0x02#8) ∧
    decodeCommand 0x4C000000#32 = .error (.reservedOpcode 0x4C#8) ∧
    decodeCommand 0xFFFFFFFF#32 = .error (.reservedOpcode 0xFF#8) := by decide

theorem test_decode_trie_codes :
    decodeTrieCode 0b0000000010000000#24 = .sufdef ∧
    decodeTrieCode 0b0000000010000010#24 = .mask 2 ∧
    decodeTrieCode 0b0000000011111111#24 = .mask 127 ∧
    decodeTrieCode 0b0000000000000000#24 = .bksp 0 ∧
    decodeTrieCode 0b0000000000011110#24 = .bksp 30 ∧
    decodeTrieCode 0b0000000000011111#24 = .word ∧
    decodeTrieCode 0b0000000000100000#24 = .char 32 ∧
    decodeTrieCode 0b0000000001111111#24 = .char 127 ∧
    decodeTrieCode 0b0000000100000000#24 = .invalidCode 256 := by decide

theorem test_decode_table_entries :
    decodeTableEntry 2 [true, true, false, false, true] = .ok (.tableLiteral 2 2, [false, true]) ∧
    decodeTableEntry 2 [false, false, false, false, false, false, true, false, true] = .ok (.tableRun 5, []) ∧
    decodeTableEntry 2 [true, true] = .error .truncatedEntry ∧
    decodeTableEntry 2 [false, true, true] = .error .truncatedEntry := by decide

/-- The opcode table's numbering: a command word as it stands, a trie code in 16 bits, an entry from its first bit. -/
theorem test_decode_table_words :
    decodeTableWord 32 0x31000004 = some (.hufCanon 4) ∧ decodeTableWord 32 0x02000000 = none ∧
    decodeTableWord 16 0x0082 = some (.mask 2) ∧
    decodeTableWord 8 0x03 = some (.tableLiteral 8 0x80) ∧ decodeTableWord 8 0x02 = some (.tableRun 0x80) := by decide

theorem test_encode :
    (Instr.bsPut 3).encode = .command 0x11000003#32 ∧ (Instr.mask 2).encode = .trieCode 130 ∧
    (Instr.tableLiteral 2 2).encode = .tableEntry [true, true, false] := by decide

/-! ## Single steps -/

/-- spec/40_control.md R130 and R132, examples. -/
theorem test_nop_keeps_code : nextOf (exec .nop loaded) = some loaded := by decide
theorem test_sreset_clears_fault :
    (nextOf (exec .sreset faulted)).map (fun t => (t.regs, t.dec)) = some (Regs.reset, Decoder.reset) := by decide

/-- spec/41_bitstream.md R142, example: 101 then 0xA5 gives byte 0xB4 and 101 pending. -/
theorem test_bsPut_spans_bytes :
    (nextOf (execAll [.bsPut 3] { base with regs := { base.regs with arg := 5 } })).bind
      (fun s => (nextOf (exec (.bsPut 8) { s with regs := { s.regs with arg := 0xA5 } })).map
        fun t => (t.buf, t.regs.wpos, t.regs.wnb, t.regs.wacc)) = some ([(0, 0xB4#8)], 1#32, 3#4, 5#8) := by decide
theorem test_bsPut_faults_at_the_end :
    (nextOf (exec (.bsPut 1) full)).map (fun t => (statusWord t.busy t.regs.status, t.regs.faultInfo, t.regs.wnb)) =
      some (0x00110C02#32, 8#32, 7#4) := by decide

/-- spec/41_bitstream.md R143, example. -/
theorem test_bsWalign_stores_0xA0 :
    (nextOf (exec .bsWalign pending)).map (fun t => (t.buf, t.regs.wpos, t.regs.wnb, t.regs.wcnt)) =
      some ([(1, 0xA0#8)], 2#32, 0#4, 2#32) := by decide

theorem test_bsWinit_at_end :
    (nextOf (exec (.bsWinit 8) pending)).map (fun t => (t.regs.wpos, t.regs.wnb, t.regs.wcnt)) =
      some (8#32, 0#4, 0#32) := by decide
theorem test_bsRinit_beyond_limit :
    (nextOf (exec (.bsRinit 3) { base with regs := { base.regs with arg := 2 } })).map
      (fun t => (statusWord t.busy t.regs.status, t.regs.faultInfo)) = some (0x00180202#32, 3#32) := by decide

/-- spec/95_test_vectors.md 2.3 #3: over B4 A0, 3 bits and then 8, which leaves RNB = 5 (log entry 14). -/
theorem test_bsGet_spans_bytes :
    (nextOf (execAll [.bsGet 3, .bsGet 8] { base with buf := mem [0xB4, 0xA0], regs := { base.regs with rlim := 2 } })).map
      (fun t => (t.regs.result, t.regs.rpos, t.regs.rnb)) = some (0xA5#32, 2#32, 5#4) := by decide
/-- spec/41_bitstream.md R153, example: after aligning, the next bit is past RLIM. -/
theorem test_bsRalign_then_eos :
    (nextOf (execAll [.bsRalign, .bsGet 1]
        { base with regs := { base.regs with rpos := 2, rlim := 2, rnb := 3, racc := 0xA0 } })).map
      (fun t => (statusWord t.busy t.regs.status, t.regs.faultInfo, t.regs.rnb)) =
      some (0x00190B02#32, 2#32, 0#4) := by decide

/-- spec/42_huffman_build.md R170 to R173. -/
theorem test_ftInit_drops_code :
    (nextOf (exec (.ftInit 2) { loaded with freq := mem [7, 7, 7] })).map
      (fun t => (t.freq, t.regs.limit, t.regs.status.codeValid, t.regs.maxlen)) =
      some ([(2, 7#32)], 2#32, false, 0#32) := by decide
theorem test_ftInc_at_the_maximum :
    (nextOf (exec (.ftInc 0) { counted with freq := mem [0x7FFFFFFF] })).map
      (fun t => (statusWord t.busy t.regs.status, t.freq)) = some (0x00210502#32, [(0, 0x7FFFFFFF#32)]) := by decide
theorem test_ftSet : (nextOf (exec (.ftSet 1) { counted with regs := { counted.regs with arg := 0 } })).map
    (fun t => t.freq) = some [(0, 1#32), (2, 3#32), (3, 4#32)] := by decide
theorem test_ftGet : (nextOf (exec (.ftGet 2) counted)).map (fun t => t.regs.result) = some 3#32 := by decide

/-- spec/95_test_vectors.md 1.1. -/
theorem test_hufBuild : (nextOf (exec .hufBuild counted)).map
    (fun t => (t.len, t.regs.maxlen, t.regs.status.codeValid)) = some (mem [3, 3, 2, 1], 3#32, true) := by decide
theorem test_hufCanon_underfull : (nextOf (exec (.hufCanon 3) { base with len := mem [1, 1, 1] })).map
    (fun t => (statusWord t.busy t.regs.status, t.regs.faultInfo)) = some (0x00310602#32, 1#32) := by decide
theorem test_codes : codeOf [3, 3, 2, 1] 0 = some [true, true, false] ∧ codeOf [3, 3, 2, 1] 3 = some [false] ∧
    codeOf [4, 4, 4, 4, 3, 3, 2, 2] 5 = some [true, false, true] := by decide
theorem test_hufTwrite : (nextOf (exec .hufTwrite loaded)).map (fun t => (t.buf, t.regs.wpos)) =
    some (mem [0x00, 0x04, 0x02, 0xFF, 0x50], 5#32) := by decide
theorem test_hufTread : (nextOf (exec .hufTread table)).map (fun t => (t.len, t.regs.limit, t.regs.maxlen, t.regs.rpos)) =
    some (mem [3, 3, 2, 1], 4#32, 3#32, 5#32) := by decide
/-- spec/43_table_io.md R207: a value-sized table. -/
theorem test_hufTread_value_sized :
    (nextOf (exec .hufTread { table with buf := mem [0x00, 0x04, 0x03, 0xBB, 0xA9] })).map (fun t => t.len) =
      some (mem [3, 3, 2, 1]) := by decide

/-- spec/44_huffman_coding.md R221 and R223, examples. -/
theorem test_hufEnc : (nextOf (execAll [.hufEnc 0, .hufEnc 3] loaded)).map (fun t => (t.regs.wnb, t.regs.wacc)) =
    some (4#4, 0xC#8) := by decide
theorem test_hufDec :
    (nextOf (execAll [.hufDec, .hufDec, .hufDec]
      { loaded with buf := mem [0xCB, 0x80], regs := { loaded.regs with rlim := 2 } })).map
      (fun t => t.regs.result) = some 2#32 := by decide

/-- spec/44_huffman_coding.md R225 and R226, examples. -/
def listed : State :=
  { base with sym := mem [0, 1, 1, 2, 2, 2, 3, 3, 3, 3], regs := { base.regs with symCnt := 10 } }
theorem test_hufBenc_block : (nextOf (exec .hufBenc listed)).map (fun t => (t.buf, t.regs.wpos)) =
    some (mem [0x00, 0x04, 0x02, 0xFF, 0x50, 0xDF, 0xD4, 0x00], 8#32) := by decide
theorem test_hufBenc_tables : (nextOf (exec .hufBenc listed)).map (fun t => (t.len, t.freq)) =
    some (mem [3, 3, 2, 1], mem [1, 2, 3, 4]) := by decide
theorem test_hufBdec :
    (nextOf (exec (.hufBdec 10) { base with
      buf := mem [0x00, 0x04, 0x02, 0xFF, 0x50, 0xDF, 0xD4, 0x00], regs := { base.regs with rlim := 8 } })).map
      (fun t => (t.sym, t.regs.symCnt, t.regs.rpos)) = some (mem [0, 1, 1, 2, 2, 2, 3, 3, 3, 3], 10#32, 8#32) := by decide

/-- The entries of a table read (spec/43_table_io.md R204). -/
def reading : State :=
  { base with tread := some { start := base.regs, n := 3, bpl := 2, i := 1, haveLast := true, last := 2 } }
theorem test_tableLiteral : (nextOf (exec (.tableLiteral 2 1) reading)).map (fun t => (t.len, t.tread.map (·.i))) =
    some ([(1, 1#8)], some 2) := by decide
theorem test_tableRun_overfills : (nextOf (exec (.tableRun 3) reading)).map
    (fun t => (statusWord t.busy t.regs.status, t.regs.faultInfo)) = some (0x00330D02#32, 0x02000001#32) := by decide

/-- spec/95_test_vectors.md 1.2: "tree" and "trees". -/
theorem test_trieEnc :
    (nextOf (exec .trieEnc { base with
      win := mem [4, 116, 114, 101, 101, 5, 116, 114, 101, 101, 115], regs := { base.regs with winCnt := 2 } })).map
      (fun t => (t.sym, t.regs.symCnt)) = some (mem [116, 114, 101, 101, 31, 115], 6#32) := by decide
theorem test_trieDrun :
    (nextOf (exec .trieDrun { base with sym := mem [116, 114, 101, 101, 31, 115], regs := { base.regs with symCnt := 6 } })).map
      (fun t => (t.wout, trieStateWord t.dec)) =
      some (mem [4, 0x74, 0x72, 0x65, 0x65, 5, 0x74, 0x72, 0x65, 0x65, 0x73], 0x00010005#32) := by decide
theorem test_trieEnc_order : trieInput { base with regs := { base.regs with winCnt := 2000 } } = .error (3, 0) := by decide

theorem test_trieDinit : (nextOf (exec .trieDinit act)).map (fun t => trieStateWord t.dec) = some 0#32 := by decide
theorem test_trieDstep : (nextOf (exec (.trieDstep 97) base)).map (fun t => (trieStateWord t.dec, readTstk t 0)) =
    some (1#32, 97#8) := by decide
theorem test_trieDend : (nextOf (exec .trieDend act)).map (fun t => t.wout) = some (mem [3, 97, 99, 116]) := by decide
/-- spec/46_trie_decoder.md R264 to R269, examples. -/
theorem test_sufdef : (nextOf (exec .sufdef act)).map (fun t => (t.dec.bank.length, t.dec.stk)) = some (3, []) := by decide
theorem test_mask : (nextOf (exec (.mask 2) act)).map (fun t => (t.wout, t.regs.woutCnt)) =
    some (mem [3, 97, 99, 116, 5, 97, 99, 116, 101, 100], 2#32) := by decide
theorem test_bksp : (nextOf (exec (.bksp 2) act)).map (fun t => (t.dec.stk, t.dec.emitted, t.regs.woutPtr)) =
    some (str [97], false, 4#32) := by decide
theorem test_word_once : (nextOf (execAll [.word, .word] act)).map (fun t => t.regs.woutCnt) = some 1#32 := by decide
theorem test_char : (nextOf (exec (.char 101) act)).map (fun t => t.dec.stk) = some (str [97, 99, 116, 101]) := by decide
theorem test_invalidCode : (nextOf (exec (.invalidCode 300) act)).map
    (fun t => (statusWord t.busy t.regs.status, t.regs.faultInfo)) = some (0x00491102#32, 0x0100012C#32) := by decide

/-- spec/42_huffman_build.md R174: with equal weights the two lowest symbols merge first, so {0, 1} and 2 meet last. -/
theorem test_merge_tie : buildTree [1, 1, 1] = some (.node (.leaf 2) (.node (.leaf 0) (.leaf 1))) := by decide

/-- A command through the host port, and the rows of the opcode table through `State.withFetchWord`. -/
theorem test_step_command : (nextOf (step { base with inbox := [.write32 0x08 0x20000004] })).map
    (fun t => (t.regs.limit, t.resp, t.inbox)) = some (4#32, .done, []) := by decide
theorem test_step_fetch_word :
    (nextOf (step (State.reset.withFetchWord 32 0x10000005))).map (fun t => t.regs.wpos) = some 5#32 ∧
    (nextOf (step (State.reset.withFetchWord 16 0x0061))).map (fun t => t.dec.stk) = some (str [97]) ∧
    (nextOf (step (State.reset.withFetchWord 8 0x01))).map (fun t => (t.len, t.tread.map (·.i))) =
      some ([], some 2) := by decide
theorem test_len_write_drops_code : (nextOf (hostAccess (.write8 0x02000003 1) loaded)).map
    (fun t => (t.len, t.regs.status.codeValid, t.regs.maxlen)) = some (mem [3, 3, 2, 1], false, 0#32) := by decide
theorem test_misaligned_access : (nextOf (hostAccess (.read16 0x03000001) base)).map (fun t => t.resp) = some .error := by
  decide

/-! ## Witnesses: states and operands that meet the hypotheses of each statement, clause by clause -/

theorem witness_EncodeThenDecode :
    (Instr.tableLiteral 2 3).wf = true ∧ (∀ b l, Instr.tableLiteral 2 3 = .tableLiteral b l → 2#8 = b) ∧
    (Instr.tableLiteral 2 3).encode = .tableEntry [true, true, true] ∧ (Instr.mask 127).wf = true ∧
    (Instr.bsPut 0xFFFFFF).wf = true :=
  ⟨by decide, fun _ _ h => by injection h, by decide, by decide, by decide⟩

theorem witness_DecodeThenEncode :
    decodeCommand 0x12000001#32 = .ok .bsWalign ∧
    decodeTableEntry 1 [true, false, true] = .ok (.tableLiteral 1 0, [true]) := by decide

theorem witness_ReservedOpcodesFault :
    (0x02 ≤ (opField 0x02000000#32).toNat ∧ (opField 0x0F000000#32).toNat ≤ 0x0F) ∧
    (0x4C ≤ (opField 0x4C000000#32).toNat ∧ 0x4C ≤ (opField 0xFF000000#32).toNat) ∧
    base.regs.status.fault = false ∧ (opField 0x4B000000#32).toNat = 0x4B := by decide

theorem witness_StepRunsDecodedCommand :
    base.tread = none ∧ base.inbox = [] ∧ ({ base with inbox := [.write32 cmdAddr 0x11000020] } : State).inbox =
      [.write32 cmdAddr 0x11000020#32] ∧
    decodeCommand 0x11000020#32 = .ok (.bsPut 32) ∧ base.regs.status.fault = false ∧
    (∀ i, decodeCommand 0x02000000#32 ≠ .ok i) ∧ faulted.regs.status.fault = true ∧ faulted.tread = none :=
  ⟨rfl, rfl, rfl, by decide, rfl,
    (fun i h => by rw [show decodeCommand 0x02000000#32 = .error (.reservedOpcode 2) by decide] at h; cases h), rfl, rfl⟩

theorem witness_FaultStateLeftOnlyBySreset :
    (faulted.tread = none ∧ faulted.regs.status.fault = true) ∧
    (∃ t, step { faulted with inbox := [.write32 cmdAddr 0x01000000] } = .next t ∧
      decide (t.regs.status.fault = false) = true) ∧
    opField 0x01000000#32 = 0x01#8 ∧
    (∃ t, step { faulted with inbox := [.write32 cmdAddr 0x00000000] } = .next t ∧
      decide (t.regs.status.fault = true) = true) ∧
    ¬∃ w rest, [HostOp.write32 cmdAddr 0x00000000] = .write32 cmdAddr w :: rest ∧ opField w = 0x01#8 :=
  ⟨by decide, exists_next (by decide), by decide, exists_next (by decide), by
    rintro ⟨w, rest, h, hw⟩
    injection h with h1 h2
    injection h1 with h3 h4
    subst h4
    exact absurd hw (by decide)⟩

theorem witness_TableReadIsItsEntrySteps :
    table.tread = none ∧ ∃ a w, tableHeader table.regs { st := table, wroteLen := false } = .ok a w :=
  ⟨rfl, exists_ok (by decide)⟩

/-- A table read at its last entry, in front of a literal 10 (bits 110...). -/
def lastEntry : State :=
  { base with
    buf := mem [0xD0]
    regs := { base.regs with rlim := 1 }
    tread := some { start := base.regs, n := 4, bpl := 2, i := 3, haveLast := true, last := 2 } }

theorem witness_TableEntryInstructions :
    base.tread = none ∧
    (∃ t, lastEntry.tread = some t ∧ t.i < t.n ∧ t.n ≤ lastEntry.params.symLimitMax ∧ t.haveLast = true ∧
      (∃ e w, fetchEntry t.bpl { st := lastEntry, wroteLen := t.haveLast } = .ok e w) ∧
      lastEntry.params.maxCodeLen < 4 ∧ ¬lastEntry.params.maxCodeLen < 3 ∧ t.n < t.i + 2 ∧ ¬t.n < t.i + 1) ∧
    (∃ t, reading.tread = some t ∧ ({ t with i := 3 } : TableRead).n ≤ ({ t with i := 3 } : TableRead).i) ∧
    ({ start := base.regs, n := 4, bpl := 2, i := 0, haveLast := false, last := 0 } : TableRead).haveLast = false :=
  ⟨rfl, ⟨_, rfl, by decide, by decide, rfl, exists_ok (by decide), by decide, by decide, by decide, by decide⟩,
    ⟨_, rfl, by decide⟩, rfl⟩

theorem witness_RegisterMap : act.dec.stk.length ≤ 255 ∧ act.dec.bank.length ≤ 7 ∧ 0x1F ≤ 0x3F ∧ 0x3F < 0x40 := by decide

theorem witness_NopAndSreset : 1 ≤ 0x17 ∧ 0x17 < 0x18 := by decide

theorem witness_ResetMeetsInv : params.Legal ∧ Params.default.Legal := by decide

theorem witness_StepKeepsSane :
    ({ pending with inbox := [.write32 cmdAddr 0x12000000] } : State).Sane ∧
    ∃ t, step { pending with inbox := [.write32 cmdAddr 0x12000000] } = .next t ∧
      decide (t.regs.wpos = 2) = true :=
  ⟨sane_of (by decide), exists_next (by decide)⟩

theorem witness_StepKeepsInv :
    ({ loaded with inbox := [.write8 0x02000000 3] } : State).Inv ∧
    ∃ t, step { loaded with inbox := [.write8 0x02000000 3] } = .next t ∧
      decide (t.regs.status.codeValid = false) = true :=
  ⟨inv_of (by decide), exists_next (by decide)⟩

theorem witness_InvIsSafe : loaded.Inv ∧ faulted.Inv := ⟨inv_of (by decide), inv_of (by decide)⟩

theorem witness_AdmittedHostAccesses :
    base.params.Legal ∧ Admitted base.params 4 0xFC ∧ Admitted base.params 1 0x02000003 ∧
    ¬Admitted base.params 2 0x00000004 ∧ (0xFC : Word) ≠ cmdAddr := by
  refine ⟨by decide, .inl ⟨rfl, 63, by decide, by decide⟩, .inr ⟨.len, 3, by decide, by decide, by decide⟩, ?_, by decide⟩
  rintro (⟨h, -⟩ | ⟨sp, i, -, -, h⟩)
  · exact absurd h (by decide)
  · cases sp <;> simp [Space.base] at h <;> omega

theorem witness_HostElementAccess :
    act.Sane ∧ 3 < size act.params .freq ∧ 254 < size act.params .tstk ∧ 2 < act.dec.stk.length ∧
    0xFFFFFFFF < 2 ^ (8 * Space.bytes .freq) ∧ 0xFF < 2 ^ (8 * Space.bytes .buf) :=
  ⟨sane_of (by decide), by decide, by decide, by decide, by decide, by decide⟩

theorem witness_RegisterWrites : (0 < 64 ∧ 0 ≠ 2) ∧ (3 < 64 ∧ 3 ≠ 2) ∧ (18 < 64 ∧ 18 ≠ 2) ∧ 63 < 64 ∧ 63 ≠ 2 := by decide

theorem witness_FaultEntryRollsBack :
    loaded.Inv ∧ loaded.regs.status.fault = false ∧
    (∃ t, exec (.bsPut 33) loaded = .next t ∧ decide (t.regs.status.fault = true) = true) ∧
    ({ table with buf := mem [0x00, 0x04, 0x02, 0xFF] } : State).Inv ∧
    ({ table with buf := mem [0x00, 0x04, 0x02, 0xFF] } : State).FirstLiteralFits ∧
    (∃ t, exec .hufTread { table with buf := mem [0x00, 0x04, 0x02, 0xFF] } = .next t ∧
      decide (t.regs.status.fault = true ∧ t.len ≠ table.len) = true) ∧
    ({ loaded with buf := mem [0x00, 0x04, 0x02, 0x7F], regs := { loaded.regs with rlim := 5 } } : State).Inv ∧
    ¬({ loaded with buf := mem [0x00, 0x04, 0x02, 0x7F], regs := { loaded.regs with rlim := 5 } } :
      State).FirstLiteralFits ∧
    ∃ t, exec .hufTread
        { loaded with buf := mem [0x00, 0x04, 0x02, 0x7F], regs := { loaded.regs with rlim := 5 } } = .next t ∧
      decide (t.regs.status.fault = true ∧ t.regs.status.codeValid = true) = true :=
  ⟨inv_of (by decide), rfl, exists_next (by decide), inv_of (by decide), by decide, exists_next (by decide),
    inv_of (by decide), by decide, exists_next (by decide)⟩

theorem witness_RegisterWriters :
    loaded.Sane ∧ Instr.hufEnc 0 ≠ .sreset ∧ ∃ t, exec (.hufEnc 0) loaded = .next t ∧
      decide (t.regs.status.fault = false) = true :=
  ⟨sane_of (by decide), by decide, exists_next (by decide)⟩

theorem witness_TableMemoryFrame :
    listed.Sane ∧ listed.regs.status.fault = false ∧
    ∃ t, exec .hufBenc listed = .next t ∧ decide (t.regs.status.fault = false) = true :=
  ⟨sane_of (by decide), rfl, exists_next (by decide)⟩

theorem witness_StreamMemoryFrame :
    act.Sane ∧ act.regs.status.fault = false ∧
    (∃ t, exec (.mask 3) act = .next t ∧ decide (t.regs.status.fault = true) = true) ∧
    ∃ t, exec (.bsPut 5) pending = .next t ∧ decide (t.regs.status.fault = false ∧ t.regs.wpos = 2) = true :=
  ⟨sane_of (by decide), rfl, exists_next (by decide), exists_next (by decide)⟩

theorem witness_StreamsAreIndependent :
    table.Sane ∧ Instr.bsGet 8 ≠ .sreset ∧ ∃ t, exec (.bsGet 8) table = .next t ∧
      decide (t.regs.rpos = 1) = true :=
  ⟨sane_of (by decide), by decide, exists_next (by decide)⟩

theorem witness_StreamStartCommands :
    base.params.bufSize < (9#24).toNat ∧ (8#24).toNat ≤ base.params.bufSize ∧
    (let s : State := { base with regs := { base.regs with arg := 9 } };
      s.params.bufSize < s.regs.arg.toNat) ∧
    (let s : State := { base with regs := { base.regs with arg := 8 } };
      s.regs.arg.toNat ≤ s.params.bufSize ∧ s.regs.arg.toNat < (9#24).toNat ∧ (8#24).toNat ≤ s.regs.arg.toNat) := by decide

theorem witness_BsPutResult :
    pending.Sane ∧ 32 < (33#24).toNat ∧ (32#24).toNat ≤ 32 ∧ pending.HasRoom 32 ∧
    full.Sane ∧ (0#24).toNat ≤ 32 ∧ full.HasRoom 0 ∧ ¬full.HasRoom 1 :=
  ⟨sane_of (by decide), by decide, by decide, by decide, sane_of (by decide), by decide, by decide, by decide⟩

theorem witness_BsWalignResult :
    base.Sane ∧ base.regs.wnb = 0 ∧ pending.Sane ∧ pending.regs.wnb ≠ 0 ∧
    pending.regs.wpos.toNat < pending.params.bufSize ∧ full.Sane ∧ full.regs.wnb ≠ 0 ∧
    full.params.bufSize ≤ full.regs.wpos.toNat ∧
    ∃ t, exec .bsWalign pending = .next t ∧ decide (t.regs.wnb = 0) = true :=
  ⟨sane_of (by decide), rfl, sane_of (by decide), by decide, by decide, sane_of (by decide), by decide, by decide,
    exists_next (by decide)⟩

theorem witness_BsGetResult :
    table.Sane ∧ 32 < (33#24).toNat ∧ (32#24).toNat ≤ 32 ∧ (32#24).toNat ≤ table.unreadBits.length ∧
    base.Sane ∧ (0#24).toNat ≤ base.unreadBits.length ∧ (1#24).toNat ≤ 32 ∧ base.unreadBits.length < (1#24).toNat :=
  ⟨sane_of (by decide), by decide, by decide, by decide, sane_of (by decide), by decide, by decide, by decide⟩

theorem witness_WriteThenRead :
    base.Sane ∧ base.regs.wnb = 0 ∧
    base.regs.wpos.toNat + (([true, false, true] : List Bool).length + 7) / 8 ≤ (1#32).toNat ∧
    (1#32).toNat ≤ base.params.bufSize ∧ (8#32).toNat ≤ base.params.bufSize :=
  ⟨sane_of (by decide), rfl, by decide, by decide, by decide⟩

theorem witness_FrequencyCommands :
    counted.Sane ∧ (1#24).toNat < 2 ∧ counted.params.symLimitMax < (5#24).toNat ∧ 2 ≤ (2#24).toNat ∧
    (4#24).toNat ≤ counted.params.symLimitMax ∧ (3#24).toNat < counted.regs.limit.toNat ∧
    counted.regs.limit.toNat ≤ (4#24).toNat :=
  ⟨sane_of (by decide), by decide, by decide, by decide, by decide, by decide, by decide⟩

/-- Counts whose tree is deeper than a MAX_CODE_LEN of 2. -/
def deep : State := { counted with params := { params with maxCodeLen := 2 } }

theorem witness_HufBuildResult :
    base.Sane ∧ base.regs.limit.toNat < 2 ∧ counted.Sane ∧ 2 ≤ counted.regs.limit.toNat ∧
    ({ counted with freq := mem [1, 0x80000000] } : State).Sane ∧
    (Mem.read (mem [1, 0x80000000] : Mem 32) 1).getLsbD 31 = true ∧
    (∀ j < 1, (Mem.read (mem [1, 0x80000000] : Mem 32) j).getLsbD 31 = false) ∧
    (∀ i < counted.regs.limit.toNat, (counted.freq.read i).getLsbD 31 = false) ∧
    (∃ t, buildTree (counted.freqs 4) = some t ∧
      (∀ i < 4, (depthList t 4).getD i 0 ≤ counted.params.maxCodeLen) ∧
      deep.params.maxCodeLen < (depthList t 4).getD 0 0) ∧ deep.Sane := by
  refine ⟨sane_of (by decide), by decide, sane_of (by decide), by decide, sane_of (by decide), by decide, by decide,
    by decide, ⟨_, rfl, by decide, by decide⟩, sane_of (by decide)⟩

theorem witness_HufBuildPads :
    ({ counted with freq := mem [0, 0, 0, 5] } : State).Sane ∧ 2 ≤ counted.regs.limit.toNat ∧
    (∀ i < counted.regs.limit.toNat, i ≠ 3 → Mem.read (mem [0, 0, 0, 5] : Mem 32) i = 0) ∧
    3 < counted.regs.limit.toNat ∧ (Mem.read (mem [0, 0, 0, 5] : Mem 32) 3).getLsbD 31 = false ∧
    ({ counted with freq := [] } : State).Sane ∧ (∀ i < counted.regs.limit.toNat, i ≠ 0 → Mem.read ([] : Mem 32) i = 0) :=
  ⟨sane_of (by decide), by decide, by decide, by decide, by decide, sane_of (by decide), by decide⟩

theorem witness_BuiltCodeIsValid :
    2 ≤ ([0, 0] : List Nat).length ∧ counted.Sane ∧ counted.regs.status.fault = false ∧
    ∃ t, exec .hufBuild counted = .next t ∧ decide (t.regs.status.fault = false) = true :=
  ⟨by decide, sane_of (by decide), rfl, exists_next (by decide)⟩

theorem witness_BuiltCodeIsOptimal :
    2 ≤ ([1, 2, 3, 4] : List Nat).length ∧ (buildTree [1, 2, 3, 4]).isSome = true ∧
    (∀ a ∈ leafSymbols [1, 2, 3, 4], ∀ b ∈ leafSymbols [1, 2, 3, 4], a ≠ b →
      ¬ fieldBits 2 a <+: fieldBits 2 b) := by decide

theorem witness_HufCanonResult :
    (1#24).toNat < 2 ∧ loaded.params.symLimitMax < (5#24).toNat ∧ 2 ≤ (2#24).toNat ∧
    (4#24).toNat ≤ loaded.params.symLimitMax ∧
    (let s : State := { loaded with len := mem [1, 4] };
      s.params.maxCodeLen < (s.len.read 1).toNat ∧ ∀ j < 1, (s.len.read j).toNat ≤ s.params.maxCodeLen) ∧
    (∀ i < 4, (loaded.len.read i).toNat ≤ loaded.params.maxCodeLen) ∧ validate (loaded.lens 4) = .full ∧
    validate ({ loaded with len := mem [1, 1, 1] } : State).loadedLens = .underfull 1 ∧
    validate ({ loaded with len := mem [1, 1, 1, 1] } : State).loadedLens = .overfull 2 := by decide

theorem witness_CanonicalCodeIsComplete :
    validate [3, 3, 2, 1] = .full ∧ 0 < [3, 3, 2, 1].getD 3 0 ∧ [1, 0, 1].getD 1 0 = 0 ∧ validate [1, 0, 1] = .full ∧
    codeOf [1, 1] 0 = some [false] := by decide

theorem witness_CanonicalCodeClosedForm : validate [1, 1] = .full ∧ 0 < [1, 1].getD 1 0 := by decide

theorem witness_TableRunRule :
    tableEntries 1 0 [1, 1, 1, 1, 1, 1, 0] = [.tableLiteral 1 1, .tableRun 5, .tableLiteral 1 0] ∧
    tableEntries 1 0 [1, 1, 1, 1, 1] = List.replicate 5 (.tableLiteral 1 1) ∧
    [Instr.tableLiteral 1 1, .tableRun 5].mapM entryFields = some [(true, 1), (false, 5)] ∧
    expandEntries none [(true, 1), (false, 5)] = some [1, 1, 1, 1, 1, 1] := by decide

theorem witness_HufTwriteResult :
    base.Inv ∧ base.regs.status.codeValid = false ∧ loaded.Inv ∧ loaded.regs.status.codeValid = true ∧
    loaded.HasRoom (tableStreamBits 0 loaded.loadedLens).length ∧
    (let s : State := { loaded with regs := { loaded.regs with wpos := 4, wcnt := 4 } };
      s.Inv ∧ ¬s.HasRoom (tableStreamBits 0 s.loadedLens).length) :=
  ⟨inv_of (by decide), rfl, inv_of (by decide), rfl, by decide, inv_of (by decide), by decide⟩

/-- The entries of the table in `table`. -/
def entries : List (Bool × Nat) := [(true, 3), (true, 3), (true, 2), (true, 1)]

theorem witness_HufTreadResult :
    table.Sane ∧ 4 ≤ table.params.symLimitMax ∧ (∀ e ∈ entries, e.2 < 2 ^ (if e.1 then 2 else 8)) ∧
    expandEntries none entries = some [3, 3, 2, 1] ∧
    (∀ ls, expandEntries none entries.dropLast = some ls → ls.length < 4) ∧
    (∀ l ∈ [3, 3, 2, 1], l ≤ table.params.maxCodeLen) ∧
    table.readAligned.unreadBits = tableWith 4 2 entries ++ [false, false, false, false] ∧
    validate [3, 3, 2, 1] = .full ∧ validate [1, 1, 1] = .underfull 1 ∧ validate [1, 1, 1, 1] = .overfull 2 :=
  ⟨sane_of (by decide), by decide, by decide, by decide, fun ls h => by injection h with h; subst h; decide,
    by decide, by decide, by decide, by decide, by decide⟩

theorem witness_HufTreadRejects :
    table.Sane ∧ base.Sane ∧ base.readAligned.unreadBits.length < 16 ∧
    (let s : State := { table with buf := mem [0, 1], regs := { table.regs with rlim := 2 } };
      s.Sane ∧ 1 < 2 ∧ s.readAligned.unreadBits = fieldBits 16 1 ++ []) ∧
    (let s : State := { table with buf := mem [0, 4], regs := { table.regs with rlim := 2 } };
      s.Sane ∧ s.readAligned.unreadBits = fieldBits 16 4 ++ [] ∧ ([] : List Bool).length < 8) ∧
    (let s : State := { table with regs := { table.regs with rlim := 4 } };
      s.Sane ∧ s.readAligned.unreadBits = tableWith 4 2 [(true, 3), (true, 3)] ++ [true, true] ∧
      [3, 3].length < 4 ∧ [true].length < (if true then 2 else 8)) ∧
    (let s : State := { table with buf := mem [0, 4, 3, 0x90], regs := { table.regs with rlim := 4 } };
      s.Sane ∧ s.readAligned.unreadBits = tableWith 4 3 [(true, 1)] ++ [false, false, false, false]) ∧
    (let s : State := { table with buf := mem [0, 4, 3, 0xC0], regs := { table.regs with rlim := 4 } };
      s.Sane ∧ s.params.maxCodeLen < 4 ∧
        s.readAligned.unreadBits = tableWith 4 3 [] ++ (true :: fieldBits 3 4 ++ [false, false, false, false])) ∧
    (let s : State := { table with buf := mem [0, 4, 3, 0x00, 0x80], regs := { table.regs with rlim := 5 } };
      s.Sane ∧ s.readAligned.unreadBits =
        tableWith 4 3 [] ++ (false :: fieldBits 8 1 ++ [false, false, false, false, false, false, false])) ∧
    (let s : State := { table with buf := mem [0, 4, 3, 0x90, 0x20], regs := { table.regs with rlim := 5 } };
      s.Sane ∧ 4 < [1].length + 4 ∧
        s.readAligned.unreadBits = tableWith 4 3 [(true, 1)] ++ (false :: fieldBits 8 4 ++ [false, false, false])) :=
  ⟨sane_of (by decide), sane_of (by decide), by decide, ⟨sane_of (by decide), by decide, by decide⟩,
    ⟨sane_of (by decide), by decide, by decide⟩, ⟨sane_of (by decide), by decide, by decide, by decide⟩,
    ⟨sane_of (by decide), by decide⟩, ⟨sane_of (by decide), by decide, by decide⟩, ⟨sane_of (by decide), by decide⟩,
    ⟨sane_of (by decide), by decide, by decide⟩⟩

theorem witness_TableRoundTrip :
    loaded.Inv ∧ loaded.regs.status.fault = false ∧ loaded.regs.status.codeValid = true ∧
    loaded.HasRoom (tableStreamBits loaded.regs.wnb.toNat loaded.loadedLens).length ∧
    ∃ t, exec .hufTwrite loaded = .next t ∧
      decide (t.regs.wpos.toNat ≤ (5#32).toNat ∧ (8#32).toNat ≤ loaded.params.bufSize) = true :=
  ⟨inv_of (by decide), rfl, rfl, by decide, exists_next (by decide)⟩

theorem witness_HufEncResult :
    base.Inv ∧ base.regs.status.codeValid = false ∧ loaded.Inv ∧ loaded.regs.status.codeValid = true ∧
    loaded.loadedLens.getD (4#24).toNat 0 = 0 ∧ 0 < loaded.loadedLens.getD (3#24).toNat 0 ∧
    codeOf loaded.loadedLens 3 = some [false] ∧ loaded.HasRoom 1 ∧
    (let s : State := { loaded with regs := { loaded.regs with wpos := 8, wcnt := 8, wnb := 7, wacc := 0 } };
      s.Inv ∧ ¬s.HasRoom 1) :=
  ⟨inv_of (by decide), rfl, inv_of (by decide), rfl, by decide, by decide, by decide, by decide, inv_of (by decide),
    by decide⟩

/-- The codes of 0, 3, 2, 1 in BUF (spec/44_huffman_coding.md R223). -/
def coded : State := { loaded with buf := mem [0xCB, 0x80], regs := { loaded.regs with rlim := 2 } }

theorem witness_HufDecResult :
    base.Inv ∧ base.regs.status.codeValid = false ∧ coded.Inv ∧ coded.regs.status.codeValid = true ∧
    codeOf coded.loadedLens 0 = some [true, true, false] ∧
    coded.unreadBits = [true, true, false] ++ coded.unreadBits.drop 3 ∧
    loaded.Inv ∧ loaded.unreadBits = [] ∧ (codeOf loaded.loadedLens 1 = some [true, true, true]) :=
  ⟨inv_of (by decide), rfl, inv_of (by decide), rfl, by decide, by decide, inv_of (by decide), by decide, by decide⟩

theorem witness_HufBencResult :
    base.Sane ∧ base.regs.symCnt.toNat = 0 ∧
    (let s : State := { listed with regs := { listed.regs with symCnt := 13 } };
      s.Sane ∧ s.params.symSize < s.regs.symCnt.toNat) ∧
    (let s : State := { base with regs := { base.regs with symCnt := 12 } };
      s.Sane ∧ s.regs.symCnt.toNat ≤ s.params.symSize ∧ maxLen (s.syms 12) + 1 < 2) ∧
    (let s : State := { base with sym := mem [4], regs := { base.regs with symCnt := 1 } };
      s.Sane ∧ s.params.symLimitMax < maxLen (s.syms 1) + 1) ∧
    listed.Sane ∧ 2 ≤ maxLen (listed.syms 10) + 1 ∧ maxLen (listed.syms 10) + 1 ≤ listed.params.symLimitMax ∧
    (∃ t, buildTree [1, 2, 3, 4] = some t ∧ (∀ i < 4, (depthList t 4).getD i 0 ≤ listed.params.maxCodeLen) ∧
      deep.params.maxCodeLen < (depthList t 4).getD 0 0 ∧
      listed.HasRoom (blockBits 0 (depthList t 4) (listed.syms 10)).length ∧
      ¬({ listed with regs := { listed.regs with wpos := 1, wcnt := 1 } } : State).HasRoom
        (blockBits 0 (depthList t 4) (listed.syms 10)).length) :=
  ⟨sane_of (by decide), rfl, ⟨sane_of (by decide), by decide⟩, ⟨sane_of (by decide), by decide, by decide⟩,
    ⟨sane_of (by decide), by decide⟩, sane_of (by decide), by decide, by decide,
    ⟨_, rfl, by decide, by decide, by decide, by decide⟩⟩

/-- The block of spec/44_huffman_coding.md R226 in BUF. -/
def block : State :=
  { base with buf := mem [0x00, 0x04, 0x02, 0xFF, 0x50, 0xDF, 0xD4, 0x00], regs := { base.regs with rlim := 8 } }

theorem witness_HufBdecResult :
    block.Sane ∧ block.params.symSize < (13#24).toNat ∧ (10#24).toNat ≤ block.params.symSize ∧
    block.readAligned.unreadBits = tableWith 4 2 entries ++ block.readAligned.unreadBits.drop 36 ∧
    (let r := (block.readAligned.afterReading (tableWith 4 2 entries).length).readAligned;
      r.unreadBits = codeBits [3, 3, 2, 1] [0, 1, 1, 2, 2, 2, 3, 3, 3, 3] ++ [false, false, false, false, false]) ∧
    (∀ sym ∈ [0, 1, 1, 2, 2, 2, 3, 3, 3, 3], 0 < [3, 3, 2, 1].getD sym 0) :=
  ⟨sane_of (by decide), by decide, by decide, by decide, by decide, by decide⟩

/-- The table read of HUF_BDEC faults; and after a whole table the stream ends inside the third code. -/
theorem witness_HufBdecResult_faults :
    ({ table with buf := mem [0x00, 0x04, 0x02, 0xFF] } : State).Sane ∧
    (∃ t, exec .hufTread { table with buf := mem [0x00, 0x04, 0x02, 0xFF] } = .next t ∧
      decide (t.regs.status.fault = true) = true) ∧
    (let s : State := { block with regs := { block.regs with rlim := 6 } };
      s.Sane ∧ s.readAligned.unreadBits = tableWith 4 2 entries ++ s.readAligned.unreadBits.drop 36 ∧
      (s.readAligned.afterReading (tableWith 4 2 entries).length).readAligned.unreadBits =
        codeBits [3, 3, 2, 1] [0, 1] ++ [true, true]) ∧
    [0, 1].length < (10#24).toNat ∧
    ∀ x bits, codeOf [3, 3, 2, 1] x = some bits → ¬ bits <+: [true, true] := by
  refine ⟨sane_of (by decide), exists_next (by decide), ⟨sane_of (by decide), by decide, by decide⟩, by decide, ?_⟩
  intro x bits h
  have ht : canonTree [3, 3, 2, 1] =
      some (.node (.leaf 3) (.node (.leaf 2) (.node (.leaf 0) (.leaf 1)))) := by decide
  by_cases hx : x < 4
  · have : ∀ x < 4, ∀ c ∈ (codeOf [3, 3, 2, 1] x).toList, ¬ c <+: [true, true] := by decide
    exact this x hx bits (by simp [h])
  · have h0 : ¬x = 0 := by omega
    have h1 : ¬x = 1 := by omega
    have h2 : ¬x = 2 := by omega
    have h3 : ¬x = 3 := by omega
    simp [codeOf, ht, Tree.path, h0, h1, h2, h3] at h

theorem witness_BlockIsHostSequence :
    listed.Sane ∧ listed.regs.status.fault = false ∧
    ∃ t, exec .hufBenc listed = .next t ∧ decide (t.regs.status.fault = false) = true :=
  ⟨sane_of (by decide), rfl, exists_next (by decide)⟩

theorem witness_BlockRoundTrip :
    listed.Sane ∧ listed.regs.status.fault = false ∧
    (∃ t, exec .hufBenc listed = .next t ∧ decide (t.regs.status.fault = false) = true) ∧
    Mem.wf listed.params.symSize (mem [9, 9] : Mem 16) :=
  ⟨sane_of (by decide), rfl, exists_next (by decide), by decide⟩

/-- WIN with "ab" and "b", then a record of one byte 200; SUF with "s" and then an empty record. -/
def records : State :=
  { base with
    win := mem [2, 97, 98, 1, 98, 1, 200]
    suf := mem [1, 115, 0]
    regs := { base.regs with winCnt := 2, sufCnt := 2 } }

theorem witness_TrieInputOrder :
    7 < (8#32).toNat ∧ records.regs.sufCnt.toNat ≤ 7 ∧
    Stored records.win records.params.winSize [str [97, 98], str [98]] ∧
    (∀ x ∈ [str [97, 98], str [98]], x ≠ [] ∧ x.length ≤ 255 ∧ ∀ c ∈ x, IsChar c) ∧
    [str [97, 98], str [98]].Pairwise (· < ·) ∧
    [str [97, 98], str [98]].length < (3#32).toNat ∧ ¬IsChar (records.win.read 6) ∧
    [str [97, 98], str [98]].length = records.regs.winCnt.toNat ∧
    Stored records.suf records.params.sufSize [str [115]] ∧ [str [115]].length < records.regs.sufCnt.toNat ∧
    (records.suf.read 2).toNat = 0 := by decide

theorem witness_TrieInputAccepts :
    let s : State := { records with regs := { records.regs with sufCnt := 1 } }
    trieInput s = .ok ([str [97, 98], str [98]], [str [115]]) ∧ [str [115]].length ≤ 7 ∧
    Stored s.suf s.params.sufSize [str [115]] := by decide

set_option maxRecDepth 4000 in
theorem witness_TrieEncResult :
    trieInput { records with regs := { records.regs with sufCnt := 1 } } = .ok ([str [97, 98], str [98]], [str [115]]) ∧
    trieEncode [str [97, 98], str [98]] [str [115]] = .ok [115, 128, 97, 98, 2, 98] ∧
    trieEncode [str (List.replicate 31 97), str [98]] [] = .error (31, 1) ∧
    6 ≤ records.params.symSize ∧ ({ params with symSize := 5 } : Params).symSize < 6 := by decide

theorem witness_TrieCodeRange :
    trieEncode [str [97], str [97, 98]] [str [98]] = .ok [98, 128, 97, 129] ∧ [str [98]].length ≤ 7 ∧
    ∀ x ∈ [str [97], str [97, 98]] ++ [str [98]], x ≠ [] ∧ ∀ c ∈ x, IsChar c := by decide

theorem witness_TrieSuffixAccounting :
    ∀ w ∈ [str [97], str [98]], ∀ x ∈ [str [99]], w ++ x ∉ [str [97], str [98]] := by decide

theorem witness_TrieBackspaceBoundary :
    [str (List.replicate 30 97), str [98]].Pairwise (· < ·) ∧ popsBetween (str (List.replicate 30 97)) (str [98]) = 30 ∧
    [str (List.replicate 31 97), str [98]].Pairwise (· < ·) ∧
    30 < popsBetween (str (List.replicate 31 97)) (str [98]) := by decide

theorem witness_DecoderStateCodes :
    act.dec.bank.length ≠ 7 ∧ (List.replicate 7 (str [])).length = 7 ∧ act.dec.stk.length ≠ 255 ∧
    (List.replicate 255 97#8).length = 255 ∧ 256 ≤ (256#24).toNat :=
  ⟨by decide, by decide, by decide, List.length_replicate, by decide⟩

theorem witness_MaskCode :
    act.Sane ∧ 1 ≤ (127#8).toNat ∧ (127#8).toNat ≤ 127 ∧
    (∃ i ∈ (List.range 7).filter (fun i => (4#8).getLsbD i), act.dec.bank.length ≤ i) ∧
    (∀ i ∈ (List.range 7).filter (fun i => (2#8).getLsbD i), i < act.dec.bank.length) ∧
    act.CanEmit (act.dec.pendingWord ++ [str [97, 99, 116, 101, 100]]) :=
  ⟨sane_of (by decide), by decide, by decide, by decide, by decide, by decide⟩

theorem witness_WordCloseCodes :
    act.Sane ∧ act.dec.stk.length < (4#8).toNat ∧ (3#8).toNat ≤ act.dec.stk.length ∧ act.CanEmit act.dec.pendingWord ∧
    act.dec.stk ≠ [] ∧ base.Sane ∧ base.dec.stk = [] :=
  ⟨sane_of (by decide), by decide, by decide, by decide, by decide, sane_of (by decide), rfl⟩

/-- WOUT with three bytes left. -/
def nearlyFull : State := { act with regs := { act.regs with woutPtr := 9, woutCnt := 3 } }

theorem witness_EmissionFaults :
    nearlyFull.Sane ∧ nearlyFull.dec.pendingWord = [] ++ str [97, 99, 116] :: [] ∧ nearlyFull.CanEmit [] ∧
    (2#8).toNat ≤ nearlyFull.dec.stk.length ∧ (∀ k < 7, (2#8).getLsbD k = true → k < nearlyFull.dec.bank.length) ∧
    (str [97, 99, 116]).length ≤ 255 ∧
    nearlyFull.params.woutSize < nearlyFull.regs.woutPtr.toNat + (recordBytes ([] ++ [str [97, 99, 116]])).length ∧
    255 < (str (List.replicate 200 97) ++ str (List.replicate 56 98)).length :=
  ⟨sane_of (by decide), by decide, by decide, by decide, by decide, by decide, by decide, by
    rw [List.length_append]; unfold str; rw [List.length_map, List.length_map, List.length_replicate, List.length_replicate]; decide⟩

theorem witness_TrieDrunResult :
    (let s : State := { base with regs := { base.regs with symCnt := 13 } };
      s.Sane ∧ s.params.symSize < s.regs.symCnt.toNat) ∧
    (let s : State := { base with sym := mem [97, 98], regs := { base.regs with symCnt := 2 } };
      s.Sane ∧ s.regs.symCnt.toNat = (str [97, 98]).length ∧ s.regs.symCnt.toNat ≤ s.params.symSize ∧
      s.regs.status.fault = false ∧ (∀ c ∈ str [97, 98], IsChar c) ∧ s.syms 2 = (str [97, 98]).map BitVec.toNat ∧
      1 + (str [97, 98]).length ≤ s.params.woutSize ∧
      ∃ t, exec .trieDrun s = .next t ∧ decide (t.regs.status.fault = false) = true) :=
  ⟨⟨sane_of (by decide), by decide⟩, sane_of (by decide), by decide, by decide, rfl, by decide, by decide, by decide,
    exists_next (by decide)⟩

/-- A list whose second code is invalid, and one whose last word does not fit in WOUT. -/
def badList : State := { base with sym := mem [97, 300], regs := { base.regs with symCnt := 2 } }
def noRoom : State :=
  { base with
    params := { params with woutSize := 1 }
    sym := mem [97]
    regs := { base.regs with symCnt := 1 } }

theorem witness_TrieDrunResult_faults :
    badList.Sane ∧ badList.syms badList.regs.symCnt.toNat = [97] ++ 300 :: [] ∧
    noRoom.Sane ∧ noRoom.syms noRoom.regs.symCnt.toNat = [97] ∧
    (∃ u, execAll ([.trieDinit] ++ [97].map fun c => .trieDstep (BitVec.ofNat 24 c)) badList = .next u ∧
      decide (u.regs.status.fault = false ∧
        (nextOf (exec (.trieDstep 300) u)).map (fun v => v.regs.status.fault) = some true) = true) ∧
    ∃ u, execAll ([.trieDinit] ++ [97].map fun c => .trieDstep (BitVec.ofNat 24 c)) noRoom = .next u ∧
      decide (u.regs.status.fault = false ∧
        (nextOf (exec .trieDend u)).map (fun v => v.regs.status.fault) = some true) = true :=
  ⟨sane_of (by decide), by decide, sane_of (by decide), by decide, exists_next (by decide), exists_next (by decide)⟩

theorem witness_TrieRoundTrip :
    let s : State := { records with regs := { records.regs with sufCnt := 1 } }
    s.Sane ∧ s.regs.status.fault = false ∧ trieInput s = .ok ([str [97, 98], str [98]], [str [115]]) ∧
    (∃ t, exec .trieEnc s = .next t ∧ decide (t.regs.status.fault = false) = true) ∧
    (recordBytes [str [97, 98], str [98]]).length ≤ s.params.woutSize :=
  ⟨sane_of (by decide), rfl, by decide, exists_next (by decide), by decide⟩

end Sys2Proof.Machine.Tests
end

section
/-! What a piece of a command may change: its footprint. A piece of a command obeys a footprint when, started in a work
state within the bounds of `State.Sane`, it ends within them, by success or by a raise, and everything outside the
footprint is as before. The relation is reflexive and transitive, so a command's footprint follows from its pieces'. -/

namespace Sys2Proof

/-! ## The legal parameters (spec/00_scope.md R8) -/

theorem Params.Legal.symLimitMax_le {p : Params} (h : p.Legal) : p.symLimitMax ≤ 65535 := h.1.2

theorem Params.Legal.maxCodeLen_le {p : Params} (h : p.Legal) : p.maxCodeLen ≤ 255 := h.2.1.2

theorem Params.Legal.symSize_le {p : Params} (h : p.Legal) : p.symSize ≤ 8388608 := h.2.2.2.1.2

theorem Params.Legal.woutSize_le {p : Params} (h : p.Legal) : p.woutSize ≤ 16777215 := h.2.2.2.2.2.2.2

end Sys2Proof

namespace Sys2Proof.Machine

/-! ## The footprint -/

/-- What a piece of a command does to a memory that is written in ascending order at a cursor register (BUF at WPOS,
WOUT at WOUT_PTR): nothing to either; it moves the cursor alone; it stores from the cursor on, up to where it leaves
the cursor; or anything. -/
inductive StreamUse where
  | untouched | cursor | append | free

/-- The memory m with the cursor p became m' with the cursor p' by this use. -/
def StreamUse.Allows (u : StreamUse) (m m' : Mem 8) (p p' : Nat) : Prop :=
  match u with
  | .untouched => p' = p ∧ ∀ a, m'.read a = m.read a
  | .cursor => ∀ a, m'.read a = m.read a
  | .append => p ≤ p' ∧ ∀ a, a < p ∨ p' ≤ a → m'.read a = m.read a
  | .free => True

/-- The uses under which a piece may store at the cursor. -/
abbrev StreamUse.Stores (u : StreamUse) : Prop := u = .append ∨ u = .free

theorem StreamUse.allows_refl (u : StreamUse) (m : Mem 8) (p : Nat) : u.Allows m m p p := by
  cases u <;> simp [Allows]

theorem StreamUse.Allows.trans {u : StreamUse} {m₁ m₂ m₃ : Mem 8} {p₁ p₂ p₃ : Nat} (h : u.Allows m₁ m₂ p₁ p₂)
    (h' : u.Allows m₂ m₃ p₂ p₃) : u.Allows m₁ m₃ p₁ p₃ := by
  cases u with
  | untouched => exact ⟨h'.1.trans h.1, fun a => (h'.2 a).trans (h.2 a)⟩
  | cursor => exact fun a => (h' a).trans (h a)
  | append =>
    obtain ⟨hp, hm⟩ := h
    obtain ⟨hp', hm'⟩ := h'
    exact ⟨hp.trans hp', fun a ha => (hm' a (by omega)).trans (hm a (by omega))⟩
  | free => trivial

/-- Consecutive stores from the cursor on. -/
theorem StreamUse.Stores.allows_writeList {u : StreamUse} (hu : u.Stores) (m : Mem 8) (p : Nat) (vs : List Byte) :
    u.Allows m (m.writeList p vs) p (p + vs.length) := by
  rcases hu with rfl | rfl
  · exact ⟨by omega, fun a ha => Mem.read_writeList_outside vs m p a ha⟩
  · trivial

/-- What a piece of a command may change. Where a field has its default, that part of the state is kept. -/
structure Footprint where
  /-- The elements of FREQ, LEN and SYM that may be stored to. -/
  freq : Set Nat := ∅
  len : Set Nat := ∅
  sym : Set Nat := ∅
  /-- BUF, with the bit writer's registers. -/
  buf : StreamUse := .untouched
  /-- WOUT, with WOUT_PTR, WOUT_CNT and the trie decoder's state. -/
  wout : StreamUse := .untouched
  /-- The bit reader's registers. -/
  reader : Bool := false
  result : Bool := false
  limit : Bool := false
  symCnt : Bool := false
  /-- CODE_VALID and MAXLEN, and whether LEN has been written. -/
  code : Bool := false
  /-- The table read in progress. -/
  table : Bool := false

/-- The bit writer's registers. -/
def Regs.writer (r : Regs) : Word × BitVec 4 × Byte × Word := (r.wpos, r.wnb, r.wacc, r.wcnt)

/-- The bit reader's registers. -/
def Regs.reader (r : Regs) : Word × Word × BitVec 4 × Byte × Word := (r.rpos, r.rlim, r.rnb, r.racc, r.rcnt)

/-- The trie decoder's state and registers. -/
def State.decoder (s : State) : Decoder × Word × Word := (s.dec, s.regs.woutCnt, s.regs.woutPtr)

/-- The host's side of the port, with the parameters. -/
def State.hostSide (s : State) : Params × List HostOp × PortResp × Nat := (s.params, s.inbox, s.resp, s.free)

/-- The operands of commands: WIN and SUF with their counts, and ARG. -/
def State.operands (s : State) : Mem 8 × Mem 8 × Word × Word × Word :=
  (s.win, s.suf, s.regs.arg, s.regs.winCnt, s.regs.sufCnt)

/-- Everything outside the footprint is in w' as in w. -/
structure Kept (fp : Footprint) (w w' : Work) : Prop where
  hostSide : w'.st.hostSide = w.st.hostSide
  operands : w'.st.operands = w.st.operands
  fault : w'.st.regs.status.fault = w.st.regs.status.fault
  freq : ∀ a ∉ fp.freq, w'.st.freq.read a = w.st.freq.read a
  len : ∀ a ∉ fp.len, w'.st.len.read a = w.st.len.read a
  sym : ∀ a ∉ fp.sym, w'.st.sym.read a = w.st.sym.read a
  buf : fp.buf.Allows w.st.buf w'.st.buf w.st.regs.wpos.toNat w'.st.regs.wpos.toNat
  wout : fp.wout.Allows w.st.wout w'.st.wout w.st.regs.woutPtr.toNat w'.st.regs.woutPtr.toNat
  writer : fp.buf = .untouched → w'.st.regs.writer = w.st.regs.writer
  decoder : fp.wout = .untouched → w'.st.decoder = w.st.decoder
  reader : fp.reader = false → w'.st.regs.reader = w.st.regs.reader
  result : fp.result = false → w'.st.regs.result = w.st.regs.result
  limit : fp.limit = false → w'.st.regs.limit = w.st.regs.limit
  symCnt : fp.symCnt = false → w'.st.regs.symCnt = w.st.regs.symCnt
  code : fp.code = false → w'.st.regs.status.codeValid = w.st.regs.status.codeValid ∧
    w'.st.regs.maxlen = w.st.regs.maxlen ∧ w'.wroteLen = w.wroteLen
  table : fp.table = false → w'.st.tread = w.st.tread
  /-- A command that has not written LEN has left LEN alone. -/
  quiet : w'.wroteLen = false → w.wroteLen = false ∧ w'.st.len = w.st.len

namespace Kept

variable {fp : Footprint} {w w₁ w₂ : Work}

theorem refl (fp : Footprint) (w : Work) : Kept fp w w where
  hostSide := rfl
  operands := rfl
  fault := rfl
  freq _ _ := rfl
  len _ _ := rfl
  sym _ _ := rfl
  buf := StreamUse.allows_refl ..
  wout := StreamUse.allows_refl ..
  writer _ := rfl
  decoder _ := rfl
  reader _ := rfl
  result _ := rfl
  limit _ := rfl
  symCnt _ := rfl
  code _ := ⟨rfl, rfl, rfl⟩
  table _ := rfl
  quiet h := ⟨h, rfl⟩

theorem trans (h : Kept fp w w₁) (h' : Kept fp w₁ w₂) : Kept fp w w₂ where
  hostSide := h'.hostSide.trans h.hostSide
  operands := h'.operands.trans h.operands
  fault := h'.fault.trans h.fault
  freq a ha := (h'.freq a ha).trans (h.freq a ha)
  len a ha := (h'.len a ha).trans (h.len a ha)
  sym a ha := (h'.sym a ha).trans (h.sym a ha)
  buf := h.buf.trans h'.buf
  wout := h.wout.trans h'.wout
  writer hf := (h'.writer hf).trans (h.writer hf)
  decoder hf := (h'.decoder hf).trans (h.decoder hf)
  reader hf := (h'.reader hf).trans (h.reader hf)
  result hf := (h'.result hf).trans (h.result hf)
  limit hf := (h'.limit hf).trans (h.limit hf)
  symCnt hf := (h'.symCnt hf).trans (h.symCnt hf)
  code hf := by
    obtain ⟨h1, h2, h3⟩ := h.code hf
    obtain ⟨h1', h2', h3'⟩ := h'.code hf
    exact ⟨h1'.trans h1, h2'.trans h2, h3'.trans h3⟩
  table hf := (h'.table hf).trans (h.table hf)
  quiet hq := by
    obtain ⟨hq1, hl⟩ := h'.quiet hq
    obtain ⟨hq0, hl0⟩ := h.quiet hq1
    exact ⟨hq0, hl.trans hl0⟩

theorem params (h : Kept fp w w₁) : w₁.st.params = w.st.params := congrArg Prod.fst h.hostSide

end Kept

/-! ## The bounds of a command at work -/

/-- The table reader's variables (spec/43_table_io.md R204): a legal count, and the lengths read so far in range. -/
structure TableRead.Fits (t : TableRead) (s : State) : Prop where
  count : 2 ≤ t.n ∧ t.n ≤ s.params.symLimitMax
  lens : ∀ j < t.i, (s.len.read j).toNat ≤ s.params.maxCodeLen
  last : t.last.toNat ≤ s.params.maxCodeLen

/-- The bounds of the state between commands, but that a table read may be in progress. -/
structure Work.Bounded (w : Work) : Prop where
  sane : State.Sane { w.st with tread := none }
  reading : ∀ t, w.st.tread = some t → t.Fits w.st

theorem Work.Bounded.writerOk {w : Work} (h : w.Bounded) : WriterOk w.st :=
  have h := h.sane.writerOk
  ⟨h.nb, h.acc, h.pos, h.cnt, h.size⟩

theorem Work.Bounded.readerOk {w : Work} (h : w.Bounded) : ReaderOk w.st :=
  have h := h.sane.readerOk
  ⟨h.nb, h.pos, h.lim, h.cnt, h.size⟩

theorem Work.Bounded.legal {w : Work} (h : w.Bounded) : w.st.params.Legal := h.sane.params

/-- A command starts within the bounds. -/
theorem State.Sane.bounded {s : State} (h : s.Sane) : Work.Bounded { st := s, wroteLen := false } where
  sane := { h with idle := rfl }
  reading t ht := by
    have := h.idle
    simp_all

theorem Work.Bounded.sane_of_idle {w : Work} (h : w.Bounded) (hi : w.st.tread = none) : w.st.Sane :=
  { h.sane with idle := hi }

/-- What leaves the parameters, LEN and the table read alone has only the bounds between commands to keep. -/
theorem Work.Bounded.update {w v : Work} (hw : w.Bounded) (hp : v.st.params = w.st.params)
    (hl : v.st.len = w.st.len) (ht : v.st.tread = w.st.tread) (hs : State.Sane { v.st with tread := none }) :
    v.Bounded where
  sane := hs
  reading t h := by
    obtain ⟨hc, hr, hm⟩ := hw.reading t (ht ▸ h)
    exact ⟨hp ▸ hc, hp ▸ hl ▸ hr, hp ▸ hm⟩

/-! ## Obeying a footprint -/

variable {α β : Type} {fp : Footprint} {w : Work}

/-- Where the piece r of a command ends, having started in w. -/
def Res.EndsIn (r : Res α) (v : Work) : Prop := (∃ a, r = .ok a v) ∨ ∃ c i, r = .raise c i v

/-- Started within the bounds, the piece ends within them, and everything outside the footprint is as before. -/
def Res.Obeys (r : Res α) (fp : Footprint) (w : Work) : Prop :=
  w.Bounded → ∀ v, r.EndsIn v → v.Bounded ∧ Kept fp w v

theorem Res.Obeys.ok {a : α} {v : Work} (h : w.Bounded → v.Bounded ∧ Kept fp w v) : (Res.ok a v).Obeys fp w := by
  rintro hw v' (⟨_, h'⟩ | ⟨_, _, h'⟩)
  · cases h'; exact h hw
  · cases h'

theorem Res.Obeys.pure (a : α) : (Res.ok a w).Obeys fp w := .ok fun hw => ⟨hw, .refl fp w⟩

theorem Res.Obeys.raise (c : FaultCode) (i : Word) : (Res.raise c i w : Res α).Obeys fp w := by
  rintro hw v (⟨_, h'⟩ | ⟨_, _, h'⟩)
  · cases h'
  · cases h'; exact ⟨hw, .refl fp w⟩

theorem Res.Obeys.stop (e : Fault) : (Res.stop e : Res α).Obeys fp w := by
  rintro _ v (⟨_, h'⟩ | ⟨_, _, h'⟩) <;> cases h'

theorem Res.Obeys.of_ok {r : Res α} (h : r.Obeys fp w) (hw : w.Bounded) {a : α} {v : Work} (hr : r = .ok a v) :
    v.Bounded ∧ Kept fp w v := h hw v (.inl ⟨a, hr⟩)

/-- Two pieces in sequence obey what both obey. -/
theorem Res.Obeys.bind {r : Res α} {f : α → Work → Res β} (h : r.Obeys fp w)
    (hf : ∀ a v, r = .ok a v → v.Bounded → Kept fp w v → (f a v).Obeys fp v) : (r.bind f).Obeys fp w := by
  intro hw v hv
  cases r with
  | ok a u =>
    obtain ⟨hu, hk⟩ := h.of_ok hw rfl
    obtain ⟨hb, hk'⟩ := hf a u rfl hu hk hu v hv
    exact ⟨hb, hk.trans hk'⟩
  | raise c i u =>
    rcases hv with ⟨_, h'⟩ | ⟨_, _, h'⟩ <;> cases h'
    exact h hw _ (.inr ⟨c, i, rfl⟩)
  | stop e => rcases hv with ⟨_, h'⟩ | ⟨_, _, h'⟩ <;> cases h'

/-- What is shown for a start within the bounds. -/
theorem Res.Obeys.of_bounded {r : Res α} (h : w.Bounded → r.Obeys fp w) : r.Obeys fp w := fun hw => h hw hw

end Sys2Proof.Machine
end

section
/-! The engine's element accesses and the two bit streams: what each returns, and the footprint it obeys. -/

namespace Sys2Proof.Machine

variable {α β : Type} {fp : Footprint} {w v : Work}

/-! ## Element accesses -/

theorem checkIndex_eq_ok {sp : Space} {i : Nat} {u : Unit} :
    checkIndex sp i w = .ok u v ↔ i < size w.st.params sp ∧ v = w := by
  unfold checkIndex
  split <;> simp_all [eq_comm]

theorem checkRange_eq_ok {sp : Space} {n : Nat} {u : Unit} :
    checkRange sp n w = .ok u v ↔ n ≤ size w.st.params sp ∧ v = w := by
  unfold checkRange
  split <;> simp_all [eq_comm]

theorem checkIndex_obeys (sp : Space) (i : Nat) : (checkIndex sp i w).Obeys fp w := by
  unfold checkIndex
  split
  · exact .pure _
  · exact .stop _

theorem checkRange_obeys (sp : Space) (n : Nat) : (checkRange sp n w).Obeys fp w := by
  unfold checkRange
  split
  · exact .pure _
  · exact .stop _

/-- An access to an element: it stops, or goes on where the element exists. -/
theorem checkIndex_bind_obeys {sp : Space} {i : Nat} {f : Unit → Work → Res β}
    (hf : i < size w.st.params sp → (f () w).Obeys fp w) : ((checkIndex sp i w).bind f).Obeys fp w :=
  (checkIndex_obeys sp i).bind fun _ v hv _ _ => by
    obtain ⟨hi, rfl⟩ := checkIndex_eq_ok.1 hv
    exact hf hi

theorem checkRange_bind_obeys {sp : Space} {n : Nat} {f : Unit → Work → Res β}
    (hf : n ≤ size w.st.params sp → (f () w).Obeys fp w) : ((checkRange sp n w).bind f).Obeys fp w :=
  (checkRange_obeys sp n).bind fun _ v hv _ _ => by
    obtain ⟨hn, rfl⟩ := checkRange_eq_ok.1 hv
    exact hf hn

/-- Reading consecutive elements changes nothing. -/
theorem checkRange_read_eq_ok {sp : Space} {n : Nat} {f : Work → α} {x : α} :
    ((checkRange sp n w).bind fun _ w => .ok (f w) w) = .ok x v ↔ n ≤ size w.st.params sp ∧ x = f w ∧ v = w := by
  simp only [Res.bind_eq_ok, checkRange_eq_ok, Res.ok.injEq]
  constructor
  · rintro ⟨_, _, ⟨hn, rfl⟩, rfl, rfl⟩; exact ⟨hn, rfl, rfl⟩
  · rintro ⟨hn, rfl, rfl⟩; exact ⟨(), _, ⟨hn, rfl⟩, rfl, rfl⟩

theorem readFreqs_eq_ok {n : Nat} {xs : List Word} :
    readFreqs n w = .ok xs v ↔ n ≤ w.st.params.symLimitMax ∧ xs = w.st.freq.readList n ∧ v = w :=
  checkRange_read_eq_ok

theorem readLens_eq_ok {n : Nat} {xs : List Nat} :
    readLens n w = .ok xs v ↔ n ≤ w.st.params.symLimitMax ∧ xs = w.st.lens n ∧ v = w :=
  checkRange_read_eq_ok

theorem readSyms_eq_ok {n : Nat} {xs : List Half} :
    readSyms n w = .ok xs v ↔ n ≤ w.st.params.symSize ∧ xs = w.st.sym.readList n ∧ v = w :=
  checkRange_read_eq_ok

theorem writeLens_eq_ok {a : Nat} {vs : List Byte} {u : Unit} :
    writeLens a vs w = .ok u v ↔ a + vs.length ≤ w.st.params.symLimitMax ∧
      v = { st := { w.st with len := w.st.len.writeList a vs }, wroteLen := w.wroteLen || !vs.isEmpty } := by
  simp only [writeLens, Res.bind_eq_ok, checkRange_eq_ok, size, Res.ok.injEq, true_and]
  constructor
  · rintro ⟨_, _, ⟨hn, rfl⟩, rfl⟩; exact ⟨hn, rfl⟩
  · rintro ⟨hn, rfl⟩; exact ⟨(), _, ⟨hn, rfl⟩, rfl⟩

theorem readFreq_obeys (i : Nat) : (readFreq i w).Obeys fp w := checkIndex_bind_obeys fun _ => .pure _

theorem readFreqs_obeys (n : Nat) : (readFreqs n w).Obeys fp w := checkRange_bind_obeys fun _ => .pure _

theorem readLen_obeys (i : Nat) : (readLen i w).Obeys fp w := checkIndex_bind_obeys fun _ => .pure _

theorem readLens_obeys (n : Nat) : (readLens n w).Obeys fp w := checkRange_bind_obeys fun _ => .pure _

theorem readSyms_obeys (n : Nat) : (readSyms n w).Obeys fp w := checkRange_bind_obeys fun _ => .pure _

theorem writeFreq_obeys {i : Nat} (hi : i ∈ fp.freq) (x : Word) : (writeFreq i x w).Obeys fp w :=
  checkIndex_bind_obeys fun hs => .ok fun hw =>
    ⟨hw.update rfl rfl rfl { hw.sane with freq := Mem.wf_write i x hs hw.sane.freq },
      { Kept.refl fp w with
        freq := fun _ ha => Mem.read_write_other _ _ _ _ fun h => ha (h ▸ hi) }⟩

theorem zeroFreqs_obeys {n : Nat} (hn : ∀ a < n, a ∈ fp.freq) : (zeroFreqs n w).Obeys fp w :=
  checkRange_bind_obeys fun _ => .ok fun hw =>
    ⟨hw.update rfl rfl rfl { hw.sane with freq := Mem.wf_zeroBelow n hw.sane.freq },
      { Kept.refl fp w with
        freq := fun a ha => by
          have hna : ¬a < n := fun h => ha (hn a h)
          simp [Mem.read_zeroBelow, hna] }⟩

theorem writeSym_obeys {i : Nat} (hi : i ∈ fp.sym) (x : Half) : (writeSym i x w).Obeys fp w :=
  checkIndex_bind_obeys fun hs => .ok fun hw =>
    ⟨hw.update rfl rfl rfl { hw.sane with sym := Mem.wf_write i x hs hw.sane.sym },
      { Kept.refl fp w with
        sym := fun _ ha => Mem.read_write_other _ _ _ _ fun h => ha (h ▸ hi) }⟩

theorem writeSyms_obeys {xs : List Half} (hx : ∀ a < xs.length, a ∈ fp.sym) : (writeSyms xs w).Obeys fp w :=
  checkRange_bind_obeys fun hs => .ok fun hw =>
    ⟨hw.update rfl rfl rfl { hw.sane with sym := Mem.wf_writeList xs _ 0 (by simpa [size] using hs) hw.sane.sym },
      { Kept.refl fp w with
        sym := fun a ha => Mem.read_writeList_outside xs _ 0 a (.inr (by
          have := mt (hx a) ha
          omega)) }⟩

/-- Each element of a memory after consecutive writes is one of the values, or the element from before. -/
theorem Mem.read_writeList_cases {n : Nat} (xs : List (BitVec n)) (m : Mem n) (a k : Nat) (h : m.Rising) :
    (a ≤ k ∧ k < a + xs.length ∧ (m.writeList a xs).read k ∈ xs) ∨
      ((k < a ∨ a + xs.length ≤ k) ∧ (m.writeList a xs).read k = m.read k) := by
  by_cases hk : a ≤ k ∧ k < a + xs.length
  · obtain ⟨j, rfl⟩ := Nat.exists_eq_add_of_le hk.1
    have hj : j < xs.length := by omega
    rw [Mem.read_writeList_inside xs m a j h hj]
    exact .inl ⟨hk.1, hk.2, List.getElem_mem hj⟩
  · exact .inr ⟨by omega, Mem.read_writeList_outside xs m a k (by omega)⟩

/-- The engine stores only lengths up to MAX_CODE_LEN, so a table read in progress keeps its bounds. -/
theorem writeLens_obeys {a : Nat} {xs : List Byte} (hc : fp.code = true)
    (ha : ∀ j < xs.length, a + j ∈ fp.len) (hx : ∀ x ∈ xs, x.toNat ≤ w.st.params.maxCodeLen) :
    (writeLens a xs w).Obeys fp w :=
  checkRange_bind_obeys fun hs => .ok fun hw =>
    ⟨⟨{ hw.sane with len := Mem.wf_writeList xs _ a hs hw.sane.len },
        fun t ht =>
          have h := hw.reading t ht
          ⟨h.count, fun j hj => by
            rcases Mem.read_writeList_cases xs w.st.len a j hw.sane.len.1 with ⟨-, -, hm⟩ | ⟨-, he⟩
            · exact hx _ hm
            · exact he ▸ h.lens j hj, h.last⟩⟩,
      { Kept.refl fp w with
        len := fun k hk => Mem.read_writeList_outside xs _ a k (by
          by_contra hlt
          obtain ⟨j, rfl⟩ := Nat.exists_eq_add_of_le (show a ≤ k by omega)
          exact hk (ha j (by omega)))
        code := by simp [hc]
        quiet := fun hq => by
          obtain ⟨hq', rfl⟩ : w.wroteLen = false ∧ xs = [] := by simpa using hq
          exact ⟨hq', rfl⟩ }⟩

/-! ## Changes of the registers and of the decoder -/

/-- A change of registers that keeps their bounds. -/
theorem Work.Bounded.setRegs {f : Regs → Regs} (hw : w.Bounded)
    (hs : State.Sane { w.st with tread := none } → State.Sane { w.st with regs := f w.st.regs, tread := none }) :
    (w.setRegs f).Bounded :=
  hw.update rfl rfl rfl (hs hw.sane)

theorem Work.Bounded.setDec {g : Decoder → Decoder} (hw : w.Bounded)
    (hs : State.Sane { w.st with tread := none } → State.Sane { w.st with dec := g w.st.dec, tread := none }) :
    (w.setDec g).Bounded :=
  hw.update rfl rfl rfl (hs hw.sane)

/-- Storing a RESULT. -/
theorem setResult_obeys (hr : fp.result = true) (x : Word) :
    (Res.ok () (w.setRegs fun r => { r with result := x })).Obeys fp w :=
  .ok fun hw => ⟨hw.setRegs fun h => { h with }, { Kept.refl fp w with result := by simp [hr] }⟩

/-- Storing a symbol count. -/
theorem setSymCnt_obeys (hc : fp.symCnt = true) (x : Word) :
    (Res.ok () (w.setRegs fun r => { r with symCnt := x })).Obeys fp w :=
  .ok fun hw => ⟨hw.setRegs fun h => { h with }, { Kept.refl fp w with symCnt := by simp [hc] }⟩

/-! ## The write stream -/

theorem afterBits_bounded (hw : w.Bounded) {bits : List Bool} (hr : w.st.HasRoom bits.length) :
    Work.Bounded { w with st := w.st.afterBits bits } := by
  obtain ⟨hok, -, -⟩ := afterBits_writerOk hw.writerOk hr
  have hl := (hasRoom_iff w.st bits.length bits rfl).1 hr
  exact hw.update rfl rfl rfl { hw.sane with
    buf := Mem.wf_writeList _ _ _ hl hw.sane.buf
    writer := ⟨hok.nb, hok.acc, hok.pos, hok.cnt⟩ }

theorem afterBits_kept (hf : fp.buf.Stores) (hw : w.Bounded) {bits : List Bool} (hr : w.st.HasRoom bits.length) :
    Kept fp w { w with st := w.st.afterBits bits } := by
  obtain ⟨-, hpos, -⟩ := afterBits_writerOk hw.writerOk hr
  have hlen : (packBytes (w.st.regs.pendingBits ++ bits)).length = (w.st.regs.wnb.toNat + bits.length) / 8 := by
    simp [packBytes_length]
  exact { Kept.refl fp w with
    buf := by
      have := hf.allows_writeList w.st.buf w.st.regs.wpos.toNat (packBytes (w.st.regs.pendingBits ++ bits))
      rw [hlen, ← hpos] at this
      exact this
    writer := fun hu => by rcases hf with hf | hf <;> simp [hf] at hu }

theorem putBit_obeys (hf : fp.buf.Stores) (b : Bool) : (putBit b w).Obeys fp w := .of_bounded fun hw => by
  by_cases hr : w.st.HasRoom 1
  · rw [putBit_room hw.writerOk b hr]
    exact .ok fun hw => ⟨afterBits_bounded hw (bits := [b]) hr, afterBits_kept hf hw (bits := [b]) hr⟩
  · rw [(putBit_full hw.writerOk b hr).1]
    exact .raise _ _

theorem putBits_obeys (hf : fp.buf.Stores) (bits : List Bool) : (putBits bits w).Obeys fp w := by
  induction bits generalizing w with
  | nil => exact .pure _
  | cons b bits ih => exact (putBit_obeys hf b).bind fun _ _ _ _ _ => ih

theorem alignW_obeys (hf : fp.buf.Stores) : (alignW w).Obeys fp w := putBits_obeys hf _

/-! ## The read stream -/

theorem getBit_obeys (hf : fp.reader = true) : (getBit w).Obeys fp w := .of_bounded fun hw => by
  by_cases hl : w.st.unreadBits.length = 0
  · rw [getBit_eos hw.readerOk hl]
    exact .raise _ _
  · obtain ⟨b, hb, -, hok⟩ := getBit_ok hw.readerOk (by omega)
    rw [hb]
    exact .ok fun hw =>
      ⟨hw.update rfl rfl rfl { hw.sane with reader := ⟨hok.nb, hok.pos, hok.lim, hok.cnt⟩ },
        { Kept.refl fp w with reader := by simp [hf] }⟩

theorem getBits_obeys (hf : fp.reader = true) (k : Nat) : (getBits k w).Obeys fp w := by
  induction k generalizing w with
  | zero => exact .pure _
  | succ k ih => exact (getBit_obeys hf).bind fun _ _ _ _ _ => ih.bind fun _ _ _ _ _ => .pure _

theorem getField_obeys (hf : fp.reader = true) (k : Nat) : (getField k w).Obeys fp w :=
  (getBits_obeys hf k).bind fun _ _ _ _ _ => .pure _

theorem alignR_obeys (hf : fp.reader = true) : (Res.ok () (alignR w)).Obeys fp w :=
  .ok fun hw =>
    ⟨hw.setRegs fun h => { h with
        reader := by
          obtain ⟨-, hpos, hlim, hcnt⟩ := h.reader
          exact ⟨Nat.zero_le _, hpos, hlim, hcnt⟩ },
      { Kept.refl fp w with reader := by simp [hf] }⟩

/-- What follows `AlignR()`. -/
theorem Res.Obeys.after_alignR (hf : fp.reader = true) {r : Res β} (h : r.Obeys fp (alignR w)) : r.Obeys fp w :=
  (alignR_obeys hf).bind (f := fun _ _ => r) fun _ _ hv _ _ => by cases hv; exact h

end Sys2Proof.Machine
end

section
/-! The pieces of the Huffman, table and trie commands, and the footprint each obeys. -/

namespace Sys2Proof.Machine

variable {α β : Type} {fp : Footprint} {w v : Work}

/-! ## Code build and code load (spec/42_huffman_build.md) -/

theorem badLimit_eq_false {p : Params} {n : Nat} : badLimit p n = false ↔ 2 ≤ n ∧ n ≤ p.symLimitMax := by
  simp [badLimit, Nat.succ_le_iff]

/-- A limit in range is kept by its register. -/
theorem ofNat_limit_toNat {p : Params} (hp : p.Legal) {m : Nat} (hm : m ≤ p.symLimitMax) :
    (BitVec.ofNat 32 m).toNat = m := by
  have := hp.symLimitMax_le
  rw [BitVec.toNat_ofNat, Nat.mod_eq_of_lt (by omega)]

theorem lowestIndex_eq_none {p : α → Bool} {xs : List α} : lowestIndex p xs = none ↔ ∀ x ∈ xs, p x = false := by
  simp [lowestIndex]

theorem le_maxLen {lens : List Nat} {l : Nat} (h : l ∈ lens) : l ≤ maxLen lens := by
  induction lens with
  | nil => cases h
  | cons x xs ih =>
    rw [maxLen, List.foldr_cons, ← maxLen]
    rcases List.mem_cons.1 h with rfl | h
    · exact le_max_left ..
    · exact (ih h).trans (le_max_right ..)

/-- A byte made of a length in range is in range. -/
theorem byte_ofNat_le {l m : Nat} (h : l ≤ m) : (BitVec.ofNat 8 l).toNat ≤ m := by
  rw [BitVec.toNat_ofNat]
  exact (Nat.mod_le _ _).trans h

theorem zextImm_toNat (a : Imm) : (zextImm a).toNat = a.toNat :=
  BitVec.toNat_setWidth_of_le (by decide)

theorem checkFull_eq_ok {lens : List Nat} {u : Unit} : checkFull lens w = .ok u v ↔ validate lens = .full ∧ v = w := by
  unfold checkFull
  split <;> simp_all [eq_comm]

theorem checkFull_obeys (lens : List Nat) : (checkFull lens w).Obeys fp w := by
  unfold checkFull
  split
  · exact .pure _
  · exact .raise _ _
  · exact .raise _ _

theorem loadedTree_obeys : (loadedTree w).Obeys fp w :=
  (readLens_obeys _).bind fun lens v _ _ _ => by
    cases canonTree lens with
    | some t => exact .pure _
    | none => exact .stop _

/-- Loading a code, under a limit in range. -/
theorem loadCode_obeys (hc : fp.code = true) (hl : fp.limit = true) {n : Word} (m : Nat)
    (hn : 2 ≤ n.toNat ∧ n.toNat ≤ w.st.params.symLimitMax) :
    (Res.ok () (w.setRegs fun r => { r with limit := n }.loadCode m)).Obeys fp w :=
  .ok fun hw =>
    ⟨hw.setRegs fun h => { h with limit := .inr hn, maxlen := by simp },
      { Kept.refl fp w with limit := by simp [hl], code := by simp [hc] }⟩

/-- Setting a limit in range. -/
theorem setLimit_obeys (hl : fp.limit = true) {n : Word} (hn : 2 ≤ n.toNat ∧ n.toNat ≤ w.st.params.symLimitMax) :
    (Res.ok () (w.setRegs fun r => { r with limit := n })).Obeys fp w :=
  .ok fun hw => ⟨hw.setRegs fun h => { h with limit := .inr hn }, { Kept.refl fp w with limit := by simp [hl] }⟩

/-- Dropping the code, under a limit in range. -/
theorem dropCode_obeys (hc : fp.code = true) (hl : fp.limit = true) {n : Word}
    (hn : 2 ≤ n.toNat ∧ n.toNat ≤ w.st.params.symLimitMax) :
    (Res.ok () (w.setRegs fun r => { r with limit := n }.dropCode)).Obeys fp w :=
  .ok fun hw =>
    ⟨hw.setRegs fun h => { h with limit := .inr hn, maxlen := fun _ => rfl },
      { Kept.refl fp w with limit := by simp [hl], code := by simp [hc] }⟩

theorem buildAndLoad_obeys {n : Nat} (hc : fp.code = true) (hn : ∀ a < n, a ∈ fp.len) :
    (buildAndLoad n w).Obeys fp w :=
  (readFreqs_obeys n).bind fun freqs v _ hv _ => by
    cases buildTree (freqs.map BitVec.toNat) with
    | none => exact .stop _
    | some t =>
      cases hi : lowestIndex (fun l => decide (v.st.params.maxCodeLen < l)) (depthList t n) with
      | some s => simp only [hi]; exact .raise _ _
      | none =>
        simp only [hi]
        have hd := lowestIndex_eq_none.1 hi
        refine (writeLens_obeys hc (by simpa [depthList] using hn) fun x hx => ?_).bind fun _ u _ _ _ => ?_
        · obtain ⟨l, hl, rfl⟩ := List.mem_map.1 hx
          exact byte_ofNat_le (by simpa using hd l hl)
        · exact .ok fun hu =>
            ⟨hu.setRegs fun h => { h with maxlen := by simp }, { Kept.refl fp u with code := by simp [hc] }⟩

/-! ## The code-length table (spec/43_table_io.md) -/

theorem tableWrite_obeys (hf : fp.buf.Stores) : (tableWrite w).Obeys fp w :=
  (alignW_obeys hf).bind fun _ _ _ _ _ => (readLens_obeys _).bind fun _ _ _ _ _ =>
    (putBits_obeys hf _).bind fun _ _ _ _ _ => alignW_obeys hf

theorem setTread_obeys (ht : fp.table = true) {t : TableRead} (hf : w.Bounded → t.Fits w.st) :
    (Res.ok () (w.setTread (some t))).Obeys fp w :=
  .ok fun hw =>
    ⟨⟨hw.sane, fun t' h => by cases h; have h := hf hw; exact ⟨h.count, h.lens, h.last⟩⟩,
      { Kept.refl fp w with table := by simp [ht] }⟩

/-- The next lengths of a table read are stored and counted. -/
theorem storeLens_obeys {t t' : TableRead} {xs : List Byte} (hr : w.st.tread = some t) (hc : fp.code = true)
    (ht : fp.table = true) (hlen : ∀ a < t.n, a ∈ fp.len) (hfit : t.i + xs.length ≤ t.n)
    (hx : ∀ x ∈ xs, x.toNat ≤ w.st.params.maxCodeLen) (hn : t'.n = t.n) (hi : t'.i = t.i + xs.length)
    (hl : t'.last.toNat ≤ w.st.params.maxCodeLen) :
    ((writeLens t.i xs w).bind fun _ w => .ok () (w.setTread (some t'))).Obeys fp w := .of_bounded fun hw =>
  (writeLens_obeys hc (fun j hj => hlen _ (by omega)) hx).bind fun _ v hv _ _ => by
    obtain ⟨-, rfl⟩ := writeLens_eq_ok.1 hv
    have h := hw.reading t hr
    refine setTread_obeys ht fun _ => ⟨hn ▸ h.count, fun j hj => ?_, hl⟩
    rcases Mem.read_writeList_cases xs w.st.len t.i j hw.sane.len.1 with ⟨-, -, hm⟩ | ⟨hout, he⟩
    · exact hx _ hm
    · exact he ▸ h.lens j (by omega)

theorem literalEntry_obeys {t : TableRead} (hr : w.st.tread = some t) (hc : fp.code = true) (ht : fp.table = true)
    (hlen : ∀ a < t.n, a ∈ fp.len) (l : Nat) : (literalEntry l w).Obeys fp w := by
  simp only [literalEntry, hr]
  split
  · exact .pure _
  · split
    · exact .raise _ _
    · have hl : (BitVec.ofNat 8 l).toNat ≤ w.st.params.maxCodeLen := byte_ofNat_le (by omega)
      exact storeLens_obeys hr hc ht hlen (by simp; omega) (by simpa using hl) rfl (by simp) hl

theorem runEntry_obeys {t : TableRead} (hr : w.st.tread = some t) (hc : fp.code = true) (ht : fp.table = true)
    (hlen : ∀ a < t.n, a ∈ fp.len) (r : Nat) : (runEntry r w).Obeys fp w := .of_bounded fun hw => by
  have hl := (hw.reading t hr).last
  simp only [runEntry, hr]
  split
  · exact .pure _
  · split
    · exact .raise _ _
    · split
      · exact .raise _ _
      · refine storeLens_obeys hr hc ht hlen (by simp; omega) (fun x hx => ?_) rfl (by simp) hl
        exact List.eq_of_mem_replicate hx ▸ hl

theorem entry_obeys {t : TableRead} (hr : w.st.tread = some t) (hc : fp.code = true) (ht : fp.table = true)
    (hlen : ∀ a < t.n, a ∈ fp.len) (e : Bool × Nat) : (entry e w).Obeys fp w := by
  unfold entry
  split
  · exact literalEntry_obeys hr hc ht hlen _
  · exact runEntry_obeys hr hc ht hlen _

theorem fetchEntry_obeys (hf : fp.reader = true) (bpl : Byte) : (fetchEntry bpl w).Obeys fp w :=
  (getBit_obeys hf).bind fun _ _ _ _ _ => (getField_obeys hf _).bind fun _ _ _ _ _ => .pure _

/-- Reading bits leaves a table read where it is. -/
theorem fetchEntry_tread {bpl : Byte} {e : Bool × Nat} (hw : w.Bounded) (h : fetchEntry bpl w = .ok e v) :
    v.st.tread = w.st.tread :=
  ((fetchEntry_obeys (fp := { reader := true }) rfl bpl).of_ok hw h).2.table rfl

/-- An entry keeps the table's count. -/
theorem entry_count {t : TableRead} {e : Bool × Nat} {u : Unit} (hr : w.st.tread = some t) (h : entry e w = .ok u v) :
    ∃ t', v.st.tread = some t' ∧ t'.n = t.n := by
  unfold entry at h
  split at h
  · simp only [literalEntry, hr] at h
    split at h
    · cases h; exact ⟨t, hr, rfl⟩
    · split at h
      · cases h
      · obtain ⟨_, _, -, h⟩ := Res.bind_eq_ok.1 h
        cases h; exact ⟨_, rfl, rfl⟩
  · simp only [runEntry, hr] at h
    split at h
    · cases h; exact ⟨t, hr, rfl⟩
    · split at h
      · cases h
      · split at h
        · cases h
        · obtain ⟨_, _, -, h⟩ := Res.bind_eq_ok.1 h
          cases h; exact ⟨_, rfl, rfl⟩

theorem entryLoop_obeys (hf : fp.reader = true) (hc : fp.code = true) (ht : fp.table = true) (k : Nat)
    {t : TableRead} (hr : w.st.tread = some t) (hlen : ∀ a < t.n, a ∈ fp.len) : (entryLoop k w).Obeys fp w := by
  induction k generalizing w t with
  | zero => exact .stop _
  | succ k ih =>
    simp only [entryLoop, hr]
    split
    · refine .of_bounded fun hw => (fetchEntry_obeys hf t.bpl).bind fun e v hv _ _ => ?_
      have hrv : v.st.tread = some t := (fetchEntry_tread hw hv).trans hr
      refine (entry_obeys hrv hc ht hlen e).bind fun _ u hu _ _ => ?_
      obtain ⟨t', hr', hn⟩ := entry_count hrv hu
      exact ih hr' (hn ▸ hlen)
    · exact .pure _

/-- The entry loop ends with all lengths of the table read. -/
theorem entryLoop_complete {k : Nat} {t : TableRead} {u : Unit} (hw : w.Bounded) (hr : w.st.tread = some t)
    (h : entryLoop k w = .ok u v) : ∃ t', v.st.tread = some t' ∧ t'.n = t.n ∧ t'.n ≤ t'.i := by
  induction k generalizing w t with
  | zero => cases h
  | succ k ih =>
    simp only [entryLoop, hr] at h
    split at h
    · obtain ⟨e, w₁, h₁, h⟩ := Res.bind_eq_ok.1 h
      obtain ⟨_, w₂, h₂, h⟩ := Res.bind_eq_ok.1 h
      have hr₁ : w₁.st.tread = some t := (fetchEntry_tread hw h₁).trans hr
      have hw₁ : w₁.Bounded := ((fetchEntry_obeys (fp := { reader := true }) rfl t.bpl).of_ok hw h₁).1
      obtain ⟨t₂, hr₂, hn₂⟩ := entry_count hr₁ h₂
      have hw₂ : w₂.Bounded :=
        ((entry_obeys (fp := { len := Set.univ, code := true, table := true }) hr₁ rfl rfl
          (fun _ _ => Set.mem_univ _) e).of_ok hw₁ h₂).1
      obtain ⟨t', hr', hn', hi'⟩ := ih hw₂ hr₂ h
      exact ⟨t', hr', hn'.trans hn₂, hi'⟩
    · cases h
      exact ⟨t, hr, rfl, by omega⟩

/-- The count in the header of the table at the read cursor. -/
def State.tableCount (s : State) : Nat := bitsToNat (s.readAligned.unreadBits.take 16)

theorem tableHeader_obeys (hf : fp.reader = true) (ht : fp.table = true) (start : Regs) :
    (tableHeader start w).Obeys fp w := by
  refine .after_alignR hf ((getField_obeys hf 16).bind fun n v _ _ _ => ?_)
  split
  · exact .raise _ _
  · rename_i hb
    refine (getField_obeys hf 8).bind fun bpl u _ _ hk => setTread_obeys ht fun hu => ?_
    have hn := badLimit_eq_false.1 (eq_false_of_ne_true hb)
    exact ⟨by rw [hk.params]; exact hn, by simp, by simp⟩

/-- The header starts a table read with the count that stands at the read cursor. -/
theorem tableHeader_ok {start : Regs} {u : Unit} (hw : w.Bounded) (h : tableHeader start w = .ok u v) :
    ∃ t, v.st.tread = some t ∧ t.n = w.st.tableCount := by
  obtain ⟨n, w₁, h₁, h⟩ := Res.bind_eq_ok.1 h
  have hok : ReaderOk (alignR w).st := hw.readerOk.aligned
  have hn : n = w.st.tableCount := by
    by_cases hl : 16 ≤ (alignR w).st.unreadBits.length
    · rw [getField_ok hok hl] at h₁
      cases h₁
      rfl
    · obtain ⟨r, hr⟩ := getField_eos hok (Nat.lt_of_not_le hl)
      rw [hr] at h₁
      cases h₁
  split at h
  · cases h
  · obtain ⟨bpl, w₂, -, h⟩ := Res.bind_eq_ok.1 h
    cases h
    exact ⟨_, rfl, hn⟩

theorem tableFinish_obeys (hf : fp.reader = true) (hc : fp.code = true) (hl : fp.limit = true) (ht : fp.table = true) :
    (tableFinish w).Obeys fp w := .of_bounded fun hw => by
  cases hr : w.st.tread with
  | none => simp only [tableFinish, hr]; exact .pure _
  | some t =>
    obtain ⟨⟨hn2, hnm⟩, -, -⟩ := hw.reading t hr
    have htn := ofNat_limit_toNat hw.legal hnm
    simp only [tableFinish, hr]
    refine .after_alignR hf ((readLens_obeys _).bind fun lens v hv _ _ =>
      (checkFull_obeys lens).bind fun _ v' hv' _ _ => ?_)
    obtain ⟨-, -, rfl⟩ := readLens_eq_ok.1 hv
    obtain ⟨-, rfl⟩ := checkFull_eq_ok.1 hv'
    refine .ok fun hb => ⟨⟨?_, fun _ h => by cases h⟩, { Kept.refl fp _ with
      limit := by simp [hl], code := by simp [hc], table := by simp [ht] }⟩
    exact { hb.sane with limit := .inr (by simpa [htn] using ⟨hn2, hnm⟩), maxlen := by simp }

theorem tableFinish_tread {u : Unit} (h : tableFinish w = .ok u v) : v.st.tread = none := by
  cases hr : w.st.tread with
  | none => simp only [tableFinish, hr] at h; cases h; exact hr
  | some t =>
    simp only [tableFinish, hr] at h
    obtain ⟨_, _, -, h⟩ := Res.bind_eq_ok.1 h
    obtain ⟨_, _, -, h⟩ := Res.bind_eq_ok.1 h
    cases h
    rfl

theorem tableRead_obeys (hf : fp.reader = true) (hc : fp.code = true) (hl : fp.limit = true) (ht : fp.table = true)
    (hlen : ∀ a < w.st.tableCount, a ∈ fp.len) (start : Regs) : (tableRead start w).Obeys fp w :=
  .of_bounded fun hw => (tableHeader_obeys hf ht start).bind fun _ v hv _ _ => by
    obtain ⟨t, hr, hn⟩ := tableHeader_ok hw hv
    exact (entryLoop_obeys hf hc ht _ hr (hn ▸ hlen)).bind fun _ _ _ _ _ => tableFinish_obeys hf hc hl ht

theorem tableRead_tread {start : Regs} {u : Unit} (h : tableRead start w = .ok u v) : v.st.tread = none := by
  obtain ⟨_, _, -, h⟩ := Res.bind_eq_ok.1 h
  obtain ⟨_, _, -, h⟩ := Res.bind_eq_ok.1 h
  exact tableFinish_tread h

/-! ## Symbols (spec/44_huffman_coding.md) -/

theorem encodeSymbol_obeys (hf : fp.buf.Stores) (t : Tree) (s : Nat) : (encodeSymbol t s w).Obeys fp w := by
  unfold encodeSymbol
  split
  · exact putBits_obeys hf _
  · exact .stop _

theorem encodeSymbols_obeys (hf : fp.buf.Stores) (t : Tree) (ss : List Nat) : (encodeSymbols t ss w).Obeys fp w := by
  induction ss generalizing w with
  | nil => exact .pure _
  | cons s ss ih => exact (encodeSymbol_obeys hf t s).bind fun _ _ _ _ _ => ih

theorem decodeSymbol_obeys (hf : fp.reader = true) (t : Tree) : (decodeSymbol t w).Obeys fp w := by
  induction t generalizing w with
  | leaf s => exact .pure _
  | node l r ihl ihr =>
    refine (getBit_obeys hf).bind fun b _ _ _ _ => ?_
    cases b with
    | false => exact ihl
    | true => exact ihr

theorem decodeInto_obeys (hf : fp.reader = true) (t : Tree) (count k : Nat)
    (hs : ∀ a < k + count, a ∈ fp.sym) : (decodeInto t count k w).Obeys fp w := by
  induction count generalizing w k with
  | zero => exact .pure _
  | succ count ih =>
    exact (decodeSymbol_obeys hf t).bind fun _ _ _ _ _ => (writeSym_obeys (hs k (by omega)) _).bind fun _ _ _ _ _ =>
      ih (k + 1) fun a ha => hs a (by omega)

theorem countSymbols_obeys (ss : List Nat) (hs : ∀ s ∈ ss, s ∈ fp.freq) : (countSymbols ss w).Obeys fp w := by
  induction ss generalizing w with
  | nil => exact .pure _
  | cons s ss ih =>
    exact (readFreq_obeys s).bind fun _ _ _ _ _ => (writeFreq_obeys (hs s (by simp)) _).bind fun _ _ _ _ _ =>
      ih fun s' hs' => hs s' (by simp [hs'])

/-! ## The trie decoder (spec/46_trie_decoder.md) -/

/-- A change of the trie decoder's state. -/
theorem setDec_obeys (hu : fp.wout ≠ .untouched) {g : Decoder → Decoder}
    (hs : State.Sane { w.st with tread := none } →
      State.Sane { w.st with dec := g w.st.dec, tread := none }) : (Res.ok () (w.setDec g)).Obeys fp w :=
  .ok fun hw => ⟨hw.setDec hs, { Kept.refl fp w with decoder := fun h => absurd h hu }⟩

theorem StreamUse.Stores.ne_untouched {u : StreamUse} (h : u.Stores) : u ≠ .untouched := by
  rcases h with rfl | rfl <;> exact nofun

theorem setEmitted_obeys (hf : fp.wout.Stores) :
    (Res.ok () (w.setDec fun d => { d with emitted := true })).Obeys fp w :=
  setDec_obeys hf.ne_untouched fun h => { h with }

theorem emitWord_obeys (hf : fp.wout.Stores) (x : Str) : (emitWord x w).Obeys fp w := .of_bounded fun hw => by
  by_cases hx : x.length ≤ 255
  · by_cases hr : w.st.regs.woutPtr.toNat + 1 + x.length ≤ w.st.params.woutSize
    · have hsize := hw.legal.woutSize_le
      have hcnt : w.st.regs.woutCnt.toNat ≤ w.st.regs.woutPtr.toNat := hw.sane.output.2
      have hlen := recordBytes_singleton_length x
      have hp : (w.st.regs.woutPtr + BitVec.ofNat 32 (recordBytes [x]).length).toNat =
          w.st.regs.woutPtr.toNat + (recordBytes [x]).length := by
        rw [BitVec.toNat_add, BitVec.toNat_ofNat]; omega
      have hc : (w.st.regs.woutCnt + 1#32).toNat = w.st.regs.woutCnt.toNat + 1 := by
        rw [BitVec.toNat_add, BitVec.toNat_ofNat]; omega
      rw [emitWord_ok hx hr]
      have hout : (w.st.regs.woutPtr + BitVec.ofNat 32 (recordBytes [x]).length).toNat ≤ w.st.params.woutSize ∧
          (w.st.regs.woutCnt + 1#32).toNat ≤ (w.st.regs.woutPtr + BitVec.ofNat 32 (recordBytes [x]).length).toNat := by
        omega
      refine .ok fun hw => ⟨hw.update rfl rfl rfl { hw.sane with
        wout := Mem.wf_writeList _ _ _ (hp ▸ hout.1) hw.sane.wout
        output := hout }, { Kept.refl fp w with
        wout := ?_
        decoder := fun h => absurd h hf.ne_untouched }⟩
      · have := hf.allows_writeList w.st.wout w.st.regs.woutPtr.toNat (recordBytes [x])
        rw [← hp] at this
        exact this
    · rw [emitWord_full hx (Nat.lt_of_not_le hr)]
      exact .raise _ _
  · rw [emitWord_long (Nat.lt_of_not_le hx)]
    exact .raise _ _

theorem emitStack_obeys (hf : fp.wout.Stores) : (emitStack w).Obeys fp w := by
  unfold emitStack
  split
  · exact .pure _
  · exact (emitWord_obeys hf _).bind fun _ _ _ _ _ => setEmitted_obeys hf

theorem emitSuffixed_obeys (hf : fp.wout.Stores) (is : List Nat) : (emitSuffixed is w).Obeys fp w := by
  induction is generalizing w with
  | nil => exact .pure _
  | cons i is ih => exact (emitWord_obeys hf _).bind fun _ _ _ _ _ => ih

theorem decoderInit_obeys (hf : fp.wout = .cursor ∨ fp.wout = .free) : (Res.ok () (decoderInit w)).Obeys fp w := by
  refine .ok fun hw => ⟨hw.update rfl rfl rfl { hw.sane with
    stack := ⟨by simp [decoderInit, Decoder.reset], by simp [decoderInit, Decoder.reset]⟩
    bank := ⟨by simp [decoderInit, Decoder.reset], by simp [decoderInit, Decoder.reset]⟩
    output := ⟨by simp [decoderInit], by simp [decoderInit]⟩ }, { Kept.refl fp w with
    wout := ?_
    decoder := fun h => by rcases hf with hf | hf <;> simp [hf] at h }⟩
  rcases hf with hf | hf <;> simp [hf, StreamUse.Allows, decoderInit]

theorem sufDef_obeys (hu : fp.wout ≠ .untouched) : (sufDef w).Obeys fp w := by
  unfold sufDef
  split
  · exact .raise _ _
  · rename_i hb
    refine setDec_obeys hu fun h => { h with stack := ⟨by simp, by simp⟩, bank := ⟨?_, ?_⟩ }
    · have := h.bank.1
      simp only [Config.maxSuffixes, List.length_append, List.length_singleton] at hb this ⊢
      omega
    · intro x hx
      rcases List.mem_append.1 hx with hx | hx
      · exact h.bank.2 x hx
      · rw [List.mem_singleton.1 hx]
        exact h.stack

theorem maskClose_obeys (hf : fp.wout.Stores) (m : Nat) : (maskClose m w).Obeys fp w := by
  unfold maskClose
  split
  · exact .raise _ _
  · exact (emitStack_obeys hf).bind fun _ _ _ _ _ => emitSuffixed_obeys hf _

theorem backspace_obeys (hf : fp.wout.Stores) (n : Nat) : (backspace n w).Obeys fp w := by
  unfold backspace
  split
  · exact .raise _ _
  · refine (emitStack_obeys hf).bind fun _ v _ _ _ => setDec_obeys hf.ne_untouched fun h => { h with stack := ⟨?_, ?_⟩ }
    · have := h.stack.1
      simp only [List.length_take] at this ⊢
      omega
    · exact fun c hc => h.stack.2 c (List.mem_of_mem_take hc)

theorem push_obeys (hu : fp.wout ≠ .untouched) {c : Byte} (hc : IsChar c) : (push c w).Obeys fp w := by
  unfold push
  split
  · exact .raise _ _
  · rename_i hd
    refine setDec_obeys hu fun h => { h with stack := ⟨?_, ?_⟩ }
    · have := h.stack.1
      simp only [Config.stackMax, List.length_append, List.length_singleton] at hd this ⊢
      omega
    · intro x hx
      rcases List.mem_append.1 hx with hx | hx
      · exact h.stack.2 x hx
      · exact List.mem_singleton.1 hx ▸ hc

theorem decoderStep_obeys (hf : fp.wout.Stores) (c : Imm) : (decoderStep c w).Obeys fp w := by
  unfold decoderStep
  split
  · exact sufDef_obeys hf.ne_untouched
  split
  · exact maskClose_obeys hf _
  split
  · exact backspace_obeys hf _
  split
  · exact emitStack_obeys hf
  split
  · rename_i hc
    refine push_obeys hf.ne_untouched ?_
    have : (c.setWidth 8).toNat = c.toNat := by
      have := hc.2
      simp only [Config.charMax] at this
      rw [BitVec.toNat_setWidth, Nat.mod_eq_of_lt (by omega)]
    rwa [IsChar, this]
  · exact .raise _ _

theorem decoderSteps_obeys (hf : fp.wout.Stores) (cs : List Half) : (decoderSteps cs w).Obeys fp w := by
  induction cs generalizing w with
  | nil => exact .pure _
  | cons c cs ih => exact (decoderStep_obeys hf _).bind fun _ _ _ _ _ => ih

theorem decoderEnd_obeys (hf : fp.wout.Stores) : (decoderEnd w).Obeys fp w := by
  unfold decoderEnd
  split
  · exact (emitWord_obeys hf _).bind fun _ _ _ _ _ => setEmitted_obeys hf
  · exact .pure _

end Sys2Proof.Machine
end

section
/-! The code that HUF_BUILD makes passes the full-tree check: its length array is the depths of a tree's leaves, and
level by level the leaves and the nodes carried from below pair up (spec/42_huffman_build.md R179, R180 and R185). -/

namespace Sys2Proof.Machine

/-! ## The leaves of a tree -/

/-- The symbols at the leaves, from left to right. -/
def Tree.symbols : Tree → List Nat
  | .leaf s => [s]
  | .node l r => l.symbols ++ r.symbols

theorem Tree.depths_map_fst (t : Tree) (d : Nat) : (t.depths d).map Prod.fst = t.symbols := by
  induction t generalizing d with
  | leaf s => rfl
  | node l r ihl ihr => simp [depths, symbols, ihl, ihr]

theorem Tree.symbols_length_pos (t : Tree) : 0 < t.symbols.length := by
  induction t with
  | leaf s => simp [symbols]
  | node l r ihl _ => simp only [symbols, List.length_append]; omega

/-- The depths of the leaves, from left to right, the root being at depth 0. -/
def Tree.leafDepths (t : Tree) : List Nat := (t.depths 0).map Prod.snd

theorem Tree.leafDepths_ne_nil (t : Tree) : t.leafDepths ≠ [] := by
  have hpos := t.symbols_length_pos
  rw [← t.depths_map_fst 0, List.length_map] at hpos
  exact List.ne_nil_of_length_pos (by rwa [leafDepths, List.length_map])

theorem Tree.depths_map_snd (t : Tree) (d : Nat) : (t.depths d).map Prod.snd = t.leafDepths.map (· + d) := by
  induction t generalizing d with
  | leaf s => simp [depths, leafDepths]
  | node l r ihl ihr =>
    simp only [leafDepths, depths, List.map_append, ihl (d + 1), ihr (d + 1), ihl (0 + 1), ihr (0 + 1), List.map_map]
    congr 2 <;> funext k <;> simp only [Function.comp_apply] <;> omega

theorem Tree.leafDepths_node (l r : Tree) :
    (Tree.node l r).leafDepths = (l.leafDepths ++ r.leafDepths).map (· + 1) := by
  rw [leafDepths, depths, List.map_append, depths_map_snd, depths_map_snd, ← List.map_append]

/-- The number of inner nodes at a depth. -/
def Tree.innerCount : Tree → Nat → Nat
  | .leaf _, _ => 0
  | .node _ _, 0 => 1
  | .node l r, k + 1 => l.innerCount k + r.innerCount k

theorem Tree.count_leafDepths_node (l r : Tree) (k : Nat) :
    (Tree.node l r).leafDepths.count (k + 1) = l.leafDepths.count k + r.leafDepths.count k := by
  rw [leafDepths_node, List.count_map_of_injective _ _ (fun a b h => Nat.succ.inj h), List.count_append]

/-- The root is a leaf or an inner node. -/
theorem Tree.root_count (t : Tree) : t.leafDepths.count 0 + t.innerCount 0 = 1 := by
  cases t with
  | leaf s => rfl
  | node l r =>
    have h0 : (Tree.node l r).leafDepths.count 0 = 0 := by
      rw [leafDepths_node]
      exact List.count_eq_zero.2 (by simp)
    simp [h0, innerCount]

/-- The nodes of a level are the children of the inner nodes of the level above. -/
theorem Tree.level_count (t : Tree) (k : Nat) :
    t.leafDepths.count (k + 1) + t.innerCount (k + 1) = 2 * t.innerCount k := by
  induction t generalizing k with
  | leaf s => simp [leafDepths, depths, innerCount]
  | node l r ihl ihr =>
    rw [count_leafDepths_node]
    cases k with
    | zero =>
      have hl := l.root_count
      have hr := r.root_count
      simp only [innerCount]
      omega
    | succ k =>
      have hl := ihl k
      have hr := ihr k
      simp only [innerCount]
      omega

/-- Below the deepest leaf there is no inner node. -/
theorem Tree.innerCount_eq_zero {t : Tree} {m : Nat} (h : ∀ d ∈ t.leafDepths, d ≤ m) : t.innerCount m = 0 := by
  induction t generalizing m with
  | leaf s => rfl
  | node l r ihl ihr =>
    rw [leafDepths_node] at h
    simp only [List.mem_map, List.mem_append, forall_exists_index, and_imp, forall_apply_eq_imp_iff₂] at h
    cases m with
    | zero =>
      obtain ⟨d, hd⟩ := List.exists_mem_of_ne_nil _ l.leafDepths_ne_nil
      have := h d (.inl hd)
      omega
    | succ m =>
      simp only [innerCount]
      rw [ihl fun d hd => by have := h d (.inl hd); omega, ihr fun d hd => by have := h d (.inr hd); omega]

/-- The level-by-level check over a tree's leaf depths, from a level to which its inner nodes are carried. -/
theorem foldLevels_tree {t : Tree} {lens : List Nat} (hne : t.innerCount 0 = 1)
    (hc : ∀ k, lens.count (k + 1) = t.leafDepths.count (k + 1)) (level : Nat) :
    foldLevels lens level (t.innerCount level) = .full := by
  induction level with
  | zero => simp [foldLevels, hne]
  | succ level ih =>
    have hk : t.innerCount (level + 1) + lens.count (level + 1) = 2 * t.innerCount level := by
      rw [hc, ← t.level_count level, Nat.add_comm]
    simp only [foldLevels, hk]
    rw [if_neg (by omega), Nat.mul_div_cancel_left _ (by omega), ih]

/-- An array whose nonzero lengths are the leaf depths of a tree with two leaves or more passes the full-tree check. -/
theorem validate_tree {t : Tree} {lens : List Nat} (hne : t.innerCount 0 = 1)
    (hc : ∀ k, lens.count (k + 1) = t.leafDepths.count (k + 1)) : validate lens = .full := by
  have hle : ∀ d ∈ t.leafDepths, d ≤ maxLen lens := fun d hd => by
    cases d with
    | zero => exact Nat.zero_le _
    | succ k => exact le_maxLen (List.count_pos_iff.1 (by rw [hc]; exact List.count_pos_iff.2 hd))
  have hzero := Tree.innerCount_eq_zero hle
  have hmax : maxLen lens ≠ 0 := fun h0 => by
    rw [h0, hne] at hzero
    cases hzero
  rw [validate, if_neg hmax, ← hzero]
  exact foldLevels_tree hne hc _

/-! ## The tree of the greedy merge -/

/-- Merging keeps the leaves. -/
theorem mergeQueue_symbols {k : Nat} {q : List QNode} {t : Tree} (h : mergeQueue k q = some t) :
    t.symbols.Perm (q.flatMap fun x => x.tree.symbols) := by
  induction k generalizing q with
  | zero =>
    match q, h with
    | [x], h => cases h; simp
  | succ k ih =>
    match q, h with
    | [x], h => cases h; simp
    | x :: y :: q, h =>
      refine (ih h).trans (((insertNode_perm (mergeNodes x y) q).flatMap_right _).trans ?_)
      simp [mergeNodes, Tree.symbols]

theorem buildTree_symbols {freqs : List Nat} {t : Tree} (h : buildTree freqs = some t) :
    t.symbols.Perm (leafSymbols freqs) := by
  rw [buildTree_eq] at h
  refine (mergeQueue_symbols h).trans (((foldr_insertNode_perm _).flatMap_right _).trans ?_)
  simp [leafNodes, List.flatMap_map, Tree.symbols]

theorem leafSymbols_lt {freqs : List Nat} {s : Nat} (h : s ∈ leafSymbols freqs) : s < freqs.length := by
  rcases List.mem_append.1 h with h | h
  · exact List.mem_range.1 (List.mem_of_mem_filter h)
  · exact List.mem_range.1 (List.mem_of_mem_filter (List.mem_of_mem_take h))

theorem leafSymbols_nodup (freqs : List Nat) : (leafSymbols freqs).Nodup := by
  refine List.Nodup.append (List.nodup_range.filter _) ((List.nodup_range.filter _).sublist (List.take_sublist _ _))
    fun s hs hs' => ?_
  have h1 := (List.mem_filter.1 hs).2
  have h2 := (List.mem_filter.1 (List.mem_of_mem_take hs')).2
  simp only [decide_eq_true_eq] at h1 h2
  omega

theorem two_le_leafSymbols_length {freqs : List Nat} (h : 2 ≤ freqs.length) : 2 ≤ (leafSymbols freqs).length := by
  have hsum := List.length_eq_length_filter_add (l := List.range freqs.length)
    (fun s => decide (0 < freqs.getD s 0))
  have hneg : ((List.range freqs.length).filter fun s => !decide (0 < freqs.getD s 0)) =
      (List.range freqs.length).filter fun s => decide (freqs.getD s 0 = 0) :=
    List.filter_congr fun s _ => by
      rw [← decide_not, decide_eq_decide]
      omega
  rw [hneg, List.length_range] at hsum
  simp only [leafSymbols, List.length_append, List.length_take]
  omega

/-- A tree with two leaves or more has an inner root. -/
theorem Tree.innerCount_root {t : Tree} (h : 2 ≤ t.symbols.length) : t.innerCount 0 = 1 := by
  cases t with
  | leaf s => simp [symbols] at h
  | node l r => rfl

/-! ## The length array of a tree -/

theorem lookup_eq_of_mem {l : List (Nat × Nat)} (hn : (l.map Prod.fst).Nodup) {s d : Nat} (h : (s, d) ∈ l) :
    l.lookup s = some d := by
  induction l with
  | nil => cases h
  | cons x l ih =>
    obtain ⟨hx, hl⟩ := List.nodup_cons.1 hn
    rcases List.mem_cons.1 h with rfl | h
    · simp
    · have hne : s ≠ x.1 := fun he => hx (he ▸ List.mem_map_of_mem h)
      rw [List.lookup_cons, beq_false_of_ne hne]
      exact ih hl h

/-- Where a tree's symbols are different and below n, its length array holds the depths of its leaves, and 0. -/
theorem depthList_perm {t : Tree} {n : Nat} (hn : t.symbols.Nodup) (hlt : ∀ s ∈ t.symbols, s < n) :
    ∃ m, (depthList t n).Perm (t.leafDepths ++ List.replicate m 0) := by
  obtain ⟨l, hl, hsub⟩ := hn.subperm fun s hs => List.mem_range.2 (hlt s hs)
  obtain ⟨rest, hr⟩ := hsub.exists_perm_append
  have hrest := hr.trans (hl.append_right rest)
  have hnd : (t.symbols ++ rest).Nodup := hrest.nodup_iff.1 List.nodup_range
  refine ⟨rest.length, (hrest.map _).trans ?_⟩
  have hfst := t.depths_map_fst 0
  have hin : t.symbols.map (fun s => ((t.depths 0).lookup s).getD 0) = t.leafDepths := by
    rw [← hfst, Tree.leafDepths, List.map_map]
    refine List.map_congr_left fun x hx => ?_
    simp [lookup_eq_of_mem (hfst ▸ hn) hx]
  have hout : rest.map (fun s => ((t.depths 0).lookup s).getD 0) = List.replicate rest.length 0 := by
    refine List.map_eq_replicate_iff.2 fun s hs => ?_
    have : (t.depths 0).lookup s = none := by
      refine List.lookup_eq_none_iff.2 fun x hx => ?_
      have hxs : x.1 ∈ t.symbols := hfst ▸ List.mem_map_of_mem hx
      exact bne_iff_ne.2 fun he => List.disjoint_of_nodup_append hnd (he ▸ hxs) hs
    simp [this]
  rw [List.map_append, hin, hout]

/-- The code of HUF_BUILD passes the full-tree check. -/
theorem buildTree_validate {freqs : List Nat} {t : Tree} (hn : 2 ≤ freqs.length) (h : buildTree freqs = some t) :
    validate (depthList t freqs.length) = .full := by
  have hs := buildTree_symbols h
  have hroot := Tree.innerCount_root (hs.length_eq ▸ two_le_leafSymbols_length hn)
  obtain ⟨m, hm⟩ := depthList_perm (hs.nodup_iff.2 (leafSymbols_nodup freqs)) fun s hmem =>
    leafSymbols_lt (hs.mem_iff.1 hmem)
  refine validate_tree hroot fun k => ?_
  rw [hm.count_eq, List.count_append, List.count_replicate]
  simp

end Sys2Proof.Machine
end

section
/-! Loading a code: what CODE_VALID and MAXLEN mean (`State.CodeOk`) holds after a code has been loaded, and is kept by
whatever leaves LIMIT, LEN and the code alone. -/

namespace Sys2Proof.Machine

variable {s t : State} {w v : Work}

theorem maxLen_le {lens : List Nat} {m : Nat} (h : ∀ l ∈ lens, l ≤ m) : maxLen lens ≤ m := by
  induction lens with
  | nil => exact Nat.zero_le _
  | cons x xs ih => exact max_le (h x (by simp)) (ih fun l hl => h l (by simp [hl]))

theorem State.lens_congr {n : Nat} (h : ∀ a, t.len.read a = s.len.read a) : t.lens n = s.lens n := by
  simp only [lens, Mem.readList, List.map_map]
  exact List.map_congr_left fun a _ => by simp [h a]

/-- Without a loaded code there is nothing to mean. -/
theorem State.codeOk_of_invalid (h : s.regs.status.codeValid = false) : s.CodeOk :=
  ⟨by simp [h], by simp [h], by simp [h], by simp [h]⟩

/-- A code that was checked and loaded. -/
theorem State.codeOk_of_loaded (hp : s.params.Legal) {lens : List Nat} (hlens : s.loadedLens = lens)
    (hlimit : 2 ≤ s.regs.limit.toNat) (hfull : validate lens = .full) (hrange : ∀ l ∈ lens, l ≤ s.params.maxCodeLen)
    (hmax : s.regs.maxlen = BitVec.ofNat 32 (maxLen lens)) : s.CodeOk := by
  have hle := maxLen_le hrange
  have hcap := hp.maxCodeLen_le
  subst hlens
  refine ⟨fun _ => hlimit, fun _ => hfull, fun _ => hrange, fun _ => ?_⟩
  rw [hmax, BitVec.toNat_ofNat, Nat.mod_eq_of_lt (by omega)]

theorem State.CodeOk.congr (h : s.CodeOk) (hp : t.params = s.params) (hl : t.regs.limit = s.regs.limit)
    (hlens : t.loadedLens = s.loadedLens) (hv : t.regs.status.codeValid = s.regs.status.codeValid)
    (hm : t.regs.maxlen = s.regs.maxlen) : t.CodeOk where
  limit hc := hl ▸ h.limit (hv ▸ hc)
  full hc := hlens ▸ h.full (hv ▸ hc)
  range hc := hlens ▸ hp ▸ h.range (hv ▸ hc)
  maxlen hc := by rw [hm, hlens]; exact h.maxlen (hv ▸ hc)

/-- The footprint has no part of the loaded code. -/
structure Footprint.KeepsCode (fp : Footprint) : Prop where
  len : fp.len = ∅
  limit : fp.limit = false
  code : fp.code = false

theorem Kept.codeOk {fp : Footprint} (hk : Kept fp w v) (hf : fp.KeepsCode) (h : w.st.CodeOk) : v.st.CodeOk := by
  obtain ⟨hv, hm, -⟩ := hk.code hf.code
  have hl := hk.limit hf.limit
  refine h.congr hk.params hl ?_ hv hm
  rw [State.loadedLens, hl]
  exact State.lens_congr fun a => hk.len a (by simp [hf.len])

/-- Lengths below 256 that are stored from LEN[0] on read back. -/
theorem lens_writeList (hm : s.len.Rising) {d : List Nat} (hd : ∀ l ∈ d, l ≤ 255) :
    State.lens { s with len := s.len.writeList 0 (d.map (BitVec.ofNat 8)) } d.length = d := by
  refine List.ext_getElem (by simp [State.lens]) fun j hj hj' => ?_
  have hin := Mem.read_writeList_inside (d.map (BitVec.ofNat 8)) s.len 0 j hm (by simpa using hj')
  have hle := hd d[j] (List.getElem_mem hj')
  rw [Nat.zero_add, List.getElem_map] at hin
  simp only [State.lens, List.getElem_map, Mem.readList_getElem, hin, BitVec.toNat_ofNat]
  exact Nat.mod_eq_of_lt (by omega)

/-- HUF_BUILD's end loads its code (spec/42_huffman_build.md R185). -/
theorem buildAndLoad_codeOk {n : Nat} {u : Unit} (hw : w.Bounded) (hn : w.st.regs.limit.toNat = n) (h2 : 2 ≤ n)
    (h : buildAndLoad n w = .ok u v) : v.st.CodeOk := by
  obtain ⟨freqs, w₁, h₁, h⟩ := Res.bind_eq_ok.1 h
  obtain ⟨-, rfl, rfl⟩ := readFreqs_eq_ok.1 h₁
  split at h
  · cases h
  · rename_i t ht
    have hfull := buildTree_validate (by simpa using h2) ht
    rw [List.length_map, Mem.readList_length] at hfull
    dsimp only at h
    split at h
    · cases h
    · rename_i hi
      have hd : ∀ l ∈ depthList t n, l ≤ w₁.st.params.maxCodeLen := fun l hl => by
        simpa using lowestIndex_eq_none.1 hi l hl
      have hcap := hw.legal.maxCodeLen_le
      have hlens := lens_writeList hw.sane.len.1 fun l hl => (hd l hl).trans hcap
      rw [show (depthList t n).length = n by simp [depthList]] at hlens
      obtain ⟨_, w₂, h₂, h⟩ := Res.bind_eq_ok.1 h
      obtain ⟨-, rfl⟩ := writeLens_eq_ok.1 h₂
      cases h
      refine State.codeOk_of_loaded hw.legal (lens := depthList t n) ?_ (hn ▸ h2) hfull hd rfl
      rw [State.loadedLens]
      simp only [Work.setRegs_st_regs, Regs.loadCode_limit, hn]
      exact hlens

/-- The end of a table read loads the code that was read (spec/43_table_io.md R204). -/
theorem tableFinish_codeOk {r : TableRead} {u : Unit} (hw : w.Bounded) (hr : w.st.tread = some r) (hi : r.n ≤ r.i)
    (h : tableFinish w = .ok u v) : v.st.CodeOk := by
  obtain ⟨⟨hn2, hnm⟩, hlens, -⟩ := hw.reading r hr
  have hrn := ofNat_limit_toNat hw.legal hnm
  simp only [tableFinish, hr] at h
  obtain ⟨lens, w₁, h₁, h⟩ := Res.bind_eq_ok.1 h
  obtain ⟨-, rfl, rfl⟩ := readLens_eq_ok.1 h₁
  obtain ⟨_, w₂, h₂, h⟩ := Res.bind_eq_ok.1 h
  obtain ⟨hfull, rfl⟩ := checkFull_eq_ok.1 h₂
  cases h
  refine State.codeOk_of_loaded hw.legal (lens := w.st.lens r.n) ?_ ?_ hfull ?_ rfl
  · rw [State.loadedLens]
    simp only [Work.setTread_st_regs, Work.setRegs_st_regs, Regs.loadCode_limit, hrn]
    rfl
  · simpa [hrn] using hn2
  · intro l hl
    simp only [State.lens, Mem.readList, List.map_map, List.mem_map, List.mem_range] at hl
    obtain ⟨a, ha, rfl⟩ := hl
    exact hlens a (by omega)

theorem tableRead_codeOk {start : Regs} {u : Unit} (hw : w.Bounded) (h : tableRead start w = .ok u v) :
    v.st.CodeOk := by
  obtain ⟨_, w₁, h₁, h⟩ := Res.bind_eq_ok.1 h
  obtain ⟨_, w₂, h₂, h⟩ := Res.bind_eq_ok.1 h
  obtain ⟨r, hr, -⟩ := tableHeader_ok hw h₁
  have hw₁ := ((tableHeader_obeys (fp := { reader := true, table := true }) rfl rfl start).of_ok hw h₁).1
  obtain ⟨r', hr', -, hi⟩ := entryLoop_complete hw₁ hr h₂
  have hloop := entryLoop_obeys (fp := { len := Set.univ, reader := true, code := true, table := true }) rfl rfl rfl
    (unreadCount w₁.st.regs + 1) hr fun _ _ => Set.mem_univ _
  exact tableFinish_codeOk (hloop.of_ok hw₁ h₂).1 hr' hi h

end Sys2Proof.Machine
end

section
/-! The footprint of every instruction, and how an instruction ends: every obligation about what instructions change or
keep is read off `exec_ends`. -/

namespace Sys2Proof.Machine

variable {s t : State}

/-- One more than the largest symbol of SYM[0..SYM_CNT): the limit that HUF_BENC codes with. -/
def State.blockLimit (s : State) : Nat := maxLen (s.syms s.regs.symCnt.toNat) + 1

/-- What an instruction but SRESET may change, from the state s (spec/10_state.md R25 to R37 and R47). -/
def footprint (s : State) : Instr → Footprint
  | .nop => {}
  | .sreset => {}
  | .bsWinit _ => { buf := .cursor }
  | .bsPut _ => { buf := .append }
  | .bsWalign => { buf := .append }
  | .bsRinit _ => { reader := true }
  | .bsGet _ => { reader := true, result := true }
  | .bsRalign => { reader := true }
  | .ftInit limit => { freq := {a | a < limit.toNat}, limit := true, code := true }
  | .ftInc sym => { freq := {sym.toNat} }
  | .ftSet sym => { freq := {sym.toNat} }
  | .ftGet _ => { result := true }
  | .hufBuild => { len := {a | a < s.regs.limit.toNat}, code := true }
  | .hufCanon _ => { limit := true, code := true }
  | .hufTwrite => { buf := .append }
  | .hufTread => { len := {a | a < s.tableCount}, reader := true, limit := true, code := true, table := true }
  | .hufEnc _ => { buf := .append }
  | .hufDec => { reader := true, result := true }
  | .hufBenc =>
    { freq := {a | a < s.blockLimit}, len := {a | a < s.blockLimit}, buf := .append, limit := true, code := true }
  | .hufBdec n =>
    { len := {a | a < s.tableCount}, sym := {a | a < n.toNat}, reader := true, limit := true, symCnt := true
      code := true, table := true }
  | .trieEnc => { sym := Set.univ, symCnt := true }
  | .trieDinit => { wout := .cursor }
  | .trieDstep _ => { wout := .append }
  | .trieDend => { wout := .append }
  | .trieDrun => { wout := .free }
  | .sufdef => { wout := .cursor }
  | .mask _ => { wout := .append }
  | .bksp _ => { wout := .append }
  | .word => { wout := .append }
  | .char _ => { wout := .cursor }
  | .invalidCode _ => {}
  | .tableLiteral _ _ => {}
  | .tableRun _ => {}

/-- The work state in which a command starts. -/
abbrev State.start (s : State) : Work := { st := s, wroteLen := false }

/-- The instruction i takes s to t: its work ends in a state w that keeps what lies outside the footprint, and t is w,
with no table read left behind and the meaning of CODE_VALID kept, or fault entry from w. -/
def Ends (i : Instr) (s t : State) : Prop :=
  ∃ w, Kept (footprint s i) s.start w ∧ (i.wf = true → w.Bounded) ∧
    ((t = w.st ∧ w.st.tread = none ∧ (s.CodeOk → t.CodeOk)) ∨
      ∃ c info, t = faultEntry i.opcode s.regs s.dec w c info)

/-- A command that obeys its footprint, and where it succeeds leaves no table read and keeps the meaning of
CODE_VALID. -/
theorem ends_of_loads {i : Instr} {body : Work → Res Unit} (hs : s.Sane) (h : runCommand i.opcode body s = .next t)
    (hb : (body s.start).Obeys (footprint s i) s.start)
    (hload : ∀ w, body s.start = .ok () w → w.st.tread = none ∧ (s.CodeOk → w.st.CodeOk)) : Ends i s t := by
  rcases runCommand_next h with ⟨w, hw, rfl⟩ | ⟨c, info, w, hw, rfl⟩
  · obtain ⟨hbd, hk⟩ := hb hs.bounded w (.inl ⟨(), hw⟩)
    exact ⟨w, hk, fun _ => hbd, .inl ⟨rfl, hload w hw⟩⟩
  · obtain ⟨hbd, hk⟩ := hb hs.bounded w (.inr ⟨c, info, hw⟩)
    exact ⟨w, hk, fun _ => hbd, .inr ⟨c, info, rfl⟩⟩

/-- A command whose footprint has no part of the loaded code and no table read. -/
theorem ends_of_obeys {i : Instr} {body : Work → Res Unit} (hs : s.Sane) (h : runCommand i.opcode body s = .next t)
    (hf : (footprint s i).KeepsCode) (ht : (footprint s i).table = false)
    (hb : (body s.start).Obeys (footprint s i) s.start) : Ends i s t :=
  ends_of_loads hs h hb fun _ hw => by
    obtain ⟨-, hk⟩ := hb.of_ok hs.bounded hw
    exact ⟨(hk.table ht).trans hs.idle, hk.codeOk hf⟩

/-! ## Bit-stream commands -/

theorem execBsWinit_ends (hs : s.Sane) {a : Imm} (h : execBsWinit a s = .next t) : Ends (.bsWinit a) s t := by
  refine ends_of_obeys hs h ⟨rfl, rfl, rfl⟩ rfl ?_
  split
  · exact .raise _ _
  · rename_i hlt
    refine .ok fun hw => ⟨hw.setRegs fun h => { h with writer := ⟨by simp, by simp, ?_, by simp⟩ },
      { Kept.refl _ s.start with buf := fun _ => rfl, writer := fun h => by cases h }⟩
    rw [zextImm_toNat]
    exact Nat.le_of_not_lt hlt

theorem execBsPut_ends (hs : s.Sane) {n : Imm} (h : execBsPut n s = .next t) : Ends (.bsPut n) s t := by
  refine ends_of_obeys hs h ⟨rfl, rfl, rfl⟩ rfl ?_
  split
  · exact .raise _ _
  · exact putBits_obeys (.inl rfl) _

theorem execBsWalign_ends (hs : s.Sane) (h : execBsWalign s = .next t) : Ends .bsWalign s t :=
  ends_of_obeys hs h ⟨rfl, rfl, rfl⟩ rfl (alignW_obeys (.inl rfl))

theorem execBsRinit_ends (hs : s.Sane) {a : Imm} (h : execBsRinit a s = .next t) : Ends (.bsRinit a) s t := by
  refine ends_of_obeys hs h ⟨rfl, rfl, rfl⟩ rfl ?_
  split
  · exact .raise _ _
  · split
    · exact .raise _ _
    · rename_i hlim hpos
      refine .ok fun hw => ⟨hw.setRegs fun h => { h with reader := ⟨by simp, ?_, Nat.le_of_not_lt hlim, by simp⟩ },
        { Kept.refl _ s.start with reader := fun h => by cases h }⟩
      rw [zextImm_toNat]
      exact Nat.le_of_not_lt hpos

theorem execBsGet_ends (hs : s.Sane) {n : Imm} (h : execBsGet n s = .next t) : Ends (.bsGet n) s t := by
  refine ends_of_obeys hs h ⟨rfl, rfl, rfl⟩ rfl ?_
  split
  · exact .raise _ _
  · exact (getField_obeys rfl _).bind fun _ _ _ _ _ => setResult_obeys rfl _

theorem execBsRalign_ends (hs : s.Sane) (h : execBsRalign s = .next t) : Ends .bsRalign s t :=
  ends_of_obeys hs h ⟨rfl, rfl, rfl⟩ rfl (alignR_obeys rfl)

/-! ## Frequency commands -/

theorem execFtInit_ends (hs : s.Sane) {limit : Imm} (h : execFtInit limit s = .next t) : Ends (.ftInit limit) s t := by
  refine ends_of_loads hs h ?_ fun w hw => ?_
  · split
    · exact .raise _ _
    · rename_i hb
      refine (zeroFreqs_obeys fun _ ha => ha).bind fun _ v _ _ hk => dropCode_obeys rfl rfl ?_
      rw [zextImm_toNat, hk.params]
      exact badLimit_eq_false.1 (eq_false_of_ne_true hb)
  · split at hw
    · cases hw
    · obtain ⟨_, v, hv, hw⟩ := Res.bind_eq_ok.1 hw
      cases hw
      have hk := ((zeroFreqs_obeys (fp := { freq := Set.univ }) fun _ _ => Set.mem_univ _).of_ok hs.bounded hv).2
      exact ⟨(hk.table rfl).trans hs.idle, fun _ => State.codeOk_of_invalid rfl⟩

theorem execFtInc_ends (hs : s.Sane) {sym : Imm} (h : execFtInc sym s = .next t) : Ends (.ftInc sym) s t := by
  refine ends_of_obeys hs h ⟨rfl, rfl, rfl⟩ rfl ?_
  split
  · exact .raise _ _
  · refine (readFreq_obeys _).bind fun f v _ _ _ => ?_
    split
    · exact .raise _ _
    · split
      · exact .raise _ _
      · exact writeFreq_obeys rfl _

theorem execFtSet_ends (hs : s.Sane) {sym : Imm} (h : execFtSet sym s = .next t) : Ends (.ftSet sym) s t := by
  refine ends_of_obeys hs h ⟨rfl, rfl, rfl⟩ rfl ?_
  split
  · exact .raise _ _
  · split
    · exact .raise _ _
    · exact writeFreq_obeys rfl _

theorem execFtGet_ends (hs : s.Sane) {sym : Imm} (h : execFtGet sym s = .next t) : Ends (.ftGet sym) s t := by
  refine ends_of_obeys hs h ⟨rfl, rfl, rfl⟩ rfl ?_
  split
  · exact .raise _ _
  · exact (readFreq_obeys _).bind fun _ _ _ _ _ => setResult_obeys rfl _

/-! ## Huffman commands -/

/-- `buildAndLoad` has no part in a table read. -/
theorem buildAndLoad_tread {w v : Work} {n : Nat} {u : Unit} (hw : w.Bounded) (h : buildAndLoad n w = .ok u v) :
    v.st.tread = w.st.tread :=
  ((buildAndLoad_obeys (fp := { len := Set.univ, code := true }) rfl fun _ _ => Set.mem_univ _).of_ok hw h).2.table rfl

theorem execHufBuild_ends (hs : s.Sane) (h : execHufBuild s = .next t) : Ends .hufBuild s t := by
  refine ends_of_loads hs h ?_ fun w hw => ?_
  · split
    · exact .raise _ _
    · refine (readFreqs_obeys _).bind fun freqs v hv _ _ => ?_
      obtain ⟨-, -, rfl⟩ := readFreqs_eq_ok.1 hv
      split
      · exact .raise _ _
      · exact buildAndLoad_obeys rfl fun _ ha => ha
  · split at hw
    · cases hw
    · rename_i hlimit
      obtain ⟨freqs, v, hv, hw⟩ := Res.bind_eq_ok.1 hw
      obtain ⟨-, -, rfl⟩ := readFreqs_eq_ok.1 hv
      split at hw
      · cases hw
      · exact ⟨(buildAndLoad_tread hs.bounded hw).trans hs.idle,
          fun _ => buildAndLoad_codeOk hs.bounded rfl (Nat.le_of_not_lt hlimit) hw⟩

theorem execHufCanon_ends (hs : s.Sane) {limit : Imm} (h : execHufCanon limit s = .next t) :
    Ends (.hufCanon limit) s t := by
  refine ends_of_loads hs h ?_ fun w hw => ?_
  · split
    · exact .raise _ _
    · rename_i hb
      refine (readLens_obeys _).bind fun lens v _ _ hv => ?_
      split
      · exact .raise _ _
      · refine (checkFull_obeys _).bind fun _ u hu _ hk => loadCode_obeys rfl rfl _ ?_
        rw [zextImm_toNat, hk.params, hv.params]
        exact badLimit_eq_false.1 (eq_false_of_ne_true hb)
  · split at hw
    · cases hw
    · rename_i hb
      obtain ⟨hl2, -⟩ := badLimit_eq_false.1 (eq_false_of_ne_true hb)
      obtain ⟨lens, v, hv, hw⟩ := Res.bind_eq_ok.1 hw
      obtain ⟨-, rfl, rfl⟩ := readLens_eq_ok.1 hv
      split at hw
      · cases hw
      · rename_i hrange
        obtain ⟨_, v, hv, hw⟩ := Res.bind_eq_ok.1 hw
        obtain ⟨hfull, rfl⟩ := checkFull_eq_ok.1 hv
        cases hw
        refine ⟨hs.idle, fun _ => State.codeOk_of_loaded hs.params (lens := s.lens limit.toNat) ?_ ?_ hfull
          (fun l hl => by simpa using lowestIndex_eq_none.1 hrange l hl) rfl⟩
        · simp only [State.loadedLens, Work.setRegs_st_regs, Regs.loadCode_limit, zextImm_toNat]
          rfl
        · simpa [zextImm_toNat] using hl2

theorem execHufTwrite_ends (hs : s.Sane) (h : execHufTwrite s = .next t) : Ends .hufTwrite s t := by
  refine ends_of_obeys hs h ⟨rfl, rfl, rfl⟩ rfl ?_
  split
  · exact tableWrite_obeys (.inl rfl)
  · exact .raise _ _

theorem execHufTread_ends (hs : s.Sane) (h : execHufTread s = .next t) : Ends .hufTread s t :=
  ends_of_loads hs h (tableRead_obeys (fp := footprint s .hufTread) (w := s.start) rfl rfl rfl rfl (fun _ ha => ha) _)
    fun _ hw => ⟨tableRead_tread hw, fun _ => tableRead_codeOk hs.bounded hw⟩

theorem execHufEnc_ends (hs : s.Sane) {sym : Imm} (h : execHufEnc sym s = .next t) : Ends (.hufEnc sym) s t := by
  refine ends_of_obeys hs h ⟨rfl, rfl, rfl⟩ rfl ?_
  split
  · exact .raise _ _
  · split
    · exact .raise _ _
    · refine (readLen_obeys _).bind fun l v _ _ _ => ?_
      split
      · exact .raise _ _
      · exact loadedTree_obeys.bind fun t _ _ _ _ => encodeSymbol_obeys (.inl rfl) t _

theorem execHufDec_ends (hs : s.Sane) (h : execHufDec s = .next t) : Ends .hufDec s t := by
  refine ends_of_obeys hs h ⟨rfl, rfl, rfl⟩ rfl ?_
  split
  · exact .raise _ _
  · exact loadedTree_obeys.bind fun t _ _ _ _ => (decodeSymbol_obeys rfl t).bind fun _ _ _ _ _ =>
      setResult_obeys rfl _

/-- What HUF_BENC does before it builds its code, for the symbols `list` and the limit m. -/
def countBlock (m : Nat) (list : List Nat) (w : Work) : Res Unit :=
  (zeroFreqs m w).bind fun _ w => countSymbols list (w.setRegs fun r => { r with limit := BitVec.ofNat 32 m })

/-- What HUF_BENC does after its code is loaded. -/
def writeBlock (list : List Nat) (w : Work) : Res Unit :=
  (tableWrite w).bind fun _ w => (loadedTree w).bind fun t w => (encodeSymbols t list w).bind fun _ w => alignW w

/-- HUF_BENC after its checks. -/
def encodeBlock (list : List Nat) (w : Work) : Res Unit :=
  (countBlock (maxLen list + 1) list w).bind fun _ w => (buildAndLoad (maxLen list + 1) w).bind fun _ w =>
    writeBlock list w

theorem execHufBenc_eq (s : State) : execHufBenc s = runCommand (Instr.opcode .hufBenc) (fun w =>
    if w.st.params.symSize < w.st.regs.symCnt.toNat then .raise .arg w.st.regs.symCnt w
    else if w.st.regs.symCnt.toNat = 0 then .raise .config 0 w
    else (readSyms w.st.regs.symCnt.toNat w).bind fun syms w =>
      if badLimit w.st.params (maxLen (syms.map BitVec.toNat) + 1) then
        .raise .config (BitVec.ofNat 32 (maxLen (syms.map BitVec.toNat) + 1)) w
      else encodeBlock (syms.map BitVec.toNat) w) s := by
  simp only [encodeBlock, countBlock, Res.bind_assoc]
  rfl

/-- What HUF_BDEC does after the table. -/
def decodeBlock (n : Imm) (w : Work) : Res Unit :=
  (loadedTree w).bind fun t w => (decodeInto t n.toNat 0 w).bind fun _ w =>
    .ok () (alignR (w.setRegs fun r => { r with symCnt := zextImm n }))

theorem writeBlock_obeys {fp : Footprint} {w : Work} (hf : fp.buf.Stores) (list : List Nat) :
    (writeBlock list w).Obeys fp w :=
  (tableWrite_obeys hf).bind fun _ _ _ _ _ => loadedTree_obeys.bind fun _ _ _ _ _ =>
    (encodeSymbols_obeys hf _ _).bind fun _ _ _ _ _ => alignW_obeys hf

theorem decodeBlock_obeys {fp : Footprint} {w : Work} (hr : fp.reader = true) (hc : fp.symCnt = true) (n : Imm)
    (hn : ∀ a < n.toNat, a ∈ fp.sym) : (decodeBlock n w).Obeys fp w :=
  loadedTree_obeys.bind fun t _ _ _ _ => (decodeInto_obeys hr t _ 0 (by simpa using hn)).bind fun _ v _ _ _ =>
    Res.Obeys.bind (f := fun _ v => .ok () (alignR v)) (setSymCnt_obeys hc _) fun _ _ _ _ _ => alignR_obeys hr

theorem countBlock_obeys {fp : Footprint} {w : Work} {m : Nat} {list : List Nat}
    (hm : 2 ≤ m ∧ m ≤ w.st.params.symLimitMax) (hl : fp.limit = true) (hf : ∀ a < m, a ∈ fp.freq)
    (hlist : ∀ s ∈ list, s < m) : (countBlock m list w).Obeys fp w := .of_bounded fun hw =>
  (zeroFreqs_obeys hf).bind fun _ v _ _ hk =>
    Res.Obeys.bind (f := fun _ v => countSymbols list v)
      (setLimit_obeys hl (by rw [ofNat_limit_toNat hw.legal hm.2, hk.params]; exact hm)) fun _ _ _ _ _ =>
        countSymbols_obeys _ fun s hs => hf s (hlist s hs)

theorem countBlock_limit {w v : Work} {m : Nat} {list : List Nat} {u : Unit} (hw : w.Bounded)
    (hm : 2 ≤ m ∧ m ≤ w.st.params.symLimitMax) (h : countBlock m list w = .ok u v) : v.st.regs.limit.toNat = m := by
  obtain ⟨_, w₁, h₁, h⟩ := Res.bind_eq_ok.1 h
  obtain ⟨hw₁, hk₁⟩ := (zeroFreqs_obeys (fp := { freq := Set.univ }) fun _ _ => Set.mem_univ _).of_ok hw h₁
  have hlim := ofNat_limit_toNat hw.legal hm.2
  have hw₂ := ((setLimit_obeys (fp := { limit := true }) (w := w₁) (n := BitVec.ofNat 32 m) rfl
    (by rw [hlim, hk₁.params]; exact hm)).of_ok hw₁ rfl).1
  have hk := ((countSymbols_obeys (fp := { freq := Set.univ }) list fun _ _ => Set.mem_univ _).of_ok hw₂ h).2
  rw [hk.limit rfl, Work.setRegs_st_regs]
  exact hlim

theorem encodeBlock_obeys {list : List Nat} {fp : Footprint} {w : Work}
    (hm : 2 ≤ maxLen list + 1 ∧ maxLen list + 1 ≤ w.st.params.symLimitMax) (hb : fp.buf.Stores) (hl : fp.limit = true)
    (hc : fp.code = true) (hf : ∀ a < maxLen list + 1, a ∈ fp.freq) (hlen : ∀ a < maxLen list + 1, a ∈ fp.len) :
    (encodeBlock list w).Obeys fp w :=
  (countBlock_obeys hm hl hf fun _ hs => Nat.lt_succ_of_le (le_maxLen hs)).bind fun _ _ _ _ _ =>
    (buildAndLoad_obeys hc hlen).bind fun _ _ _ _ _ => writeBlock_obeys hb _

/-- HUF_BENC loads a code, and has no part in a table read. -/
theorem encodeBlock_loads {list : List Nat} {w v : Work} {u : Unit} (hw : w.Bounded)
    (hm : 2 ≤ maxLen list + 1 ∧ maxLen list + 1 ≤ w.st.params.symLimitMax) (h : encodeBlock list w = .ok u v) :
    v.st.tread = w.st.tread ∧ v.st.CodeOk := by
  obtain ⟨_, w₁, h₁, h⟩ := Res.bind_eq_ok.1 h
  obtain ⟨_, w₂, h₂, h⟩ := Res.bind_eq_ok.1 h
  obtain ⟨hw₁, hk₁⟩ := (countBlock_obeys (fp := { freq := Set.univ, limit := true }) hm rfl
    (fun _ _ => Set.mem_univ _) fun _ hs => Nat.lt_succ_of_le (le_maxLen hs)).of_ok hw h₁
  have hw₂ := ((buildAndLoad_obeys (fp := { len := Set.univ, code := true }) rfl
    fun _ _ => Set.mem_univ _).of_ok hw₁ h₂).1
  have hk := ((writeBlock_obeys (fp := { buf := .append }) (.inl rfl) _).of_ok hw₂ h).2
  have hcode := buildAndLoad_codeOk hw₁ (countBlock_limit hw hm h₁) hm.1 h₂
  exact ⟨(hk.table rfl).trans ((buildAndLoad_tread hw₁ h₂).trans (hk₁.table rfl)), hk.codeOk ⟨rfl, rfl, rfl⟩ hcode⟩

theorem execHufBenc_ends (hs : s.Sane) (h : execHufBenc s = .next t) : Ends .hufBenc s t := by
  rw [execHufBenc_eq] at h
  refine ends_of_loads hs h ?_ fun w hw => ?_
  · split
    · exact .raise _ _
    · split
      · exact .raise _ _
      · refine (readSyms_obeys _).bind fun syms v hv _ _ => ?_
        obtain ⟨-, rfl, rfl⟩ := readSyms_eq_ok.1 hv
        split
        · exact .raise _ _
        · rename_i hb
          exact encodeBlock_obeys (fp := footprint s .hufBenc) (badLimit_eq_false.1 (eq_false_of_ne_true hb))
            (.inl rfl) rfl rfl (fun _ ha => ha) fun _ ha => ha
  · split at hw
    · cases hw
    · split at hw
      · cases hw
      · obtain ⟨syms, v, hv, hw⟩ := Res.bind_eq_ok.1 hw
        obtain ⟨-, rfl, rfl⟩ := readSyms_eq_ok.1 hv
        split at hw
        · cases hw
        · rename_i hb
          obtain ⟨htread, hcode⟩ := encodeBlock_loads hs.bounded (badLimit_eq_false.1 (eq_false_of_ne_true hb)) hw
          exact ⟨htread.trans hs.idle, fun _ => hcode⟩

theorem execHufBdec_ends (hs : s.Sane) {n : Imm} (h : execHufBdec n s = .next t) : Ends (.hufBdec n) s t := by
  have htable : (tableRead s.regs s.start).Obeys (footprint s (.hufBdec n)) s.start :=
    tableRead_obeys (fp := footprint s (.hufBdec n)) (w := s.start) rfl rfl rfl rfl (fun _ ha => ha) _
  refine ends_of_loads hs h ?_ fun w hw => ?_
  · split
    · exact .raise _ _
    · exact htable.bind fun _ _ _ _ _ => decodeBlock_obeys rfl rfl _ fun _ ha => ha
  · split at hw
    · cases hw
    · obtain ⟨_, v, hv, hw⟩ := Res.bind_eq_ok.1 hw
      have hblock := decodeBlock_obeys (fp := { sym := Set.univ, reader := true, symCnt := true }) (w := v) rfl rfl n
        fun _ _ => Set.mem_univ _
      have hk := (hblock.of_ok (htable.of_ok hs.bounded hv).1 hw).2
      exact ⟨(hk.table rfl).trans (tableRead_tread hv),
        fun _ => hk.codeOk ⟨rfl, rfl, rfl⟩ (tableRead_codeOk hs.bounded hv)⟩

/-! ## Trie commands -/

theorem execTrieEnc_ends (hs : s.Sane) (h : execTrieEnc s = .next t) : Ends .trieEnc s t := by
  refine ends_of_obeys hs h ⟨rfl, rfl, rfl⟩ rfl ?_
  dsimp only
  split
  · exact .raise _ _
  · split
    · exact .raise _ _
    · split
      · exact .raise _ _
      · exact (writeSyms_obeys fun _ _ => Set.mem_univ _).bind fun _ v _ _ _ => setSymCnt_obeys rfl _

theorem execTrieDrun_ends (hs : s.Sane) (h : execTrieDrun s = .next t) : Ends .trieDrun s t := by
  refine ends_of_obeys hs h ⟨rfl, rfl, rfl⟩ rfl ?_
  split
  · exact .raise _ _
  · exact (decoderInit_obeys (.inr rfl)).bind (f := fun _ w => (readSyms _ w).bind _) fun _ _ _ _ _ =>
      (readSyms_obeys _).bind fun codes _ _ _ _ => (decoderSteps_obeys (.inr rfl) codes).bind fun _ _ _ _ _ =>
        decoderEnd_obeys (.inr rfl)

/-- CHAR keeps what lies outside its footprint for every byte; only a character code keeps the bounds. -/
theorem execChar_ends (hs : s.Sane) {c : Byte} (h : execChar c s = .next t) : Ends (.char c) s t := by
  by_cases hc : IsChar c
  · exact ends_of_obeys hs h ⟨rfl, rfl, rfl⟩ rfl (push_obeys (fun h => by cases h) hc)
  · have hwf : Instr.wf (.char c) = false := by simpa [Instr.wf, IsChar] using hc
    have hk : Kept (footprint s (.char c)) s.start
        (s.start.setDec fun d => { d with stk := d.stk ++ [c], emitted := false }) :=
      { Kept.refl _ s.start with decoder := fun h => by cases h }
    rcases runCommand_next h with ⟨w, hw, rfl⟩ | ⟨code, info, w, hw, rfl⟩
    · unfold push at hw
      split at hw
      · cases hw
      · cases hw
        exact ⟨_, hk, by simp [hwf], .inl ⟨rfl, hs.idle, hk.codeOk ⟨rfl, rfl, rfl⟩⟩⟩
    · unfold push at hw
      split at hw
      · cases hw
        exact ⟨_, .refl _ _, by simp [hwf], .inr ⟨_, _, rfl⟩⟩
      · cases hw

/-! ## Every instruction -/

theorem execNop_ends (hs : s.Sane) (h : execNop s = .next t) : Ends .nop s t :=
  ends_of_obeys hs h ⟨rfl, rfl, rfl⟩ rfl (.pure _)

/-- An entry that no table read waits for changes nothing. -/
theorem entry_ends (hs : s.Sane) {i : Instr} {body : Work → Res Unit} (hi : footprint s i = {})
    (hb : body s.start = .ok () s.start) (h : runInTableRead i.opcode body s = .next t) : Ends i s t := by
  rw [runInTableRead_idle hs.idle] at h
  exact ends_of_obeys hs h (by rw [hi]; exact ⟨rfl, rfl, rfl⟩) (by rw [hi]) (hb ▸ .pure _)

theorem exec_ends (hs : s.Sane) {i : Instr} (hi : i ≠ .sreset) (h : exec i s = .next t) : Ends i s t := by
  cases i with
  | nop => exact execNop_ends hs h
  | sreset => exact absurd rfl hi
  | bsWinit a => exact execBsWinit_ends hs h
  | bsPut n => exact execBsPut_ends hs h
  | bsWalign => exact execBsWalign_ends hs h
  | bsRinit a => exact execBsRinit_ends hs h
  | bsGet n => exact execBsGet_ends hs h
  | bsRalign => exact execBsRalign_ends hs h
  | ftInit limit => exact execFtInit_ends hs h
  | ftInc sym => exact execFtInc_ends hs h
  | ftSet sym => exact execFtSet_ends hs h
  | ftGet sym => exact execFtGet_ends hs h
  | hufBuild => exact execHufBuild_ends hs h
  | hufCanon limit => exact execHufCanon_ends hs h
  | hufTwrite => exact execHufTwrite_ends hs h
  | hufTread => exact execHufTread_ends hs h
  | hufEnc sym => exact execHufEnc_ends hs h
  | hufDec => exact execHufDec_ends hs h
  | hufBenc => exact execHufBenc_ends hs h
  | hufBdec n => exact execHufBdec_ends hs h
  | trieEnc => exact execTrieEnc_ends hs h
  | trieDinit =>
    exact ends_of_obeys (body := fun w => .ok () (decoderInit w)) hs h ⟨rfl, rfl, rfl⟩ rfl (decoderInit_obeys (.inl rfl))
  | trieDstep c => exact ends_of_obeys (body := decoderStep c) hs h ⟨rfl, rfl, rfl⟩ rfl (decoderStep_obeys (.inl rfl) c)
  | trieDend => exact ends_of_obeys (body := decoderEnd) hs h ⟨rfl, rfl, rfl⟩ rfl (decoderEnd_obeys (.inl rfl))
  | trieDrun => exact execTrieDrun_ends hs h
  | sufdef => exact ends_of_obeys (body := sufDef) hs h ⟨rfl, rfl, rfl⟩ rfl (sufDef_obeys fun h => by cases h)
  | mask m => exact ends_of_obeys (body := maskClose m.toNat) hs h ⟨rfl, rfl, rfl⟩ rfl (maskClose_obeys (.inl rfl) _)
  | bksp n => exact ends_of_obeys (body := backspace n.toNat) hs h ⟨rfl, rfl, rfl⟩ rfl (backspace_obeys (.inl rfl) _)
  | word => exact ends_of_obeys (body := emitStack) hs h ⟨rfl, rfl, rfl⟩ rfl (emitStack_obeys (.inl rfl))
  | char c => exact execChar_ends hs h
  | invalidCode c => exact ends_of_obeys (body := invalidCode c) hs h ⟨rfl, rfl, rfl⟩ rfl (.raise _ _)
  | tableLiteral bpl len => exact entry_ends hs rfl (by simp [literalEntry, hs.idle]) h
  | tableRun r => exact entry_ends hs rfl (by simp [runEntry, hs.idle]) h

end Sys2Proof.Machine
end

section
/-! What `Ends` says of registers and memories, and the rules for them over all instructions. -/

namespace Sys2Proof.Machine

variable {i : Instr} {s t : State}

namespace Ends

/-! ## Registers -/

theorem hostSide (h : Ends i s t) : t.hostSide = s.hostSide := by
  obtain ⟨w, hk, -, ⟨rfl, -⟩ | ⟨c, info, rfl⟩⟩ := h
  · exact hk.hostSide
  · exact hk.hostSide

theorem operands (h : Ends i s t) : t.operands = s.operands := by
  obtain ⟨w, hk, -, ⟨rfl, -⟩ | ⟨c, info, rfl⟩⟩ := h
  · exact hk.operands
  · have hk := hk.operands
    simp only [State.operands, Prod.mk.injEq] at hk ⊢
    obtain ⟨hwin, hsuf, -⟩ := hk
    simp [hwin, hsuf, faultEntry_regs]

theorem result (h : Ends i s t) (hf : (footprint s i).result = false) : t.regs.result = s.regs.result := by
  obtain ⟨w, hk, -, ⟨rfl, -⟩ | ⟨c, info, rfl⟩⟩ := h
  · exact hk.result hf
  · simp [faultEntry_regs]

theorem limit (h : Ends i s t) (hf : (footprint s i).limit = false) : t.regs.limit = s.regs.limit := by
  obtain ⟨w, hk, -, ⟨rfl, -⟩ | ⟨c, info, rfl⟩⟩ := h
  · exact hk.limit hf
  · simp [faultEntry_regs]

theorem symCnt (h : Ends i s t) (hf : (footprint s i).symCnt = false) : t.regs.symCnt = s.regs.symCnt := by
  obtain ⟨w, hk, -, ⟨rfl, -⟩ | ⟨c, info, rfl⟩⟩ := h
  · exact hk.symCnt hf
  · simp [faultEntry_regs]

theorem code (h : Ends i s t) (hf : (footprint s i).code = false) :
    t.regs.status.codeValid = s.regs.status.codeValid ∧ t.regs.maxlen = s.regs.maxlen := by
  obtain ⟨w, hk, -, ⟨rfl, -⟩ | ⟨c, info, rfl⟩⟩ := h
  · obtain ⟨hv, hm, -⟩ := hk.code hf
    exact ⟨hv, hm⟩
  · obtain ⟨-, -, hl⟩ := hk.code hf
    simp [faultEntry_regs, hl]

theorem decoder (h : Ends i s t) (hf : (footprint s i).wout = .untouched) : t.decoder = s.decoder := by
  obtain ⟨w, hk, -, ⟨rfl, -⟩ | ⟨c, info, rfl⟩⟩ := h
  · exact hk.decoder hf
  · simp [State.decoder, faultEntry_regs]

/-! ## Memories -/

theorem freq (h : Ends i s t) {a : Nat} (ha : a ∉ (footprint s i).freq) : t.freq.read a = s.freq.read a := by
  obtain ⟨w, hk, -, ⟨rfl, -⟩ | ⟨c, info, rfl⟩⟩ := h <;> exact hk.freq a ha

theorem len (h : Ends i s t) {a : Nat} (ha : a ∉ (footprint s i).len) : t.len.read a = s.len.read a := by
  obtain ⟨w, hk, -, ⟨rfl, -⟩ | ⟨c, info, rfl⟩⟩ := h <;> exact hk.len a ha

theorem sym (h : Ends i s t) {a : Nat} (ha : a ∉ (footprint s i).sym) : t.sym.read a = s.sym.read a := by
  obtain ⟨w, hk, -, ⟨rfl, -⟩ | ⟨c, info, rfl⟩⟩ := h <;> exact hk.sym a ha

theorem buf_kept (h : Ends i s t) (hf : (footprint s i).buf = .untouched ∨ (footprint s i).buf = .cursor) (a : Nat) :
    t.buf.read a = s.buf.read a := by
  obtain ⟨w, hk, -, ht⟩ := h
  have hb : w.st.buf.read a = s.buf.read a := by
    have := hk.buf
    rcases hf with hf | hf <;> rw [hf] at this
    · exact this.2 a
    · exact this a
  obtain ⟨rfl, -⟩ | ⟨c, info, rfl⟩ := ht <;> exact hb

theorem buf_append (h : Ends i s t) (hf : (footprint s i).buf = .append) {a : Nat}
    (ha : a < s.regs.wpos.toNat ∨ (t.regs.status.fault = false ∧ t.regs.wpos.toNat ≤ a)) :
    t.buf.read a = s.buf.read a := by
  obtain ⟨w, hk, -, ht⟩ := h
  have hb := hk.buf
  rw [hf] at hb
  obtain ⟨rfl, -⟩ | ⟨c, info, rfl⟩ := ht
  · exact hb.2 a (ha.imp id And.right)
  · exact hb.2 a (.inl (ha.resolve_right (by simp)))

theorem wout_kept (h : Ends i s t) (hf : (footprint s i).wout = .untouched ∨ (footprint s i).wout = .cursor) (a : Nat) :
    t.wout.read a = s.wout.read a := by
  obtain ⟨w, hk, -, ht⟩ := h
  have hb : w.st.wout.read a = s.wout.read a := by
    have := hk.wout
    rcases hf with hf | hf <;> rw [hf] at this
    · exact this.2 a
    · exact this a
  obtain ⟨rfl, -⟩ | ⟨c, info, rfl⟩ := ht <;> exact hb

theorem wout_append (h : Ends i s t) (hf : (footprint s i).wout = .append) {a : Nat}
    (ha : a < s.regs.woutPtr.toNat ∨ (t.regs.status.fault = false ∧ t.regs.woutPtr.toNat ≤ a)) :
    t.wout.read a = s.wout.read a := by
  obtain ⟨w, hk, -, ht⟩ := h
  have hb := hk.wout
  rw [hf] at hb
  obtain ⟨rfl, -⟩ | ⟨c, info, rfl⟩ := ht
  · exact hb.2 a (ha.imp id And.right)
  · exact hb.2 a (.inl (ha.resolve_right (by simp)))

end Ends

/-- TRIE_ENC writes SYM only where it succeeds, and then below the new SYM_CNT. -/
theorem execTrieEnc_sym (hs : s.Sane) (h : execTrieEnc s = .next t) {a : Nat}
    (ha : t.regs.symCnt.toNat ≤ a ∨ t.regs.status.fault = true) (hf : s.regs.status.fault = false) :
    t.sym.read a = s.sym.read a := by
  rcases runCommand_next h with ⟨w, hw, rfl⟩ | ⟨c, info, w, hw, rfl⟩
  · dsimp only at hw
    split at hw
    · cases hw
    · split at hw
      · cases hw
      · rename_i out _
        split at hw
        · cases hw
        · rename_i hsize
          have hle : out.length ≤ s.params.symSize := Nat.le_of_not_lt hsize
          have hmax := hs.params.symSize_le
          have hout : (BitVec.ofNat 32 out.length).toNat = out.length := by
            rw [BitVec.toNat_ofNat, Nat.mod_eq_of_lt (by omega)]
          rw [writeSyms_ok (by simpa using hle)] at hw
          cases hw
          have ha : out.length ≤ a := by simpa [hout, hf] using ha
          exact Mem.read_writeList_outside _ _ 0 a (.inr (by simpa using ha))
  · dsimp only at hw
    split at hw
    · cases hw
      rfl
    · split at hw
      · cases hw
        rfl
      · split at hw
        · cases hw
          rfl
        · rename_i hsize
          rw [writeSyms_ok (by simpa using Nat.le_of_not_lt hsize)] at hw
          cases hw

/-- TRIE_DRUN writes WOUT from 0 on and, where it succeeds, below the new WOUT_PTR (log entry 12). -/
theorem execTrieDrun_wout (hs : s.Sane) (h : execTrieDrun s = .next t) {a : Nat}
    (hf : t.regs.status.fault = false) (ha : t.regs.woutPtr.toNat ≤ a) : t.wout.read a = s.wout.read a := by
  rcases runCommand_next h with ⟨w, hw, rfl⟩ | ⟨c, info, w, -, rfl⟩
  · split at hw
    · cases hw
    · have hinit := (decoderInit_obeys (fp := { wout := .cursor }) (.inl rfl)).of_ok hs.bounded rfl
      have htail : ((readSyms s.regs.symCnt.toNat (decoderInit s.start)).bind fun codes w =>
          (decoderSteps codes w).bind fun _ w => decoderEnd w).Obeys { wout := .append } (decoderInit s.start) :=
        (readSyms_obeys _).bind fun codes _ _ _ _ => (decoderSteps_obeys (.inl rfl) codes).bind fun _ _ _ _ _ =>
          decoderEnd_obeys (.inl rfl)
      have hout := (htail.of_ok hinit.1 hw).2.wout
      exact hout.2 a (.inr ha)
  · cases hf

/-! ## The frames over all instructions -/

/-- Settles O20: the footprint of each instruction names the registers it may write, and fault entry restores them. -/
theorem registerWriters : Obligations.RegisterWriters := by
  unfold Obligations.RegisterWriters
  intro i s t hs hi h
  have he := exec_ends hs hi h
  have hops := he.operands
  have hhost := he.hostSide
  simp only [State.operands, State.hostSide, Prod.mk.injEq] at hops hhost
  obtain ⟨-, -, harg, hwin, hsuf⟩ := hops
  refine ⟨harg, hwin, hsuf, ?_, ?_, ?_, ?_, ?_, hhost⟩
  · cases i
    case bsGet | ftGet | hufDec => trivial
    all_goals exact he.result rfl
  · cases i
    case ftInit | hufCanon | hufTread | hufBenc | hufBdec => trivial
    all_goals exact he.limit rfl
  · cases i
    case ftInit | hufBuild | hufCanon | hufTread | hufBenc | hufBdec => trivial
    all_goals exact he.code rfl
  · cases i
    case trieEnc | hufBdec => trivial
    all_goals exact he.symCnt rfl
  · have hdec : (footprint s i).wout = .untouched →
        t.dec = s.dec ∧ t.regs.woutCnt = s.regs.woutCnt ∧ t.regs.woutPtr = s.regs.woutPtr := fun hf => by
      simpa only [State.decoder, Prod.mk.injEq] using he.decoder hf
    cases i
    case trieDinit | trieDstep | trieDend | trieDrun | sufdef | mask | bksp | word | char => trivial
    all_goals exact hdec rfl

/-- SRESET writes no memory. -/
theorem exec_sreset (h : exec .sreset s = .next t) : t = softReset s := by
  cases h
  rfl

/-- Settles O21: the elements outside an instruction's footprint read as before; SYM after TRIE_ENC is read off the
list that it stores. -/
theorem tableMemoryFrame : Obligations.TableMemoryFrame := by
  unfold Obligations.TableMemoryFrame
  intro i s t hs hf h
  dsimp only
  by_cases hi : i = .sreset
  · subst hi
    rw [exec_sreset h]
    exact ⟨fun _ => rfl, fun _ => rfl, fun _ _ => rfl, fun _ _ => rfl, fun _ _ => rfl⟩
  have he := exec_ends hs hi h
  have hops := he.operands
  simp only [State.operands, Prod.mk.injEq] at hops
  obtain ⟨hwin, hsuf, -⟩ := hops
  refine ⟨fun a => by rw [hwin], fun a => by rw [hsuf], fun a ha => ?_, fun a ha => ?_, fun a ha => ?_⟩
  · refine he.freq ?_
    cases i
    case ftInit | hufBenc => exact Nat.not_lt.2 ha
    case ftInc | ftSet => exact ha
    all_goals exact Set.notMem_empty a
  · refine he.len ?_
    cases i
    case hufBuild | hufTread | hufBdec | hufBenc => exact Nat.not_lt.2 ha
    all_goals exact Set.notMem_empty a
  · cases i
    case trieEnc => exact execTrieEnc_sym hs h ha hf
    case hufBdec => exact he.sym (Nat.not_lt.2 ha)
    all_goals exact he.sym (Set.notMem_empty a)

/-- Settles O22: the instructions whose footprint stores at a cursor change its memory between the old cursor and the
new one only; TRIE_DRUN does so from the cursor's reset value on. -/
theorem streamMemoryFrame : Obligations.StreamMemoryFrame := by
  unfold Obligations.StreamMemoryFrame
  intro i s t hs _ h
  by_cases hi : i = .sreset
  · subst hi
    rw [exec_sreset h]
    exact ⟨fun _ _ => rfl, fun _ _ => rfl⟩
  have he := exec_ends hs hi h
  refine ⟨fun a ha => ?_, fun a ha => ?_⟩
  · cases i
    case bsPut | bsWalign | hufTwrite | hufEnc | hufBenc => exact he.buf_append rfl ha
    case bsWinit => exact he.buf_kept (.inr rfl) a
    all_goals exact he.buf_kept (.inl rfl) a
  · cases i
    case trieDstep | trieDend | mask | bksp | word => exact he.wout_append rfl ha
    case trieDrun => exact execTrieDrun_wout hs h ha.1 ha.2
    case trieDinit | sufdef | char => exact he.wout_kept (.inr rfl) a
    all_goals exact he.wout_kept (.inl rfl) a

end Sys2Proof.Machine
end

section
/-! The register map, as the host writes it and as it reads it (spec/10_state.md section 2). -/

namespace Sys2Proof.Machine

variable {s : State}

/-! ## Writes -/

/-- A register write stores into one of the four registers the host may write, or has no effect. -/
theorem writeReg_eq {offset : Nat} (v : Word) (h : offset % 4 = 0 ∧ offset < 0x100) :
    writeReg s offset v = some { s with
      regs := { s.regs with
        arg := if offset = 0x0C then v else s.regs.arg
        symCnt := if offset = 0x40 then v else s.regs.symCnt
        winCnt := if offset = 0x44 then v else s.regs.winCnt
        sufCnt := if offset = 0x48 then v else s.regs.sufCnt } } := by
  unfold writeReg
  rw [if_pos h]
  split
  · simp
  · simp
  · simp
  · simp
  · rename_i h1 h2 h3 h4
    rw [if_neg h1, if_neg h2, if_neg h3, if_neg h4]

/-- Settles O18: a register's address is no element's, and `writeReg` stores where the map allows it. -/
theorem registerWrites : Obligations.RegisterWrites := by
  unfold Obligations.RegisterWrites
  intro s k v hk h2
  have hw : window (BitVec.ofNat 32 (4 * k)) = .regs (4 * k) := window_reg (by omega)
  have ha : BitVec.ofNat 32 (4 * k) ≠ cmdAddr := fun h => by
    have := congrArg BitVec.toNat h
    rw [BitVec.toNat_ofNat, Nat.mod_eq_of_lt (by omega)] at this
    simp only [cmdAddr, BitVec.toNat_ofNat] at this
    omega
  have hoff : ∀ j, 4 * k = 4 * j ↔ k = j := fun j => by omega
  simp only [hostAccess, ha, if_false, write32, hw, writeReg_eq v (show 4 * k % 4 = 0 ∧ 4 * k < 0x100 by omega),
    answerWrite, countAccess, show (0x0C : Nat) = 4 * 3 from rfl, show (0x40 : Nat) = 4 * 16 from rfl,
    show (0x44 : Nat) = 4 * 17 from rfl, show (0x48 : Nat) = 4 * 18 from rfl, hoff]

/-! ## Reads -/

/-- A word put together from fields is their sum at their positions. -/
theorem toNat_append_eq {m n : Nat} (x : BitVec m) (y : BitVec n) : (x ++ y).toNat = x.toNat * 2 ^ n + y.toNat := by
  rw [BitVec.toNat_append, ← Nat.shiftLeft_add_eq_or_of_lt y.isLt, Nat.shiftLeft_eq]

theorem statusWord_eq (busy : Bool) (st : Status) :
    statusWord busy st = BitVec.ofNat 32 (busy.toNat + 2 * st.fault.toNat + 4 * st.codeValid.toNat +
      256 * st.faultCode.toNat + 65536 * st.faultOp.toNat) := by
  apply BitVec.eq_of_toNat_eq
  have h1 := busy.toNat_le
  have h2 := st.fault.toNat_le
  have h3 := st.codeValid.toNat_le
  have h4 := st.faultCode.isLt
  have h5 := st.faultOp.isLt
  simp only [statusWord, toNat_append_eq, BitVec.toNat_ofBool, BitVec.toNat_ofNat]
  omega

theorem streamWord_eq (nb : BitVec 4) (acc : Byte) :
    streamWord nb acc = BitVec.ofNat 32 (nb.toNat + 256 * acc.toNat) := by
  apply BitVec.eq_of_toNat_eq
  have h1 := nb.isLt
  have h2 := acc.isLt
  simp only [streamWord, toNat_append_eq, BitVec.toNat_ofNat]
  omega

theorem trieStateWord_eq {d : Decoder} (hs : d.stk.length ≤ 255) (hb : d.bank.length ≤ 7) :
    trieStateWord d = BitVec.ofNat 32 (d.stk.length + 256 * d.bank.length + 65536 * d.emitted.toNat) := by
  apply BitVec.eq_of_toNat_eq
  have h1 := d.emitted.toNat_le
  simp only [trieStateWord, toNat_append_eq, BitVec.toNat_ofBool, BitVec.toNat_ofNat]
  omega

/-- A host read of a register that holds v answers v. -/
theorem read32_reg {offset : Nat} {v : Word} (ho : offset < 0x100) (h : readReg s offset = some v) :
    hostAccess (.read32 (BitVec.ofNat 32 offset)) s = .next { s with resp := .data v } := by
  rw [hostAccess_read32_reg ho, h]
  rfl

/-- Past TRIE_STATE and the CAP registers every offset is reserved. -/
theorem readReg_reserved {k : Nat} (h1 : 0x1F ≤ k) (h2 : k < 0x40) : readReg s (4 * k) = some 0 := by
  unfold readReg
  rw [if_pos (by omega)]
  split
  case h_29 => rfl
  all_goals omega

/-- Settles O10: each offset's row of the map, with the packed registers as sums of their fields. -/
theorem registerMap : Obligations.RegisterMap := by
  unfold Obligations.RegisterMap
  intro s
  dsimp only
  refine ⟨?_, ?_, ?_, ?_, ?_, ?_, ?_, ?_, ?_, ?_, ?_, ?_, ?_, ?_, ?_, ?_, ?_, ?_, ?_, ?_, fun hs hb => ?_, ?_, ?_, ?_,
    ?_, ?_, ?_, ?_, ?_, ?_, ?_, fun k h1 h2 => read32_reg (by omega) (readReg_reserved h1 h2)⟩
  case refine_2 => exact read32_reg (by decide) (congrArg some (statusWord_eq _ _))
  case refine_10 => exact read32_reg (by decide) (congrArg some (streamWord_eq _ _))
  case refine_14 => exact read32_reg (by decide) (congrArg some (streamWord_eq _ _))
  case refine_21 => exact read32_reg (by decide) (congrArg some (trieStateWord_eq hs hb))
  all_goals exact read32_reg (by decide) rfl

end Sys2Proof.Machine
end

section
/-! The invariants of the machine between commands: every instruction, every host access and so every step keeps
`State.Sane` and `State.Inv`. -/

namespace Sys2Proof.Machine

variable {i : Instr} {s t : State} {w : Work}

/-! ## Instructions -/

/-- Fault entry restores the registers and the decoder state, and the memories keep their canonical form. -/
theorem faultEntry_sane (hs : s.Sane) (hw : w.Bounded) (hp : w.st.params = s.params) (op : Byte) (c : FaultCode)
    (info : Word) : (faultEntry op s.regs s.dec w c info).Sane := by
  have hr := faultEntry_regs op s.regs s.dec w c info
  exact { hw.sane with
    limit := by rw [hr, faultEntry_params, hp]; exact hs.limit
    maxlen := by
      rw [hr]
      intro hv
      by_cases hl : w.wroteLen
      · simp [hl]
      · simp only [hl] at hv ⊢
        exact hs.maxlen (by simpa using hv)
    noFault := by simp
    faultCode := fun _ => by simpa using c.code_bounds
    writer := by rw [hr, faultEntry_params, hp]; exact hs.writer
    reader := by rw [hr, faultEntry_params, hp]; exact hs.reader
    stack := hs.stack
    bank := hs.bank
    output := by rw [hr, faultEntry_params, hp]; exact hs.output
    idle := rfl }

/-- Fault entry drops the code where LEN has been written, and keeps it with LEN otherwise. -/
theorem faultEntry_codeOk {fp : Footprint} (hk : Kept fp s.start w) (h : s.CodeOk) (op : Byte) (c : FaultCode)
    (info : Word) : (faultEntry op s.regs s.dec w c info).CodeOk := by
  have hr := faultEntry_regs op s.regs s.dec w c info
  by_cases hl : w.wroteLen = false
  · obtain ⟨-, hlen⟩ := hk.quiet hl
    refine h.congr hk.params (by rw [hr]) ?_ (by rw [hr]; simp [hl]) (by rw [hr]; simp [hl])
    rw [State.loadedLens, hr]
    exact State.lens_congr fun a => by rw [faultEntry_len, hlen]
  · exact State.codeOk_of_invalid (by rw [hr]; simp [hl])

theorem softReset_sane (hs : s.Sane) : (softReset s).Sane :=
  { hs with
    limit := .inl rfl
    maxlen := fun _ => rfl
    noFault := fun _ => ⟨rfl, rfl, rfl⟩
    faultCode := fun h => by cases h
    writer := ⟨Nat.zero_le _, Nat.zero_lt_one, Nat.zero_le _, Nat.zero_le _⟩
    reader := ⟨Nat.zero_le _, Nat.zero_le _, Nat.zero_le _, Nat.zero_le _⟩
    stack := ⟨Nat.zero_le _, by simp [Decoder.reset]⟩
    bank := ⟨Nat.zero_le _, by simp [Decoder.reset]⟩
    output := ⟨Nat.zero_le _, Nat.zero_le _⟩
    idle := rfl }

theorem exec_sane (hs : s.Sane) (hi : i.wf = true) (h : exec i s = .next t) : t.Sane := by
  by_cases hr : i = .sreset
  · subst hr
    rw [exec_sreset h]
    exact softReset_sane hs
  · obtain ⟨w, hk, hw, ⟨rfl, hidle, -⟩ | ⟨c, info, rfl⟩⟩ := exec_ends hs hr h
    · exact (hw hi).sane_of_idle hidle
    · exact faultEntry_sane hs (hw hi) hk.params _ c info

theorem exec_codeOk (hs : s.Inv) (h : exec i s = .next t) : t.CodeOk := by
  by_cases hr : i = .sreset
  · subst hr
    rw [exec_sreset h]
    exact State.codeOk_of_invalid rfl
  · obtain ⟨w, hk, -, ⟨-, -, hc⟩ | ⟨c, info, rfl⟩⟩ := exec_ends hs.sane hr h
    · exact hc hs.code
    · exact faultEntry_codeOk hk hs.code _ c info

/-! ## Host accesses -/

/-- A move of the machine that keeps both parts of the invariant. -/
structure Preserves (s t : State) : Prop where
  sane : s.Sane → t.Sane
  code : s.Inv → t.CodeOk

theorem Preserves.refl (s : State) : Preserves s s := ⟨id, State.Inv.code⟩

theorem Preserves.trans {u : State} (h : Preserves s t) (h' : Preserves t u) : Preserves s u :=
  ⟨fun hs => h'.sane (h.sane hs), fun hs => h'.code ⟨h.sane hs.sane, h.code hs⟩⟩

/-- What decodes is well formed. -/
theorem decodeCommand_wf {x : Word} (h : decodeCommand x = .ok i) : i.wf = true := by
  unfold decodeCommand at h
  dsimp only at h
  split at h <;> cases h <;> rfl

theorem issueCommand_preserves {x : Word} (h : issueCommand x s = .next t) : Preserves s t := by
  unfold issueCommand at h
  split at h
  · split at h
    · exact ⟨fun hs => exec_sane hs rfl h, fun hs => exec_codeOk hs h⟩
    · cases h
      exact .refl _
  · split at h
    · rename_i j hj
      exact ⟨fun hs => exec_sane hs (decodeCommand_wf hj) h, fun hs => exec_codeOk hs h⟩
    · cases h
      exact ⟨fun hs => faultEntry_sane hs hs.bounded rfl _ _ _, fun hs => faultEntry_codeOk (.refl {} _) hs.code _ _ _⟩

theorem element_lt {p : Params} {sp : Space} {n offset j : Nat} (h : element p sp n offset = some j) :
    j < size p sp := by
  unfold element at h
  split at h
  · rename_i hlt
    cases h
    exact hlt.2
  · cases h

theorem write8_preserves {a : Word} {v : Byte} (h : write8 s a v = some t) : Preserves s t := by
  unfold write8 at h
  split at h
  case h_1 =>
    obtain ⟨j, hj, rfl⟩ := Option.map_eq_some_iff.1 h
    exact ⟨fun hs => { hs with len := Mem.wf_write j v (element_lt hj) hs.len, maxlen := fun _ => rfl },
      fun _ => State.codeOk_of_invalid rfl⟩
  case h_2 =>
    obtain ⟨j, hj, rfl⟩ := Option.map_eq_some_iff.1 h
    exact ⟨fun hs => { hs with buf := Mem.wf_write j v (element_lt hj) hs.buf }, fun hs => { hs.code with }⟩
  case h_3 =>
    obtain ⟨j, hj, rfl⟩ := Option.map_eq_some_iff.1 h
    exact ⟨fun hs => { hs with win := Mem.wf_write j v (element_lt hj) hs.win }, fun hs => { hs.code with }⟩
  case h_4 =>
    obtain ⟨j, hj, rfl⟩ := Option.map_eq_some_iff.1 h
    exact ⟨fun hs => { hs with suf := Mem.wf_write j v (element_lt hj) hs.suf }, fun hs => { hs.code with }⟩
  case h_5 =>
    obtain ⟨j, hj, rfl⟩ := Option.map_eq_some_iff.1 h
    exact ⟨fun hs => { hs with wout := Mem.wf_write j v (element_lt hj) hs.wout }, fun hs => { hs.code with }⟩
  case h_6 =>
    obtain ⟨j, -, rfl⟩ := Option.map_eq_some_iff.1 h
    exact .refl _
  all_goals cases h

theorem write16_preserves {a : Word} {v : Half} (h : write16 s a v = some t) : Preserves s t := by
  unfold write16 at h
  split at h
  · obtain ⟨j, hj, rfl⟩ := Option.map_eq_some_iff.1 h
    exact ⟨fun hs => { hs with sym := Mem.wf_write j v (element_lt hj) hs.sym }, fun hs => { hs.code with }⟩
  · cases h

theorem writeReg_preserves {offset : Nat} {v : Word} (h : writeReg s offset v = some t) : Preserves s t := by
  by_cases ho : offset % 4 = 0 ∧ offset < 0x100
  · rw [writeReg_eq v ho] at h
    cases h
    exact ⟨fun hs => { hs with }, fun hs => { hs.code with }⟩
  · unfold writeReg at h
    rw [if_neg ho] at h
    cases h

theorem write32_preserves {a v : Word} (h : write32 s a v = some t) : Preserves s t := by
  unfold write32 at h
  split at h
  · exact writeReg_preserves h
  · obtain ⟨j, hj, rfl⟩ := Option.map_eq_some_iff.1 h
    exact ⟨fun hs => { hs with freq := Mem.wf_write j v (element_lt hj) hs.freq }, fun hs => { hs.code with }⟩
  · cases h

/-- The host's side of the state has no part in the invariant. -/
theorem preserves_hostSide (s : State) (inbox : List HostOp) (resp : PortResp) (free : Nat) :
    Preserves s { s with inbox := inbox, resp := resp, free := free } :=
  ⟨fun hs => { hs with }, fun hs => { hs.code with }⟩

theorem answerRead_preserves (s : State) (v : Option Word) : Preserves s (answerRead s v) := by
  cases v with
  | some v => exact preserves_hostSide s s.inbox (.data v) s.free
  | none => exact preserves_hostSide s s.inbox .error s.free

theorem answerWrite_preserves {o : Option State} (h : ∀ t, o = some t → Preserves (countAccess s) t) :
    Preserves s (answerWrite (countAccess s) o) := by
  have hc : Preserves s (countAccess s) := preserves_hostSide s s.inbox s.resp (s.free + 1)
  cases o with
  | some t => exact hc.trans ((h t rfl).trans (preserves_hostSide t t.inbox .done t.free))
  | none => exact preserves_hostSide s s.inbox .error (s.free + 1)

theorem hostAccess_preserves {op : HostOp} (h : hostAccess op s = .next t) : Preserves s t := by
  cases op with
  | read8 a => cases h; exact answerRead_preserves s _
  | read16 a => cases h; exact answerRead_preserves s _
  | read32 a => cases h; exact answerRead_preserves s _
  | write8 a v => cases h; exact answerWrite_preserves fun _ => write8_preserves
  | write16 a v => cases h; exact answerWrite_preserves fun _ => write16_preserves
  | write32 a v =>
    simp only [hostAccess] at h
    split at h
    · exact (preserves_hostSide s s.inbox .done (s.free + 1)).trans (issueCommand_preserves h)
    · cases h
      exact answerWrite_preserves fun _ => write32_preserves

/-! ## Steps -/

theorem step_preserves (hs : s.tread = none) (h : step s = .next t) : Preserves s t := by
  unfold step at h
  split at h
  · simp_all
  · split at h
    · cases h
      exact .refl _
    · rename_i op rest _
      have hp : Preserves s { s with inbox := rest } := preserves_hostSide s rest s.resp s.free
      exact hp.trans (hostAccess_preserves h)

/-- Settles O13: a step is a host access or a command, and each keeps the bounds. -/
theorem stepKeepsSane : Obligations.StepKeepsSane := by
  unfold Obligations.StepKeepsSane
  exact fun s t hs h => (step_preserves hs.idle h).sane hs

/-- Settles O14: a command that writes LEN either loads the code it has checked, or faults and drops it. -/
theorem stepKeepsInv : Obligations.StepKeepsInv := by
  unfold Obligations.StepKeepsInv
  intro s t hs h
  have hp := step_preserves hs.sane.idle h
  exact ⟨hp.sane hs.sane, hp.code hs⟩

end Sys2Proof.Machine
end

section
/-! Host accesses to memory elements and registers: which addresses reach one (spec/20_memory.md R70 to R73), what a
read of it returns, and what a write of it stores (R79 to R81). -/

namespace Sys2Proof.Machine

variable {s : State} {p : Params} {sp : Space} {a : Word} {n i o v : Nat}

/-! ## Addresses -/

theorem Space.bytes_pos (sp : Space) : 0 < sp.bytes := by cases sp <;> decide

/-- A memory's window is one of the 16 MiB windows, and not that of the registers. -/
theorem Space.base_aligned (sp : Space) : sp.base % 0x1000000 = 0 ∧ 0x1000000 ≤ sp.base ∧ sp.base ≤ 0x08000000 := by
  cases sp <;> decide

/-- Every element lies inside its memory's window. -/
theorem offset_lt (hp : p.Legal) (hi : i < size p sp) : sp.bytes * i < 0x1000000 := by
  obtain ⟨hlimit, -, hbuf, hsym, hwin, hsuf, hwout⟩ := hp
  cases sp <;> simp only [size, Config.stackMax, Space.bytes] at hi ⊢ <;> omega

theorem window_eq_regs : window a = .regs o ↔ a.toNat = o ∧ o < 0x1000000 := by
  constructor
  · intro h
    unfold window at h
    dsimp only at h
    split at h <;> cases h
    omega
  · rintro ⟨rfl, ho⟩
    simp only [window, Nat.div_eq_of_lt ho, Nat.mod_eq_of_lt ho]

theorem window_eq_mem : window a = .mem sp o ↔ a.toNat = sp.base + o ∧ o < 0x1000000 := by
  constructor
  · intro h
    unfold window at h
    dsimp only at h
    split at h <;> cases h <;> simp only [Space.base] <;> omega
  · rintro ⟨ha, ho⟩
    have hb := sp.base_aligned
    have hd : a.toNat / 0x1000000 = sp.base / 0x1000000 := by omega
    have hm : a.toNat % 0x1000000 = o := by omega
    simp only [window, hd, hm]
    cases sp <;> rfl

theorem window_addr (hp : p.Legal) (hi : i < size p sp) : window (sp.addr i) = .mem sp (sp.bytes * i) := by
  have ho := offset_lt hp hi
  have hb := sp.base_aligned
  rw [window_eq_mem, Space.addr, BitVec.toNat_ofNat, Nat.mod_eq_of_lt (by omega)]
  exact ⟨rfl, ho⟩

theorem window_cmdAddr : window cmdAddr = .regs 8 := window_reg (by decide)

theorem addr_ne_cmdAddr (hp : p.Legal) (hi : i < size p sp) : sp.addr i ≠ cmdAddr := by
  intro h
  have hw := window_addr hp hi
  rw [h, window_cmdAddr] at hw
  cases hw

theorem element_addr (hi : i < size p sp) : element p sp sp.bytes (sp.bytes * i) = some i := by
  rw [element, Nat.mul_mod_right, Nat.mul_div_cancel_left i sp.bytes_pos, if_pos ⟨rfl, hi⟩]

theorem element_isSome : (element p sp n o).isSome ↔ o % n = 0 ∧ o / n < size p sp := by
  simp [element]

/-! ## Admission -/

/-- `Admitted`, by the window the address lies in. -/
def Window.Reaches (p : Params) (n : Nat) : Window → Prop
  | .regs o => n = 4 ∧ o % 4 = 0 ∧ o < 0x100
  | .mem sp o => n = sp.bytes ∧ o % sp.bytes = 0 ∧ o / sp.bytes < size p sp
  | .unmapped => False

theorem admitted_iff_reaches (hp : p.Legal) : Admitted p n a ↔ (window a).Reaches p n := by
  constructor
  · rintro (⟨hn, r, hr, ha⟩ | ⟨sp, i, hi, hn, ha⟩)
    · rw [window_eq_regs.2 ⟨ha, by omega⟩]
      exact ⟨hn, by omega, by omega⟩
    · rw [window_eq_mem.2 ⟨ha, offset_lt hp hi⟩, Window.Reaches, Nat.mul_mod_right,
        Nat.mul_div_cancel_left i sp.bytes_pos]
      exact ⟨hn, rfl, hi⟩
  · cases hw : window a with
    | regs o =>
      rintro ⟨hn, ho, hlt⟩
      exact .inl ⟨hn, o / 4, by omega, by rw [(window_eq_regs.1 hw).1]; omega⟩
    | mem sp o =>
      rintro ⟨hn, ho, hlt⟩
      have hmul : sp.bytes * (o / sp.bytes) = o := Nat.mul_div_cancel' (Nat.dvd_of_mod_eq_zero ho)
      exact .inr ⟨sp, o / sp.bytes, hlt, hn, by rw [(window_eq_mem.1 hw).1, hmul]⟩
    | unmapped => exact False.elim

theorem admitted_cmdAddr : Admitted p 4 cmdAddr := .inl ⟨rfl, 2, by decide, by decide⟩

/-! ## Reads -/

theorem hostRead_regs (hw : window a = .regs o) : hostRead s n a = if n = 4 then readReg s o else none := by
  simp only [hostRead, hw]

theorem hostRead_mem (hw : window a = .mem sp o) :
    hostRead s n a = if n = sp.bytes then (element s.params sp sp.bytes o).map fun i => BitVec.ofNat 32 (s.element sp i)
      else none := by
  cases sp <;> simp only [hostRead, hw, Space.bytes, State.element, BitVec.ofNat_toNat, BitVec.setWidth_eq]

theorem hostRead_unmapped (hw : window a = .unmapped) : hostRead s n a = none := by
  simp only [hostRead, hw]

theorem readReg_isSome : (readReg s o).isSome ↔ o % 4 = 0 ∧ o < 0x100 := by
  unfold readReg
  split
  · rename_i h
    split <;> simp [h]
  · rename_i h
    simp [h]

theorem hostRead_isSome : (hostRead s n a).isSome ↔ (window a).Reaches s.params n := by
  cases hw : window a with
  | regs o =>
    rw [hostRead_regs hw]
    by_cases hn : n = 4 <;> simp [hn, readReg_isSome, Window.Reaches]
  | mem sp o =>
    rw [hostRead_mem hw]
    by_cases hn : n = sp.bytes <;> simp [hn, element_isSome, Window.Reaches]
  | unmapped => simp [hostRead_unmapped hw, Window.Reaches]

/-- The host's last answer is no part of what the host reads. -/
theorem hostRead_resp (x : PortResp) : hostRead { s with resp := x } n a = hostRead s n a := rfl

/-- The three read accesses are one, at three widths. -/
theorem hostAccess_read {op : HostOp}
    (h : (n = 1 ∧ op = .read8 a) ∨ (n = 2 ∧ op = .read16 a) ∨ (n = 4 ∧ op = .read32 a)) (s : State) :
    hostAccess op s = .next (answerRead s (hostRead s n a)) := by
  rcases h with ⟨rfl, rfl⟩ | ⟨rfl, rfl⟩ | ⟨rfl, rfl⟩ <;> rfl

theorem hostAccess_readOp (s : State) (sp : Space) (i : Nat) :
    hostAccess (sp.readOp i) s = .next (answerRead s (hostRead s sp.bytes (sp.addr i))) := by
  cases sp <;> rfl

/-! ## Writes -/

/-- The state after v has been stored in element i of `sp`: a write to LEN drops the loaded code, and one to TSTK is
ignored. -/
def State.store (s : State) (sp : Space) (i v : Nat) : State :=
  { s with
    freq := if sp = .freq then s.freq.write i (BitVec.ofNat 32 v) else s.freq
    len := if sp = .len then s.len.write i (BitVec.ofNat 8 v) else s.len
    sym := if sp = .sym then s.sym.write i (BitVec.ofNat 16 v) else s.sym
    buf := if sp = .buf then s.buf.write i (BitVec.ofNat 8 v) else s.buf
    win := if sp = .win then s.win.write i (BitVec.ofNat 8 v) else s.win
    suf := if sp = .suf then s.suf.write i (BitVec.ofNat 8 v) else s.suf
    wout := if sp = .wout then s.wout.write i (BitVec.ofNat 8 v) else s.wout
    regs := if sp = .len then s.regs.dropCode else s.regs }

/-- A host write of v at width n, other than to CMD: `write8`, `write16` and `write32` in one. -/
def State.hostWrite (s : State) (n : Nat) (a : Word) (v : Nat) : Option State :=
  match window a with
  | .regs o => if n = 4 then writeReg s o (BitVec.ofNat 32 v) else none
  | .mem sp o => if n = sp.bytes then (Machine.element s.params sp sp.bytes o).map fun i => s.store sp i v else none
  | .unmapped => none

theorem write8_eq (x : Byte) : write8 s a x = s.hostWrite 1 a x.toNat := by
  unfold write8 State.hostWrite
  cases window a with
  | mem sp o => cases sp <;> simp [Space.bytes, State.store]
  | _ => rfl

theorem write16_eq (x : Half) : write16 s a x = s.hostWrite 2 a x.toNat := by
  unfold write16 State.hostWrite
  cases window a with
  | mem sp o => cases sp <;> simp [Space.bytes, State.store]
  | _ => rfl

theorem write32_eq (x : Word) : write32 s a x = s.hostWrite 4 a x.toNat := by
  unfold write32 State.hostWrite
  cases window a with
  | mem sp o => cases sp <;> simp [Space.bytes, State.store]
  | regs o => simp
  | unmapped => rfl

theorem writeReg_isSome (x : Word) : (writeReg s o x).isSome ↔ o % 4 = 0 ∧ o < 0x100 := by
  by_cases h : o % 4 = 0 ∧ o < 0x100
  · simp [writeReg_eq x h, h]
  · simp [writeReg, h]

theorem hostWrite_isSome : (s.hostWrite n a v).isSome ↔ (window a).Reaches s.params n := by
  unfold State.hostWrite
  cases window a with
  | regs o =>
    by_cases hn : n = 4 <;> simp [hn, writeReg_isSome, Window.Reaches]
  | mem sp o =>
    by_cases hn : n = sp.bytes <;> simp [hn, element_isSome, Window.Reaches]
  | unmapped => simp [Window.Reaches]

/-- The three write accesses are one, at three widths, but for a write to CMD. -/
theorem hostAccess_write {op : HostOp}
    (h : (n = 1 ∧ ∃ x, op = .write8 a x) ∨ (n = 2 ∧ ∃ x, op = .write16 a x) ∨ (n = 4 ∧ ∃ x, op = .write32 a x))
    (hc : n = 4 → a ≠ cmdAddr) :
    ∃ v, hostAccess op s = .next (answerWrite (countAccess s) ((countAccess s).hostWrite n a v)) := by
  rcases h with ⟨rfl, x, rfl⟩ | ⟨rfl, x, rfl⟩ | ⟨rfl, x, rfl⟩
  · exact ⟨x.toNat, by rw [hostAccess, write8_eq]⟩
  · exact ⟨x.toNat, by rw [hostAccess, write16_eq]⟩
  · exact ⟨x.toNat, by rw [hostAccess, if_neg (hc rfl), write32_eq]⟩

/-- A host write to an element the memory has stores it. -/
theorem hostAccess_writeOp (hp : s.params.Legal) (hi : i < size s.params sp) (hv : v < 2 ^ (8 * sp.bytes)) :
    hostAccess (sp.writeOp i v) s = .next { (countAccess s).store sp i v with resp := .done } := by
  have hw : (countAccess s).hostWrite sp.bytes (sp.addr i) v = some ((countAccess s).store sp i v) := by
    simp only [State.hostWrite, window_addr hp hi, countAccess_params, element_addr hi, if_true, Option.map_some]
  have hc := addr_ne_cmdAddr hp hi
  have ht : v % 2 ^ (8 * sp.bytes) = v := Nat.mod_eq_of_lt hv
  have hop : hostAccess (sp.writeOp i v) s =
      .next (answerWrite (countAccess s) ((countAccess s).hostWrite sp.bytes (sp.addr i) v)) := by
    cases sp <;> simp only [Space.bytes, Nat.reduceMul] at ht ⊢ <;>
      simp only [Space.writeOp, Space.bytes, hostAccess, hc, if_false, write8_eq, write16_eq, write32_eq,
        BitVec.toNat_ofNat, ht]
  rw [hop, hw, answerWrite]

/-! ## Elements after a store -/

theorem Mem.toNat_read_write_same {w : Nat} {m : Mem w} (hm : m.Rising) (hv : v < 2 ^ w) :
    ((m.write i (BitVec.ofNat w v)).read i).toNat = v := by
  rw [Mem.read_write_same m i _ hm, BitVec.toNat_ofNat, Nat.mod_eq_of_lt hv]

/-- The element stored, where it is stored. -/
theorem State.element_store_same (hs : s.Sane) (hsp : sp ≠ .tstk) (hv : v < 2 ^ (8 * sp.bytes)) :
    (s.store sp i v).element sp i = v := by
  cases sp with
  | freq => exact Mem.toNat_read_write_same hs.freq.1 hv
  | len => exact Mem.toNat_read_write_same hs.len.1 hv
  | sym => exact Mem.toNat_read_write_same hs.sym.1 hv
  | buf => exact Mem.toNat_read_write_same hs.buf.1 hv
  | win => exact Mem.toNat_read_write_same hs.win.1 hv
  | suf => exact Mem.toNat_read_write_same hs.suf.1 hv
  | wout => exact Mem.toNat_read_write_same hs.wout.1 hv
  | tstk => exact absurd rfl hsp

/-- A write that is made only under a condition leaves the elements alone that it does not meet. -/
theorem Mem.read_writeIf_other {w : Nat} {c : Prop} [Decidable c] (m : Mem w) {x : BitVec w} {j : Nat}
    (h : ¬c ∨ j ≠ i) : (if c then m.write i x else m).read j = m.read j := by
  split
  · rename_i hc
    exact Mem.read_write_other m i j x (h.resolve_left (not_not_intro hc))
  · rfl

/-- A store leaves every other element of every memory alone. -/
theorem State.element_store_other {sp' : Space} {j : Nat} (h : sp' ≠ sp ∨ j ≠ i) :
    (s.store sp i v).element sp' j = s.element sp' j := by
  have h' : ¬sp = sp' ∨ j ≠ i := h.imp_left Ne.symm
  cases sp' with
  | tstk => rfl
  | _ => exact congrArg BitVec.toNat (Mem.read_writeIf_other _ h')

/-- The count of accesses has no part in any element but those of TSTK at or above the depth. -/
theorem element_countAccess {i : Nat} (h : sp ≠ .tstk) : (countAccess s).element sp i = s.element sp i := by
  cases sp with
  | tstk => exact absurd rfl h
  | _ => rfl

/-! ## The obligations -/

/-- Settles O16: an access is admitted when its address reaches a register or an element at its own width, and just then
`hostRead` and `hostWrite` have a result. -/
theorem admittedHostAccesses : Obligations.AdmittedHostAccesses := by
  unfold Obligations.AdmittedHostAccesses
  intro s a hp
  constructor
  · intro n op hop
    have hadm := (admitted_iff_reaches hp).trans (hostRead_isSome (s := s) (n := n) (a := a)).symm
    have hacc := hostAccess_read hop
    cases hr : hostRead s n a with
    | some v =>
      refine ⟨.data v, ?_, ?_, fun _ => ⟨v, rfl⟩, fun h => absurd (hadm.2 (by simp [hr])) h⟩
      · rw [hacc, hr, answerRead_some]
      · rw [hacc, hostRead_resp, hr, answerRead_some]
    | none =>
      refine ⟨.error, ?_, ?_, fun h => absurd (hadm.1 h) (by simp [hr]), fun _ => rfl⟩
      · rw [hacc, hr, answerRead_none]
      · rw [hacc, hostRead_resp, hr, answerRead_none]
  · intro n op hop
    have hadm (v : Nat) := (admitted_iff_reaches hp).trans
      (hostWrite_isSome (s := countAccess s) (n := n) (a := a) (v := v)).symm
    constructor
    · intro h
      have hc : n = 4 → a ≠ cmdAddr := by
        rintro rfl rfl
        exact h admitted_cmdAddr
      obtain ⟨v, hacc⟩ := hostAccess_write (s := s) hop hc
      rw [hacc, Option.not_isSome_iff_eq_none.1 (mt (hadm v).2 h), answerWrite, countAccess]
    · intro h hc
      obtain ⟨v, hacc⟩ := hostAccess_write (s := s) hop fun _ => hc
      obtain ⟨t, ht⟩ := Option.isSome_iff_exists.1 ((hadm v).1 h)
      exact ⟨_, hacc, by rw [ht, answerWrite]⟩

/-- Settles O17: the address of an element reaches it, a read returns it, and a write is a `State.store`. -/
theorem hostElementAccess : Obligations.HostElementAccess := by
  unfold Obligations.HostElementAccess
  intro s sp i hs hi
  refine ⟨?_, fun d hd => ?_, fun v hv => ?_⟩
  · rw [hostAccess_readOp, hostRead_mem (window_addr hs.params hi), if_pos rfl, element_addr hi, Option.map_some,
      answerRead_some]
  · rw [State.element, readTstk, if_pos hd]
  · have hs' : (countAccess s).Sane := { hs with }
    refine ⟨_, hostAccess_writeOp hs.params hi hv, rfl, rfl, rfl, rfl,
      fun hsp => State.element_store_same hs' hsp hv, fun sp' j hsp' h => ?_⟩
    calc ((countAccess s).store sp i v).element sp' j
      _ = (countAccess s).element sp' j := State.element_store_other h
      _ = s.element sp' j := element_countAccess hsp'

end Sys2Proof.Machine
end

section
/-! The three encodings of spec/30_encoding.md: each decoder undoes the encoder, what a decoder gives is well formed
and encodes to what was decoded, and the opcodes outside the map raise E_BAD_CMD. -/

namespace Sys2Proof

variable {w : Word} {c : Imm} {i : Instr} {bpl : Byte} {bits rest : List Bool}

/-! ## Command words -/

/-- A command word is its two fields. -/
theorem commandWord_fields (w : Word) : commandWord (opField w) (immField w) = w := by
  apply BitVec.eq_of_toNat_eq
  have := w.isLt
  simp only [commandWord, opField, immField, BitVec.toNat_append, BitVec.extractLsb'_toNat]
  rw [← Nat.shiftLeft_add_eq_or_of_lt (Nat.mod_lt _ (by decide)), Nat.shiftLeft_eq, Nat.shiftRight_eq_div_pow]
  omega

/-- The word of a command holds its opcode and its operand, which is all that `decodeCommand` looks at. -/
theorem decodeCommand_of_encode (h : i.encode = .command w) : decodeCommand w = .ok i := by
  cases i <;> cases h
  all_goals simp [decodeCommand, Instr.opcode]

theorem eq_ofNat_of_toNat_eq {k n : Nat} {x : BitVec k} (h : x.toNat = n) : x = BitVec.ofNat k n := by
  rw [← h, BitVec.ofNat_toNat, BitVec.setWidth_eq]

/-- The opcode map gives each row its opcode and, where the row has one, its operand; the other rows ignore IMM
(spec/30_encoding.md R105). -/
theorem encode_of_decodeCommand (h : decodeCommand w = .ok i) :
    i.opcode = opField w ∧
      (i.encode = .command w ∨ ∀ imm, decodeCommand (commandWord (opField w) imm) = .ok i) := by
  obtain ⟨op, imm, rfl⟩ : ∃ op imm, w = commandWord op imm := ⟨_, _, (commandWord_fields w).symm⟩
  simp only [decodeCommand, opField_commandWord, immField_commandWord] at h ⊢
  split at h
  case h_26 => cases h
  all_goals
    cases h
    rename_i hop
    obtain rfl := eq_ofNat_of_toNat_eq hop
    refine ⟨rfl, ?_⟩
  -- The rows with an operand are encoded again whole.
  case h_3 | h_4 | h_6 | h_7 | h_9 | h_10 | h_11 | h_12 | h_14 | h_17 | h_20 | h_23 => exact .inl rfl
  all_goals exact .inr fun _ => rfl

/-- The opcodes that the map does not list (spec/30_encoding.md R104). -/
def ReservedOpcode (op : Nat) : Prop :=
  (0x02 ≤ op ∧ op ≤ 0x0F) ∨ (0x13 ≤ op ∧ op ≤ 0x17) ∨ (0x1B ≤ op ∧ op ≤ 0x1F) ∨
    (0x24 ≤ op ∧ op ≤ 0x2F) ∨ (0x38 ≤ op ∧ op ≤ 0x3F) ∨ (0x41 ≤ op ∧ op ≤ 0x47) ∨ 0x4C ≤ op

theorem decodeCommand_of_reserved (h : ReservedOpcode (opField w).toNat) :
    decodeCommand w = .error (.reservedOpcode (opField w)) := by
  unfold ReservedOpcode at h
  unfold decodeCommand
  dsimp only
  split
  case h_26 => rfl
  all_goals omega

theorem exists_decodeCommand_of_not_reserved (h : ¬ReservedOpcode (opField w).toNat) :
    ∃ i, decodeCommand w = .ok i := by
  unfold ReservedOpcode at h
  unfold decodeCommand
  dsimp only
  split
  case h_26 =>
    simp only [imp_false] at *
    omega
  all_goals exact ⟨_, rfl⟩

/-! ## Trie codes -/

theorem Instr.mask_wf {m : Byte} : (Instr.mask m).wf = true ↔ 1 ≤ m.toNat ∧ m.toNat ≤ 127 := by simp [Instr.wf]

theorem Instr.bksp_wf {n : Byte} : (Instr.bksp n).wf = true ↔ n.toNat ≤ 30 := decide_eq_true_iff

theorem Instr.char_wf {b : Byte} : (Instr.char b).wf = true ↔ 32 ≤ b.toNat ∧ b.toNat ≤ 127 := by
  rw [Instr.wf, Bool.and_eq_true, decide_eq_true_iff, decide_eq_true_iff, Config.charMin, Config.charMax]

theorem Instr.invalidCode_wf : (Instr.invalidCode c).wf = true ↔ 256 ≤ c.toNat := decide_eq_true_iff

/-- A byte keeps its value as a trie code. -/
theorem toNat_setWidth_byte (b : Byte) : (b.setWidth 24).toNat = b.toNat := by
  rw [BitVec.toNat_setWidth, Nat.mod_eq_of_lt (by omega)]

theorem setWidth_setWidth_byte (b : Byte) : (b.setWidth 24).setWidth 8 = b := by
  rw [BitVec.setWidth_setWidth_of_le _ (by decide), BitVec.setWidth_eq]

theorem decodeTrieCode_mask {m : Byte} (h : 1 ≤ m.toNat ∧ m.toNat ≤ 127) :
    decodeTrieCode (BitVec.ofNat 24 (Config.suffixMarker + m.toNat)) = .mask m := by
  have hc : (BitVec.ofNat 24 (128 + m.toNat)).toNat = 128 + m.toNat := by
    rw [BitVec.toNat_ofNat, Nat.mod_eq_of_lt (by omega)]
  unfold decodeTrieCode Config.suffixMarker
  rw [hc, if_neg (by omega), if_pos (by omega), Nat.add_sub_cancel_left, BitVec.ofNat_toNat, BitVec.setWidth_eq]

theorem decodeTrieCode_bksp {n : Byte} (h : n.toNat ≤ 30) : decodeTrieCode (n.setWidth 24) = .bksp n := by
  unfold decodeTrieCode Config.suffixMarker Config.maxBksp
  rw [toNat_setWidth_byte, if_neg (by omega), if_neg (by omega), if_pos h, setWidth_setWidth_byte]

theorem decodeTrieCode_char {b : Byte} (h : 32 ≤ b.toNat ∧ b.toNat ≤ 127) :
    decodeTrieCode (b.setWidth 24) = .char b := by
  unfold decodeTrieCode Config.suffixMarker Config.maxBksp Config.wordMarker Config.charMin Config.charMax
  rw [toNat_setWidth_byte, if_neg (by omega), if_neg (by omega), if_neg (by omega), if_neg (by omega), if_pos h,
    setWidth_setWidth_byte]

theorem decodeTrieCode_invalidCode (h : 256 ≤ c.toNat) : decodeTrieCode c = .invalidCode c := by
  unfold decodeTrieCode Config.suffixMarker Config.maxBksp Config.wordMarker Config.charMin Config.charMax
  rw [if_neg (by omega), if_neg (by omega), if_neg (by omega), if_neg (by omega), if_neg (by omega)]

/-- An operand in its class's range gives a code that no earlier test of the decoder takes (spec/30_encoding.md
R111). -/
theorem decodeTrieCode_of_encode (hwf : i.wf = true) (h : i.encode = .trieCode c) : decodeTrieCode c = i := by
  cases i <;> cases h
  case sufdef => rfl
  case mask => exact decodeTrieCode_mask (Instr.mask_wf.1 hwf)
  case bksp => exact decodeTrieCode_bksp (Instr.bksp_wf.1 hwf)
  case word => rfl
  case char => exact decodeTrieCode_char (Instr.char_wf.1 hwf)
  case invalidCode => exact decodeTrieCode_invalidCode (Instr.invalidCode_wf.1 hwf)

/-- A code outside the ranges of the first five classes is at least 256. -/
theorem decodeTrieCode_wf (c : Imm) : (decodeTrieCode c).wf = true := by
  fun_cases decodeTrieCode c
  case case1 | case4 => rfl
  case case2 _ hm =>
    rw [Instr.mask_wf, Config.suffixMarker, BitVec.toNat_ofNat]
    omega
  case case3 hn =>
    have h30 : c.toNat ≤ 30 := hn
    rw [Instr.bksp_wf, BitVec.toNat_setWidth]
    omega
  case case5 hb =>
    have h127 : 32 ≤ c.toNat ∧ c.toNat ≤ 127 := hb
    rw [Instr.char_wf, BitVec.toNat_setWidth]
    omega
  case case6 hs hm hn hw hb =>
    unfold Config.suffixMarker at hs
    unfold Config.maxBksp at hn
    unfold Config.wordMarker at hw
    unfold Config.charMin Config.charMax at hb
    rw [Instr.invalidCode_wf]
    omega

theorem encode_decodeTrieCode (c : Imm) : (decodeTrieCode c).encode = .trieCode c := by
  have hlow (h : c.toNat < 256) : (c.setWidth 8).setWidth 24 = c := by
    apply BitVec.eq_of_toNat_eq
    rw [toNat_setWidth_byte, BitVec.toNat_setWidth, Nat.mod_eq_of_lt h]
  have hnum {n : Nat} (h : c.toNat = n) : BitVec.ofNat 24 n = c := (eq_ofNat_of_toNat_eq h).symm
  fun_cases decodeTrieCode c
  case case1 hs => exact congrArg Encoding.trieCode (hnum hs)
  case case2 _ hm =>
    refine congrArg Encoding.trieCode (hnum ?_)
    simp only [Config.suffixMarker, BitVec.toNat_ofNat]
    omega
  case case3 hn => exact congrArg Encoding.trieCode (hlow (Nat.lt_of_le_of_lt hn (by decide)))
  case case4 hw => exact congrArg Encoding.trieCode (hnum hw)
  case case5 hb => exact congrArg Encoding.trieCode (hlow (Nat.lt_of_le_of_lt hb.2 (by decide)))
  case case6 => rfl

/-! ## Entries of the code-length table -/

/-- An entry decodes from its own bits, and the bits after it are left (spec/30_encoding.md R116). -/
theorem decodeTableEntry_of_encode (hwf : i.wf = true) (hbpl : ∀ b l, i = .tableLiteral b l → bpl = b)
    (h : i.encode = .tableEntry bits) (rest : List Bool) :
    decodeTableEntry bpl (bits ++ rest) = .ok (i, rest) := by
  cases i <;> cases h
  case tableLiteral b len =>
    obtain rfl := hbpl b len rfl
    have hlen : bitsToNat (fieldBits bpl.toNat len) = len := bitsToNat_fieldBits_of_lt (of_decide_eq_true hwf)
    simp [decodeTableEntry, hlen]
  case tableRun r =>
    have hrun : bitsToNat (fieldBits 8 r.toNat) = r.toNat := bitsToNat_fieldBits_of_lt r.isLt
    simp [-fieldBits_succ, decodeTableEntry, hrun]

/-- The field of the first n bits is those bits. -/
theorem fieldBits_bitsToNat_take {n : Nat} (h : n ≤ bits.length) :
    fieldBits n (bitsToNat (bits.take n)) = bits.take n := by
  simpa [h] using fieldBits_bitsToNat (bits.take n)

theorem bitsToNat_take_lt {n : Nat} (h : n ≤ bits.length) : bitsToNat (bits.take n) < 2 ^ n := by
  simpa [h] using bitsToNat_lt (bits.take n)

/-- What an entry decodes to is well formed, and its encoding is exactly the bits consumed. -/
theorem encode_of_decodeTableEntry (h : decodeTableEntry bpl bits = .ok (i, rest)) :
    i.wf = true ∧ ∃ bs, i.encode = .tableEntry bs ∧ bits = bs ++ rest := by
  revert h
  fun_cases decodeTableEntry bpl bits
  case case3 bs hlen =>
    rintro ⟨⟩
    have hle := Nat.le_of_not_lt hlen
    refine ⟨decide_eq_true (bitsToNat_take_lt hle), _, rfl, ?_⟩
    rw [fieldBits_bitsToNat_take hle, List.cons_append, List.take_append_drop]
  case case5 bs hlen =>
    rintro ⟨⟩
    have hle := Nat.le_of_not_lt hlen
    refine ⟨rfl, _, rfl, ?_⟩
    rw [BitVec.toNat_ofNat, Nat.mod_eq_of_lt (bitsToNat_take_lt hle), fieldBits_bitsToNat_take hle, List.cons_append,
      List.take_append_drop]
  all_goals exact nofun

end Sys2Proof

namespace Sys2Proof.Machine

/-- A word that decodes to nothing raises E_BAD_CMD with the whole word (spec/30_encoding.md R104). -/
theorem issueCommand_of_error {w : Word} {e : DecodeReject} {s : State} (hs : s.regs.status.fault = false)
    (h : decodeCommand w = .error e) : issueCommand w s = .next (s.faulted (opField w) .badCmd w) := by
  simp [issueCommand, hs, h, runCommand]

/-! ## The obligations -/

/-- Settles O1: by the kind of encoding, each decoder undoes the encoder. -/
theorem encodeThenDecode : Obligations.EncodeThenDecode := by
  unfold Obligations.EncodeThenDecode
  intro i hwf bpl hbpl
  cases he : i.encode with
  | command w => exact ⟨by rw [Encoding.decode, decodeCommand_of_encode he]; rfl, nofun⟩
  | trieCode c => exact ⟨by rw [Encoding.decode, decodeTrieCode_of_encode hwf he], nofun⟩
  | tableEntry bits =>
    have hdec := decodeTableEntry_of_encode hwf hbpl he
    have hwhole : decodeTableEntry bpl bits = .ok (i, []) := by simpa using hdec []
    exact ⟨by rw [Encoding.decode, hwhole], by rintro _ ⟨⟩; exact hdec⟩

/-- Settles O2: one lemma for each of the three decoders. -/
theorem decodeThenEncode : Obligations.DecodeThenEncode := by
  unfold Obligations.DecodeThenEncode
  exact ⟨fun w i h => ⟨decodeCommand_wf h, encode_of_decodeCommand h⟩,
    fun c => ⟨decodeTrieCode_wf c, encode_decodeTrieCode c⟩,
    fun bpl bits i rest h => encode_of_decodeTableEntry h⟩

/-- Settles O3: the seven ranges are what the opcode map leaves out, and a word that decodes to nothing faults. -/
theorem reservedOpcodesFault : Obligations.ReservedOpcodesFault := by
  unfold Obligations.ReservedOpcodesFault
  intro w
  refine ⟨fun h => ?_, exists_decodeCommand_of_not_reserved⟩
  have hdec := decodeCommand_of_reserved h
  exact ⟨hdec, fun s hs => issueCommand_of_error hs hdec⟩

/-- Settles O4: the decoders run on twelve closed inputs. -/
theorem decodedSamples : Obligations.DecodedSamples := by
  unfold Obligations.DecodedSamples
  decide

end Sys2Proof.Machine
end

section
/-! The engine control commands of spec/40_control.md: what a step does with the next host access and with a word
written to CMD (R131), and the exact effects of NOP (R130) and SRESET (R132). -/

namespace Sys2Proof.Machine

variable {s : State} {w : Word} {op : HostOp} {rest : List HostOp}

/-! ## The dispatch cycle -/

/-- With no table read in progress and no access to come the machine is idle (spec/60_exceptions.md R327). -/
theorem step_of_inbox_nil (ht : s.tread = none) (hq : s.inbox = []) : step s = .next s := by
  simp only [step, ht, hq]

theorem step_of_inbox_cons (ht : s.tread = none) (hq : s.inbox = op :: rest) :
    step s = hostAccess op { s with inbox := rest } := by
  simp only [step, ht, hq]

/-- A write to CMD issues the word as a command, once the access is counted and answered. -/
theorem hostAccess_write32_cmdAddr (s : State) (w : Word) :
    hostAccess (.write32 cmdAddr w) s = issueCommand w { countAccess s with resp := .done } := by
  rw [hostAccess, if_pos rfl]

theorem issueCommand_of_ok {i : Instr} (hs : s.regs.status.fault = false) (h : decodeCommand w = .ok i) :
    issueCommand w s = exec i s := by
  simp only [issueCommand, hs, h, Bool.false_eq_true, if_false]

/-- In the fault state only SRESET executes (spec/60_exceptions.md R304). -/
theorem issueCommand_of_fault (hs : s.regs.status.fault = true) :
    issueCommand w s = if opField w = 0x01#8 then exec .sreset s else .next s :=
  if_pos hs

/-- Settles O5: a step is the head access of the queue, a write to CMD issues the word, and the dispatch cycle has one
case for each of a decoded word, a reserved opcode and the fault state. -/
theorem stepRunsDecodedCommand : Obligations.StepRunsDecodedCommand := by
  unfold Obligations.StepRunsDecodedCommand
  intro s ht
  refine ⟨step_of_inbox_nil ht, fun op rest hq => ?_⟩
  have haccess := step_of_inbox_cons ht hq
  refine ⟨haccess, ?_⟩
  rintro w rfl
  rw [haccess, hostAccess_write32_cmdAddr]
  refine ⟨fun hf i hi => issueCommand_of_ok hf hi, fun hf hnone => ?_, fun hf => issueCommand_of_fault hf⟩
  cases hdec : decodeCommand w with
  | ok i => exact absurd hdec (hnone i)
  | error e => exact issueCommand_of_error hf hdec

/-! ## NOP and SRESET -/

theorem decodeCommand_nop (imm : Imm) : decodeCommand (commandWord 0x00#8 imm) = .ok .nop := by
  simp [decodeCommand]

theorem decodeCommand_sreset (imm : Imm) : decodeCommand (commandWord 0x01#8 imm) = .ok .sreset := by
  simp [decodeCommand]

theorem exec_nop (s : State) : exec .nop s = .next s := by
  rw [exec, execNop, runCommand_of_ok rfl]

theorem statusWord_reset : statusWord false Regs.reset.status = 0 := by decide

theorem streamWord_zero : streamWord 0 0 = 0 := by decide

theorem trieStateWord_reset : trieStateWord Decoder.reset = 0 := by decide

/-- After power-on reset every register from STATUS to the reserved offset in front of the CAP registers reads 0
(spec/10_state.md R23 and R58). -/
theorem readReg_resetWith (p : Params) {k : Nat} (h1 : 1 ≤ k) (h2 : k < 0x18) :
    readReg (State.resetWith p) (4 * k) = some 0 := by
  unfold readReg
  rw [if_pos (by omega)]
  split
  case h_2 => exact congrArg some statusWord_reset
  case h_10 | h_14 => exact congrArg some streamWord_zero
  case h_21 => exact congrArg some trieStateWord_reset
  -- ID and the CAP registers are outside the range of k.
  case h_1 | h_22 | h_23 | h_24 | h_25 | h_26 | h_27 | h_28 => omega
  all_goals rfl

/-- Settles O11: the decoder ignores IMM in both rows, NOP's body is `skip`, and SRESET is `softReset`, whose registers
and decoder state are those of power-on reset. -/
theorem nopAndSreset : Obligations.NopAndSreset := by
  unfold Obligations.NopAndSreset
  exact fun imm p s => ⟨decodeCommand_nop imm, exec_nop s, decodeCommand_sreset imm, rfl, rfl,
    fun _ => readReg_resetWith p⟩

end Sys2Proof.Machine
end

section
/-! The bit streams of spec/41_bitstream.md: the fields and bytes of a bit sequence, the results of the six bit-stream
commands, the independence of the two streams (R156), and the round trip through BUF (R155). -/

namespace Sys2Proof

/-! ## Bits of fields -/

/-- The bits of a field by position: the one transmitted at position j is bit k - 1 - j. -/
theorem fieldBits_eq_map_range (k v : Nat) : fieldBits k v = (List.range k).map fun j => v.testBit (k - 1 - j) := by
  induction k with
  | zero => rfl
  | succ k ih =>
    rw [fieldBits_succ, ih, List.range_succ_eq_map, List.map_cons, List.map_map]
    refine congrArg (v.testBit k :: ·) (List.map_congr_left fun j _ => ?_)
    rw [Function.comp_apply, show k + 1 - 1 - (j + 1) = k - 1 - j by omega]

/-- The bit transmitted at position k is bit length - 1 - k of the value. -/
theorem testBit_bitsToNat {bs : List Bool} {k : Nat} (hk : k < bs.length) :
    (bitsToNat bs).testBit (bs.length - 1 - k) = bs[k] := by
  have h : bs[k] = (fieldBits bs.length (bitsToNat bs))[k]'(by simpa using hk) := by simp only [fieldBits_bitsToNat]
  simp only [h, fieldBits_eq_map_range, List.getElem_map, List.getElem_range]

@[simp] theorem bitsToNat_replicate_false (n : Nat) : bitsToNat (List.replicate n false) = 0 := by
  induction n with
  | zero => rfl
  | succ n ih => rw [List.replicate_succ, bitsToNat_cons, ih]; simp

end Sys2Proof

namespace Sys2Proof.Machine

variable {s t : State} {i : Instr}

/-! ## The bytes of a bit sequence -/

/-- The bits of the whole bytes, and then the bits left over, are the sequence. -/
theorem flatMap_packBytes_append_tailBits (bs : List Bool) :
    ((packBytes bs).flatMap fun v => fieldBits 8 v.toNat) ++ tailBits bs = bs := by
  by_cases h : bs.length < 8
  · rw [packBytes_short h, tailBits_short h]
    rfl
  · have h8 : (bs.take 8).length = 8 := by rw [List.length_take]; omega
    have hbyte : fieldBits 8 (BitVec.ofNat 8 (bitsToNat (bs.take 8))).toNat = bs.take 8 := by
      rw [BitVec.toNat_ofNat, fieldBits_mod 8 _ 8 le_rfl, fieldBits_bitsToNat_take (by omega)]
    have ih := flatMap_packBytes_append_tailBits (bs.drop 8)
    conv_lhs => rw [← List.take_append_drop 8 bs]
    rw [packBytes_cons h8, tailBits_cons h8, List.flatMap_cons, hbyte, List.append_assoc, ih, List.take_append_drop]
termination_by bs.length
decreasing_by rw [List.length_drop]; omega

/-- The bits of the bytes of a sequence that ends on a byte boundary. -/
theorem flatMap_packBytes {bs : List Bool} (h : bs.length % 8 = 0) :
    ((packBytes bs).flatMap fun v => fieldBits 8 v.toNat) = bs := by
  have ht : tailBits bs = [] := List.eq_nil_of_length_eq_zero (by rw [tailBits_length, h])
  simpa [ht] using flatMap_packBytes_append_tailBits bs

/-- Consecutive elements read back after they are written. -/
theorem Mem.map_read_writeList {w : Nat} {m : Mem w} (hm : m.Rising) (a : Nat) (vs : List (BitVec w)) :
    ((List.range vs.length).map fun k => (m.writeList a vs).read (a + k)) = vs := by
  refine List.ext_getElem (by simp) fun k _ hk => ?_
  rw [List.getElem_map, List.getElem_range, Mem.read_writeList_inside vs m a k hm hk]

/-! ## The ends of a command -/

/-- A command that raises before it has changed anything. -/
theorem runCommand_of_raise_start {op : Byte} {body : Work → Res Unit} {c : FaultCode} {info : Word}
    (h : body s.start = .raise c info s.start) : runCommand op body s = .next (s.faulted op c info) := by
  rw [runCommand_of_raise h, faultEntry_unchanged]

/-- A command that succeeds in the state t. -/
theorem runCommand_of_ok_state {op : Byte} {body : Work → Res Unit} {b : Bool}
    (h : body s.start = .ok () { st := t, wroteLen := b }) : runCommand op body s = .next t :=
  runCommand_of_ok h

/-! ## BS_WINIT, BS_RINIT and BS_RALIGN -/

theorem execBsWinit_of_le {a : Imm} (h : a.toNat ≤ s.params.bufSize) : execBsWinit a s =
    .next { s with regs := { s.regs with wpos := zextImm a, wnb := 0, wacc := 0, wcnt := 0 } } :=
  runCommand_of_ok_state (if_neg (Nat.not_lt.2 h))

theorem execBsRinit_of_le {a : Imm} (hlim : s.regs.arg.toNat ≤ s.params.bufSize) (ha : a.toNat ≤ s.regs.arg.toNat) :
    execBsRinit a s = .next { s with regs :=
      { s.regs with rpos := zextImm a, rlim := s.regs.arg, rnb := 0, racc := 0, rcnt := 0 } } :=
  runCommand_of_ok_state ((if_neg (Nat.not_lt.2 hlim)).trans (if_neg (Nat.not_lt.2 ha)))

theorem decodeCommand_bsRalign (imm : Imm) : decodeCommand (commandWord 0x1A#8 imm) = .ok .bsRalign := by
  simp [decodeCommand]

/-- Settles O24: each command's checks are the conditions of its body, in the order written. -/
theorem streamStartCommands : Obligations.StreamStartCommands := by
  unfold Obligations.StreamStartCommands
  intro a s
  simp only [exec]
  refine ⟨decodeCommand_of_encode (i := .bsWinit a) rfl, fun h => ?_, execBsWinit_of_le,
    decodeCommand_of_encode (i := .bsRinit a) rfl, fun h => ?_, fun hlim ha => ?_, execBsRinit_of_le,
    decodeCommand_bsRalign a, rfl⟩
  · exact runCommand_of_raise_start (if_pos h)
  · exact runCommand_of_raise_start (if_pos h)
  · exact runCommand_of_raise_start ((if_neg (Nat.not_lt.2 hlim)).trans (if_pos ha))

/-! ## BS_PUT -/

theorem execBsPut_of_le {n : Imm} (h : n.toNat ≤ 32) :
    execBsPut n s = runCommand 0x11#8 (putBits (argField n.toNat s.regs.arg)) s := by
  simp only [execBsPut, runCommand, if_neg (Nat.not_lt.2 h)]
  rfl

/-- Settles O25: BS_PUT appends the field of ARG, by `putBits_room` and `putBits_full`. -/
theorem bsPutResult : Obligations.BsPutResult := by
  unfold Obligations.BsPutResult
  intro n s hs
  simp only [exec]
  refine ⟨decodeCommand_of_encode (i := .bsPut n) rfl, fun h => runCommand_of_raise_start (if_pos h), fun hn => ?_⟩
  have hbits : ((List.range n.toNat).map fun k => s.regs.arg.getLsbD (n.toNat - 1 - k)) = argField n.toNat s.regs.arg :=
    (fieldBits_eq_map_range _ _).symm
  have hlen : (argField n.toNat s.regs.arg).length = n.toNat := fieldBits_length _ _
  rw [hbits, execBsPut_of_le hn]
  refine ⟨fun hr => ?_, fun hr => ?_⟩ <;> rw [← hlen] at hr
  · exact runCommand_of_ok_state (putBits_room (w := s.start) _ hs.writerOk hr)
  · obtain ⟨r, hput⟩ := putBits_full (w := s.start) _ hs.writerOk hr
    exact runCommand_of_raise hput

/-! ## BS_WALIGN -/

/-- On a byte boundary there is nothing to pad (spec/41_bitstream.md R143). -/
theorem alignW_of_wnb_zero {w : Work} (h : w.st.regs.wnb = 0) : alignW w = .ok () w := by
  rw [alignW_eq, h]
  rfl

theorem decodeCommand_bsWalign (imm : Imm) : decodeCommand (commandWord 0x12#8 imm) = .ok .bsWalign := by
  simp [decodeCommand]

theorem execBsWalign_of_wnb_zero (h : s.regs.wnb = 0) : execBsWalign s = .next s :=
  runCommand_of_ok_state (alignW_of_wnb_zero h)

/-- `AlignW()` appends the padding of the pending bits. -/
theorem alignW_eq_putBits_padTo {w : Work} (h : WriterOk w.st) :
    alignW w = putBits (padTo w.st.regs.wnb.toNat) w := by
  rw [alignW_eq, padCount, padTo, Nat.mod_eq_of_lt (Nat.lt_succ_of_le h.nb)]

theorem padTo_length (n : Nat) : (padTo n).length = (8 - n % 8) % 8 := List.length_replicate

/-- A partial byte has room for its padding exactly when WPOS lies inside BUF. -/
theorem hasRoom_padTo_iff (h : WriterOk s) (hnb : s.regs.wnb ≠ 0) :
    s.HasRoom (padTo s.regs.wnb.toNat).length ↔ s.regs.wpos.toNat < s.params.bufSize := by
  have hle := h.nb
  have hpos : s.regs.wnb.toNat ≠ 0 := fun h0 => hnb (BitVec.eq_of_toNat_eq h0)
  rw [State.HasRoom, padTo_length]
  omega

/-- The partial byte with its padding is one byte: the pending bits from bit 7 down, and zeros. -/
theorem afterBits_padTo (h : WriterOk s) (hnb : s.regs.wnb ≠ 0) :
    s.afterBits (padTo s.regs.wnb.toNat) = { s with
      buf := s.buf.write s.regs.wpos.toNat (s.regs.wacc <<< (8 - s.regs.wnb.toNat))
      regs := { s.regs with wpos := s.regs.wpos + 1, wcnt := s.regs.wcnt + 1, wnb := 0, wacc := 0 } } := by
  have hle := h.nb
  have hpos : s.regs.wnb.toNat ≠ 0 := fun h0 => hnb (BitVec.eq_of_toNat_eq h0)
  have hpad : (padTo s.regs.wnb.toNat).length = 8 - s.regs.wnb.toNat := by rw [padTo_length]; omega
  have hlen : (s.regs.pendingBits ++ padTo s.regs.wnb.toNat).length = 8 := by
    rw [List.length_append, pendingBits_length, hpad]; omega
  have hval : bitsToNat (s.regs.pendingBits ++ padTo s.regs.wnb.toNat)
      = s.regs.wacc.toNat * 2 ^ (8 - s.regs.wnb.toNat) := by
    rw [bitsToNat_append, hpad, padTo, bitsToNat_replicate_false, Nat.add_zero, Regs.pendingBits,
      bitsToNat_fieldBits_of_lt h.acc]
  have hbyte : BitVec.ofNat 8 (s.regs.wacc.toNat * 2 ^ (8 - s.regs.wnb.toNat))
      = s.regs.wacc <<< (8 - s.regs.wnb.toNat) := by
    apply BitVec.eq_of_toNat_eq
    rw [BitVec.toNat_ofNat, BitVec.toNat_shiftLeft, Nat.shiftLeft_eq]
  have hpack : packBytes (s.regs.pendingBits ++ padTo s.regs.wnb.toNat)
      = [s.regs.wacc <<< (8 - s.regs.wnb.toNat)] := by
    rw [← hbyte, ← hval]
    simpa [packBytes_short] using packBytes_cons hlen []
  have htail : tailBits (s.regs.pendingBits ++ padTo s.regs.wnb.toNat) = [] :=
    List.eq_nil_of_length_eq_zero (by rw [tailBits_length, hlen])
  simp only [State.afterBits, hpack, htail]
  rfl

/-- Settles O26: the padding completes one byte, which is stored or does not fit; on a byte boundary nothing is
written. -/
theorem bsWalignResult : Obligations.BsWalignResult := by
  unfold Obligations.BsWalignResult
  intro imm s hs
  simp only [exec]
  have hw := hs.writerOk
  have halign := alignW_eq_putBits_padTo (w := s.start) hw
  refine ⟨decodeCommand_bsWalign imm, execBsWalign_of_wnb_zero, fun hnb hlt => ?_, fun hnb hge => ?_,
    fun _ _ hnb => execBsWalign_of_wnb_zero hnb⟩
  · rw [← afterBits_padTo hw hnb]
    exact runCommand_of_ok_state (halign.trans (putBits_room _ hw ((hasRoom_padTo_iff hw hnb).2 hlt)))
  · have hroom := fun hr => Nat.not_lt.2 hge ((hasRoom_padTo_iff hw hnb).1 hr)
    obtain ⟨r, hput⟩ := putBits_full (w := s.start) _ hw hroom
    have hend : s.regs.wpos.toNat = s.params.bufSize := Nat.le_antisymm hw.pos hge
    have hinfo : BitVec.ofNat 32 s.params.bufSize = s.regs.wpos := by simp [← hend]
    have hbuf : s.bufFilled (padTo s.regs.wnb.toNat) = s.buf := by simp [State.bufFilled, hend, Mem.writeList]
    rw [hinfo, hbuf] at hput
    exact runCommand_of_raise (halign.trans hput)

/-! ## BS_GET -/

theorem execBsGet_of_le {n : Imm} (h : n.toNat ≤ 32) : execBsGet n s =
    runCommand 0x19#8 (fun w => (getField n.toNat w).bind fun v w =>
      .ok () (w.setRegs fun r => { r with result := BitVec.ofNat 32 v })) s := by
  simp only [execBsGet, runCommand, if_neg (Nat.not_lt.2 h)]
  rfl

/-- In the RESULT of n bits the first bit read is bit n - 1 (spec/00_scope.md R16). -/
theorem getLsbD_ofNat_bitsToNat_take {bs : List Bool} {n k : Nat} (hn : n ≤ 32) (hl : n ≤ bs.length) (hk : k < n) :
    (BitVec.ofNat 32 (bitsToNat (bs.take n))).getLsbD (n - 1 - k) = bs.getD k false := by
  have hlen : (bs.take n).length = n := List.length_take_of_le hl
  have hbit := testBit_bitsToNat (bs := bs.take n) (k := k) (by omega)
  rw [List.getElem_take] at hbit
  rw [BitVec.getLsbD_ofNat, decide_eq_true (by omega), Bool.true_and, List.getD_eq_getElem _ _ (by omega), ← hbit,
    hlen]

/-- In the RESULT of n bits the bits above are 0. -/
theorem toNat_ofNat_bitsToNat_take_lt {bs : List Bool} {n : Nat} (hl : n ≤ bs.length) :
    (BitVec.ofNat 32 (bitsToNat (bs.take n))).toNat < 2 ^ n := by
  rw [BitVec.toNat_ofNat]
  exact Nat.lt_of_le_of_lt (Nat.mod_le _ _) (bitsToNat_take_lt hl)

/-- Settles O27: BS_GET is `GetField`, whose value holds the unread bits by position. -/
theorem bsGetResult : Obligations.BsGetResult := by
  unfold Obligations.BsGetResult
  intro n s hs
  simp only [exec]
  refine ⟨decodeCommand_of_encode (i := .bsGet n) rfl, fun h => runCommand_of_raise_start (if_pos h),
    fun hn hl => ?_, fun hn hl => ?_⟩ <;> rw [execBsGet_of_le hn]
  · have hget := getField_ok (w := s.start) hs.readerOk hl
    exact ⟨_, runCommand_of_ok (by rw [hget, Res.bind_ok]), rfl, fun _ hk => getLsbD_ofNat_bitsToNat_take hn hl hk,
      toNat_ofNat_bitsToNat_take_lt hl⟩
  · obtain ⟨r, hget⟩ := getField_eos (w := s.start) hs.readerOk hl
    rw [runCommand, hget, Res.bind_raise, finish_raise]
    rfl

/-! ## The two streams are independent (R156) -/

/-- Outside the footprint of the bit writer its registers are kept; fault entry restores them. -/
theorem Ends.writer (h : Ends i s t) (hf : (footprint s i).buf = .untouched) : t.regs.writer = s.regs.writer := by
  obtain ⟨w, hk, -, ⟨rfl, -⟩ | ⟨c, info, rfl⟩⟩ := h
  · exact hk.writer hf
  · simp [Regs.writer, faultEntry_regs]

theorem Ends.reader (h : Ends i s t) (hf : (footprint s i).reader = false) : t.regs.reader = s.regs.reader := by
  obtain ⟨w, hk, -, ⟨rfl, -⟩ | ⟨c, info, rfl⟩⟩ := h
  · exact hk.reader hf
  · simp [Regs.reader, faultEntry_regs]

/-- Settles O23: only the bit writer's commands have BUF in their footprint, and only the bit reader's the reader. -/
theorem streamsAreIndependent : Obligations.StreamsAreIndependent := by
  unfold Obligations.StreamsAreIndependent
  intro i s t hs hi h
  have he := exec_ends hs hi h
  have hwriter := fun hf => he.writer hf
  have hreader := fun hf => he.reader hf
  simp only [Regs.writer, Regs.reader, Prod.mk.injEq] at hwriter hreader
  constructor
  · cases i
    case bsWinit | bsPut | bsWalign | hufTwrite | hufEnc | hufBenc => trivial
    all_goals exact hwriter rfl
  · cases i
    case bsRinit | bsGet | bsRalign | hufTread | hufDec | hufBdec => trivial
    all_goals exact hreader rfl

/-! ## Write, then read (R155) -/

/-- The bits of a stream started at a byte boundary, padded to the next one, are whole bytes (spec/41_bitstream.md
R143). -/
theorem append_padTo_length (bits : List Bool) : (bits ++ padTo bits.length).length = 8 * ((bits.length + 7) / 8) := by
  rw [List.length_append, padTo_length]
  omega

/-- Bits and their padding, written from a byte boundary. -/
theorem putBits_alignW {w : Work} (h : WriterOk w.st) (hnb : w.st.regs.wnb = 0) {bits : List Bool}
    (hr : w.st.HasRoom (bits ++ padTo bits.length).length) :
    ((putBits bits w).bind fun _ w => alignW w) =
      .ok () { w with st := w.st.afterBits (bits ++ padTo bits.length) } := by
  have hroom : w.st.HasRoom bits.length := by
    simp only [State.HasRoom, List.length_append] at hr ⊢
    omega
  obtain ⟨hw, -, hmod⟩ := afterBits_writerOk h hroom
  have hpad : padTo (w.st.afterBits bits).regs.wnb.toNat = padTo bits.length := by
    rw [hmod, hnb]
    simp [padTo]
  have halign : alignW { w with st := w.st.afterBits bits } =
      putBits (padTo bits.length) { w with st := w.st.afterBits bits } := by
    rw [alignW_eq_putBits_padTo hw, hpad]
  rw [← putBits_room _ h hr, putBits_append, putBits_room bits h hroom, Res.bind_ok, Res.bind_ok, halign]

/-- A read stream that starts at bytes just written reads their bits first. -/
theorem take_unreadBits_of_writeList {m : Mem 8} (hm : m.Rising) {vs : List Byte}
    (hbuf : s.buf = m.writeList s.regs.rpos.toNat vs) (hnb : s.regs.rnb = 0)
    (hlim : s.regs.rpos.toNat + vs.length ≤ s.regs.rlim.toNat) :
    s.unreadBits.take (8 * vs.length) = vs.flatMap fun v => fieldBits 8 v.toNat := by
  obtain ⟨k, hk⟩ := Nat.exists_eq_add_of_le hlim
  have hrange : s.regs.rlim.toNat - s.regs.rpos.toNat = vs.length + k := by omega
  have hbits : ((List.range vs.length).flatMap fun j => fieldBits 8 (s.buf.read (s.regs.rpos.toNat + j)).toNat)
      = vs.flatMap fun v => fieldBits 8 v.toNat := by
    conv_rhs => rw [← Mem.map_read_writeList hm s.regs.rpos.toNat vs, List.flatMap_map]
    rw [hbuf]
  have hcurrent : fieldBits s.regs.rnb.toNat s.regs.racc.toNat = [] := by
    rw [hnb]
    rfl
  rw [State.unreadBits, hcurrent, List.nil_append, hrange, List.range_add, List.flatMap_append, hbits]
  exact List.take_left' (by simp [-fieldBits_succ, Nat.mul_comm])

/-- BS_RINIT at the address of bytes just written, with a limit behind them: `GetBit` returns their bits. -/
theorem execBsRinit_getBits {m : Mem 8} (hm : m.Rising) {vs : List Byte} {a : Imm}
    (hbuf : s.buf = m.writeList a.toNat vs) (ha : a.toNat + vs.length ≤ s.regs.arg.toNat)
    (hlim : s.regs.arg.toNat ≤ s.params.bufSize) (hsize : s.params.bufSize ≤ 16777215) :
    ∃ t, execBsRinit a s = .next t ∧
      ∃ w, getBits (8 * vs.length) t.start = .ok (vs.flatMap fun v => fieldBits 8 v.toNat) w := by
  have hle : a.toNat ≤ s.regs.arg.toNat := by omega
  refine ⟨_, execBsRinit_of_le hlim hle, ?_⟩
  generalize ht : ({ s with regs := _ } : State) = t
  have hpos : t.regs.rpos.toNat = a.toNat := by rw [← ht]; exact zextImm_toNat a
  have hrlim : t.regs.rlim = s.regs.arg := by rw [← ht]
  have hr : ReaderOk t := by
    refine ⟨?_, by rw [hpos, hrlim]; exact hle, ?_, ?_, ?_⟩ <;> rw [← ht]
    · exact Nat.zero_le 7
    · exact hlim
    · exact Nat.zero_le _
    · exact hsize
  have htake : t.unreadBits.take (8 * vs.length) = vs.flatMap fun v => fieldBits 8 v.toNat :=
    take_unreadBits_of_writeList hm (by rw [hpos, ← hbuf, ← ht]) (by rw [← ht]) (by rwa [hpos, hrlim])
  have hlen : 8 * vs.length ≤ t.unreadBits.length := by
    rw [unreadBits_length, hpos, hrlim]
    omega
  rw [← htake]
  exact ⟨_, (getBits_ok _ (w := t.start) hr hlen).1⟩

/-- Settles O28: the bits with their padding are whole bytes, which the write stream stores from WPOS on and the read
stream started there holds first. -/
theorem writeThenRead : Obligations.WriteThenRead := by
  unfold Obligations.WriteThenRead
  intro s bits lim hs hnb m hm hlim
  have hw := hs.writerOk
  have hpad : List.replicate (8 * m - bits.length) false = padTo bits.length := by
    rw [padTo]
    congr 1
    omega
  rw [hpad]
  have hlen : (bits ++ padTo bits.length).length = 8 * m := append_padTo_length bits
  have hpending : s.regs.pendingBits = [] := List.eq_nil_of_length_eq_zero (by rw [pendingBits_length, hnb]; rfl)
  have hbytes : (packBytes (s.regs.pendingBits ++ (bits ++ padTo bits.length))).length = m := by
    rw [hpending, List.nil_append, packBytes_length, hlen]
    omega
  have hroom := (hasRoom_iff s _ _ rfl).2 (hbytes.symm ▸ hm.trans hlim)
  refine ⟨s.afterBits (bits ++ padTo bits.length), putBits_alignW (w := s.start) hw hnb hroom, ?_, ?_, ?_⟩
  · rw [(afterBits_writerOk hw hroom).2.1, hlen, hnb]
    simp
  · exact fun a ha => Mem.read_writeList_outside _ _ _ a (hbytes.symm ▸ ha)
  · have haddr : (s.regs.wpos.setWidth 24).toNat = s.regs.wpos.toNat := by
      have := hw.pos
      have := hw.size
      rw [BitVec.toNat_setWidth, Nat.mod_eq_of_lt (by omega)]
    have hread := execBsRinit_getBits (a := s.regs.wpos.setWidth 24)
      (s := { s.afterBits (bits ++ padTo bits.length) with
        regs := { (s.afterBits (bits ++ padTo bits.length)).regs with arg := lim } })
      hs.buf.1 (by rw [haddr]; rfl) (by rwa [haddr, hbytes]) hlim hw.size
    rwa [hbytes, hpending, List.nil_append, flatMap_packBytes (by omega)] at hread

end Sys2Proof.Machine
end

section
/-! The full-tree check of spec/42_huffman_build.md R180: what it computes is one number, the nodes of a level that the
lengths up to that level take, and the loop over the sorted lengths folds the same counts. -/

namespace Sys2Proof.Machine

variable {lens ls ls' : List Nat} {level c m : Nat}

/-! ## Kraft's equality -/

/-- How many nodes of a level lie at or below the leaves of the lengths 1 to `level`. -/
def levelWeight (lens : List Nat) : Nat → Nat
  | 0 => 0
  | level + 1 => 2 * levelWeight lens level + lens.count (level + 1)

@[simp] theorem levelWeight_nil (level : Nat) : levelWeight [] level = 0 := by
  induction level with
  | zero => rfl
  | succ level ih => simp [levelWeight, ih]

/-- A leaf above the level covers a power of two of its nodes. -/
theorem levelWeight_cons (l : Nat) (lens : List Nat) (level : Nat) :
    levelWeight (l :: lens) level =
      levelWeight lens level + if 0 < l ∧ l ≤ level then 2 ^ (level - l) else 0 := by
  induction level with
  | zero => rw [if_neg (by omega)]; rfl
  | succ level ih =>
    rw [levelWeight, levelWeight, ih, List.count_cons]
    rcases Nat.lt_trichotomy l (level + 1) with hl | rfl | hl
    · have hsub : level + 1 - l = (level - l) + 1 := by omega
      have hne : (l == level + 1) = false := beq_false_of_ne (by omega)
      simp only [hne, hsub, Nat.pow_succ, Bool.false_eq_true, if_false]
      split_ifs <;> omega
    · simp
      omega
    · have hne : (l == level + 1) = false := beq_false_of_ne (by omega)
      simp only [hne, Bool.false_eq_true, if_false]
      split_ifs <;> omega

/-- The Kraft sum, counted in nodes of a level below which there is no leaf. -/
theorem kraftSum_eq (h : ∀ l ∈ lens, l ≤ m) : kraftSum lens = levelWeight lens m / 2 ^ m := by
  induction lens with
  | nil => simp [kraftSum, levelWeight_nil]
  | cons l lens ih =>
    obtain ⟨hl, hls⟩ := List.forall_mem_cons.1 h
    rw [levelWeight_cons, Nat.cast_add, add_div, ← ih hls]
    by_cases h0 : 0 < l
    · rw [if_pos ⟨h0, hl⟩, kraftSum, List.filter_cons_of_pos (by simpa using h0), List.map_cons, List.sum_cons,
        add_comm]
      congr 1
      rw [Nat.cast_pow, Nat.cast_ofNat, one_div, inv_pow, eq_div_iff (by positivity),
        inv_mul_eq_iff_eq_mul₀ (by positivity), ← pow_add, Nat.add_sub_cancel' hl]
    · rw [if_neg fun hc => h0 hc.1, kraftSum, List.filter_cons_of_neg (by simpa using h0)]
      simp [kraftSum]

/-- From a level with at least one node, the folding ends in one node exactly when the nodes carried and the leaves up
to the level fill it. -/
theorem foldLevels_eq_full_iff (h : 0 < c + levelWeight lens level) :
    foldLevels lens level c = .full ↔ c + levelWeight lens level = 2 ^ level := by
  induction level generalizing c with
  | zero =>
    rw [foldLevels]
    simp only [levelWeight] at h ⊢
    split_ifs <;> simp <;> omega
  | succ level ih =>
    rw [levelWeight] at h ⊢
    rw [foldLevels, Nat.pow_succ]
    split_ifs with hodd
    · simp only [false_iff]
      omega
    · rw [ih (by omega)]
      omega

theorem maxLen_mem (h : maxLen lens ≠ 0) : maxLen lens ∈ lens := by
  induction lens with
  | nil => exact absurd rfl h
  | cons l lens ih =>
    rw [maxLen, List.foldr_cons, ← maxLen] at h ⊢
    rcases le_total l (maxLen lens) with hl | hl
    · rw [max_eq_right hl] at h ⊢
      exact List.mem_cons_of_mem _ (ih h)
    · rw [max_eq_left hl]
      exact List.mem_cons_self

/-- The longest length has a leaf, so its level has weight. -/
theorem levelWeight_maxLen_pos (h : maxLen lens ≠ 0) : 0 < levelWeight lens (maxLen lens) := by
  have hcount := List.count_pos_iff.2 (maxLen_mem h)
  obtain ⟨k, hk⟩ := Nat.exists_eq_add_one_of_ne_zero h
  rw [hk] at hcount ⊢
  rw [levelWeight]
  omega

theorem validate_eq_full_iff : validate lens = .full ↔ maxLen lens ≠ 0 ∧ foldLevels lens (maxLen lens) 0 = .full := by
  rw [validate]
  split_ifs with h <;> simp [h]

theorem kraftSum_eq_zero (h : maxLen lens = 0) : kraftSum lens = 0 := by
  rw [kraftSum_eq fun l hl => h ▸ le_maxLen hl, levelWeight]
  simp

theorem validate_eq_full_iff_kraftSum : validate lens = .full ↔ kraftSum lens = 1 := by
  rw [validate_eq_full_iff]
  by_cases h : maxLen lens = 0
  · simp [h, kraftSum_eq_zero h]
  · rw [kraftSum_eq fun l hl => le_maxLen hl, div_eq_one_iff_eq (by positivity),
      foldLevels_eq_full_iff (by have := levelWeight_maxLen_pos h; omega), Nat.zero_add]
    exact ⟨fun hw => by exact_mod_cast hw.2, fun hw => ⟨h, by exact_mod_cast hw⟩⟩

/-! ## The loop over the sorted lengths -/

/-- The folding looks only at how many lengths each level has. -/
theorem foldLevels_congr (h : ∀ k < level, ls.count (k + 1) = ls'.count (k + 1)) (c : Nat) :
    foldLevels ls level c = foldLevels ls' level c := by
  induction level generalizing c with
  | zero => rfl
  | succ level ih =>
    simp only [foldLevels, h level (Nat.lt_succ_self _)]
    split
    · rfl
    · exact ih (fun k hk => h k (by omega)) _

theorem foldLevels_of_not_mem (h : level + 1 ∉ ls) (c : Nat) :
    foldLevels ls (level + 1) c = if c % 2 = 1 then .underfull (level + 1) else foldLevels ls level (c / 2) := by
  rw [foldLevels, List.count_eq_zero.2 h, Nat.add_zero]

/-- Levels without a length are only halved. -/
theorem foldLevels_add (k : Nat) (h : ∀ l ∈ ls, l ≤ level) (c : Nat) :
    (∀ v, halveLevels k (level + k) c = .error v → foldLevels ls (level + k) c = v) ∧
      ∀ c', halveLevels k (level + k) c = .ok c' → foldLevels ls (level + k) c = foldLevels ls level c' := by
  induction k generalizing c with
  | zero => exact ⟨fun v hv => (by cases hv), fun c' hc => (by cases hc; rfl)⟩
  | succ k ih =>
    rw [← Nat.add_assoc, foldLevels_of_not_mem fun hm => by have := h _ hm; omega, halveLevels]
    split
    · exact ⟨fun v hv => (by cases hv; rfl), fun c' hc => (by cases hc)⟩
    · exact ih _

/-- A length at the top level counts as a node carried to it. -/
theorem foldLevels_cons_top (l : Nat) (c : Nat) :
    foldLevels ((l + 1) :: ls) (l + 1) c = foldLevels ls (l + 1) (c + 1) := by
  have hc : c + ((l + 1) :: ls).count (l + 1) = c + 1 + ls.count (l + 1) := by
    rw [List.count_cons_self]
    omega
  simp only [foldLevels, hc]
  split
  · rfl
  · exact foldLevels_congr (fun k hk => List.count_cons_of_ne (by omega)) _

/-- The loop over lengths in descending order is the folding of their levels. -/
theorem foldSorted_eq (hs : ls.Pairwise fun a b => b ≤ a) (hpos : ∀ l ∈ ls, 0 < l) (hle : ∀ l ∈ ls, l ≤ level)
    (c : Nat) : foldSorted ls level c = foldLevels ls level c := by
  induction ls generalizing level c with
  | nil =>
    obtain ⟨herror, hok⟩ := foldLevels_add (ls := []) (level := 0) level (by simp) c
    rw [Nat.zero_add] at herror hok
    rw [foldSorted]
    cases hh : halveLevels level level c with
    | error v => exact (herror v hh).symm
    | ok c' => exact (hok c' hh).symm
  | cons l ls ih =>
    obtain ⟨hl, hs'⟩ := List.pairwise_cons.1 hs
    obtain ⟨hl0, hpos'⟩ := List.forall_mem_cons.1 hpos
    obtain ⟨k, rfl⟩ := Nat.exists_eq_add_of_le (hle l List.mem_cons_self)
    obtain ⟨j, rfl⟩ := Nat.exists_eq_add_one_of_ne_zero hl0.ne'
    obtain ⟨herror, hok⟩ := foldLevels_add k (List.forall_mem_cons.2 ⟨le_rfl, hl⟩) c
    rw [foldSorted, Nat.add_sub_cancel_left]
    cases hh : halveLevels k (j + 1 + k) c with
    | error v => exact (herror v hh).symm
    | ok c' => exact (ih hs' hpos' hl (c' + 1)).trans ((foldLevels_cons_top j c').symm.trans (hok c' hh).symm)

theorem validate_eq_validateSorted (lens : List Nat) : validate lens = validateSorted lens := by
  have hperm := List.mergeSort_perm (lens.filter fun l => decide (0 < l)) fun a b => decide (b ≤ a)
  have hpair := List.pairwise_mergeSort (le := fun a b : Nat => decide (b ≤ a)) (by simp; omega) (by simp; omega)
    (lens.filter fun l => decide (0 < l))
  rw [validateSorted]
  generalize (lens.filter fun l => decide (0 < l)).mergeSort (fun a b => decide (b ≤ a)) = sorted at hperm hpair
  have hmem : ∀ l, l ∈ sorted ↔ l ∈ lens ∧ 0 < l := fun l => by simp [hperm.mem_iff]
  cases sorted with
  | nil =>
    have hmax : maxLen lens = 0 := by
      by_contra h
      exact List.not_mem_nil ((hmem _).2 ⟨maxLen_mem h, Nat.pos_of_ne_zero h⟩)
    rw [validate, if_pos hmax]
  | cons l ls =>
    obtain ⟨hl, hl0⟩ := (hmem l).1 List.mem_cons_self
    have hdesc : ∀ x ∈ l :: ls, x ≤ l :=
      List.forall_mem_cons.2 ⟨le_rfl, fun x hx => by simpa using (List.pairwise_cons.1 hpair).1 x hx⟩
    have hmax : maxLen lens = l := by
      refine le_antisymm (maxLen_le fun x hx => ?_) (le_maxLen hl)
      rcases Nat.eq_zero_or_pos x with rfl | hx0
      · exact Nat.zero_le _
      · exact hdesc x ((hmem x).2 ⟨hx, hx0⟩)
    dsimp only
    rw [validate, hmax, if_neg hl0.ne', foldSorted_eq (by simpa using hpair) (fun x hx => ((hmem x).1 hx).2) hdesc]
    refine foldLevels_congr (fun k _ => ?_) 0
    rw [hperm.count_eq, List.count_filter (by simp)]

/-- Settles O34: both sides of Kraft's equality count the nodes of the deepest level, and the loop over the sorted
lengths folds the same counts as the levels do. -/
theorem fullTreeCheck : Obligations.FullTreeCheck := by
  unfold Obligations.FullTreeCheck
  exact fun lens => ⟨validate_eq_full_iff_kraftSum, validate_eq_validateSorted lens⟩

end Sys2Proof.Machine
end

section
/-! Paths in a code tree: the subtree at the end of a path, and what it says of the codes of the leaves
(spec/42_huffman_build.md R183). -/

namespace Sys2Proof.Machine

variable {t u : Tree} {s a b d n : Nat} {p q : List Bool}

/-- The subtree at the end of a path, left = 0 and right = 1. -/
def Tree.subtree : Tree → List Bool → Option Tree
  | t, [] => some t
  | .leaf _, _ :: _ => none
  | .node l r, b :: p => if b then r.subtree p else l.subtree p

@[simp] theorem Tree.subtree_nil (t : Tree) : t.subtree [] = some t := by cases t <;> rfl

@[simp] theorem Tree.subtree_leaf_cons (s : Nat) (b : Bool) (p : List Bool) :
    (Tree.leaf s).subtree (b :: p) = none := rfl

@[simp] theorem Tree.subtree_node_cons (l r : Tree) (b : Bool) (p : List Bool) :
    (Tree.node l r).subtree (b :: p) = if b then r.subtree p else l.subtree p := rfl

theorem Tree.subtree_append (h : t.subtree p = some u) (q : List Bool) : t.subtree (p ++ q) = u.subtree q := by
  induction p generalizing t with
  | nil => cases (subtree_nil t).symm.trans h; rfl
  | cons b p ih =>
    cases t with
    | leaf s => cases h
    | node l r => cases b <;> exact ih h

/-- Below a leaf there is nothing. -/
theorem Tree.subtree_leaf_eq_some {s : Nat} : (Tree.leaf s).subtree p = some u ↔ p = [] ∧ u = .leaf s := by
  cases p <;> simp [eq_comm]

theorem Tree.symbols_subset_of_subtree (h : t.subtree p = some u) : u.symbols ⊆ t.symbols := by
  induction p generalizing t with
  | nil => cases (subtree_nil t).symm.trans h; exact List.Subset.refl _
  | cons b p ih =>
    cases t with
    | leaf s => cases h
    | node l r =>
      cases b
      · exact List.subset_append_of_subset_left _ (ih h)
      · exact List.subset_append_of_subset_right _ (ih h)

theorem Tree.mem_symbols_of_subtree (h : t.subtree p = some (.leaf s)) : s ∈ t.symbols :=
  symbols_subset_of_subtree h (List.mem_singleton_self s)

/-! ## The path to a symbol -/

theorem Tree.path_eq_none_iff : t.path s = none ↔ s ∉ t.symbols := by
  induction t with
  | leaf s' => by_cases h : s = s' <;> simp [path, symbols, h]
  | node l r ihl ihr => simp [path, symbols, ihl, ihr]

/-- The path to a symbol leads to its leaf. -/
theorem Tree.subtree_of_path (h : t.path s = some p) : t.subtree p = some (.leaf s) := by
  induction t generalizing p with
  | leaf s' =>
    by_cases hs : s = s'
    · simp only [path, hs, if_true, Option.some.injEq] at h
      simp [← h, hs]
    · simp [path, hs] at h
  | node l r ihl ihr =>
    simp only [path, Option.or_eq_some_iff, Option.map_eq_some_iff] at h
    rcases h with ⟨p, hp, rfl⟩ | ⟨-, p, hp, rfl⟩
    · exact ihl hp
    · exact ihr hp

/-- Where no symbol has two leaves, a path to its leaf is its path. -/
theorem Tree.path_of_subtree (hn : t.symbols.Nodup) (h : t.subtree p = some (.leaf s)) : t.path s = some p := by
  induction p generalizing t with
  | nil =>
    cases (subtree_nil t).symm.trans h
    simp [path]
  | cons b p ih =>
    cases t with
    | leaf s' => cases h
    | node l r =>
      obtain ⟨hl, hr, hlr⟩ := List.nodup_append'.1 hn
      cases b
      · simp [path, ih hl h]
      · have hnot : l.path s = none := path_eq_none_iff.2 fun hs => hlr hs (mem_symbols_of_subtree h)
        simp [path, hnot, ih hr h]

/-- No symbol's path starts with another's. -/
theorem Tree.eq_of_path_prefix (ha : t.path a = some p) (hb : t.path b = some q) (h : p <+: q) : a = b := by
  obtain ⟨p', rfl⟩ := h
  have hsub := (subtree_append (subtree_of_path ha) p').symm.trans (subtree_of_path hb)
  obtain ⟨-, hab⟩ := subtree_leaf_eq_some.1 hsub
  exact (Tree.leaf.inj hab).symm

/-- Every infinite bit sequence leads from the root to a leaf. -/
theorem Tree.exists_subtree_leaf (t : Tree) (bits : Nat → Bool) :
    ∃ s k, t.subtree ((List.range k).map bits) = some (.leaf s) := by
  induction t generalizing bits with
  | leaf s => exact ⟨s, 0, rfl⟩
  | node l r ihl ihr =>
    have hcons : ∀ k, (List.range (k + 1)).map bits = bits 0 :: (List.range k).map fun j => bits (j + 1) := fun k => by
      rw [List.range_succ_eq_map, List.map_cons, List.map_map]
      rfl
    cases hb : bits 0 with
    | false =>
      obtain ⟨s, k, h⟩ := ihl fun j => bits (j + 1)
      exact ⟨s, k + 1, by simpa [hcons, hb] using h⟩
    | true =>
      obtain ⟨s, k, h⟩ := ihr fun j => bits (j + 1)
      exact ⟨s, k + 1, by simpa [hcons, hb] using h⟩

/-! ## Depths -/

/-- A leaf lies as deep as its path is long. -/
theorem Tree.mem_depths_of_subtree (h : t.subtree p = some (.leaf s)) (d : Nat) : (s, d + p.length) ∈ t.depths d := by
  induction p generalizing t d with
  | nil => cases (subtree_nil t).symm.trans h; simp [depths]
  | cons b p ih =>
    cases t with
    | leaf s' => cases h
    | node l r =>
      have hlen : d + (b :: p).length = d + 1 + p.length := by rw [List.length_cons]; omega
      rw [hlen, depths, List.mem_append]
      cases b
      · exact .inl (ih h (d + 1))
      · exact .inr (ih h (d + 1))

@[simp] theorem depthList_length (t : Tree) (n : Nat) : (depthList t n).length = n := by simp [depthList]

theorem depthList_getD_of_mem (hn : t.symbols.Nodup) (hs : s < n) (h : (s, d) ∈ t.depths 0) :
    (depthList t n).getD s 0 = d := by
  have hlookup := lookup_eq_of_mem (by rwa [t.depths_map_fst 0]) h
  rw [List.getD_eq_getElem _ _ (by rwa [depthList_length])]
  simp [depthList, hlookup]

theorem depthList_getD_of_not_mem (hs : s ∉ t.symbols) : (depthList t n).getD s 0 = 0 := by
  have hlookup : (t.depths 0).lookup s = none := List.lookup_eq_none_iff.2 fun x hx => bne_iff_ne.2 fun he => hs (by
    rw [← t.depths_map_fst 0, he]
    exact List.mem_map_of_mem hx)
  rcases lt_or_ge s n with hlt | hge
  · rw [List.getD_eq_getElem _ _ (by rwa [depthList_length])]
    simp [depthList, hlookup]
  · exact List.getD_eq_default _ _ (by rwa [depthList_length])

theorem depthList_getD_of_path (hn : t.symbols.Nodup) (hs : s < n) (h : t.path s = some p) :
    (depthList t n).getD s 0 = p.length := by
  simpa using depthList_getD_of_mem hn hs (Tree.mem_depths_of_subtree (Tree.subtree_of_path h) 0)

end Sys2Proof.Machine
end

section
/-! The canonical tree of a length array (spec/42_huffman_build.md R182): level by level its nodes have consecutive
code values (R184), and its leaves are the symbols with a nonzero length, each as deep as its length says. -/

namespace Sys2Proof.Machine

variable {lens : List Nat} {t u : Tree} {ts us : List Tree} {level sym i c : Nat}

/-! ## Pairing -/

theorem pairUp_of_even {k : Nat} (h : ts.length = 2 * k) : ∃ us, pairUp ts = some us ∧ us.length = k := by
  induction ts using pairUp.induct generalizing k with
  | case1 => exact ⟨[], rfl, by rw [List.length_nil] at h ⊢; omega⟩
  | case2 x => rw [List.length_singleton] at h; omega
  | case3 x y ts ih =>
    obtain ⟨j, rfl⟩ : ∃ j, k = j + 1 := ⟨k - 1, by simp only [List.length_cons] at h; omega⟩
    obtain ⟨us, hus, hlen⟩ := ih (k := j) (by simp only [List.length_cons] at h; omega)
    exact ⟨.node x y :: us, by simp [pairUp, hus], by simp [hlen]⟩

theorem pairUp_cons_cons_eq_some {x y : Tree} (h : pairUp (x :: y :: ts) = some us) :
    ∃ vs, pairUp ts = some vs ∧ us = .node x y :: vs := by
  obtain ⟨vs, hvs, rfl⟩ := Option.map_eq_some_iff.1 h
  exact ⟨vs, hvs, rfl⟩

theorem pairUp_symbols (h : pairUp ts = some us) : us.flatMap Tree.symbols = ts.flatMap Tree.symbols := by
  induction ts using pairUp.induct generalizing us with
  | case1 => cases h; rfl
  | case2 x => cases h
  | case3 x y ts ih =>
    obtain ⟨vs, hvs, rfl⟩ := pairUp_cons_cons_eq_some h
    simp [Tree.symbols, ih hvs]

/-- Each node of a level is the left or the right child of its pair. -/
theorem pairUp_child (h : pairUp ts = some us) (hi : ts[i]? = some t) :
    ∃ u, us[i / 2]? = some u ∧ u.subtree [decide (i % 2 = 1)] = some t := by
  induction ts using pairUp.induct generalizing us i with
  | case1 => cases hi
  | case2 x => cases h
  | case3 x y ts ih =>
    obtain ⟨vs, hvs, rfl⟩ := pairUp_cons_cons_eq_some h
    match i with
    | 0 => exact ⟨.node x y, rfl, by simpa using hi⟩
    | 1 => exact ⟨.node x y, rfl, by simpa using hi⟩
    | i + 2 =>
      obtain ⟨u, hu, hsub⟩ := ih hvs (i := i) (by simpa using hi)
      exact ⟨u, by rw [Nat.add_div_right _ (by decide)]; simpa using hu, by rwa [Nat.add_mod_right]⟩

/-! ## The leaves of a level -/

/-- The symbols of length `level` below `k`, counted. -/
theorem length_filter_range_getD {k : Nat} (hk : k ≤ lens.length) :
    ((List.range k).filter fun s => decide (lens.getD s 0 = level)).length = (lens.take k).count level := by
  have htake : lens.take k = (List.range k).map fun s => lens.getD s 0 := by
    refine List.ext_getElem (by simp [hk]) fun j hj hj' => ?_
    have : j < lens.length := by rw [List.length_take] at hj; omega
    simp [this]
  rw [htake, List.count, List.countP_map, List.countP_eq_length_filter]
  rfl

theorem leavesAt_length (lens : List Nat) (level : Nat) : (leavesAt lens level).length = lens.count level := by
  rw [leavesAt, List.length_map, length_filter_range_getD le_rfl, List.take_length]

theorem lt_length_of_getD_pos (h : 0 < lens.getD sym 0) : sym < lens.length := by
  by_contra hge
  rw [List.getD_eq_default _ _ (by omega)] at h
  exact Nat.lt_irrefl _ h

/-- The leaf of a symbol stands after those of the lower symbols of its length. -/
theorem leavesAt_getElem? (h : sym < lens.length) :
    (leavesAt lens (lens.getD sym 0))[(lens.take sym).count (lens.getD sym 0)]? = some (.leaf sym) := by
  obtain ⟨k, hk⟩ := Nat.exists_eq_add_of_lt h
  rw [leavesAt, hk, Nat.add_assoc, List.range_add, List.filter_append, List.range_succ_eq_map, List.map_cons,
    List.filter_cons_of_pos (by simp), List.map_append, ← length_filter_range_getD h.le,
    List.getElem?_append_right (by simp)]
  simp

theorem leavesAt_symbols (lens : List Nat) (level : Nat) : (leavesAt lens level).flatMap Tree.symbols =
    (List.range lens.length).filter fun s => decide (lens.getD s 0 = level) := by
  simp [leavesAt, List.flatMap_map, Tree.symbols]

/-! ## The levels of the tree -/

/-- The nodes are subtrees of t on one level, with consecutive code values from `start` on. -/
def Tree.HasRow (t : Tree) (level start : Nat) (nodes : List Tree) : Prop :=
  ∀ i u, nodes[i]? = some u → ∃ p, t.subtree p = some u ∧ p.length = level ∧ bitsToNat p = start + i

theorem Tree.hasRow_root (t : Tree) : t.HasRow 0 0 [t] := by
  intro i u h
  obtain ⟨rfl, rfl⟩ : i = 0 ∧ t = u := by cases i <;> simp_all
  exact ⟨[], subtree_nil t, rfl, rfl⟩

/-- The children of a part of a row are a row. -/
theorem Tree.HasRow.children {start : Nat} {xs : List Tree} (h : t.HasRow level start (xs ++ us))
    (hp : pairUp ts = some us) : t.HasRow (level + 1) (2 * (start + xs.length)) ts := by
  intro i v hv
  obtain ⟨u, hu, hsub⟩ := pairUp_child hp hv
  obtain ⟨p, hpu, hlen, hval⟩ := h (xs.length + i / 2) u (by
    rw [List.getElem?_append_right (by omega), Nat.add_sub_cancel_left, hu])
  refine ⟨p ++ [decide (i % 2 = 1)], (subtree_append hpu _).trans hsub, by simp [hlen], ?_⟩
  rw [bitsToNat_append, hval]
  rcases Nat.mod_two_eq_zero_or_one i with h2 | h2 <;> simp [h2, bitsToNat] <;> omega

/-- Every level of the canonical tree is a row from the first code value of its length on: the deepest one, and those
above it, which start with the leaves of their length. -/
theorem canonLevels_rows (h : canonLevels lens level ts = some [t]) :
    t.HasRow (level + 1) (firstCode lens (level + 1)) ts ∧
      ∀ l, 0 < l → l ≤ level → ∃ us, t.HasRow l (firstCode lens l) (leavesAt lens l ++ us) := by
  induction level generalizing ts with
  | zero => exact ⟨(Tree.hasRow_root t).children (xs := []) h, fun l h0 hl => by omega⟩
  | succ level ih =>
    obtain ⟨us, hus, h⟩ := Option.bind_eq_some_iff.1 h
    obtain ⟨hrow, hrows⟩ := ih h
    refine ⟨?_, fun l h0 hl => ?_⟩
    · have hc := hrow.children hus
      rwa [leavesAt_length] at hc
    · rcases Nat.lt_or_ge level l with hlt | hge
      · obtain rfl : l = level + 1 := by omega
        exact ⟨us, hrow⟩
      · exact hrows l h0 hge

/-- Where the level-by-level check goes through, so does the pairing. -/
theorem exists_canonLevels (hlen : ts.length = 2 * c) (h : foldLevels lens level c = .full) :
    ∃ us, canonLevels lens level ts = some us ∧ us.length ≤ 1 := by
  induction level generalizing ts c with
  | zero =>
    obtain ⟨us, hus, rfl⟩ := pairUp_of_even hlen
    refine ⟨us, hus, ?_⟩
    by_contra hgt
    rw [foldLevels, if_pos (by omega)] at h
    cases h
  | succ level ih =>
    obtain ⟨us, hus, rfl⟩ := pairUp_of_even hlen
    rw [foldLevels] at h
    split at h
    · cases h
    · obtain ⟨vs, hvs, hle⟩ := ih (ts := leavesAt lens (level + 1) ++ us)
        (by rw [List.length_append, leavesAt_length]; omega) h
      exact ⟨vs, by simp [canonLevels, hus, hvs], hle⟩

/-- The pairing keeps the leaves, and each level adds those of its length. -/
theorem canonLevels_symbols (h : canonLevels lens level ts = some us) :
    (us.flatMap Tree.symbols).Perm (ts.flatMap Tree.symbols ++
      (List.range lens.length).filter fun s => decide (0 < lens.getD s 0 ∧ lens.getD s 0 ≤ level)) := by
  induction level generalizing ts with
  | zero =>
    have hnil : ((List.range lens.length).filter fun s => decide (0 < lens.getD s 0 ∧ lens.getD s 0 ≤ 0)) = [] :=
      List.filter_eq_nil_iff.2 fun s _ => by simp; omega
    rw [hnil, List.append_nil, pairUp_symbols h]
  | succ level ih =>
    obtain ⟨vs, hvs, h⟩ := Option.bind_eq_some_iff.1 h
    have hhere : ∀ s, (decide (lens.getD s 0 = level + 1) && decide (0 < lens.getD s 0 ∧ lens.getD s 0 ≤ level + 1)) =
        decide (lens.getD s 0 = level + 1) := fun s => by
      rw [← Bool.decide_and, decide_eq_decide]; omega
    have hbelow : ∀ s, (!decide (lens.getD s 0 = level + 1) && decide (0 < lens.getD s 0 ∧ lens.getD s 0 ≤ level + 1)) =
        decide (0 < lens.getD s 0 ∧ lens.getD s 0 ≤ level) := fun s => by
      rw [← decide_not, ← Bool.decide_and, decide_eq_decide]; omega
    have hsplit := List.filter_append_perm (fun s => decide (lens.getD s 0 = level + 1))
      ((List.range lens.length).filter fun s => decide (0 < lens.getD s 0 ∧ lens.getD s 0 ≤ level + 1))
    simp only [List.filter_filter, hhere, hbelow] at hsplit
    have hih := ih h
    rw [List.flatMap_append, leavesAt_symbols, pairUp_symbols hvs] at hih
    refine (hih.trans (List.perm_append_comm.append_right _)).trans ?_
    rw [List.append_assoc]
    exact hsplit.append_left _

/-! ## The tree -/

theorem canonTree_eq_some_iff : canonTree lens = some t ↔ canonLevels lens (maxLen lens) [] = some [t] := by
  unfold canonTree
  split <;> simp_all

theorem getD_le_maxLen (lens : List Nat) (sym : Nat) : lens.getD sym 0 ≤ maxLen lens := by
  rcases lt_or_ge sym lens.length with h | h
  · rw [List.getD_eq_getElem _ _ h]
    exact le_maxLen (List.getElem_mem h)
  · rw [List.getD_eq_default _ _ h]
    exact Nat.zero_le _

/-- The leaves of the canonical tree are the symbols with a nonzero length. -/
theorem canonTree_symbols (h : canonTree lens = some t) :
    t.symbols.Perm ((List.range lens.length).filter fun s => decide (0 < lens.getD s 0)) := by
  have hperm := canonLevels_symbols (canonTree_eq_some_iff.1 h)
  simpa only [getD_le_maxLen, and_true, List.flatMap_nil, List.nil_append, List.flatMap_singleton] using hperm

theorem canonTree_nodup (h : canonTree lens = some t) : t.symbols.Nodup :=
  (canonTree_symbols h).nodup_iff.2 (List.nodup_range.filter _)

theorem mem_canonTree_symbols (h : canonTree lens = some t) : sym ∈ t.symbols ↔ 0 < lens.getD sym 0 := by
  rw [(canonTree_symbols h).mem_iff, List.mem_filter, List.mem_range, decide_eq_true_iff]
  exact ⟨And.right, fun hpos => ⟨lt_length_of_getD_pos hpos, hpos⟩⟩

/-- The full-tree check lets exactly one node remain. -/
theorem exists_canonTree (h : validate lens = .full) : ∃ t, canonTree lens = some t := by
  obtain ⟨hmax, hfold⟩ := validate_eq_full_iff.1 h
  obtain ⟨us, hus, hle⟩ := exists_canonLevels (ts := []) rfl hfold
  match us, hle with
  | [t], _ => exact ⟨t, canonTree_eq_some_iff.2 hus⟩
  | [], _ =>
    obtain ⟨s, hs, hmem⟩ := List.getElem_of_mem (maxLen_mem hmax)
    have hnil := (canonLevels_symbols hus).mem_iff (a := s)
    simp only [List.flatMap_nil, List.not_mem_nil, List.nil_append, List.mem_filter, List.mem_range, false_iff] at hnil
    rw [List.getD_eq_getElem _ _ hs, hmem] at hnil
    exact absurd ⟨hs, by simp; omega⟩ hnil

/-- The code of a symbol: as long as its length, with the value of the closed form (spec/42_huffman_build.md R184). -/
theorem canonTree_path (h : canonTree lens = some t) (hs : 0 < lens.getD sym 0) :
    ∃ p, t.path sym = some p ∧ p.length = lens.getD sym 0 ∧
      bitsToNat p = firstCode lens (lens.getD sym 0) + (lens.take sym).count (lens.getD sym 0) := by
  obtain ⟨-, hrows⟩ := canonLevels_rows (canonTree_eq_some_iff.1 h)
  obtain ⟨us, hrow⟩ := hrows _ hs (getD_le_maxLen lens sym)
  have hleaf := leavesAt_getElem? (lt_length_of_getD_pos hs)
  obtain ⟨hlt, -⟩ := List.getElem?_eq_some_iff.1 hleaf
  obtain ⟨p, hp, hlen, hval⟩ := hrow _ _ ((List.getElem?_append_left hlt).trans hleaf)
  exact ⟨p, Tree.path_of_subtree (canonTree_nodup h) hp, hlen, hval⟩

theorem codeOf_eq_path (h : canonTree lens = some t) (sym : Nat) : codeOf lens sym = t.path sym := by
  rw [codeOf, h, Option.bind_some]

/-- The canonical tree has the depths that it was made from. -/
theorem depthList_canonTree (h : canonTree lens = some t) : depthList t lens.length = lens := by
  refine List.ext_getElem (depthList_length ..) fun s hs hs' => ?_
  rw [← List.getD_eq_getElem _ 0 hs, ← List.getD_eq_getElem _ 0 hs']
  rcases Nat.eq_zero_or_pos (lens.getD s 0) with h0 | hpos
  · rw [h0, depthList_getD_of_not_mem fun hm => by have := (mem_canonTree_symbols h).1 hm; omega]
  · obtain ⟨p, hp, hlen, -⟩ := canonTree_path h hpos
    rw [depthList_getD_of_path (canonTree_nodup h) hs' hp, hlen]

/-! ## The obligations -/

/-- Settles O36: a code is a path in the canonical tree, whose leaves are the symbols with a nonzero length. -/
theorem canonicalCodeIsComplete : Obligations.CanonicalCodeIsComplete := by
  unfold Obligations.CanonicalCodeIsComplete
  intro lens hfull
  obtain ⟨t, ht⟩ := exists_canonTree hfull
  simp only [codeOf_eq_path ht]
  refine ⟨fun sym hs => ?_, fun sym hs => ?_, fun a b ca cb => Tree.eq_of_path_prefix, fun bits => ?_⟩
  · obtain ⟨p, hp, hlen, -⟩ := canonTree_path ht hs
    exact ⟨p, hp, hlen⟩
  · exact Tree.path_eq_none_iff.2 fun hm => by have := (mem_canonTree_symbols ht).1 hm; omega
  · obtain ⟨s, k, hsub⟩ := t.exists_subtree_leaf bits
    exact ⟨s, _, Tree.path_of_subtree (canonTree_nodup ht) hsub, by simp⟩

/-- Settles O37: in the canonical tree the leaves of a length are the first nodes of their level, whose code values are
consecutive. -/
theorem canonicalCodeClosedForm : Obligations.CanonicalCodeClosedForm := by
  unfold Obligations.CanonicalCodeClosedForm
  intro lens hfull sym hs
  obtain ⟨t, ht⟩ := exists_canonTree hfull
  obtain ⟨p, hp, -, hval⟩ := canonTree_path ht hs
  exact ⟨p, (codeOf_eq_path ht sym).trans hp, hval⟩

end Sys2Proof.Machine
end

section
/-! The greedy merge of spec/42_huffman_build.md R174 and R175: the queue of `buildTree` is in priority order, so its
tree is one of `GreedyMerge`. -/

namespace Sys2Proof.Machine

variable {q q' : List QNode} {t : Tree} {freqs : List Nat} {k : Nat}

theorem Lower.weight_le {a b : QNode} (h : Lower a b) : a.weight ≤ b.weight := by
  unfold Lower at h
  omega

theorem GreedyMerge.perm (h : GreedyMerge q t) (hp : q'.Perm q) : GreedyMerge q' t := by
  cases h with
  | single x => cases List.perm_singleton.1 hp; exact .single x
  | merge _ rest x y _ hq hxy hrest h => exact .merge q' rest x y t (hp.trans hq) hxy hrest h

/-- Inserting nodes with different lowest symbols one by one gives their priority order. -/
theorem foldr_insertNode_pairwise (hn : (q.map QNode.low).Nodup) : (q.foldr insertNode []).Pairwise Lower := by
  induction q with
  | nil => exact .nil
  | cons x q ih =>
    obtain ⟨hx, hn⟩ := List.nodup_cons.1 hn
    refine insertNode_pairwise (ih hn) fun y hy he => hx ?_
    rw [he]
    exact List.mem_map_of_mem ((foldr_insertNode_perm q).mem_iff.1 hy)

/-- On a queue in priority order the merge is greedy, and it ends when it may merge all nodes. -/
theorem exists_mergeQueue (hs : q.Pairwise Lower) (hn : (q.map QNode.low).Nodup) (hq : q ≠ []) (hk : q.length ≤ k + 1) :
    ∃ t, mergeQueue k q = some t ∧ GreedyMerge q t := by
  induction k generalizing q with
  | zero =>
    match q, hq, hk with
    | [x], _, _ => exact ⟨x.tree, rfl, .single x⟩
  | succ k ih =>
    match q, hq with
    | [x], _ => exact ⟨x.tree, rfl, .single x⟩
    | x :: y :: rest, _ =>
      obtain ⟨hx, hs⟩ := List.pairwise_cons.1 hs
      obtain ⟨hy, hs⟩ := List.pairwise_cons.1 hs
      simp only [List.map_cons, List.nodup_cons, List.mem_cons, not_or] at hn
      obtain ⟨⟨-, hxn⟩, hyn, hn⟩ := hn
      have hlow : (mergeNodes x y).low ∉ rest.map QNode.low := by
        rcases min_choice x.low y.low with h | h <;> simpa only [mergeNodes, h]
      have hperm := insertNode_perm (mergeNodes x y) rest
      obtain ⟨t, ht, hg⟩ := ih (q := insertNode (mergeNodes x y) rest)
        (insertNode_pairwise hs fun b hb he => hlow (he ▸ List.mem_map_of_mem hb))
        ((hperm.map QNode.low).nodup_iff.2 (List.nodup_cons.2 ⟨hlow, hn⟩))
        (fun h0 => by rw [h0] at hperm; exact absurd hperm (by simp))
        (by rw [hperm.length_eq]; simpa using hk)
      exact ⟨t, ht, .merge _ rest x y t (.refl _) (hx y List.mem_cons_self) hy (hg.perm hperm.symm)⟩

theorem leafNodes_map_low (freqs : List Nat) : (leafNodes freqs).map QNode.low = leafSymbols freqs := by
  simp [leafNodes, Function.comp_def]

/-- `BuildTree()` on two symbols or more gives a tree of the greedy merge over the leaves. -/
theorem exists_buildTree (h : 2 ≤ freqs.length) :
    ∃ t, buildTree freqs = some t ∧ GreedyMerge (leafNodes freqs) t := by
  have hperm := foldr_insertNode_perm (leafNodes freqs)
  have hn : ((leafNodes freqs).map QNode.low).Nodup := leafNodes_map_low freqs ▸ leafSymbols_nodup freqs
  have hlen : 2 ≤ (leafNodes freqs).length := by simpa [leafNodes] using two_le_leafSymbols_length h
  obtain ⟨t, ht, hg⟩ := exists_mergeQueue (k := (leafNodes freqs).length) (foldr_insertNode_pairwise hn)
    ((hperm.map QNode.low).nodup_iff.2 hn)
    (List.ne_nil_of_length_pos (by rw [hperm.length_eq]; omega)) (by rw [hperm.length_eq]; omega)
  exact ⟨t, (buildTree_eq freqs).trans ht, hg.perm hperm.symm⟩

theorem buildTree_greedyMerge (h : 2 ≤ freqs.length) (ht : buildTree freqs = some t) :
    GreedyMerge (leafNodes freqs) t := by
  obtain ⟨t', ht', hg⟩ := exists_buildTree h
  cases ht.symm.trans ht'
  exact hg

theorem buildTree_nodup (ht : buildTree freqs = some t) : t.symbols.Nodup :=
  (buildTree_symbols ht).nodup_iff.2 (leafSymbols_nodup freqs)

end Sys2Proof.Machine
end

section
/-! The tree of the greedy merge costs no more than any code in which no word starts another
(spec/42_huffman_build.md R187). A code is looked at through the lengths of its words alone, of which Kraft's inequality
is all that is needed: in an assignment of lengths to the nodes of the queue the two lowest nodes can be given the two
longest lengths, the longest can be cut to the second, and then the merged node stands one level above them. -/

namespace Sys2Proof.Machine

/-! ## The cost of a tree -/

variable {f : Nat → Nat} {t : Tree} {q : List QNode} {ls ls' : List Nat} {m m' : Nat}

/-- The sum of the counts of a tree's leaves. -/
def Tree.weight (f : Nat → Nat) (t : Tree) : Nat := (t.symbols.map f).sum

/-- The sum of count times depth over a tree's leaves: each inner node adds its weight. -/
def Tree.cost (f : Nat → Nat) : Tree → Nat
  | .leaf _ => 0
  | .node l r => l.cost f + r.cost f + (l.weight f + r.weight f)

theorem Tree.weight_node (l r : Tree) : (Tree.node l r).weight f = l.weight f + r.weight f := by
  simp [weight, symbols]

theorem Tree.sum_depths (t : Tree) (d : Nat) :
    ((t.depths d).map fun x => f x.1 * x.2).sum = t.cost f + d * t.weight f := by
  induction t generalizing d with
  | leaf s => simp [depths, cost, weight, symbols, Nat.mul_comm]
  | node l r ihl ihr =>
    rw [depths, List.map_append, List.sum_append, ihl, ihr, cost, weight_node]
    ring

/-- The cost of a tree, read off its length array. -/
theorem Tree.cost_eq_sum_depthList {n : Nat} (hn : t.symbols.Nodup) (hlt : ∀ s ∈ t.symbols, s < n) :
    t.cost f = (t.symbols.map fun s => f s * (depthList t n).getD s 0).sum := by
  have hsum := t.sum_depths (f := f) 0
  rw [Nat.zero_mul, Nat.add_zero] at hsum
  rw [← hsum, ← t.depths_map_fst 0, List.map_map]
  refine congrArg List.sum (List.map_congr_left fun x hx => ?_)
  have hs : x.1 ∈ t.symbols := t.depths_map_fst 0 ▸ List.mem_map_of_mem hx
  rw [Function.comp_apply, depthList_getD_of_mem hn (hlt _ hs) hx]

/-! ## Lengths under Kraft's inequality -/

/-- Σ 2^(-l) over a list of lengths. -/
noncomputable def halfPowers (ls : List Nat) : ℝ := (ls.map fun l => (1 / 2 : ℝ) ^ l).sum

theorem halfPowers_cons (l : Nat) (ls : List Nat) : halfPowers (l :: ls) = (1 / 2) ^ l + halfPowers ls := by
  simp [halfPowers]

theorem halfPowers_perm (h : ls.Perm ls') : halfPowers ls = halfPowers ls' := (h.map _).sum_eq

theorem two_pow_mul_half_pow (k : Nat) : (2 : ℝ) ^ k * (1 / 2) ^ k = 1 := by
  rw [← mul_pow]
  norm_num

/-- Lengths up to m add up to a whole number of nodes of level m. -/
theorem exists_halfPowers_eq (h : ∀ l ∈ ls, l ≤ m) : ∃ n : ℕ, halfPowers ls = n * (1 / 2) ^ m := by
  induction ls with
  | nil => exact ⟨0, by simp [halfPowers]⟩
  | cons l ls ih =>
    obtain ⟨hl, hls⟩ := List.forall_mem_cons.1 h
    obtain ⟨n, hn⟩ := ih hls
    refine ⟨2 ^ (m - l) + n, ?_⟩
    obtain ⟨k, rfl⟩ := Nat.exists_eq_add_of_le hl
    rw [halfPowers_cons, hn, Nat.add_sub_cancel_left, Nat.cast_add, add_mul, Nat.cast_pow, Nat.cast_ofNat, pow_add,
      mul_left_comm (2 ^ k : ℝ), two_pow_mul_half_pow, mul_one]

/-- The longest length is cut to the second longest, and the two are made siblings. -/
theorem halfPowers_siblings (hls : ∀ l ∈ ls, l ≤ m') (h : halfPowers (m :: m' :: ls) ≤ 1) :
    ∃ k, m' = k + 1 ∧ halfPowers (k :: ls) ≤ 1 := by
  obtain ⟨n, hn⟩ := exists_halfPowers_eq hls
  have hm : (0 : ℝ) < (1 / 2) ^ m := by positivity
  have hm' : (0 : ℝ) < (1 / 2) ^ m' := by positivity
  have hunit := two_pow_mul_half_pow m'
  rw [halfPowers_cons, halfPowers_cons, hn] at h
  have hlt : n + 1 < 2 ^ m' := by
    have : ((n + 1 : ℕ) : ℝ) < (2 ^ m' : ℕ) := by
      refine lt_of_mul_lt_mul_right ?_ hm'.le
      push_cast
      linarith
    exact_mod_cast this
  cases m' with
  | zero => omega
  | succ k =>
    refine ⟨k, rfl, ?_⟩
    have hle : ((n + 2 : ℕ) : ℝ) ≤ (2 ^ (k + 1) : ℕ) := by exact_mod_cast hlt
    have := mul_le_mul_of_nonneg_right hle hm'.le
    push_cast at this
    rw [halfPowers_cons, hn]
    have hk : (1 / 2 : ℝ) ^ k = 2 * (1 / 2) ^ (k + 1) := by rw [pow_succ]; ring
    linarith

/-- Σ weight times length over an assignment of lengths to weights. -/
def lengthCost (ps : List (Nat × Nat)) : Nat := (ps.map fun x => x.1 * x.2).sum

theorem lengthCost_cons (w l : Nat) (ps : List (Nat × Nat)) : lengthCost ((w, l) :: ps) = w * l + lengthCost ps := by
  simp [lengthCost]

theorem lengthCost_perm {ps ps' : List (Nat × Nat)} (h : ps.Perm ps') : lengthCost ps = lengthCost ps' :=
  (h.map _).sum_eq

/-- A least weight can be given the longest length: each exchange of its length for a longer one costs nothing. -/
theorem exists_longest_first (w l : Nat) (ps : List (Nat × Nat)) (hw : ∀ x ∈ ps, w ≤ x.1) :
    ∃ m ps', ps'.map Prod.fst = ps.map Prod.fst ∧ (m :: ps'.map Prod.snd).Perm (l :: ps.map Prod.snd) ∧
      (∀ x ∈ ps', x.2 ≤ m) ∧ lengthCost ((w, m) :: ps') ≤ lengthCost ((w, l) :: ps) := by
  induction ps with
  | nil => exact ⟨l, [], rfl, .refl _, by simp, le_rfl⟩
  | cons x ps ih =>
    obtain ⟨hx, hps⟩ := List.forall_mem_cons.1 hw
    obtain ⟨m, ps', hfst, hsnd, hle, hcost⟩ := ih hps
    obtain ⟨v, c⟩ := x
    rw [lengthCost_cons, lengthCost_cons] at hcost
    rcases Nat.le_total c m with hc | hc
    · refine ⟨m, (v, c) :: ps', by simp [hfst], ?_, List.forall_mem_cons.2 ⟨hc, hle⟩, ?_⟩
      · exact (List.Perm.swap ..).trans ((hsnd.cons c).trans (.swap ..))
      · simp only [lengthCost_cons]
        omega
    · refine ⟨c, (v, m) :: ps', by simp [hfst], ?_, List.forall_mem_cons.2 ⟨hc, fun y hy => (hle y hy).trans hc⟩, ?_⟩
      · exact (hsnd.cons c).trans (.swap ..)
      · have hswap : w * c + v * m ≤ w * m + v * c := mul_add_mul_le_mul_add_mul hx hc
        simp only [lengthCost_cons]
        omega

/-- The two least weights can be given the two longest lengths, and then be made siblings one level below k. -/
theorem exists_siblings {w v a b : Nat} {ps : List (Nat × Nat)} (hwv : w ≤ v) (hv : ∀ x ∈ ps, v ≤ x.1)
    (h : halfPowers (a :: b :: ps.map Prod.snd) ≤ 1) :
    ∃ k ps', ps'.map Prod.fst = ps.map Prod.fst ∧ halfPowers (k :: ps'.map Prod.snd) ≤ 1 ∧
      (w + v) * (k + 1) + lengthCost ps' ≤ lengthCost ((w, a) :: (v, b) :: ps) := by
  obtain ⟨m, ps₁, hfst₁, hsnd₁, hle₁, hcost₁⟩ := exists_longest_first w a ((v, b) :: ps)
    (List.forall_mem_cons.2 ⟨hwv, fun x hx => hwv.trans (hv x hx)⟩)
  obtain ⟨⟨v', b₁⟩, ps₂, rfl, hv', hfst₂⟩ := List.map_eq_cons_iff.1 hfst₁
  obtain rfl : v = v' := hv'.symm
  have hv₂ : ∀ x ∈ ps₂, v ≤ x.1 := fun x hx => by
    obtain ⟨y, hy, hyx⟩ := List.mem_map.1 (hfst₂ ▸ List.mem_map_of_mem (f := Prod.fst) hx)
    exact hyx ▸ hv y hy
  obtain ⟨m', ps₃, hfst₃, hsnd₃, hle₃, hcost₃⟩ := exists_longest_first v b₁ ps₂ hv₂
  have hm : m' ≤ m := by
    obtain ⟨x, hx, rfl⟩ := List.mem_map.1
      (show m' ∈ ((v, b₁) :: ps₂).map Prod.snd from hsnd₃.mem_iff.1 List.mem_cons_self)
    exact hle₁ x hx
  obtain ⟨k, rfl, hk⟩ := halfPowers_siblings (m := m) (m' := m') (List.forall_mem_map.2 hle₃)
    ((halfPowers_perm ((hsnd₃.cons m).trans hsnd₁)).trans_le h)
  refine ⟨k, ps₃, hfst₃.trans hfst₂, hk, ?_⟩
  have hcut : w * (k + 1) ≤ w * m := Nat.mul_le_mul_left w hm
  simp only [lengthCost_cons] at hcost₁ hcost₃ ⊢
  rw [Nat.add_mul]
  omega

/-- An assignment whose weights are w first, in whatever order they are listed, has a length for w. -/
theorem exists_perm_cons {ps : List (Nat × Nat)} {w : Nat} {ws : List Nat} (h : (ps.map Prod.fst).Perm (w :: ws)) :
    ∃ l ps', ps.Perm ((w, l) :: ps') ∧ (ps'.map Prod.fst).Perm ws := by
  obtain ⟨⟨_, l⟩, hmem, rfl⟩ := List.mem_map.1 (h.mem_iff.2 List.mem_cons_self)
  have hp := List.perm_cons_erase hmem
  exact ⟨l, _, hp, (List.perm_cons _).1 ((hp.map Prod.fst).symm.trans h)⟩

/-! ## The greedy merge -/

/-- No assignment of lengths under Kraft's inequality to the nodes of the queue costs less than the greedy tree. -/
theorem GreedyMerge.cost_le (h : GreedyMerge q t) (hw : ∀ x ∈ q, x.weight = x.tree.weight f) {ps : List (Nat × Nat)}
    (hps : (ps.map Prod.fst).Perm (q.map QNode.weight)) (hk : halfPowers (ps.map Prod.snd) ≤ 1) :
    t.cost f ≤ lengthCost ps + (q.map fun x => x.tree.cost f).sum := by
  induction h generalizing ps with
  | single x => simp
  | merge q rest x y t hq hxy hrest _ ih =>
    obtain ⟨hx, hy, hr⟩ : x.weight = x.tree.weight f ∧ y.weight = y.tree.weight f ∧
        ∀ z ∈ rest, z.weight = z.tree.weight f := by
      simpa [hq.mem_iff] using hw
    obtain ⟨a, ps₁, hp₁, hf₁⟩ := exists_perm_cons (hps.trans (hq.map _))
    obtain ⟨b, ps₂, hp₂, hf₂⟩ := exists_perm_cons hf₁
    have hyw : ∀ z ∈ ps₂, y.weight ≤ z.1 := fun z hz => by
      obtain ⟨v, hv, hvz⟩ := List.mem_map.1 (hf₂.mem_iff.1 (List.mem_map_of_mem hz))
      exact hvz ▸ (hrest v hv).weight_le
    have hpq := hp₁.trans (hp₂.cons _)
    rw [halfPowers_perm (hpq.map Prod.snd)] at hk
    obtain ⟨k, ps₃, hf₃, hk₃, hcost⟩ := exists_siblings (a := a) (b := b) hxy.weight_le hyw hk
    have hmerged := ih (ps := (x.weight + y.weight, k) :: ps₃)
      (List.forall_mem_cons.2 ⟨by rw [hx, hy, Tree.weight_node], hr⟩) (by simpa [hf₃] using hf₂) hk₃
    have hcosts := (hq.map fun x => x.tree.cost f).sum_eq
    rw [lengthCost_cons, List.map_cons, List.sum_cons, Tree.cost, ← hx, ← hy] at hmerged
    rw [lengthCost_perm hpq, hcosts, List.map_cons, List.map_cons, List.sum_cons, List.sum_cons]
    rw [Nat.mul_succ] at hcost
    omega

/-! ## Kraft's inequality for code words -/

/-- A code without the empty word, in which no word starts another, can be decoded in one way only. -/
theorem uniquelyDecodable_of_prefix {α : Type} {code : Set (List α)} (hne : [] ∉ code)
    (h : ∀ a ∈ code, ∀ b ∈ code, a <+: b → a = b) : InformationTheory.UniquelyDecodable code := by
  intro L₁
  induction L₁ with
  | nil =>
    rintro (_ | ⟨b, L₂⟩) - h₂ heq
    · rfl
    · obtain ⟨rfl, -⟩ := List.append_eq_nil_iff.1 heq.symm
      exact absurd (h₂ [] List.mem_cons_self) hne
  | cons a L₁ ih =>
    rintro (_ | ⟨b, L₂⟩) h₁ h₂ heq
    · obtain ⟨rfl, -⟩ := List.append_eq_nil_iff.1 heq
      exact absurd (h₁ [] List.mem_cons_self) hne
    · obtain ⟨ha, hL₁⟩ := List.forall_mem_cons.1 h₁
      obtain ⟨hb, hL₂⟩ := List.forall_mem_cons.1 h₂
      rw [List.flatten_cons, List.flatten_cons] at heq
      have hab : a = b := by
        rcases List.prefix_or_prefix_of_prefix (List.prefix_append a L₁.flatten)
          (heq ▸ List.prefix_append b L₂.flatten) with hp | hp
        · exact h a ha b hb hp
        · exact (h b hb a ha hp).symm
      subst hab
      rw [ih L₂ hL₁ hL₂ (List.append_cancel_left heq)]

/-- Kraft's inequality for the code words of two symbols or more. -/
theorem halfPowers_code_le {syms : List Nat} {code : Nat → List Bool} (hn : syms.Nodup) (h2 : 2 ≤ syms.length)
    (h : ∀ a ∈ syms, ∀ b ∈ syms, a ≠ b → ¬code a <+: code b) :
    halfPowers (syms.map fun s => (code s).length) ≤ 1 := by
  have heq : ∀ a ∈ syms, ∀ b ∈ syms, code a <+: code b → a = b := fun a ha b hb hp => by
    by_contra hne
    exact h a ha b hb hne hp
  have hinj : Set.InjOn code syms.toFinset := fun a ha b hb hab =>
    heq a (by simpa using ha) b (by simpa using hb) (hab ▸ List.prefix_refl _)
  have hdec : InformationTheory.UniquelyDecodable (syms.toFinset.image code : Set (List Bool)) := by
    simp only [Finset.coe_image, List.coe_toFinset]
    refine uniquelyDecodable_of_prefix ?_ ?_
    · rintro ⟨s, hs, hnil⟩
      have hall : ∀ b ∈ syms, s = b := fun b hb => heq s hs b hb (hnil ▸ List.nil_prefix)
      match syms, h2 with
      | x :: y :: _, _ =>
        have hxy : x = y := (hall x (by simp)).symm.trans (hall y (by simp))
        simp [hxy] at hn
    · rintro _ ⟨a, ha, rfl⟩ _ ⟨b, hb, rfl⟩ hp
      rw [heq a ha b hb hp]
  have hkraft := InformationTheory.kraft_mcmillan_inequality hdec
  rw [Finset.sum_image hinj, List.sum_toFinset _ hn] at hkraft
  simpa [halfPowers, Function.comp_def] using hkraft

/-- Settles O33: the built tree is one of the greedy merge, whose cost Kraft's inequality bounds from below. -/
theorem builtCodeIsOptimal : Obligations.BuiltCodeIsOptimal := by
  unfold Obligations.BuiltCodeIsOptimal
  intro freqs t h2 ht code hcode
  have hperm := buildTree_symbols ht
  have hkraft := halfPowers_code_le (leafSymbols_nodup freqs) (two_le_leafSymbols_length h2) hcode
  have hle := (buildTree_greedyMerge h2 ht).cost_le (f := fun s => freqs.getD s 0)
    (ps := (leafSymbols freqs).map fun s => (freqs.getD s 0, (code s).length))
    (by simp [leafNodes, Tree.weight, Tree.symbols]) (by simp [leafNodes, Function.comp_def])
    (by simpa [Function.comp_def] using hkraft)
  rw [Tree.cost_eq_sum_depthList (buildTree_nodup ht) fun s hs => leafSymbols_lt (hperm.mem_iff.1 hs),
    (hperm.map _).sum_eq] at hle
  simpa [leafNodes, lengthCost, Tree.cost, Function.comp_def] using hle

end Sys2Proof.Machine
end

section
/-! The frequency-table and code commands of spec/42_huffman_build.md sections 1 and 4: their checks in order and their
results. -/

namespace Sys2Proof.Machine

variable {s t : State} {n limit : Imm} {i : Nat}

theorem State.Sane.limit_le (hs : s.Sane) : s.regs.limit.toNat ≤ s.params.symLimitMax := by
  rcases hs.limit with h | h
  · rw [h]
    exact Nat.zero_le _
  · exact h.2

theorem badLimit_eq_true {p : Params} {n : Nat} : badLimit p n = true ↔ n < 2 ∨ p.symLimitMax < n := by simp [badLimit]

/-! ## Frequency-table commands -/

theorem execFtInit_of_range (h2 : 2 ≤ n.toNat) (hn : n.toNat ≤ s.params.symLimitMax) :
    execFtInit n s = .next { s with
      freq := s.freq.zeroBelow n.toNat
      regs := { s.regs with limit := zextImm n }.dropCode } := by
  refine runCommand_of_ok_state (b := false) ?_
  rw [badLimit_eq_false.2 ⟨h2, hn⟩, if_neg Bool.false_ne_true, zeroFreqs_ok hn]
  rfl

theorem execFtInc_eq (hs : s.Sane) (n : Imm) :
    execFtInc n s =
      if s.regs.limit.toNat ≤ n.toNat then .next (s.faulted 0x21#8 .arg (zextImm n))
      else if isNegative (s.freq.read n.toNat) then .next (s.faulted 0x21#8 .negFreq (zextImm n))
      else if s.freq.read n.toNat = Config.freqMax then .next (s.faulted 0x21#8 .freqMax (zextImm n))
      else .next { s with freq := s.freq.write n.toNat (s.freq.read n.toNat + 1) } := by
  by_cases harg : s.regs.limit.toNat ≤ n.toNat
  · rw [if_pos harg]
    exact runCommand_of_raise_start (if_pos harg)
  · have hread : readFreq n.toNat s.start = .ok (s.freq.read n.toNat) s.start :=
      readFreq_ok (Nat.lt_of_lt_of_le (Nat.not_le.1 harg) hs.limit_le)
    rw [if_neg harg]
    split_ifs with hneg hmax
    · exact runCommand_of_raise_start (by rw [if_neg harg, hread, Res.bind_ok, if_pos hneg])
    · exact runCommand_of_raise_start (by rw [if_neg harg, hread, Res.bind_ok, if_neg hneg, if_pos hmax])
    · exact runCommand_of_ok_state (b := false) (by
        rw [if_neg harg, hread, Res.bind_ok, if_neg hneg, if_neg hmax,
          writeFreq_ok (Nat.lt_of_lt_of_le (Nat.not_le.1 harg) hs.limit_le)])

theorem execFtSet_eq (hs : s.Sane) (n : Imm) :
    execFtSet n s =
      if s.regs.limit.toNat ≤ n.toNat then .next (s.faulted 0x22#8 .arg (zextImm n))
      else if isNegative s.regs.arg then .next (s.faulted 0x22#8 .negFreq (zextImm n))
      else .next { s with freq := s.freq.write n.toNat s.regs.arg } := by
  split_ifs with harg hneg
  · exact runCommand_of_raise_start (if_pos harg)
  · exact runCommand_of_raise_start ((if_neg harg).trans (if_pos hneg))
  · exact runCommand_of_ok_state (b := false) (by
      rw [if_neg harg, if_neg hneg, writeFreq_ok (Nat.lt_of_lt_of_le (Nat.not_le.1 harg) hs.limit_le)])

theorem execFtGet_eq (hs : s.Sane) (n : Imm) :
    execFtGet n s =
      if s.regs.limit.toNat ≤ n.toNat then .next (s.faulted 0x23#8 .arg (zextImm n))
      else .next { s with regs := { s.regs with result := s.freq.read n.toNat } } := by
  split_ifs with harg
  · exact runCommand_of_raise_start (if_pos harg)
  · exact runCommand_of_ok_state (b := false) (by
      rw [if_neg harg, readFreq_ok (Nat.lt_of_lt_of_le (Nat.not_le.1 harg) hs.limit_le)]
      rfl)

/-- Settles O29: each command is one chain of checks in the order written, and its one effect. -/
theorem frequencyCommands : Obligations.FrequencyCommands := by
  unfold Obligations.FrequencyCommands
  intro n s hs
  simp only [exec]
  refine ⟨decodeCommand_of_encode (i := .ftInit n) rfl, decodeCommand_of_encode (i := .ftInc n) rfl,
    decodeCommand_of_encode (i := .ftSet n) rfl, decodeCommand_of_encode (i := .ftGet n) rfl, fun h => ?_,
    fun h2 hn => ⟨_, execFtInit_of_range h2 hn, rfl, Mem.read_zeroBelow s.freq n.toNat⟩,
    execFtInc_eq hs n, execFtSet_eq hs n, execFtGet_eq hs n⟩
  exact runCommand_of_raise_start (if_pos (badLimit_eq_true.2 h))

/-! ## HUF_CANON -/

theorem lowestIndex_eq_some {α : Type} {p : α → Bool} {xs : List α} (hi : i < xs.length) (hp : p xs[i] = true)
    (hlow : ∀ j (hj : j < i), p xs[j] = false) : lowestIndex p xs = some i :=
  List.findIdx?_eq_some_iff_getElem.2 ⟨hi, hp, fun j hj => by simp [hlow j hj]⟩

@[simp] theorem State.lens_length (s : State) (n : Nat) : (s.lens n).length = n := by simp [lens]

theorem State.lens_getElem (s : State) (n : Nat) (hi : i < (s.lens n).length) :
    (s.lens n)[i] = (s.len.read i).toNat := by
  simp [lens, Mem.readList]

theorem State.forall_mem_lens {n : Nat} {p : Nat → Prop} : (∀ l ∈ s.lens n, p l) ↔ ∀ i < n, p (s.len.read i).toNat := by
  simp [lens, Mem.readList]

/-- A command's outcome is that of its body on the state it starts in. -/
theorem runCommand_congr {op : Byte} {body body' : Work → Res Unit} (h : body s.start = body' s.start) :
    runCommand op body s = runCommand op body' s := by
  rw [runCommand, runCommand, h]

theorem execHufCanon_lenRange (h2 : 2 ≤ limit.toNat) (hn : limit.toNat ≤ s.params.symLimitMax)
    (hi : lowestIndex (fun l => decide (s.params.maxCodeLen < l)) (s.lens limit.toNat) = some i) :
    execHufCanon limit s = .next (s.faulted 0x31#8 .lenRange (BitVec.ofNat 32 i)) :=
  runCommand_of_raise_start (by
    rw [badLimit_eq_false.2 ⟨h2, hn⟩, if_neg Bool.false_ne_true, readLens_ok hn, Res.bind_ok, hi])

/-- With a limit and lengths in range, HUF_CANON is the full-tree check and the load. -/
theorem execHufCanon_of_fits (h2 : 2 ≤ limit.toNat) (hn : limit.toNat ≤ s.params.symLimitMax)
    (hfit : ∀ l ∈ s.lens limit.toNat, l ≤ s.params.maxCodeLen) :
    execHufCanon limit s = runCommand 0x31#8 (fun w => (checkFull (s.lens limit.toNat) w).bind fun _ w =>
      .ok () (w.setRegs fun r => { r with limit := zextImm limit }.loadCode (maxLen (s.lens limit.toNat)))) s := by
  have hnone : lowestIndex (fun l => decide (s.params.maxCodeLen < l)) (s.lens limit.toNat) = none :=
    lowestIndex_eq_none.2 fun l hl => decide_eq_false (Nat.not_lt.2 (hfit l hl))
  refine runCommand_congr ?_
  rw [badLimit_eq_false.2 ⟨h2, hn⟩, if_neg Bool.false_ne_true, readLens_ok hn, Res.bind_ok, hnone]

theorem execHufCanon_of_full (h2 : 2 ≤ limit.toNat) (hn : limit.toNat ≤ s.params.symLimitMax)
    (hfit : ∀ l ∈ s.lens limit.toNat, l ≤ s.params.maxCodeLen) (hfull : validate (s.lens limit.toNat) = .full) :
    execHufCanon limit s = .next { s with
      regs := { s.regs with limit := zextImm limit }.loadCode (maxLen (s.lens limit.toNat)) } := by
  rw [execHufCanon_of_fits h2 hn hfit]
  exact runCommand_of_ok_state (b := false) (by rw [checkFull, hfull]; rfl)

/-- Settles O35: the limit, the lengths and the full-tree check in turn, each with its fault, and then the load. -/
theorem hufCanonResult : Obligations.HufCanonResult := by
  unfold Obligations.HufCanonResult
  intro limit s
  simp only [exec]
  refine ⟨decodeCommand_of_encode (i := .hufCanon limit) rfl,
    fun h => runCommand_of_raise_start (if_pos (badLimit_eq_true.2 h)),
    fun h2 hn => ⟨fun i hi hlong hlow => ?_, fun hfit => ?_⟩⟩
  · refine execHufCanon_lenRange h2 hn (lowestIndex_eq_some (by rwa [State.lens_length]) ?_ fun j hj => ?_)
    · rw [State.lens_getElem]
      exact decide_eq_true hlong
    · rw [State.lens_getElem]
      exact decide_eq_false (Nat.not_lt.2 (hlow j hj))
  · have hfit := State.forall_mem_lens (p := fun l => l ≤ s.params.maxCodeLen).2 hfit
    refine ⟨fun v hv => ?_, fun c hc => ?_, execHufCanon_of_full h2 hn hfit⟩ <;> rw [execHufCanon_of_fits h2 hn hfit]
    · exact runCommand_of_raise_start (by rw [checkFull, hv]; rfl)
    · exact runCommand_of_raise_start (by rw [checkFull, hc]; rfl)

/-! ## HUF_BUILD -/

/-- The state after a built code with the length array d is loaded (spec/42_huffman_build.md R185). -/
def State.withCode (s : State) (d : List Nat) : State :=
  { s with len := s.len.writeList 0 (d.map (BitVec.ofNat 8)), regs := s.regs.loadCode (maxLen d) }

theorem execHufBuild_negFreq (hs : s.Sane) (h2 : 2 ≤ s.regs.limit.toNat)
    (hi : lowestIndex isNegative (s.freq.readList s.regs.limit.toNat) = some i) :
    execHufBuild s = .next (s.faulted 0x30#8 .negFreq (BitVec.ofNat 32 i)) :=
  runCommand_of_raise_start (by rw [if_neg (Nat.not_lt.2 h2), readFreqs_ok hs.limit_le, Res.bind_ok, hi])

/-- With no negative count, HUF_BUILD is the build and the load. -/
theorem execHufBuild_of_nonneg (hs : s.Sane) (h2 : 2 ≤ s.regs.limit.toNat)
    (hpos : ∀ i < s.regs.limit.toNat, isNegative (s.freq.read i) = false) :
    execHufBuild s = runCommand 0x30#8 (buildAndLoad s.regs.limit.toNat) s := by
  have hnone : lowestIndex isNegative (s.freq.readList s.regs.limit.toNat) = none :=
    lowestIndex_eq_none.2 (by simpa [Mem.readList] using hpos)
  refine runCommand_congr ?_
  rw [if_neg (Nat.not_lt.2 h2), readFreqs_ok hs.limit_le, Res.bind_ok, hnone]

theorem buildAndLoad_lenRange {w : Work} {n : Nat} {t : Tree} (hn : n ≤ w.st.params.symLimitMax)
    (ht : buildTree (w.st.freqs n) = some t)
    (hi : lowestIndex (fun l => decide (w.st.params.maxCodeLen < l)) (depthList t n) = some i) :
    buildAndLoad n w = .raise .lenRange (BitVec.ofNat 32 i) w := by
  rw [State.freqs] at ht
  rw [buildAndLoad, readFreqs_ok hn, Res.bind_ok, ht]
  simp only [hi]

theorem buildAndLoad_of_fits {n : Nat} {t : Tree} (hn : n ≤ s.params.symLimitMax)
    (ht : buildTree (s.freqs n) = some t) (hfit : ∀ l ∈ depthList t n, l ≤ s.params.maxCodeLen) :
    ∃ b, buildAndLoad n s.start = .ok () { st := s.withCode (depthList t n), wroteLen := b } := by
  have hnone : lowestIndex (fun l => decide (s.params.maxCodeLen < l)) (depthList t n) = none :=
    lowestIndex_eq_none.2 fun l hl => decide_eq_false (Nat.not_lt.2 (hfit l hl))
  rw [State.freqs] at ht
  rw [buildAndLoad, readFreqs_ok hn, Res.bind_ok, ht]
  simp only [hnone]
  rw [writeLens_ok (by simpa [depthList_length] using hn)]
  exact ⟨_, rfl⟩

theorem execHufBuild_lenRange {t : Tree} (hs : s.Sane) (h2 : 2 ≤ s.regs.limit.toNat)
    (hpos : ∀ i < s.regs.limit.toNat, isNegative (s.freq.read i) = false)
    (ht : buildTree (s.freqs s.regs.limit.toNat) = some t)
    (hi : lowestIndex (fun l => decide (s.params.maxCodeLen < l)) (depthList t s.regs.limit.toNat) = some i) :
    execHufBuild s = .next (s.faulted 0x30#8 .lenRange (BitVec.ofNat 32 i)) := by
  rw [execHufBuild_of_nonneg hs h2 hpos]
  exact runCommand_of_raise_start (buildAndLoad_lenRange (w := s.start) hs.limit_le ht hi)

theorem execHufBuild_of_fits {t : Tree} (hs : s.Sane) (h2 : 2 ≤ s.regs.limit.toNat)
    (hpos : ∀ i < s.regs.limit.toNat, isNegative (s.freq.read i) = false)
    (ht : buildTree (s.freqs s.regs.limit.toNat) = some t)
    (hfit : ∀ l ∈ depthList t s.regs.limit.toNat, l ≤ s.params.maxCodeLen) :
    execHufBuild s = .next (s.withCode (depthList t s.regs.limit.toNat)) := by
  rw [execHufBuild_of_nonneg hs h2 hpos]
  obtain ⟨b, hb⟩ := buildAndLoad_of_fits hs.limit_le ht hfit
  exact runCommand_of_ok_state hb

theorem decodeCommand_hufBuild (imm : Imm) : decodeCommand (commandWord 0x30#8 imm) = .ok .hufBuild := by
  simp [decodeCommand]

@[simp] theorem State.freqs_length (s : State) (n : Nat) : (s.freqs n).length = n := by simp [freqs]

/-- Settles O30: the checks in turn, and then the load of the tree that `exists_buildTree` gives. -/
theorem hufBuildResult : Obligations.HufBuildResult := by
  unfold Obligations.HufBuildResult
  intro imm s hs
  simp only [exec]
  refine ⟨decodeCommand_hufBuild imm, fun h => runCommand_of_raise_start (if_pos h),
    fun h2 => ⟨fun i hi hneg hlow => ?_, fun hpos => ?_⟩⟩
  · refine execHufBuild_negFreq hs h2 (lowestIndex_eq_some (by rwa [Mem.readList_length]) ?_ fun j hj => ?_)
    · rwa [Mem.readList_getElem]
    · rw [Mem.readList_getElem]
      exact hlow j hj
  · obtain ⟨t, ht, hgreedy⟩ := exists_buildTree (freqs := s.freqs s.regs.limit.toNat) (by rwa [State.freqs_length])
    have hgetD : ∀ {j}, (hj : j < (depthList t s.regs.limit.toNat).length) →
        (depthList t s.regs.limit.toNat).getD j 0 = (depthList t s.regs.limit.toNat)[j] := List.getD_eq_getElem _ 0
    have hlen := depthList_length t s.regs.limit.toNat
    refine ⟨t, ht, hgreedy, fun i hi hlong hlow => ?_, fun hfit => ?_⟩
    · refine execHufBuild_lenRange hs h2 hpos ht (lowestIndex_eq_some (by rwa [hlen]) ?_ fun j hj => ?_)
      · exact decide_eq_true (hgetD _ ▸ hlong)
      · exact decide_eq_false (Nat.not_lt.2 (hgetD _ ▸ hlow j hj))
    · refine execHufBuild_of_fits hs h2 hpos ht fun l hl => ?_
      obtain ⟨j, hj, rfl⟩ := List.getElem_of_mem hl
      exact hgetD hj ▸ hfit j (by rwa [hlen] at hj)

/-- The two ways HUF_BUILD ends: a fault, or the load of the tree's code. -/
theorem execHufBuild_cases (hs : s.Sane) :
    (∃ c info, execHufBuild s = .next (s.faulted 0x30#8 c info)) ∨
      ∃ t, 2 ≤ s.regs.limit.toNat ∧ buildTree (s.freqs s.regs.limit.toNat) = some t ∧
        (∀ l ∈ depthList t s.regs.limit.toNat, l ≤ s.params.maxCodeLen) ∧
        execHufBuild s = .next (s.withCode (depthList t s.regs.limit.toNat)) := by
  by_cases h2 : 2 ≤ s.regs.limit.toNat
  · cases hneg : lowestIndex isNegative (s.freq.readList s.regs.limit.toNat) with
    | some i => exact .inl ⟨_, _, execHufBuild_negFreq hs h2 hneg⟩
    | none =>
      have hpos : ∀ i < s.regs.limit.toNat, isNegative (s.freq.read i) = false := by
        simpa [Mem.readList] using lowestIndex_eq_none.1 hneg
      obtain ⟨t, ht, -⟩ := exists_buildTree (freqs := s.freqs s.regs.limit.toNat) (by rwa [State.freqs_length])
      cases hlong : lowestIndex (fun l => decide (s.params.maxCodeLen < l)) (depthList t s.regs.limit.toNat) with
      | some i => exact .inl ⟨_, _, execHufBuild_lenRange hs h2 hpos ht hlong⟩
      | none =>
        have hfit : ∀ l ∈ depthList t s.regs.limit.toNat, l ≤ s.params.maxCodeLen := by
          simpa using lowestIndex_eq_none.1 hlong
        exact .inr ⟨t, h2, ht, hfit, execHufBuild_of_fits hs h2 hpos ht hfit⟩
  · exact .inl ⟨_, _, runCommand_of_raise_start (if_pos (Nat.not_le.1 h2))⟩

/-! ## A built code is stable (R187) -/

theorem State.lens_withCode (hs : s.Sane) {d : List Nat} (hfit : ∀ l ∈ d, l ≤ s.params.maxCodeLen) :
    (s.withCode d).lens d.length = d :=
  lens_writeList hs.len.1 fun l hl => (hfit l hl).trans hs.params.maxCodeLen_le

/-- HUF_CANON of a code that is already loaded finds it full and loads it as it is. -/
theorem execHufCanon_withCode (hs : s.Sane) (h2 : 2 ≤ s.regs.limit.toNat) {d : List Nat}
    (hlen : d.length = s.regs.limit.toNat) (hfit : ∀ l ∈ d, l ≤ s.params.maxCodeLen) (hfull : validate d = .full) :
    execHufCanon (s.regs.limit.setWidth 24) (s.withCode d) = .next (s.withCode d) := by
  have hmax := hs.params.symLimitMax_le
  have hle := hs.limit_le
  have himm : (s.regs.limit.setWidth 24).toNat = s.regs.limit.toNat := by
    rw [BitVec.toNat_setWidth, Nat.mod_eq_of_lt (by omega)]
  have hword : zextImm (s.regs.limit.setWidth 24) = s.regs.limit := BitVec.eq_of_toNat_eq (by rw [zextImm_toNat, himm])
  have hlens : (s.withCode d).lens (s.regs.limit.setWidth 24).toNat = d := by
    rw [himm, ← hlen, State.lens_withCode hs hfit]
  rw [execHufCanon_of_full (by rwa [himm]) (by rwa [himm]) (by rwa [hlens]) (by rwa [hlens]), hlens, hword]
  rfl

/-- Settles O32: the built tree's depths fill the levels, so they have a canonical tree, which has the same depths; and
that is what HUF_CANON checks. -/
theorem builtCodeIsValid : Obligations.BuiltCodeIsValid := by
  unfold Obligations.BuiltCodeIsValid
  refine ⟨fun freqs h2 => ?_, fun s t hs _ ht hfault => ?_⟩
  · obtain ⟨t, ht, -⟩ := exists_buildTree h2
    have hfull := buildTree_validate h2 ht
    obtain ⟨c, hc⟩ := exists_canonTree hfull
    have hdepths := depthList_canonTree hc
    rw [depthList_length] at hdepths
    exact ⟨t, ht, hfull, c, hc, hdepths⟩
  · simp only [exec] at ht ⊢
    rcases execHufBuild_cases hs with ⟨c, info, hf⟩ | ⟨tree, h2, htree, hfit, hok⟩
    · cases hf.symm.trans ht
      cases hfault
    · cases hok.symm.trans ht
      have hfull := buildTree_validate (by rwa [State.freqs_length]) htree
      rw [State.freqs_length] at hfull
      exact execHufCanon_withCode hs h2 (depthList_length ..) hfit hfull

end Sys2Proof.Machine
end

section
/-! Padding (spec/42_huffman_build.md R176): with fewer than two nonzero counts the tree has two leaves, each at
depth 1. -/

namespace Sys2Proof.Machine

variable {s : State} {t : Tree} {freqs : List Nat} {n i k : Nat}

/-! ## A tree with two leaves -/

theorem Tree.exists_eq_leaf (h : t.symbols.length = 1) : ∃ s, t = .leaf s := by
  cases t with
  | leaf s => exact ⟨s, rfl⟩
  | node l r =>
    have hl := l.symbols_length_pos
    have hr := r.symbols_length_pos
    rw [symbols, List.length_append] at h
    omega

theorem Tree.exists_eq_node_leaf (h : t.symbols.length = 2) : ∃ a b, t = .node (.leaf a) (.leaf b) := by
  cases t with
  | leaf s => cases h
  | node l r =>
    have hl := l.symbols_length_pos
    have hr := r.symbols_length_pos
    rw [symbols, List.length_append] at h
    obtain ⟨a, rfl⟩ := exists_eq_leaf (t := l) (by omega)
    obtain ⟨b, rfl⟩ := exists_eq_leaf (t := r) (by omega)
    exact ⟨a, b, rfl⟩

theorem depthList_getD_of_two (h : t.symbols.length = 2) (hn : t.symbols.Nodup) (hi : i < n) :
    (depthList t n).getD i 0 = if i ∈ t.symbols then 1 else 0 := by
  split_ifs with hmem
  · obtain ⟨a, b, rfl⟩ := Tree.exists_eq_node_leaf h
    refine depthList_getD_of_mem hn hi ?_
    simpa [Tree.symbols, Tree.depths] using hmem
  · exact depthList_getD_of_not_mem hmem

/-! ## The leaves -/

theorem range_eq_cons_cons (h2 : 2 ≤ n) : ∃ rest, List.range n = 0 :: 1 :: rest := by
  obtain ⟨m, rfl⟩ := Nat.exists_eq_add_of_le' h2
  exact ⟨(List.range m).map (· + 2), by simp [List.range_succ_eq_map]⟩

/-- Without any count the leaves are those of 0 and 1. -/
theorem leafSymbols_of_zero (h2 : 2 ≤ freqs.length) (h0 : ∀ i < freqs.length, freqs.getD i 0 = 0) :
    leafSymbols freqs = [0, 1] := by
  have hused : ((List.range freqs.length).filter fun s => decide (0 < freqs.getD s 0)) = [] :=
    List.filter_eq_nil_iff.2 fun s hs => by rw [h0 s (List.mem_range.1 hs)]; decide
  have hunused : ((List.range freqs.length).filter fun s => decide (freqs.getD s 0 = 0)) = List.range freqs.length :=
    List.filter_eq_self.2 fun s hs => decide_eq_true (h0 s (List.mem_range.1 hs))
  obtain ⟨rest, hrest⟩ := range_eq_cons_cons h2
  simp only [leafSymbols]
  rw [hused, hunused, hrest]
  rfl

/-- With one count, at k, the other leaf is that of the lowest other symbol. -/
theorem leafSymbols_of_single (h2 : 2 ≤ freqs.length) (hk : k < freqs.length) (hpos : 0 < freqs.getD k 0)
    (h0 : ∀ i < freqs.length, i ≠ k → freqs.getD i 0 = 0) : leafSymbols freqs = [k, if k = 0 then 1 else 0] := by
  have hiff : ∀ s ∈ List.range freqs.length, 0 < freqs.getD s 0 ↔ s = k := fun s hs => by
    refine ⟨fun h => ?_, fun h => h ▸ hpos⟩
    by_contra hne
    exact h.ne' (h0 s (List.mem_range.1 hs) hne)
  have hused : ((List.range freqs.length).filter fun s => decide (0 < freqs.getD s 0)) = [k] := by
    rw [List.filter_congr fun s hs => decide_eq_decide.2 (hiff s hs), List.filter_eq,
      List.count_eq_one_of_mem List.nodup_range (List.mem_range.2 hk), List.replicate_one]
  have hunused : ((List.range freqs.length).filter fun s => decide (freqs.getD s 0 = 0)) =
      (List.range freqs.length).filter fun s => decide (s ≠ k) :=
    List.filter_congr fun s hs => decide_eq_decide.2 (by rw [Ne, ← hiff s hs]; omega)
  obtain ⟨rest, hrest⟩ := range_eq_cons_cons h2
  simp only [leafSymbols]
  rw [hused, hunused, hrest]
  by_cases hk0 : k = 0
  · simp [hk0]
  · simp [hk0, Ne.symm hk0]

/-! ## HUF_BUILD -/

theorem State.freqs_getD (s : State) (hi : i < n) : (s.freqs n).getD i 0 = (s.freq.read i).toNat := by
  rw [List.getD_eq_getElem _ _ (by rwa [State.freqs_length])]
  simp [freqs, Mem.readList]

/-- A code with two leaves loads: both lengths are 1. -/
theorem execHufBuild_of_two_leaves (hs : s.Sane) (h2 : 2 ≤ s.regs.limit.toNat)
    (hpos : ∀ i < s.regs.limit.toNat, isNegative (s.freq.read i) = false)
    (hl : (leafSymbols (s.freqs s.regs.limit.toNat)).length = 2) :
    ∃ t, execHufBuild s = .next t ∧ t.regs.status.codeValid = true ∧ t.regs.maxlen = 1 ∧
      t.regs.limit = s.regs.limit ∧ ∀ i < s.regs.limit.toNat,
        t.len.read i = if i ∈ leafSymbols (s.freqs s.regs.limit.toNat) then 1 else 0 := by
  obtain ⟨t, ht, -⟩ := exists_buildTree (freqs := s.freqs s.regs.limit.toNat) (by rwa [State.freqs_length])
  have hperm := buildTree_symbols ht
  have hd : ∀ i < s.regs.limit.toNat, (depthList t s.regs.limit.toNat).getD i 0 =
      if i ∈ leafSymbols (s.freqs s.regs.limit.toNat) then 1 else 0 := fun i hi => by
    rw [depthList_getD_of_two (hperm.length_eq.trans hl) (buildTree_nodup ht) hi]
    simp only [hperm.mem_iff]
  have hlen := depthList_length t s.regs.limit.toNat
  have hle : ∀ l ∈ depthList t s.regs.limit.toNat, l ≤ 1 := fun l hmem => by
    obtain ⟨j, hj, rfl⟩ := List.getElem_of_mem hmem
    rw [← List.getD_eq_getElem _ 0 hj, hd j (hlen ▸ hj)]
    split_ifs <;> decide
  have hmax : maxLen (depthList t s.regs.limit.toNat) = 1 := by
    obtain ⟨a, ha⟩ := List.exists_mem_of_length_pos (l := leafSymbols (s.freqs s.regs.limit.toNat)) (by omega)
    have halt := leafSymbols_lt ha
    rw [State.freqs_length] at halt
    have hone := hd a halt
    rw [if_pos ha] at hone
    exact le_antisymm (maxLen_le hle) (hone ▸ getD_le_maxLen _ a)
  have hcap : 1 ≤ s.params.maxCodeLen := hs.params.2.1.1
  refine ⟨_, execHufBuild_of_fits hs h2 hpos ht fun l hl => (hle l hl).trans hcap, rfl, ?_, rfl, fun i hi => ?_⟩
  · rw [State.withCode, hmax]
    rfl
  · have hread := Mem.read_writeList_inside ((depthList t s.regs.limit.toNat).map (BitVec.ofNat 8)) s.len 0 i hs.len.1
      (by rwa [List.length_map, hlen])
    rw [Nat.zero_add, List.getElem_map, ← List.getD_eq_getElem _ 0, hd i hi] at hread
    rw [State.withCode, hread]
    split_ifs <;> rfl

/-- Settles O31: the leaves are two in both cases of R176. -/
theorem hufBuildPads : Obligations.HufBuildPads := by
  unfold Obligations.HufBuildPads
  intro s hs h2 k hzero hk hneg
  simp only [exec]
  have hlength := s.freqs_length s.regs.limit.toNat
  have hpos : ∀ i < s.regs.limit.toNat, isNegative (s.freq.read i) = false := fun i hi => by
    by_cases hik : i = k
    · exact hik ▸ hneg
    · rw [hzero i hi hik]
      rfl
  have h0 : ∀ i < (s.freqs s.regs.limit.toNat).length, i ≠ k → (s.freqs s.regs.limit.toNat).getD i 0 = 0 :=
    fun i hi hik => by
      rw [hlength] at hi
      rw [s.freqs_getD hi, hzero i hi hik]
      rfl
  by_cases hk0 : s.freq.read k = 0
  · have hleaves := leafSymbols_of_zero (by rwa [hlength]) fun i hi => by
      by_cases hik : i = k
      · rw [hik, s.freqs_getD hk, hk0]
        rfl
      · exact h0 i hi hik
    obtain ⟨t, ht, hvalid, hmax, hlimit, hread⟩ := execHufBuild_of_two_leaves hs h2 hpos (by rw [hleaves]; rfl)
    refine ⟨t, ht, hvalid, hmax, hlimit, fun i hi => ?_⟩
    rw [hread i hi, hleaves]
    by_cases hk' : k = 0 <;> simp [hk0, hk', or_comm]
  · have hcount : 0 < (s.freqs s.regs.limit.toNat).getD k 0 := by
      rw [s.freqs_getD hk]
      exact Nat.pos_of_ne_zero fun h => hk0 (BitVec.eq_of_toNat_eq h)
    have hleaves := leafSymbols_of_single (by rwa [hlength]) (by rwa [hlength]) hcount h0
    obtain ⟨t, ht, hvalid, hmax, hlimit, hread⟩ := execHufBuild_of_two_leaves hs h2 hpos (by rw [hleaves]; rfl)
    refine ⟨t, ht, hvalid, hmax, hlimit, fun i hi => ?_⟩
    rw [hread i hi, hleaves]
    simp only [if_neg hk0, List.mem_cons, List.not_mem_nil, or_false]

end Sys2Proof.Machine
end

section
/-! The entries of a code-length table as instructions (spec/43_table_io.md R204): what each does to the table read in
progress, and that the steps of a table read end where HUF_TREAD as one command does. -/

namespace Sys2Proof.Machine

variable {s : State} {t : TableRead} {w v : Work} {e : Bool × Nat}

/-! ## One entry -/

/-- A piece of HUF_TREAD inside the table read that it belongs to. -/
theorem runInTableRead_reading {op : Byte} {body : Work → Res Unit} (ht : s.tread = some t) :
    runInTableRead op body s = finish op t.start s.dec (body { st := s, wroteLen := t.haveLast }) := by
  rw [runInTableRead, ht]

theorem literalEntry_idle (ht : w.st.tread = none) (l : Nat) : literalEntry l w = .ok () w := by
  rw [literalEntry, ht]

theorem runEntry_idle (ht : w.st.tread = none) (r : Nat) : runEntry r w = .ok () w := by
  rw [runEntry, ht]

theorem literalEntry_complete (ht : w.st.tread = some t) (hi : t.n ≤ t.i) (l : Nat) :
    literalEntry l w = .ok () w := by
  rw [literalEntry, ht]
  exact if_pos hi

theorem runEntry_complete (ht : w.st.tread = some t) (hi : t.n ≤ t.i) (r : Nat) : runEntry r w = .ok () w := by
  rw [runEntry, ht]
  exact if_pos hi

/-- The two ends of a literal entry that is waited for. -/
theorem literalEntry_waited (ht : w.st.tread = some t) (hi : t.i < t.n) (hn : t.n ≤ w.st.params.symLimitMax) (l : Nat) :
    literalEntry l w =
      if w.st.params.maxCodeLen < l then .raise .lenRange (BitVec.ofNat 32 t.i) w
      else .ok ()
        { st := { w.st with
            len := w.st.len.write t.i (BitVec.ofNat 8 l)
            tread := some { t with i := t.i + 1, haveLast := true, last := BitVec.ofNat 8 l } }
          wroteLen := true } := by
  rw [literalEntry, ht]
  dsimp only
  rw [if_neg (Nat.not_le.2 hi), writeLens_ok (by simpa using Nat.le_trans hi hn)]
  simp [Work.setTread, Mem.writeList]

/-- The three ends of a run entry that is waited for. -/
theorem runEntry_waited (ht : w.st.tread = some t) (hi : t.i < t.n) (hn : t.n ≤ w.st.params.symLimitMax) (r : Nat) :
    runEntry r w =
      if t.haveLast = false then .raise .tableFormat (subInfo 1 t.i) w
      else if t.n < t.i + r then .raise .tableFormat (subInfo 2 t.i) w
      else .ok ()
        { st := { w.st with
            len := w.st.len.writeList t.i (List.replicate r t.last)
            tread := some { t with i := t.i + r } }
          wroteLen := w.wroteLen || !(List.replicate r t.last).isEmpty } := by
  rw [runEntry, ht]
  dsimp only
  simp only [if_neg (Nat.not_le.2 hi), Bool.not_eq_true']
  split_ifs with hlast hfit
  · rfl
  · rfl
  · rw [writeLens_ok (by rw [List.length_replicate]; exact (Nat.le_of_not_lt hfit).trans hn)]
    rfl

/-! ## The entry instructions -/

/-- Fault entry as a fault of the state that the memory writes have left (spec/60_exceptions.md R302 and R303). -/
theorem faultEntry_eq_faulted (op : Byte) (r : Regs) (d : Decoder) (w : Work) (c : FaultCode) (info : Word) :
    faultEntry op r d w c info =
      State.faulted { w.st with regs := if w.wroteLen then r.dropCode else r, dec := d } op c info := rfl

theorem execTableLiteral_idle (ht : s.tread = none) (b : Byte) (l : Nat) : execTableLiteral b l s = .next s := by
  rw [execTableLiteral, runInTableRead_idle ht]
  exact runCommand_of_ok_state (literalEntry_idle (w := s.start) ht l)

theorem execTableRun_idle (ht : s.tread = none) (r : Byte) : execTableRun r s = .next s := by
  rw [execTableRun, runInTableRead_idle ht]
  exact runCommand_of_ok_state (runEntry_idle (w := s.start) ht r.toNat)

/-- Settles O9: outside a table read and after its last length the two entries change nothing; inside, each is its own
checks and stores. -/
theorem tableEntryInstructions : Obligations.TableEntryInstructions := by
  unfold Obligations.TableEntryInstructions
  intro s
  refine ⟨fun ht b l r => ⟨execTableLiteral_idle ht b l, execTableRun_idle ht r⟩, fun t ht => ?_⟩
  refine ⟨fun hi b l r => ⟨?_, ?_⟩, fun hi hn => ⟨fun e w he => ?_, fun b l => ?_, fun r => ?_⟩⟩
  · rw [exec, execTableLiteral, runInTableRead_reading ht, literalEntry_complete ht hi]
    rfl
  · rw [exec, execTableRun, runInTableRead_reading ht, runEntry_complete ht hi]
    rfl
  · simp only [step, ht, tableReadStep, if_pos hi, he]
  · rw [exec, execTableLiteral, runInTableRead_reading ht, literalEntry_waited ht hi hn]
    by_cases hl : s.params.maxCodeLen < l
    · simp only [hl, if_true, finish_raise, faultEntry_eq_faulted]
      rfl
    · simp only [hl, if_false, finish_ok]
  · rw [exec, execTableRun, runInTableRead_reading ht, runEntry_waited ht hi hn]
    by_cases hlast : t.haveLast = false
    · simp only [if_pos hlast, finish_raise, faultEntry_eq_faulted]
      rfl
    · by_cases hfit : t.n < t.i + r.toNat
      · simp only [if_neg hlast, if_pos hfit, finish_raise, faultEntry_eq_faulted]
        rfl
      · simp only [if_neg hlast, if_neg hfit, finish_ok]

/-! ## A table read is its entry steps -/

/-- A bit that is read changes the registers alone, and is one unread bit fewer. -/
theorem getBit_eq_ok {b : Bool} (h : getBit w = .ok b v) :
    ∃ r, v = { w with st := { w.st with regs := r } } ∧ unreadCount r + 1 = unreadCount w.st.regs := by
  have hlt := w.st.regs.rlim.isLt
  unfold getBit at h
  split at h
  · rename_i hnb
    split at h
    · cases h
    · rename_i hlim
      have hpos : (w.st.regs.rpos + 1).toNat = w.st.regs.rpos.toNat + 1 := by bv_omega
      obtain ⟨_, _, hread, h⟩ := Res.bind_eq_ok.1 h
      obtain ⟨_, _, hcheck, hread⟩ := Res.bind_eq_ok.1 hread
      obtain ⟨-, rfl⟩ := checkIndex_eq_ok.1 hcheck
      cases hread
      cases h
      refine ⟨_, rfl, ?_⟩
      simp only [unreadCount, hpos, hnb, BitVec.toNat_ofNat]
      omega
  · rename_i hnb
    cases h
    have hne : w.st.regs.rnb.toNat ≠ 0 := fun h0 => hnb (BitVec.eq_of_toNat_eq h0)
    have hdec : (w.st.regs.rnb - 1).toNat = w.st.regs.rnb.toNat - 1 := by bv_omega
    refine ⟨_, rfl, ?_⟩
    simp only [unreadCount, hdec]
    omega

theorem getBits_eq_ok {k : Nat} {bs : List Bool} (h : getBits k w = .ok bs v) :
    bs.length = k ∧ ∃ r, v = { w with st := { w.st with regs := r } } ∧ unreadCount r + k = unreadCount w.st.regs := by
  induction k generalizing w bs with
  | zero =>
    cases h
    exact ⟨rfl, _, rfl, rfl⟩
  | succ k ih =>
    obtain ⟨b, w₁, h₁, h⟩ := Res.bind_eq_ok.1 h
    obtain ⟨bs₂, w₂, h₂, h⟩ := Res.bind_eq_ok.1 h
    cases h
    obtain ⟨r₁, rfl, hc₁⟩ := getBit_eq_ok h₁
    obtain ⟨hlen, r₂, rfl, hc₂⟩ := ih h₂
    dsimp only at hc₂
    exact ⟨congrArg (· + 1) hlen, r₂, rfl, by omega⟩

/-- An entry that has been fetched has taken bits from the stream, and a run's count is a byte. -/
theorem fetchEntry_eq_ok {b : Byte} (h : fetchEntry b w = .ok e v) :
    (e.1 = false → e.2 < 256) ∧
      ∃ r, v = { w with st := { w.st with regs := r } } ∧ unreadCount r < unreadCount w.st.regs := by
  obtain ⟨flag, w₁, h₁, h⟩ := Res.bind_eq_ok.1 h
  obtain ⟨f, w₂, h₂, h⟩ := Res.bind_eq_ok.1 h
  obtain ⟨bs, w₃, h₃, h₂⟩ := Res.bind_eq_ok.1 h₂
  cases h
  cases h₂
  obtain ⟨r₁, rfl, hc₁⟩ := getBit_eq_ok h₁
  obtain ⟨hlen, r, rfl, hc⟩ := getBits_eq_ok h₃
  dsimp only at hc
  refine ⟨fun hflag => ?_, r, rfl, by omega⟩
  have hlt := bitsToNat_lt bs
  dsimp only at hflag
  rwa [hlen, hflag] at hlt

theorem toNat_byte_ofNat {n : Nat} (h : n < 256) : (BitVec.ofNat 8 n).toNat = n := by
  rw [BitVec.toNat_ofNat]
  exact Nat.mod_eq_of_lt h

/-- The step's entry instruction is the entry as the reader executes it. -/
theorem exec_entryInstr (ht : w.st.tread = some t) (hw : w.wroteLen = t.haveLast) (b : Byte)
    (he : e.1 = false → e.2 < 256) :
    exec (entryInstr b e) w.st = finish 0x33#8 t.start w.st.dec (entry e w) := by
  have hstart : w = { st := w.st, wroteLen := t.haveLast } := by rw [← hw]
  obtain ⟨flag, f⟩ := e
  cases flag with
  | true =>
    conv_rhs => rw [hstart]
    exact runInTableRead_reading ht
  | false =>
    conv_rhs => rw [hstart, ← toNat_byte_ofNat (n := f) (he rfl)]
    exact runInTableRead_reading ht

/-- An entry that succeeds leaves the read in progress as its command's, with `have` telling whether LEN has been
written. -/
theorem entry_eq_ok {u : Unit} (ht : w.st.tread = some t) (hw : w.wroteLen = t.haveLast) (h : entry e w = .ok u v) :
    v.st.regs = w.st.regs ∧ v.st.dec = w.st.dec ∧
      ∃ t', v.st.tread = some t' ∧ t'.start = t.start ∧ v.wroteLen = t'.haveLast := by
  obtain ⟨flag, f⟩ := e
  cases flag with
  | true =>
    simp only [entry, if_true, literalEntry, ht] at h
    split at h
    · cases h
      exact ⟨rfl, rfl, t, ht, rfl, hw⟩
    · split at h
      · cases h
      · obtain ⟨_, _, hstore, h⟩ := Res.bind_eq_ok.1 h
        obtain ⟨-, rfl⟩ := writeLens_eq_ok.1 hstore
        cases h
        exact ⟨rfl, rfl, _, rfl, rfl, Bool.or_true _⟩
  | false =>
    simp only [entry, Bool.false_eq_true, if_false, runEntry, ht] at h
    split at h
    · cases h
      exact ⟨rfl, rfl, t, ht, rfl, hw⟩
    · split at h
      · cases h
      · rename_i hlast
        split at h
        · cases h
        · obtain ⟨_, _, hstore, h⟩ := Res.bind_eq_ok.1 h
          obtain ⟨-, rfl⟩ := writeLens_eq_ok.1 hstore
          cases h
          have hhave : t.haveLast = true := by simpa using hlast
          refine ⟨rfl, rfl, _, rfl, rfl, ?_⟩
          rw [Work.setTread_wroteLen, hw, hhave, Bool.true_or]

theorem run_one {M : Host.Core} (s : M.State) : M.run 1 s = M.step s := by
  rw [Host.Core.run]
  cases M.step s <;> rfl

theorem run_succ_of_step {M : Host.Core} {s t : M.State} (h : M.step s = .next t) (k : Nat) :
    M.run (k + 1) s = M.run k t := by
  rw [Host.Core.run, h]

/-- One step inside a table read: an entry is fetched and executed, or the table is finished. -/
theorem step_reading (ht : w.st.tread = some t) (hw : w.wroteLen = t.haveLast) :
    step w.st = finish 0x33#8 t.start w.st.dec
      (if t.i < t.n then (fetchEntry t.bpl w).bind entry else tableFinish w) := by
  have hstart : ({ st := w.st, wroteLen := t.haveLast } : Work) = w := by rw [← hw]
  simp only [step, ht, tableReadStep, hstart]
  split_ifs with hi
  · cases hf : fetchEntry t.bpl w with
    | ok e v =>
      obtain ⟨hrun, r, rfl, -⟩ := fetchEntry_eq_ok hf
      exact exec_entryInstr (w := { w with st := { w.st with regs := r } }) ht hw t.bpl hrun
    | raise c info v => rfl
    | stop f => rfl
  · rw [runInTableRead_reading ht, hstart]
    rfl

/-- The steps of a table read in progress end in what is left of its command: the rest of the entries, then the
finish. -/
theorem exists_run_eq_entryLoop {k : Nat} (ht : w.st.tread = some t) (hw : w.wroteLen = t.haveLast)
    (hk : unreadCount w.st.regs < k) :
    ∃ j, Host.Core.run Sys2Proof.core j w.st =
      finish 0x33#8 t.start w.st.dec ((entryLoop k w).bind fun _ w => tableFinish w) := by
  induction k generalizing w t with
  | zero => exact absurd hk (Nat.not_lt_zero _)
  | succ k ih =>
    have hstep := step_reading ht hw
    simp only [entryLoop, ht]
    by_cases hi : t.i < t.n
    · rw [if_pos hi] at hstep ⊢
      cases hf : fetchEntry t.bpl w with
      | ok e v =>
        obtain ⟨-, r, rfl, hcount⟩ := fetchEntry_eq_ok hf
        rw [hf, Res.bind_ok] at hstep
        rw [Res.bind_ok]
        cases he : entry e { w with st := { w.st with regs := r } } with
        | ok _ v =>
          obtain ⟨hregs, hdec, t', ht', hstart, hv⟩ := entry_eq_ok (w := { w with st := { w.st with regs := r } }) ht
            hw he
          obtain ⟨j, hj⟩ := ih ht' hv (by rw [hregs]; dsimp only; omega)
          rw [he, finish_ok] at hstep
          exact ⟨j + 1, (run_succ_of_step (M := Sys2Proof.core) hstep j).trans (by rw [hj, hstart, hdec, Res.bind_ok])⟩
        | raise c info v => exact ⟨1, (run_one (M := Sys2Proof.core) w.st).trans (hstep.trans (by rw [he]; rfl))⟩
        | stop f => exact ⟨1, (run_one (M := Sys2Proof.core) w.st).trans (hstep.trans (by rw [he]; rfl))⟩
      | raise c info v => exact ⟨1, (run_one (M := Sys2Proof.core) w.st).trans (hstep.trans (by rw [hf]; rfl))⟩
      | stop f => exact ⟨1, (run_one (M := Sys2Proof.core) w.st).trans (hstep.trans (by rw [hf]; rfl))⟩
    · rw [if_neg hi] at hstep ⊢
      exact ⟨1, (run_one (M := Sys2Proof.core) w.st).trans hstep⟩

/-- The header starts a table read that has read no entry. -/
theorem tableHeader_eq_ok {start : Regs} {u : Unit} (h : tableHeader start w = .ok u v) :
    v.st.dec = w.st.dec ∧ v.wroteLen = w.wroteLen ∧
      ∃ t, v.st.tread = some t ∧ t.start = start ∧ t.haveLast = false := by
  obtain ⟨n, w₁, h₁, h⟩ := Res.bind_eq_ok.1 h
  split at h
  · cases h
  · obtain ⟨bpl, w₂, h₂, h⟩ := Res.bind_eq_ok.1 h
    obtain ⟨bs₁, _, hbits₁, h₁⟩ := Res.bind_eq_ok.1 h₁
    obtain ⟨bs₂, _, hbits₂, h₂⟩ := Res.bind_eq_ok.1 h₂
    cases h₁
    cases h₂
    obtain ⟨-, r₁, rfl, -⟩ := getBits_eq_ok hbits₁
    obtain ⟨-, r₂, rfl, -⟩ := getBits_eq_ok hbits₂
    cases h
    exact ⟨rfl, rfl, _, rfl, rfl, rfl⟩

/-- Settles O8: after the header the steps run the entries of the one command, whose bound on their number is never
reached, since each entry takes a bit. -/
theorem tableReadIsItsEntrySteps : Obligations.TableReadIsItsEntrySteps := by
  unfold Obligations.TableReadIsItsEntrySteps
  intro s w _ hheader
  have hread : exec .hufTread s = finish 0x33#8 s.regs s.dec
      ((entryLoop (unreadCount w.st.regs + 1) w).bind fun _ w => tableFinish w) := by
    rw [exec, execHufTread, runCommand, tableRead, hheader, Res.bind_ok]
    rfl
  obtain ⟨hdec, hwrote, t, ht, hstart, hlast⟩ := tableHeader_eq_ok hheader
  obtain ⟨k, hk⟩ := exists_run_eq_entryLoop ht (hwrote.trans hlast.symm) (Nat.lt_succ_self _)
  exact ⟨k, by rw [hk, hread, hstart, hdec]⟩

end Sys2Proof.Machine
end

section
/-! The code-length table as the writer gives it (spec/43_table_io.md section 1): what its entries stand for, the run
rule (R202), and the result of HUF_TWRITE (R203). -/

namespace Sys2Proof.Machine

variable {bpl : Nat} {ls lens : List Nat} {s : State} {w : Work}

/-! ## What entries stand for -/

/-- The lengths that one entry stands for, after a last length where there is one. -/
def entryLens (last : Option Nat) (e : Bool × Nat) : Option (List Nat) :=
  if e.1 then some [e.2] else last.map (List.replicate e.2)

/-- The first entry's lengths, and those of the others after its last one. -/
theorem expandEntries_cons {last : Option Nat} {e : Bool × Nat} {es : List (Bool × Nat)} {zs : List Nat} :
    expandEntries last (e :: es) = some zs ↔
      ∃ xs ys, entryLens last e = some xs ∧ expandEntries (xs.getLast?.or last) es = some ys ∧ zs = xs ++ ys := by
  obtain ⟨flag, f⟩ := e
  cases flag with
  | true => simp [expandEntries, entryLens, eq_comm]
  | false =>
    cases last with
    | none => simp [expandEntries, entryLens]
    | some v =>
      have hlast : (List.replicate f v).getLast?.or (some v) = some v := by
        rw [List.getLast?_replicate]
        split_ifs <;> rfl
      simp only [expandEntries, entryLens, Bool.false_eq_true, if_false, Option.map_eq_some_iff, Option.map_some,
        Option.some.injEq, exists_and_left, exists_eq_left', hlast, eq_comm (b := zs)]

theorem expandEntries_singleton (last : Option Nat) (e : Bool × Nat) :
    expandEntries last [e] = entryLens last e := by
  obtain ⟨flag, f⟩ := e
  cases flag <;> cases last <;> simp [expandEntries, entryLens]

/-- Entries in two parts: the second part follows the last length of the first. -/
theorem expandEntries_append {last : Option Nat} {es fs : List (Bool × Nat)} {zs : List Nat} :
    expandEntries last (es ++ fs) = some zs ↔
      ∃ xs ys, expandEntries last es = some xs ∧ expandEntries (xs.getLast?.or last) fs = some ys ∧ zs = xs ++ ys := by
  induction es generalizing last zs with
  | nil => simp [expandEntries, eq_comm]
  | cons e es ih =>
    simp only [List.cons_append, expandEntries_cons, ih]
    constructor
    · rintro ⟨xs, _, he, ⟨ys, us, hes, hfs, rfl⟩, rfl⟩
      exact ⟨xs ++ ys, us, ⟨xs, ys, he, hes, rfl⟩, by rwa [List.getLast?_append, Option.or_assoc],
        (List.append_assoc ..).symm⟩
    · rintro ⟨_, us, ⟨xs, ys, he, hes, rfl⟩, hfs, rfl⟩
      rw [List.getLast?_append, Option.or_assoc] at hfs
      exact ⟨xs, ys ++ us, he, ⟨ys, us, hes, hfs, rfl⟩, List.append_assoc ..⟩

/-! ## The writer's entries -/

theorem runLength_le (l cap : Nat) (ls : List Nat) : runLength l cap ls ≤ cap := by
  fun_induction runLength l cap ls <;> omega

/-- The run is copies of the length, and then the lengths after it. -/
theorem replicate_runLength (l cap : Nat) (ls : List Nat) :
    List.replicate (runLength l cap ls) l ++ ls.drop (runLength l cap ls) = ls := by
  fun_induction runLength l cap ls with
  | case1 | case2 | case4 => rfl
  | case3 cap xs ih => rw [List.replicate_succ, List.drop_succ_cons, List.cons_append, ih]

/-- A run that saves bits has a count of at least 1. -/
theorem runLength_pos {l : Nat} (hr : 9 < runLength l 255 ls * (1 + bpl)) : 1 ≤ runLength l 255 ls :=
  Nat.pos_of_ne_zero fun h0 => by rw [h0] at hr; omega

theorem tableEntries_skip (bpl k : Nat) (ls : List Nat) : tableEntries bpl k ls = tableEntries bpl 0 (ls.drop k) := by
  induction ls generalizing k with
  | nil => simp [tableEntries]
  | cons l ls ih =>
    cases k with
    | zero => rfl
    | succ k => rw [tableEntries, ih, List.drop_succ_cons]

/-- The entries start with a literal, and then the run of its length where that saves bits (spec/43_table_io.md
R202). -/
theorem tableEntries_cons (bpl l : Nat) (ls : List Nat) :
    tableEntries bpl 0 (l :: ls) = .tableLiteral (BitVec.ofNat 8 bpl) l ::
      if 9 < runLength l 255 ls * (1 + bpl) then
        .tableRun (BitVec.ofNat 8 (runLength l 255 ls)) :: tableEntries bpl 0 (ls.drop (runLength l 255 ls))
      else tableEntries bpl 0 ls := by
  have hpos : (0 < runLength l 255 ls ∧ 9 < runLength l 255 ls * (1 + bpl)) ↔ 9 < runLength l 255 ls * (1 + bpl) :=
    ⟨And.right, fun h => ⟨runLength_pos h, h⟩⟩
  simp only [tableEntries, Config.runCap, hpos, tableEntries_skip bpl (runLength l 255 ls)]
  split_ifs <;> rfl

/-- Induction along the writer's loop: a literal with its run, or a literal alone. -/
theorem tableEntries_induction (bpl : Nat) {P : List Nat → Prop} (nil : P [])
    (run : ∀ l ls, 9 < runLength l 255 ls * (1 + bpl) → P (ls.drop (runLength l 255 ls)) → P (l :: ls))
    (literal : ∀ l ls, ¬9 < runLength l 255 ls * (1 + bpl) → P ls → P (l :: ls)) (lens : List Nat) : P lens := by
  induction h : lens.length using Nat.strong_induction_on generalizing lens with
  | h n ih =>
    subst h
    cases lens with
    | nil => exact nil
    | cons l ls =>
      by_cases hr : 9 < runLength l 255 ls * (1 + bpl)
      · exact run l ls hr (ih _ (by simp only [List.length_drop, List.length_cons]; omega) _ rfl)
      · exact literal l ls hr (ih _ (by simp) _ rfl)

theorem entryBits_literal (b : Byte) (l : Nat) : entryBits (.tableLiteral b l) = true :: fieldBits b.toNat l := rfl

theorem entryBits_run (r : Byte) : entryBits (.tableRun r) = false :: fieldBits 8 r.toNat := rfl

/-- The flags and fields `fs` are those of the entries that the writer gives for the lengths. -/
structure WrittenAs (bpl : Nat) (lens : List Nat) (fs : List (Bool × Nat)) : Prop where
  fields : (tableEntries bpl 0 lens).mapM entryFields = some fs
  expand : ∀ last, expandEntries last fs = some lens
  bits : bpl < 256 → (tableEntries bpl 0 lens).flatMap entryBits =
    fs.flatMap fun e => e.1 :: fieldBits (if e.1 then bpl else 8) e.2
  literal : ∀ e ∈ fs, e.1 = true → e.2 ∈ lens
  run : ∀ e ∈ fs, e.1 = false → 1 ≤ e.2 ∧ e.2 < 256

theorem runLength_lt (l : Nat) (ls : List Nat) : runLength l 255 ls < 256 :=
  Nat.lt_succ_of_le (runLength_le l 255 ls)

theorem toNat_ofNat_runLength (l : Nat) (ls : List Nat) :
    (BitVec.ofNat 8 (runLength l 255 ls)).toNat = runLength l 255 ls :=
  toNat_byte_ofNat (runLength_lt l ls)

/-- The two entries of a saving run. -/
theorem WrittenAs.cons_run {l : Nat} {fs : List (Bool × Nat)} (hr : 9 < runLength l 255 ls * (1 + bpl))
    (h : WrittenAs bpl (ls.drop (runLength l 255 ls)) fs) :
    WrittenAs bpl (l :: ls) ((true, l) :: (false, runLength l 255 ls) :: fs) := by
  have hlt := runLength_lt l ls
  refine ⟨?_, fun last => ?_, fun hb => ?_, ?_, ?_⟩
  · simp [tableEntries_cons, if_pos hr, List.mapM_cons, entryFields, h.fields, hlt]
  · simp [expandEntries, h.expand, replicate_runLength]
  · rw [tableEntries_cons, if_pos hr, List.flatMap_cons, List.flatMap_cons, h.bits hb, entryBits_literal, entryBits_run,
      toNat_byte_ofNat hb, toNat_byte_ofNat hlt]
    rfl
  · simp only [List.forall_mem_cons]
    exact ⟨fun _ => List.mem_cons_self, nofun,
      fun e he hlit => List.mem_cons_of_mem l (List.mem_of_mem_drop (h.literal e he hlit))⟩
  · simp only [List.forall_mem_cons]
    exact ⟨nofun, fun _ => ⟨runLength_pos hr, hlt⟩, h.run⟩

/-- The one entry of a length without a saving run. -/
theorem WrittenAs.cons_literal {l : Nat} {fs : List (Bool × Nat)} (hr : ¬9 < runLength l 255 ls * (1 + bpl))
    (h : WrittenAs bpl ls fs) : WrittenAs bpl (l :: ls) ((true, l) :: fs) := by
  refine ⟨?_, fun last => ?_, fun hb => ?_, ?_, ?_⟩
  · simp [tableEntries_cons, if_neg hr, List.mapM_cons, entryFields, h.fields]
  · simp [expandEntries, h.expand]
  · rw [tableEntries_cons, if_neg hr, List.flatMap_cons, h.bits hb, entryBits_literal, toNat_byte_ofNat hb]
    rfl
  · simp only [List.forall_mem_cons]
    exact ⟨fun _ => List.mem_cons_self, fun e he hlit => List.mem_cons_of_mem l (h.literal e he hlit)⟩
  · simp only [List.forall_mem_cons]
    exact ⟨nofun, h.run⟩

theorem exists_writtenAs (bpl : Nat) (lens : List Nat) : ∃ fs, WrittenAs bpl lens fs := by
  induction lens using tableEntries_induction bpl with
  | nil => exact ⟨[], rfl, fun _ => rfl, fun _ => rfl, nofun, nofun⟩
  | run l ls hr ih => exact ih.elim fun _ h => ⟨_, h.cons_run hr⟩
  | literal l ls hr ih => exact ih.elim fun _ h => ⟨_, h.cons_literal hr⟩

/-! ## The run rule (R202) -/

/-- Each run of the writer saves bits, has a count of at least 1, and follows a literal. -/
theorem run_of_tableEntries {before after : List Instr} {r : Byte}
    (h : tableEntries bpl 0 lens = before ++ .tableRun r :: after) :
    1 ≤ r.toNat ∧ 9 < r.toNat * (1 + bpl) ∧ ∃ b l before', before = before' ++ [.tableLiteral b l] := by
  induction lens using tableEntries_induction bpl generalizing before with
  | nil => simp [tableEntries] at h
  | run l ls hr ih =>
    rw [tableEntries_cons, if_pos hr] at h
    match before, h with
    | [_], h =>
      injection h with hlit h
      injection h with hrun h
      injection hrun with hrun
      subst hlit hrun
      rw [toNat_ofNat_runLength]
      exact ⟨runLength_pos hr, hr, _, _, [], rfl⟩
    | i :: j :: before, h =>
      injection h with _ h
      injection h with _ h
      obtain ⟨hpos, hsaves, b, l', before', rfl⟩ := ih h
      exact ⟨hpos, hsaves, b, l', i :: j :: before', rfl⟩
  | literal l ls hr ih =>
    rw [tableEntries_cons, if_neg hr] at h
    match before, h with
    | i :: before, h =>
      injection h with _ h
      obtain ⟨hpos, hsaves, b, l', before', rfl⟩ := ih h
      exact ⟨hpos, hsaves, b, l', i :: before', rfl⟩

theorem exists_cons_of_tableEntries {after : List Instr} {b : Byte} {l : Nat}
    (h : tableEntries bpl 0 lens = .tableLiteral b l :: after) : ∃ rest, lens = l :: rest := by
  cases lens with
  | nil => cases h
  | cons l' ls =>
    rw [tableEntries_cons] at h
    injection h with hlit _
    injection hlit with _ hl
    exact ⟨ls, by rw [hl]⟩

/-- A literal of the writer is the first entry for the lengths that the entries before it do not stand for. -/
theorem literal_of_tableEntries {before after : List Instr} {b : Byte} {l : Nat}
    (h : tableEntries bpl 0 lens = before ++ .tableLiteral b l :: after) :
    ∃ fs done rest, before.mapM entryFields = some fs ∧ (∀ last, expandEntries last fs = some done) ∧
      lens = done ++ l :: rest ∧ tableEntries bpl 0 (l :: rest) = .tableLiteral b l :: after := by
  induction lens using tableEntries_induction bpl generalizing before with
  | nil => simp [tableEntries] at h
  | run l' ls hr ih =>
    have hcons := h
    rw [tableEntries_cons, if_pos hr] at hcons
    match before, hcons with
    | [], _ =>
      obtain ⟨rest, hrest⟩ := exists_cons_of_tableEntries h
      exact ⟨[], [], rest, rfl, fun _ => rfl, hrest, hrest ▸ h⟩
    | i :: j :: before, hcons =>
      injection hcons with hlit hcons
      injection hcons with hrun hcons
      subst hlit hrun
      obtain ⟨fs, done, rest, hfs, hdone, hlens, hrest⟩ := ih hcons
      refine ⟨(true, l') :: (false, runLength l' 255 ls) :: fs, l' :: List.replicate (runLength l' 255 ls) l' ++ done,
        rest, ?_, fun last => ?_, ?_, hrest⟩
      · simp [List.mapM_cons, entryFields, hfs, runLength_lt]
      · simp [expandEntries, hdone]
      · rw [List.cons_append, List.cons_append, List.append_assoc, ← hlens, replicate_runLength]
  | literal l' ls hr ih =>
    have hcons := h
    rw [tableEntries_cons, if_neg hr] at hcons
    match before, hcons with
    | [], _ =>
      obtain ⟨rest, hrest⟩ := exists_cons_of_tableEntries h
      exact ⟨[], [], rest, rfl, fun _ => rfl, hrest, hrest ▸ h⟩
    | i :: before, hcons =>
      injection hcons with hlit hcons
      subst hlit
      obtain ⟨fs, done, rest, hfs, hdone, hlens, hrest⟩ := ih hcons
      refine ⟨(true, l') :: fs, l' :: done, rest, ?_, fun last => ?_, ?_, hrest⟩
      · simp [List.mapM_cons, entryFields, hfs]
      · simp [expandEntries, hdone]
      · rw [hlens, List.cons_append]

/-- The entries for lengths begin with a literal, never with a run. -/
theorem tableEntries_ne_run (bpl : Nat) (lens : List Nat) (r : Byte) (after : List Instr) :
    tableEntries bpl 0 lens ≠ .tableRun r :: after := by
  cases lens with
  | nil => exact nofun
  | cons l ls => rw [tableEntries_cons]; exact nofun

/-- Settles O38: along the writer's loop, the entries before a literal stand for exactly the lengths before it. -/
theorem tableRunRule : Obligations.TableRunRule := by
  unfold Obligations.TableRunRule
  intro bpl lens
  obtain ⟨fs, hfs⟩ := exists_writtenAs bpl lens
  refine ⟨⟨fs, hfs.fields, hfs.expand none⟩, fun before r after => run_of_tableEntries,
    fun before b l after fs done rest h hfs hdone hlens => ?_⟩
  obtain ⟨fs', done', rest', hfs', hdone', hlens', hrest⟩ := literal_of_tableEntries h
  rw [hfs] at hfs'
  cases hfs'
  rw [hdone'] at hdone
  cases hdone
  rw [hlens] at hlens'
  injection List.append_cancel_left hlens' with _ hrest'
  subst hrest'
  rw [tableEntries_cons] at hrest
  injection hrest with _ hrest
  subst hrest
  dsimp only
  split_ifs
  · exact ⟨_, rfl⟩
  · exact fun r' after' => tableEntries_ne_run bpl rest r' after'

/-! ## HUF_TWRITE (R203) -/

/-- Two continuations of a piece of output agree when they agree where the bits have room; where they have none, the
fault ends both. -/
theorem putBits_bind_congr {bits : List Bool} {f g : Unit → Work → Res Unit} (h : WriterOk w.st)
    (hfg : w.st.HasRoom bits.length →
      f () { w with st := w.st.afterBits bits } = g () { w with st := w.st.afterBits bits }) :
    (putBits bits w).bind f = (putBits bits w).bind g := by
  by_cases hr : w.st.HasRoom bits.length
  · rw [putBits_room bits h hr, Res.bind_ok, Res.bind_ok, hfg hr]
  · obtain ⟨r, hput⟩ := putBits_full bits h hr
    rw [hput, Res.bind_raise, Res.bind_raise]

/-- Bits from a byte boundary, and then the alignment, are the bits with their padding. -/
theorem putBits_bind_alignW {bits : List Bool} (h : WriterOk w.st) (hnb : w.st.regs.wnb = 0) :
    ((putBits bits w).bind fun _ w => alignW w) = putBits (bits ++ padTo bits.length) w := by
  rw [putBits_append]
  refine putBits_bind_congr h fun hr => ?_
  obtain ⟨hw, -, hmod⟩ := afterBits_writerOk h hr
  rw [alignW_eq_putBits_padTo hw, hmod, hnb]
  simp [padTo]

/-- After the padding of the pending bits the writer stands on a byte boundary. -/
theorem afterBits_padTo_wnb (h : WriterOk s) (hr : s.HasRoom (padTo s.regs.wnb.toNat).length) :
    (s.afterBits (padTo s.regs.wnb.toNat)).regs.wnb = 0 := by
  obtain ⟨-, -, hmod⟩ := afterBits_writerOk h hr
  have hle := h.nb
  rw [padTo_length] at hmod
  refine BitVec.eq_of_toNat_eq (hmod.trans ?_)
  rw [show (0 : BitVec 4).toNat = 0 from rfl]
  omega

/-- `TableWrite()` is one piece of output: the padding, the table of LEN[0..LIMIT), and its padding. -/
theorem tableWrite_eq_putBits (h : WriterOk w.st) (hlim : w.st.regs.limit.toNat ≤ w.st.params.symLimitMax)
    (hmax : w.st.regs.maxlen.toNat = maxLen w.st.loadedLens) :
    tableWrite w = putBits (tableStreamBits w.st.regs.wnb.toNat w.st.loadedLens) w := by
  rw [tableWrite, alignW_eq_putBits_padTo h, tableStreamBits, List.append_assoc, putBits_append]
  refine putBits_bind_congr h fun hr => ?_
  have hread : readLens w.st.regs.limit.toNat { w with st := w.st.afterBits (padTo w.st.regs.wnb.toNat) } =
      .ok w.st.loadedLens { w with st := w.st.afterBits (padTo w.st.regs.wnb.toNat) } := readLens_ok hlim
  simp only [State.afterBits_limit, hread, Res.bind_ok, State.afterBits_maxlen, hmax]
  exact putBits_bind_alignW (afterBits_writerOk h hr).1 (afterBits_padTo_wnb h hr)

theorem decodeCommand_hufTwrite (imm : Imm) : decodeCommand (commandWord 0x32#8 imm) = .ok .hufTwrite := by
  simp [decodeCommand]

theorem execHufTwrite_of_loaded (hs : s.Inv) (hv : s.regs.status.codeValid = true) :
    execHufTwrite s = runCommand 0x32#8 (putBits (tableStreamBits s.regs.wnb.toNat s.loadedLens)) s := by
  refine runCommand_congr ?_
  rw [if_pos hv]
  exact tableWrite_eq_putBits (w := s.start) hs.sane.writerOk hs.sane.limit_le (hs.code.maxlen hv)

/-- Settles O39: with a loaded code HUF_TWRITE is one piece of output. -/
theorem hufTwriteResult : Obligations.HufTwriteResult := by
  unfold Obligations.HufTwriteResult
  intro imm s hs
  simp only [exec]
  refine ⟨decodeCommand_hufTwrite imm, fun hv => runCommand_of_raise_start (if_neg (by simp [hv])),
    fun hv => ⟨fun hr => ?_, fun hr => ?_⟩⟩ <;> rw [execHufTwrite_of_loaded hs hv]
  · exact runCommand_of_ok_state (putBits_room (w := s.start) _ hs.sane.writerOk hr)
  · obtain ⟨r, hput⟩ := putBits_full (w := s.start) _ hs.sane.writerOk hr
    exact runCommand_of_raise hput

end Sys2Proof.Machine
end

section
/-! HUF_TREAD of the bits of a table (spec/43_table_io.md section 2): the state after each part of it, its result when
the table is whole (R205, R207), and its faults when it is not. -/

namespace Sys2Proof.Machine

variable {s : State} {w : Work} {n bpl k : Nat} {e : Bool × Nat} {es : List (Bool × Nat)} {lens : List Nat}
  {rest : List Bool}

/-! ## Fields of the read stream -/

/-- Reading bits and then more is reading them all. -/
theorem afterReading_afterReading (h : ReaderOk s) {a b : Nat} (hl : a + b ≤ s.unreadBits.length) :
    (s.afterReading a).afterReading b = s.afterReading (a + b) := by
  induction a generalizing s with
  | zero => rw [afterReading_zero h, Nat.zero_add]
  | succ a ih =>
    obtain ⟨-, hdrop, hok⟩ := getBits_ok 1 (w := s.start) h (show 1 ≤ s.unreadBits.length by omega)
    have hrest : a + b ≤ (s.afterReading 1).unreadBits.length := by
      rw [hdrop, List.length_drop]
      show a + b ≤ s.unreadBits.length - 1
      omega
    rw [← afterReading_one_add h a (by omega), ih hok hrest, afterReading_one_add h (a + b) (by omega),
      Nat.add_right_comm]

/-- `GetField(k)` of a field's bits. -/
theorem getField_fieldBits {v : Nat} (h : ReaderOk w.st) (hv : v < 2 ^ k)
    (hu : w.st.unreadBits = fieldBits k v ++ rest) :
    getField k w = .ok v { w with st := w.st.afterReading k } := by
  rw [getField_ok h (by simp [hu]), hu, List.take_left' (fieldBits_length k v), bitsToNat_fieldBits_of_lt hv]

/-- The bits after a field. -/
theorem unreadBits_afterReading {bits : List Bool} (h : ReaderOk s) (hu : s.unreadBits = bits ++ rest) :
    (s.afterReading bits.length).unreadBits = rest ∧ ReaderOk (s.afterReading bits.length) := by
  obtain ⟨-, hdrop, hok⟩ := getBits_ok bits.length (w := s.start) h (by simp [hu])
  exact ⟨hdrop.trans (by rw [hu, List.drop_left]), hok⟩

/-- The bits of an entry (spec/30_encoding.md R116). -/
abbrev fieldsOf (bpl : Nat) (e : Bool × Nat) : List Bool := e.1 :: fieldBits (if e.1 then bpl else 8) e.2

theorem tableWith_eq (n bpl : Nat) (es : List (Bool × Nat)) :
    tableWith n bpl es = (fieldBits 16 n ++ fieldBits 8 bpl) ++ es.flatMap (fieldsOf bpl) := rfl

/-- An entry is fetched from its bits. -/
theorem fetchEntry_fieldsOf {b : Byte} (h : ReaderOk w.st) (he : e.2 < 2 ^ (if e.1 then b.toNat else 8))
    (hu : w.st.unreadBits = fieldsOf b.toNat e ++ rest) :
    fetchEntry b w = .ok e { w with st := w.st.afterReading (fieldsOf b.toNat e).length } := by
  obtain ⟨c, hget, hc, hok⟩ := getBit_ok h (by simp [hu])
  have hlen : (fieldsOf b.toNat e).length = (if e.1 then b.toNat else 8) + 1 := by
    rw [List.length_cons, fieldBits_length]
  rw [hu, List.cons_append] at hc
  injection hc with hflag hrest
  subst hflag
  have hadd := afterReading_one_add h (if e.1 then b.toNat else 8) (by rw [hu, List.length_append, hlen]; omega)
  rw [fetchEntry, hget, Res.bind_ok,
    getField_fieldBits (w := { w with st := w.st.afterReading 1 }) hok he hrest.symm, Res.bind_ok, hlen, hadd]

/-- The read stream ends before the entry does. -/
theorem fetchEntry_eos {b : Byte} (h : ReaderOk w.st)
    (hu : w.st.unreadBits = [] ∨
      ∃ f fs, w.st.unreadBits = f :: fs ∧ fs.length < if f then b.toNat else 8) :
    ∃ r, fetchEntry b w = .raise .eos w.st.regs.rlim { w with st := { w.st with regs := r } } := by
  rcases hu with hu | ⟨f, fs, hu, hfs⟩
  · exact ⟨w.st.regs, by rw [fetchEntry, getBit_eos h (by rw [hu]; rfl), Res.bind_raise]⟩
  · obtain ⟨c, hget, hc, hok⟩ := getBit_ok h (by simp [hu])
    rw [hu] at hc
    injection hc with hflag hrest
    subst hflag
    obtain ⟨r, hfield⟩ := getField_eos (w := { w with st := w.st.afterReading 1 }) hok (by rwa [← hrest])
    exact ⟨r, by rw [fetchEntry, hget, Res.bind_ok, hfield, Res.bind_raise]; rfl⟩

/-! ## Inside a table read -/

/-- The reader's variables in a table of n lengths in bpl bits, when its entries have given the lengths `lens`. -/
def TableRead.after (start : Regs) (n bpl : Nat) (lens : List Nat) : TableRead where
  start := start
  n := n
  bpl := BitVec.ofNat 8 bpl
  i := lens.length
  haveLast := !lens.isEmpty
  last := BitVec.ofNat 8 (lens.getLast?.getD 0)

/-- The work of the table read that s begins, when k bits have been read and have given the lengths `lens`. -/
def State.reading (s : State) (n bpl k : Nat) (lens : List Nat) : Work where
  st := { s.readAligned.afterReading k with
    len := s.len.writeList 0 (lens.map (BitVec.ofNat 8))
    tread := some (.after s.regs n bpl lens) }
  wroteLen := !lens.isEmpty

@[simp] theorem State.reading_params : (s.reading n bpl k lens).st.params = s.params := rfl
@[simp] theorem State.reading_tread : (s.reading n bpl k lens).st.tread = some (.after s.regs n bpl lens) := rfl

/-- The count at the read cursor, as `TableRead()` fetches it. -/
theorem getField_count (hs : ReaderOk s) (hn : n < 65536) (hu : s.readAligned.unreadBits = fieldBits 16 n ++ rest) :
    getField 16 (alignR s.start) = .ok n { s.start with st := s.readAligned.afterReading 16 } ∧
      ReaderOk (s.readAligned.afterReading 16) ∧ (s.readAligned.afterReading 16).unreadBits = rest := by
  obtain ⟨hrest, hok⟩ := unreadBits_afterReading hs.aligned hu
  rw [fieldBits_length] at hrest hok
  exact ⟨getField_fieldBits (w := alignR s.start) hs.aligned hn hu, hok, hrest⟩

theorem tableHeader_reading (hs : ReaderOk s) (hn : n < 65536) (hlimit : badLimit s.params n = false)
    (hb : bpl < 256) (hu : s.readAligned.unreadBits = fieldBits 16 n ++ fieldBits 8 bpl ++ rest) :
    tableHeader s.regs s.start = .ok () (s.reading n bpl 24 []) := by
  have hbits : 16 + 8 ≤ s.readAligned.unreadBits.length := by simp [hu, -fieldBits_succ]; omega
  have hadd := afterReading_afterReading hs.aligned hbits
  rw [List.append_assoc] at hu
  obtain ⟨hcount, hok, hleft⟩ := getField_count hs hn hu
  have hwidth := getField_fieldBits (w := { s.start with st := s.readAligned.afterReading 16 }) hok hb hleft
  rw [tableHeader, hcount, Res.bind_ok, State.afterReading_params, State.readAligned_params, hlimit,
    if_neg Bool.false_ne_true, hwidth, Res.bind_ok, hadd]
  rfl

theorem isEmpty_append (xs ys : List Nat) : (xs ++ ys).isEmpty = (xs.isEmpty && ys.isEmpty) := by
  cases xs <;> rfl

theorem literalEntry_reading (hn : n ≤ s.params.symLimitMax) (hlt : lens.length < n) (v : Nat) :
    literalEntry v (s.reading n bpl k lens) =
      if s.params.maxCodeLen < v then .raise .lenRange (BitVec.ofNat 32 lens.length) (s.reading n bpl k lens)
      else .ok () (s.reading n bpl k (lens ++ [v])) := by
  rw [literalEntry_waited State.reading_tread hlt hn, State.reading_params]
  split_ifs
  · rfl
  · simp [State.reading, TableRead.after, Mem.writeList_append, Mem.writeList, isEmpty_append]

theorem runEntry_reading_nil (hn : n ≤ s.params.symLimitMax) (hpos : 0 < n) (r : Nat) :
    runEntry r (s.reading n bpl k []) = .raise .tableFormat (subInfo 1 0) (s.reading n bpl k []) := by
  have hi : (TableRead.after s.regs n bpl []).i < (TableRead.after s.regs n bpl []).n := hpos
  rw [runEntry_waited State.reading_tread hi hn]
  exact if_pos rfl

theorem runEntry_reading_of_ne_nil (hn : n ≤ s.params.symLimitMax) (hlt : lens.length < n) (hne : lens ≠ []) (r : Nat) :
    runEntry r (s.reading n bpl k lens) =
      if n < lens.length + r then .raise .tableFormat (subInfo 2 lens.length) (s.reading n bpl k lens)
      else .ok () (s.reading n bpl k (lens ++ List.replicate r (lens.getLast hne))) := by
  have hempty : lens.isEmpty = false := List.isEmpty_eq_false_iff.2 hne
  have hlast : (lens ++ List.replicate r (lens.getLast hne)).getLast? = some (lens.getLast hne) := by
    rw [List.getLast?_append, List.getLast?_eq_some_getLast hne, List.getLast?_replicate]
    split_ifs <;> rfl
  have hhave : ¬(TableRead.after s.regs n bpl lens).haveLast = false := by simp [TableRead.after, hne]
  rw [runEntry_waited State.reading_tread hlt hn, if_neg hhave]
  by_cases hfit : n < lens.length + r
  · exact (if_pos hfit).trans (if_pos hfit).symm
  · refine (if_neg hfit).trans (Eq.trans ?_ (if_neg hfit).symm)
    simp only [State.reading, TableRead.after, hlast, List.getLast?_eq_some_getLast hne, isEmpty_append, hempty,
      List.map_append, List.map_replicate, Mem.writeList_append, List.length_append, List.length_map,
      List.length_replicate, Option.getD_some, Nat.zero_add, Bool.false_and, Bool.not_false, Bool.true_or]

/-- An entry that fits into the array stores its lengths. -/
theorem entry_reading {xs : List Nat} (hn : n ≤ s.params.symLimitMax) (hlt : lens.length < n)
    (hxs : entryLens lens.getLast? e = some xs) (hfit : lens.length + xs.length ≤ n)
    (hmax : ∀ l ∈ xs, l ≤ s.params.maxCodeLen) :
    entry e (s.reading n bpl k lens) = .ok () (s.reading n bpl k (lens ++ xs)) := by
  obtain ⟨flag, f⟩ := e
  cases flag with
  | true =>
    injection hxs with hxs
    subst hxs
    exact (literalEntry_reading hn hlt f).trans (if_neg (Nat.not_lt.2 (hmax f (by simp))))
  | false =>
    obtain ⟨v, hv, rfl⟩ := Option.map_eq_some_iff.1 hxs
    have hne : lens ≠ [] := fun h => by simp [h] at hv
    rw [List.getLast?_eq_some_getLast hne] at hv
    cases hv
    rw [List.length_replicate] at hfit
    exact (runEntry_reading_of_ne_nil hn hlt hne f).trans (if_neg (Nat.not_lt.2 hfit))

/-! ## The entry loop -/

theorem unreadCount_eq (s : State) : unreadCount s.regs = s.unreadBits.length := by
  rw [unreadBits_length, unreadCount, Nat.add_comm]

/-- The read stream inside the table read. -/
theorem reading_readerOk {bits : List Bool} (hs : ReaderOk s) (hu : s.readAligned.unreadBits = bits ++ rest) :
    ReaderOk (s.reading n bpl bits.length lens).st ∧ (s.reading n bpl bits.length lens).st.unreadBits = rest := by
  obtain ⟨hrest, hok⟩ := unreadBits_afterReading hs.aligned hu
  exact ⟨⟨hok.nb, hok.pos, hok.lim, hok.cnt, hok.size⟩, hrest⟩

theorem fetchEntry_reading {bits : List Bool} (hs : ReaderOk s) (hb : bpl < 256)
    (he : e.2 < 2 ^ (if e.1 then bpl else 8)) (hu : s.readAligned.unreadBits = bits ++ (fieldsOf bpl e ++ rest)) :
    fetchEntry (BitVec.ofNat 8 bpl) (s.reading n bpl bits.length lens) =
      .ok e (s.reading n bpl (bits ++ fieldsOf bpl e).length lens) := by
  obtain ⟨hok, hrest⟩ := reading_readerOk (n := n) (bpl := bpl) (lens := lens) hs hu
  have hbyte := toNat_byte_ofNat hb
  have hadd := afterReading_afterReading hs.aligned (a := bits.length) (b := (fieldsOf bpl e).length)
    (by simp only [hu, List.length_append]; omega)
  rw [fetchEntry_fieldsOf hok (by rwa [hbyte]) (by rwa [hbyte]), hbyte, List.length_append, State.reading,
    State.reading, ← hadd]
  rfl

/-- While lengths are missing, the loop fetches an entry and executes it. -/
theorem entryLoop_reading (hlt : lens.length < n) (j : Nat) :
    entryLoop (j + 1) (s.reading n bpl k lens) =
      (fetchEntry (BitVec.ofNat 8 bpl) (s.reading n bpl k lens)).bind fun e w =>
        (entry e w).bind fun _ w => entryLoop j w := by
  rw [entryLoop, State.reading_tread]
  exact if_pos hlt

/-- One entry that fits into the array, in the entry loop. -/
theorem entryLoop_entry {bits : List Bool} {xs : List Nat} (hs : ReaderOk s) (hn : n ≤ s.params.symLimitMax)
    (hb : bpl < 256) (he : e.2 < 2 ^ (if e.1 then bpl else 8))
    (hu : s.readAligned.unreadBits = bits ++ (fieldsOf bpl e ++ rest)) (hlt : lens.length < n)
    (hxs : entryLens lens.getLast? e = some xs) (hfit : lens.length + xs.length ≤ n)
    (hmax : ∀ l ∈ xs, l ≤ s.params.maxCodeLen) (j : Nat) :
    entryLoop (j + 1) (s.reading n bpl bits.length lens) =
      entryLoop j (s.reading n bpl (bits ++ fieldsOf bpl e).length (lens ++ xs)) := by
  rw [entryLoop_reading hlt, fetchEntry_reading hs hb he hu, Res.bind_ok, entry_reading hn hlt hxs hfit hmax,
    Res.bind_ok]

/-- Entries that leave lengths missing, in the entry loop. -/
theorem entryLoop_entries {bits : List Bool} {xs : List Nat} (hs : ReaderOk s) (hn : n ≤ s.params.symLimitMax)
    (hb : bpl < 256) (hes : ∀ e ∈ es, e.2 < 2 ^ (if e.1 then bpl else 8))
    (hu : s.readAligned.unreadBits = bits ++ (es.flatMap (fieldsOf bpl) ++ rest))
    (hxs : expandEntries lens.getLast? es = some xs) (hlt : lens.length + xs.length < n)
    (hmax : ∀ l ∈ xs, l ≤ s.params.maxCodeLen) (j : Nat) :
    entryLoop (j + es.length) (s.reading n bpl bits.length lens) =
      entryLoop j (s.reading n bpl (bits ++ es.flatMap (fieldsOf bpl)).length (lens ++ xs)) := by
  induction es generalizing bits lens xs with
  | nil =>
    cases hxs
    simp
  | cons e es ih =>
    obtain ⟨ys, zs, hys, hzs, rfl⟩ := expandEntries_cons.1 hxs
    rw [List.forall_mem_cons] at hes
    rw [List.forall_mem_append] at hmax
    rw [List.length_append] at hlt
    rw [List.flatMap_cons, List.append_assoc] at hu
    rw [List.length_cons, ← Nat.add_assoc,
      entryLoop_entry hs hn hb hes.1 hu (by omega) hys (by omega) hmax.1,
      ih hes.2 (by rw [hu, List.append_assoc]) (by rwa [List.getLast?_append])
        (by rw [List.length_append]; omega) hmax.2]
    simp only [List.flatMap_cons, List.append_assoc]

/-- A table read after its header and entries that leave lengths missing. The bound on the number of entries is not
reached. -/
theorem exists_tableRead_eq_entryLoop (hs : ReaderOk s) (hp : s.params.Legal) (hn : n ≤ s.params.symLimitMax)
    (h2 : 2 ≤ n) (hb : bpl < 256) (hes : ∀ e ∈ es, e.2 < 2 ^ (if e.1 then bpl else 8))
    (hu : s.readAligned.unreadBits = tableWith n bpl es ++ rest) (hlens : expandEntries none es = some lens)
    (hlt : lens.length < n) (hmax : ∀ l ∈ lens, l ≤ s.params.maxCodeLen) :
    ∃ j, rest.length ≤ j ∧ tableRead s.regs s.start =
      (entryLoop (j + 1) (s.reading n bpl (tableWith n bpl es).length lens)).bind fun _ w => tableFinish w := by
  have hcap := hp.symLimitMax_le
  rw [tableWith_eq, List.append_assoc] at hu
  have hheader := tableHeader_reading hs (by omega) (badLimit_eq_false.2 ⟨h2, hn⟩) hb hu
  have hlen : (fieldBits 16 n ++ fieldBits 8 bpl).length = 24 := by
    rw [List.length_append, fieldBits_length, fieldBits_length]
  obtain ⟨-, hleft⟩ := reading_readerOk (n := n) (bpl := bpl) (lens := []) hs hu
  have hfew : es.length ≤ (es.flatMap (fieldsOf bpl)).length := by
    rw [List.length_flatMap]
    have hsum := List.length_le_sum_of_one_le (es.map fun e => (fieldsOf bpl e).length) fun i hi => by
      obtain ⟨e, -, rfl⟩ := List.mem_map.1 hi
      exact Nat.le_add_left 1 _
    rwa [List.length_map] at hsum
  obtain ⟨j, hj⟩ := Nat.exists_eq_add_of_le hfew
  have hbound : unreadCount (s.reading n bpl 24 []).st.regs + 1 = j + rest.length + 1 + es.length := by
    rw [unreadCount_eq, ← hlen, hleft, List.length_append]
    omega
  have hloop := entryLoop_entries (lens := []) hs hn hb hes hu hlens (by simpa using hlt) hmax (j + rest.length + 1)
  rw [hlen, ← hbound] at hloop
  refine ⟨j + rest.length, Nat.le_add_left _ _, ?_⟩
  rw [tableRead, hheader, Res.bind_ok, hloop]
  rfl

/-! ## A whole table (R205, R207) -/

/-- After the last entry the array is checked and loaded. -/
theorem tableFinish_reading (hs : s.Sane) (hn : n ≤ s.params.symLimitMax) (hlen : lens.length = n)
    (hmax : ∀ l ∈ lens, l ≤ s.params.maxCodeLen) :
    tableFinish (s.reading n bpl k lens) =
      (checkFull lens (alignR (s.reading n bpl k lens))).bind fun _ w =>
        .ok () ((w.setRegs fun r => { r with limit := BitVec.ofNat 32 n }.loadCode (maxLen lens)).setTread none) := by
  have hlens : (alignR (s.reading n bpl k lens)).st.lens n = lens := by
    have h := lens_writeList hs.len.1 fun l hl => (hmax l hl).trans hs.params.maxCodeLen_le
    rw [hlen] at h
    exact h
  have hread : readLens n (alignR (s.reading n bpl k lens)) = .ok lens (alignR (s.reading n bpl k lens)) := by
    rw [readLens_ok hn, hlens]
  rw [tableFinish, State.reading_tread]
  dsimp only [TableRead.after]
  rw [hread, Res.bind_ok]

/-- A table whose last entry fills the array is read to its end. -/
theorem tableRead_of_whole (hs : s.Sane) (hn : n ≤ s.params.symLimitMax) (h2 : 2 ≤ n) (hb : bpl < 256)
    (hes : ∀ e ∈ es, e.2 < 2 ^ (if e.1 then bpl else 8)) (hlens : expandEntries none es = some lens)
    (hlen : lens.length = n) (hlast : ∀ ls, expandEntries none es.dropLast = some ls → ls.length < n)
    (hmax : ∀ l ∈ lens, l ≤ s.params.maxCodeLen) (hu : s.readAligned.unreadBits = tableWith n bpl es ++ rest) :
    tableRead s.regs s.start = tableFinish (s.reading n bpl (tableWith n bpl es).length lens) := by
  have hne : es ≠ [] := by
    rintro rfl
    cases hlens
    simp only [List.length_nil] at hlen
    omega
  obtain ⟨front, e, rfl⟩ : ∃ front e, es = front ++ [e] :=
    ⟨es.dropLast, es.getLast hne, (List.dropLast_append_getLast hne).symm⟩
  obtain ⟨ls, xs, hls, hxs, rfl⟩ := expandEntries_append.1 hlens
  rw [List.dropLast_concat] at hlast
  rw [Option.or_none, expandEntries_singleton] at hxs
  rw [List.forall_mem_append] at hes hmax
  rw [List.length_append] at hlen
  have hbits : tableWith n bpl (front ++ [e]) = tableWith n bpl front ++ fieldsOf bpl e := by
    simp [tableWith_eq, -fieldBits_succ]
  rw [hbits, List.append_assoc] at hu
  obtain ⟨j, hj, hread⟩ := exists_tableRead_eq_entryLoop hs.readerOk hs.params hn h2 hb hes.1 hu hls (hlast ls hls)
    hmax.1
  obtain ⟨j, rfl⟩ : ∃ i, j = i + 1 := Nat.exists_eq_add_one.2 (Nat.lt_of_lt_of_le (by simp) hj)
  have hdone : entryLoop (j + 1) (s.reading n bpl (tableWith n bpl front ++ fieldsOf bpl e).length (ls ++ xs)) =
      .ok () (s.reading n bpl (tableWith n bpl front ++ fieldsOf bpl e).length (ls ++ xs)) := by
    rw [entryLoop, State.reading_tread]
    exact if_neg (by simp [TableRead.after]; omega)
  rw [hread, entryLoop_entry hs.readerOk hn hb (hes.2 e (by simp)) hu (hlast ls hls) hxs (by omega) hmax.2, hdone,
    Res.bind_ok, hbits]

/-- The table read that s begins faults with this code and information, when the lengths `lens` have been stored. -/
def State.TableReadFaults (s : State) (lens : List Nat) (c : FaultCode) (info : Word) : Prop :=
  ∃ r t, tableRead s.regs s.start = .raise c info
    { st := { s with regs := r, len := s.len.writeList 0 (lens.map (BitVec.ofNat 8)), tread := t }
      wroteLen := !lens.isEmpty }

theorem execHufTread_of_faults {c : FaultCode} {info : Word} (h : s.TableReadFaults lens c info) :
    execHufTread s = .next (State.faulted { s with
      len := s.len.writeList 0 (lens.map (BitVec.ofNat 8))
      regs := if lens = [] then s.regs else s.regs.dropCode } 0x33#8 c info) := by
  obtain ⟨r, t, h⟩ := h
  rw [execHufTread, runCommand_of_raise h, faultEntry_eq_faulted]
  cases lens <;> rfl

/-- Settles O40: the entries fill LEN, and `tableFinish` checks and loads it. -/
theorem hufTreadResult : Obligations.HufTreadResult := by
  unfold Obligations.HufTreadResult
  intro s n bpl es lens rest hs hn h2 hb hes hlens hlen hlast hmax hu
  have hne : lens ≠ [] := by
    rintro rfl
    simp only [List.length_nil] at hlen
    omega
  have hread := (tableRead_of_whole hs hn h2 hb hes hlens hlen hlast hmax hu).trans
    (tableFinish_reading hs hn hlen hmax)
  simp only [exec]
  refine ⟨fun hfull => ?_, fun v hv => ?_, fun c hc => ?_⟩
  · rw [checkFull, hfull, Res.bind_ok] at hread
    rw [execHufTread, runCommand_of_ok hread, ← hs.idle]
    rfl
  · rw [checkFull, hv, Res.bind_raise] at hread
    rw [execHufTread_of_faults ⟨_, _, hread⟩, if_neg hne]
    rfl
  · rw [checkFull, hc, Res.bind_raise] at hread
    rw [execHufTread_of_faults ⟨_, _, hread⟩, if_neg hne]
    rfl

/-! ## A table that is truncated, illegal or malformed (R205) -/

theorem execHufTread_of_faults_nil {c : FaultCode} {info : Word} (h : s.TableReadFaults [] c info) :
    execHufTread s = .next (s.faulted 0x33#8 c info) := by
  rw [execHufTread_of_faults h, if_pos rfl]
  rfl

/-- A header of fewer than 16 bits. -/
theorem tableReadFaults_of_no_count (hs : ReaderOk s) (hu : s.readAligned.unreadBits.length < 16) :
    s.TableReadFaults [] .eos s.regs.rlim := by
  obtain ⟨r, hget⟩ := getField_eos (w := alignR s.start) hs.aligned hu
  exact ⟨r, s.tread, by rw [tableRead, tableHeader, hget, Res.bind_raise, Res.bind_raise]; rfl⟩

/-- An illegal count. -/
theorem tableReadFaults_of_badLimit (hs : ReaderOk s) (hn : n < 65536) (hbad : badLimit s.params n = true)
    (hu : s.readAligned.unreadBits = fieldBits 16 n ++ rest) :
    s.TableReadFaults [] .config (BitVec.ofNat 32 n) := by
  obtain ⟨hget, -, -⟩ := getField_count hs hn hu
  refine ⟨(s.readAligned.afterReading 16).regs, s.tread, ?_⟩
  rw [tableRead, tableHeader, hget, Res.bind_ok, State.afterReading_params, State.readAligned_params, if_pos hbad,
    Res.bind_raise]
  rfl

/-- A legal count, and no whole field width after it. -/
theorem tableReadFaults_of_no_width (hs : ReaderOk s) (hn : n < 65536) (hlegal : badLimit s.params n = false)
    (hu : s.readAligned.unreadBits = fieldBits 16 n ++ rest) (hrest : rest.length < 8) :
    s.TableReadFaults [] .eos s.regs.rlim := by
  obtain ⟨hget, hok, hleft⟩ := getField_count hs hn hu
  obtain ⟨r, hwidth⟩ := getField_eos (w := { s.start with st := s.readAligned.afterReading 16 }) hok
    (by rw [hleft]; exact hrest)
  refine ⟨r, s.tread, ?_⟩
  rw [tableRead, tableHeader, hget, Res.bind_ok, State.afterReading_params, State.readAligned_params, hlegal,
    if_neg Bool.false_ne_true, hwidth, Res.bind_raise, Res.bind_raise]
  rfl

section Entries

/-! Entries that leave lengths missing, and the next entry is truncated or faults. -/

variable (hs : ReaderOk s) (hp : s.params.Legal) (hn : n ≤ s.params.symLimitMax) (h2 : 2 ≤ n) (hb : bpl < 256)
  (hes : ∀ e ∈ es, e.2 < 2 ^ (if e.1 then bpl else 8)) (hlens : expandEntries none es = some lens)
  (hlt : lens.length < n) (hmax : ∀ l ∈ lens, l ≤ s.params.maxCodeLen)
  (hu : s.readAligned.unreadBits = tableWith n bpl es ++ rest)

include hs hp hn h2 hb hes hlens hlt hmax hu

theorem tableReadFaults_of_truncated
    (hrest : rest = [] ∨ ∃ f fs, rest = f :: fs ∧ fs.length < if f then bpl else 8) :
    s.TableReadFaults lens .eos s.regs.rlim := by
  obtain ⟨j, -, hread⟩ := exists_tableRead_eq_entryLoop hs hp hn h2 hb hes hu hlens hlt hmax
  obtain ⟨hok, hleft⟩ := reading_readerOk (n := n) (bpl := bpl) (lens := lens) hs hu
  obtain ⟨r, hfetch⟩ := fetchEntry_eos (b := BitVec.ofNat 8 bpl) hok (by rwa [hleft, toNat_byte_ofNat hb])
  refine ⟨r, some (.after s.regs n bpl lens), ?_⟩
  rw [hread, entryLoop_reading hlt, hfetch, Res.bind_raise, Res.bind_raise]
  rfl

theorem tableReadFaults_of_entry {more : List Bool} {c : FaultCode} {info : Word}
    (hrest : rest = fieldsOf bpl e ++ more) (he : e.2 < 2 ^ (if e.1 then bpl else 8))
    (hentry : ∀ k, entry e (s.reading n bpl k lens) = .raise c info (s.reading n bpl k lens)) :
    s.TableReadFaults lens c info := by
  obtain ⟨j, -, hread⟩ := exists_tableRead_eq_entryLoop hs hp hn h2 hb hes hu hlens hlt hmax
  subst hrest
  refine ⟨(s.readAligned.afterReading (tableWith n bpl es ++ fieldsOf bpl e).length).regs,
    some (.after s.regs n bpl lens), ?_⟩
  rw [hread, entryLoop_reading hlt, fetchEntry_reading hs hb he hu, Res.bind_ok, hentry, Res.bind_raise, Res.bind_raise]
  rfl

end Entries

theorem decodeCommand_hufTread (imm : Imm) : decodeCommand (commandWord 0x33#8 imm) = .ok .hufTread := by
  simp [decodeCommand]

/-- Settles O41: each way to fail is a fault of the table read, at the header or at the entry after those read. -/
theorem hufTreadRejects : Obligations.HufTreadRejects := by
  unfold Obligations.HufTreadRejects
  intro imm s hs
  have hr := hs.readerOk
  have hcap := hs.params.symLimitMax_le
  simp only [exec]
  refine ⟨decodeCommand_hufTread imm, fun h => execHufTread_of_faults_nil (tableReadFaults_of_no_count hr h),
    fun n rest hn hbad hu => execHufTread_of_faults_nil
      (tableReadFaults_of_badLimit hr hn (badLimit_eq_true.2 hbad) hu),
    fun n rest hn h2 hu hrest => execHufTread_of_faults_nil
      (tableReadFaults_of_no_width hr (by omega) (badLimit_eq_false.2 ⟨h2, hn⟩) hu hrest),
    fun n bpl es lens rest hn h2 hb hes hlens hlt hmax hu => ?_⟩
  have htruncated := tableReadFaults_of_truncated hr hs.params hn h2 hb hes hlens hlt hmax hu
  have hentry {e more c info} := tableReadFaults_of_entry (e := e) (more := more) (c := c) (info := info) hr
    hs.params hn h2 hb hes hlens hlt hmax hu
  refine ⟨fun h => execHufTread_of_faults (htruncated (.inl h)),
    fun f fs h hfs => execHufTread_of_faults (htruncated (.inr ⟨f, fs, h, hfs⟩)), fun v more hv hlong h => ?_,
    fun r more hr256 h => ⟨fun hnil => ?_, fun hne hover => ?_⟩⟩
  · exact execHufTread_of_faults (hentry (e := (true, v)) h hv fun k =>
      (literalEntry_reading hn hlt v).trans (if_pos hlong))
  · refine execHufTread_of_faults (hentry (e := (false, r)) h hr256 fun k => ?_)
    subst hnil
    exact runEntry_reading_nil hn hlt r
  · exact execHufTread_of_faults (hentry (e := (false, r)) h hr256 fun k =>
      (runEntry_reading_of_ne_nil hn hlt hne r).trans (if_pos hover))

end Sys2Proof.Machine
end

section
/-! The round trip of the code-length table (spec/43_table_io.md R206): HUF_TREAD over the bytes that HUF_TWRITE has
stored. -/

namespace Sys2Proof.Machine

variable {s t : State} {bpl : Nat} {lens : List Nat} {fs : List (Bool × Nat)} {bits : List Bool}

/-! ## The table that the writer gives -/

theorem tableBits_eq_tableWith {m : Nat} (h : WrittenAs (bitlength m) lens fs) (hb : bitlength m < 256) :
    tableBits lens m = tableWith lens.length (bitlength m) fs := by
  rw [tableBits, tableWith, h.bits hb]

/-- A value fits into its `bitlength` bits (spec/43_table_io.md R200). -/
theorem lt_two_pow_bitlength (v : Nat) : v < 2 ^ bitlength v := by
  rw [bitlength]
  split_ifs with h
  · rw [h]
    decide
  · exact Nat.lt_log2_self

theorem bitlength_le {v k : Nat} (h : v < 2 ^ k) : bitlength v ≤ k := by
  rw [bitlength]
  split_ifs with h0
  · exact Nat.zero_le k
  · exact (Nat.log2_lt h0).2 h

/-- Each field of the writer's table fits into its bits. -/
theorem WrittenAs.field_lt (h : WrittenAs (bitlength (maxLen lens)) lens fs) :
    ∀ e ∈ fs, e.2 < 2 ^ (if e.1 then bitlength (maxLen lens) else 8) := by
  rintro ⟨flag, f⟩ he
  cases flag with
  | true => exact Nat.lt_of_le_of_lt (le_maxLen (h.literal _ he rfl)) (lt_two_pow_bitlength _)
  | false => exact (h.run _ he rfl).2

/-- Every entry of the writer adds a length, so without the last the array is not full. -/
theorem WrittenAs.dropLast_lt (h : WrittenAs bpl lens fs) (hpos : lens ≠ []) {ls : List Nat}
    (hls : expandEntries none fs.dropLast = some ls) : ls.length < lens.length := by
  have hexp := h.expand none
  have hne : fs ≠ [] := by
    rintro rfl
    cases hexp
    exact hpos rfl
  rw [← List.dropLast_append_getLast hne] at hexp
  obtain ⟨xs, ys, hxs, hys, rfl⟩ := expandEntries_append.1 hexp
  rw [hls] at hxs
  cases hxs
  have hy : 0 < ys.length := by
    rw [expandEntries_singleton] at hys
    by_cases hflag : (fs.getLast hne).1 = true
    · rw [entryLens, if_pos hflag] at hys
      cases hys
      exact Nat.one_pos
    · rw [entryLens, if_neg hflag] at hys
      obtain ⟨v, -, rfl⟩ := Option.map_eq_some_iff.1 hys
      rw [List.length_replicate]
      exact (h.run _ (List.getLast_mem hne) (Bool.eq_false_of_not_eq_true hflag)).1
  rw [List.length_append]
  omega

/-! ## The bytes of a table -/

/-- Padded bits that a byte-aligned writer has stored are the next bits of a reader that starts where it started. -/
theorem exists_unreadBits_of_afterBits (hm : s.buf.Rising) (hnb : s.regs.wnb = 0)
    (hbuf : t.buf = (s.afterBits (bits ++ padTo bits.length)).buf) (hpos : t.regs.rpos.toNat = s.regs.wpos.toNat)
    (hrnb : t.regs.rnb = 0) (hlim : s.regs.wpos.toNat + (bits.length + 7) / 8 ≤ t.regs.rlim.toNat) :
    ∃ rest, t.unreadBits = bits ++ rest := by
  have hlen := append_padTo_length bits
  have hpending : s.regs.pendingBits = [] := List.eq_nil_of_length_eq_zero (by rw [pendingBits_length, hnb]; rfl)
  have hbytes : (packBytes (bits ++ padTo bits.length)).length = (bits.length + 7) / 8 := by
    rw [packBytes_length, hlen]
    omega
  have htake := take_unreadBits_of_writeList (s := t) (vs := packBytes (bits ++ padTo bits.length)) hm
    (by rw [hbuf, State.afterBits, hpending, List.nil_append, hpos]) hrnb (by rwa [hpos, hbytes])
  rw [flatMap_packBytes (by omega)] at htake
  obtain ⟨rest, hrest⟩ := List.take_prefix (8 * (packBytes (bits ++ padTo bits.length)).length) t.unreadBits
  exact ⟨padTo bits.length ++ rest, by rw [← hrest, htake, List.append_assoc]⟩

/-- Bits written with the padding before and after them: they start at the next byte boundary, and end at one. -/
theorem afterBits_padded (h : WriterOk s)
    (hr : s.HasRoom (padTo s.regs.wnb.toNat ++ bits ++ padTo bits.length).length) :
    let aligned := s.afterBits (padTo s.regs.wnb.toNat)
    let written := s.afterBits (padTo s.regs.wnb.toNat ++ bits ++ padTo bits.length)
    aligned.regs.wnb = 0 ∧ aligned.regs.wpos.toNat = s.regs.wpos.toNat + (s.regs.wnb.toNat + 7) / 8 ∧
      written = aligned.afterBits (bits ++ padTo bits.length) ∧
      written.regs.wpos.toNat = aligned.regs.wpos.toNat + (bits.length + 7) / 8 := by
  have hnb := h.nb
  have hlen := append_padTo_length bits
  have hpad := padTo_length s.regs.wnb.toNat
  have hroom : s.HasRoom (padTo s.regs.wnb.toNat).length := by
    simp only [State.HasRoom, List.length_append] at hr ⊢
    omega
  obtain ⟨-, haligned, -⟩ := afterBits_writerOk h hroom
  obtain ⟨-, hwritten, -⟩ := afterBits_writerOk h hr
  rw [List.append_assoc] at hwritten ⊢
  refine ⟨afterBits_padTo_wnb h hroom, ?_, (afterBits_append h hroom _).symm, ?_⟩
  · omega
  · rw [hwritten, haligned, List.length_append]
    omega

/-! ## The table read back -/

/-- From a byte boundary, the bytes fetched for k bits. -/
theorem afterReading_rpos_of_aligned (hrnb : s.regs.rnb = 0) (k : Nat) :
    (s.afterReading k).regs.rpos = s.regs.rpos + BitVec.ofNat 32 ((k + 7) / 8) := by
  simp [State.afterReading, Regs.fetches, hrnb]

/-- HUF_TREAD loads the array whose table the writer gave. -/
theorem execHufTread_tableBits {rest : List Bool} (hs : s.Sane) (hn : lens.length ≤ s.params.symLimitMax)
    (h2 : 2 ≤ lens.length) (hmax : ∀ l ∈ lens, l ≤ s.params.maxCodeLen) (hfull : validate lens = .full)
    (hu : s.readAligned.unreadBits = tableBits lens (maxLen lens) ++ rest) :
    ∃ u, exec .hufTread s = .next u ∧ u.regs.status.fault = s.regs.status.fault ∧ u.regs.status.codeValid = true ∧
      u.loadedLens = lens ∧ u.regs.limit = BitVec.ofNat 32 lens.length ∧
      u.regs.maxlen = BitVec.ofNat 32 (maxLen lens) ∧
      u.regs.rpos = s.regs.rpos + BitVec.ofNat 32 (((tableBits lens (maxLen lens)).length + 7) / 8) ∧
      u.regs.rnb = 0 := by
  have hcap := hs.params.maxCodeLen_le
  have hb : bitlength (maxLen lens) < 256 := by
    have hle := maxLen_le hmax
    have := bitlength_le (v := maxLen lens) (k := 8) (by omega)
    omega
  obtain ⟨fs, hfs⟩ := exists_writtenAs (bitlength (maxLen lens)) lens
  have hne : lens ≠ [] := fun h => by simp [h] at h2
  rw [tableBits_eq_tableWith hfs hb] at hu ⊢
  obtain ⟨hread, -⟩ := hufTreadResult s lens.length (bitlength (maxLen lens)) fs lens rest hs hn h2 hb hfs.field_lt
    (hfs.expand none) rfl (fun _ => hfs.dropLast_lt hne) hmax hu
  refine ⟨_, hread hfull, rfl, rfl, ?_, rfl, rfl, afterReading_rpos_of_aligned rfl _, rfl⟩
  rw [State.loadedLens]
  dsimp only
  rw [ofNat_limit_toNat hs.params hn]
  exact lens_writeList hs.len.1 fun l hl => (hmax l hl).trans hcap

/-- BS_RINIT at a BUF address, as the state of the reader that it starts. -/
theorem exec_bsRinit_setArg (hs : s.Sane) {a lim : Word} (hlim : lim.toNat ≤ s.params.bufSize)
    (ha : a.toNat ≤ lim.toNat) :
    ∃ v, exec (.bsRinit (a.setWidth 24)) { s with regs := { s.regs with arg := lim } } = .next v ∧ v.Sane ∧
      v.regs.rpos = a ∧ v.regs.rlim = lim ∧ v.regs.status = s.regs.status ∧ v.buf = s.buf ∧ v.params = s.params := by
  have hsize := hs.writerOk.size
  have hsane : State.Sane { s with regs := { s.regs with arg := lim } } := { hs with }
  have himm : (a.setWidth 24).toNat = a.toNat := by rw [BitVec.toNat_setWidth, Nat.mod_eq_of_lt (by omega)]
  have hrun := execBsRinit_of_le (s := { s with regs := { s.regs with arg := lim } }) (a := a.setWidth 24) hlim
    (by rwa [himm])
  exact ⟨_, hrun, exec_sane (i := .bsRinit _) hsane rfl hrun,
    BitVec.eq_of_toNat_eq ((zextImm_toNat _).trans himm), rfl, rfl, rfl, rfl⟩

/-- Settles O42: the writer's table is one of those that HUF_TREAD loads, and its bits are where BS_RINIT points. -/
theorem tableRoundTrip : Obligations.TableRoundTrip := by
  unfold Obligations.TableRoundTrip
  intro s hs hfault hv hroom start
  have hw := hs.sane.writerOk
  have hlen : s.loadedLens.length = s.regs.limit.toNat := s.lens_length _
  obtain ⟨-, -, hwrite⟩ := hufTwriteResult 0 s hs
  have ht := (hwrite hv).1 hroom
  obtain ⟨haligned, hstart, hparts, hend⟩ := afterBits_padded hw hroom
  rw [← tableStreamBits] at hparts hend
  refine ⟨_, ht, fun lim hlim hbuf => ?_⟩
  have himm : BitVec.ofNat 24 start =
      (s.afterBits (padTo s.regs.wnb.toNat)).regs.wpos.setWidth 24 := by
    rw [← BitVec.ofNat_toNat, hstart]
  obtain ⟨v, hinit, hvsane, hvpos, hvlim, hvstatus, hvbuf, hvparams⟩ :=
    exec_bsRinit_setArg (exec_sane hs.sane rfl ht) (a := (s.afterBits (padTo s.regs.wnb.toNat)).regs.wpos) hbuf
      (by rw [hend] at hlim; omega)
  obtain ⟨rest, hbits⟩ := exists_unreadBits_of_afterBits (t := v.readAligned) (Mem.rising_writeList _ _ _ hs.sane.buf.1)
    haligned (hvbuf.trans (congrArg State.buf hparts)) (congrArg BitVec.toNat hvpos) rfl
    (by rw [State.readAligned_rlim, hvlim, ← hend]; exact hlim)
  obtain ⟨u, hread, hufault, huvalid, hulens, hulimit, humax, hupos, hunb⟩ := execHufTread_tableBits hvsane
    (by rw [hlen, hvparams]; exact hs.sane.limit_le) (by rw [hlen]; exact hs.code.limit hv)
    (by rw [hvparams]; exact hs.code.range hv) (hs.code.full hv) hbits
  refine ⟨u, ?_, ?_, huvalid, hulens, ?_, ?_, ?_, hunb⟩
  · rw [himm]
    simp only [execAll, hinit, hread]
  · rw [hufault, hvstatus]
    exact hfault
  · rw [hulimit, hlen, BitVec.ofNat_toNat, BitVec.setWidth_eq]
  · rw [humax, ← hs.code.maxlen hv, BitVec.ofNat_toNat, BitVec.setWidth_eq]
  · have hword := (s.afterBits (tableStreamBits s.regs.wnb.toNat s.loadedLens)).regs.wpos.isLt
    apply BitVec.eq_of_toNat_eq
    rw [hupos, hvpos, BitVec.toNat_add, BitVec.toNat_ofNat]
    omega

end Sys2Proof.Machine
end

section
/-! Codes in the two bit streams (spec/44_huffman_coding.md section 1): the loaded code as its canonical tree, what
`Encode` appends, what `Decode` reads, and the results of HUF_ENC and HUF_DEC. -/

namespace Sys2Proof.Machine

variable {s : State} {w : Work} {t : Tree} {lens list : List Nat} {bits more : List Bool} {x : Nat}

/-! ## The loaded code -/

theorem State.lens_getD (s : State) {n i : Nat} (hi : i < n) : (s.lens n).getD i 0 = (s.len.read i).toNat := by
  rw [List.getD_eq_getElem _ _ (by rwa [lens_length]), lens_getElem]

theorem loadedTree_ok (hlim : w.st.regs.limit.toNat ≤ w.st.params.symLimitMax)
    (ht : canonTree w.st.loadedLens = some t) : loadedTree w = .ok t w := by
  rw [State.loadedLens] at ht
  rw [loadedTree, readLens_ok hlim, Res.bind_ok, ht]

/-- A loaded code has its canonical tree (spec/42_huffman_build.md R182). -/
theorem State.Inv.exists_loadedTree (hs : s.Inv) (hv : s.regs.status.codeValid = true) :
    ∃ t, canonTree s.loadedLens = some t ∧ loadedTree s.start = .ok t s.start := by
  obtain ⟨t, ht⟩ := exists_canonTree (hs.code.full hv)
  exact ⟨t, ht, loadedTree_ok (w := s.start) hs.sane.limit_le ht⟩

theorem exists_codeOf (ht : canonTree lens = some t) (hx : 0 < lens.getD x 0) : ∃ bits, codeOf lens x = some bits := by
  obtain ⟨bits, hbits, -⟩ := canonTree_path ht hx
  exact ⟨bits, (codeOf_eq_path ht x).trans hbits⟩

/-! ## `Encode` -/

theorem codeBits_cons (h : codeOf lens x = some bits) : codeBits lens (x :: list) = bits ++ codeBits lens list := by
  rw [codeBits, List.flatMap_cons, h]
  rfl

theorem encodeSymbol_eq_putBits (ht : canonTree lens = some t) (h : codeOf lens x = some bits) (w : Work) :
    encodeSymbol t x w = putBits bits w := by
  rw [codeOf_eq_path ht] at h
  rw [encodeSymbol, h]

/-- `Encode` of symbols with codes appends their codes, with no gaps. -/
theorem encodeSymbols_eq_putBits (ht : canonTree lens = some t) (hlist : ∀ x ∈ list, 0 < lens.getD x 0) (w : Work) :
    encodeSymbols t list w = putBits (codeBits lens list) w := by
  induction list generalizing w with
  | nil => rfl
  | cons x list ih =>
    rw [List.forall_mem_cons] at hlist
    obtain ⟨bits, hbits⟩ := exists_codeOf ht hlist.1
    rw [encodeSymbols, encodeSymbol_eq_putBits ht hbits, codeBits_cons hbits, putBits_append]
    simp only [ih hlist.2]

/-- The outcome of a command that is one piece of output. -/
theorem runCommand_putBits (hs : WriterOk s) (op : Byte) (bits : List Bool) :
    (s.HasRoom bits.length → runCommand op (putBits bits) s = .next (s.afterBits bits)) ∧
    (¬s.HasRoom bits.length → runCommand op (putBits bits) s = .next
      { s.faulted op .bufFull (BitVec.ofNat 32 s.params.bufSize) with buf := s.bufFilled bits }) := by
  refine ⟨fun hr => runCommand_of_ok_state (putBits_room (w := s.start) bits hs hr), fun hr => ?_⟩
  obtain ⟨r, hput⟩ := putBits_full (w := s.start) bits hs hr
  exact runCommand_of_raise hput

/-! ## HUF_ENC (R221) -/

theorem execHufEnc_noCode (hs : s.Inv) (hv : s.regs.status.codeValid = true) {sym : Imm}
    (h0 : s.loadedLens.getD sym.toNat 0 = 0) :
    execHufEnc sym s = .next (s.faulted 0x34#8 .noCode (zextImm sym)) := by
  refine runCommand_of_raise_start ((if_neg (by simp [hv])).trans ?_)
  by_cases hlim : s.regs.limit.toNat ≤ sym.toNat
  · exact if_pos hlim
  · have hlt := Nat.not_le.1 hlim
    have hzero : s.len.read sym.toNat = 0 := BitVec.eq_of_toNat_eq ((s.lens_getD hlt).symm.trans h0)
    rw [if_neg hlim, readLen_ok (hlt.trans_le hs.sane.limit_le), Res.bind_ok, if_pos hzero]

theorem execHufEnc_of_code (hs : s.Inv) (hv : s.regs.status.codeValid = true) {sym : Imm}
    (hcode : codeOf s.loadedLens sym.toNat = some bits) (hpos : 0 < s.loadedLens.getD sym.toNat 0) :
    execHufEnc sym s = runCommand 0x34#8 (putBits bits) s := by
  obtain ⟨t, ht, htree⟩ := hs.exists_loadedTree hv
  have hlt : sym.toNat < s.regs.limit.toNat := (lt_length_of_getD_pos hpos).trans_eq (s.lens_length _)
  have hlen : s.len.read sym.toNat ≠ 0 := fun h0 => by
    rw [State.loadedLens, s.lens_getD hlt, h0] at hpos
    exact absurd hpos (by decide)
  refine runCommand_congr ((if_neg (by simp [hv])).trans ?_)
  rw [if_neg (Nat.not_le.2 hlt), readLen_ok (hlt.trans_le hs.sane.limit_le), Res.bind_ok, if_neg hlen, htree,
    Res.bind_ok, encodeSymbol_eq_putBits ht hcode]

/-- Settles O43: the checks in turn, and then HUF_ENC is one piece of output. -/
theorem hufEncResult : Obligations.HufEncResult := by
  unfold Obligations.HufEncResult
  intro sym s hs
  simp only [exec]
  refine ⟨decodeCommand_of_encode (i := .hufEnc sym) rfl, fun hv => runCommand_of_raise_start (if_pos (by simp [hv])),
    fun hv => ⟨execHufEnc_noCode hs hv, fun hpos => ?_⟩⟩
  obtain ⟨t, ht, -⟩ := hs.exists_loadedTree hv
  obtain ⟨bits, hbits⟩ := exists_codeOf ht hpos
  refine ⟨bits, hbits, ?_⟩
  rw [execHufEnc_of_code hs hv hbits hpos]
  exact runCommand_putBits hs.sane.writerOk _ bits

/-! ## `Decode` -/

/-- Unread bits that start with the path to a leaf: `Decode` reads the path and returns the leaf's symbol. -/
theorem decodeSymbol_ok {p : List Bool} (h : ReaderOk w.st) (hp : t.subtree p = some (.leaf x))
    (hu : w.st.unreadBits = p ++ more) :
    decodeSymbol t w = .ok x { w with st := w.st.afterReading p.length } := by
  induction p generalizing t w with
  | nil =>
    cases (Tree.subtree_nil t).symm.trans hp
    rw [List.length_nil, afterReading_zero h]
    rfl
  | cons b p ih =>
    cases t with
    | leaf y => cases hp
    | node l r =>
      obtain ⟨c, hget, hc, hok⟩ := getBit_ok h (by simp [hu])
      rw [hu, List.cons_append] at hc
      injection hc with hb hrest
      subst hb
      have hadd := afterReading_one_add h p.length (by rw [hu, List.length_append, List.length_cons]; omega)
      rw [decodeSymbol, hget, Res.bind_ok, List.length_cons, ← hadd]
      cases b with
      | false => exact ih (w := { w with st := w.st.afterReading 1 }) hok hp hrest.symm
      | true => exact ih (w := { w with st := w.st.afterReading 1 }) hok hp hrest.symm

/-- Unread bits that do not hold the path to any leaf: they end before `Decode` does. -/
theorem decodeSymbol_eos (h : ReaderOk w.st)
    (hnone : ∀ x p, t.subtree p = some (.leaf x) → ¬p <+: w.st.unreadBits) :
    ∃ r, decodeSymbol t w = .raise .eos w.st.regs.rlim { w with st := { w.st with regs := r } } := by
  induction t generalizing w with
  | leaf y => exact absurd List.nil_prefix (hnone y [] (Tree.subtree_nil _))
  | node l r ihl ihr =>
    by_cases hl : w.st.unreadBits.length = 0
    · exact ⟨w.st.regs, by rw [decodeSymbol, getBit_eos h hl, Res.bind_raise]⟩
    · obtain ⟨b, hget, hb, hok⟩ := getBit_ok h (Nat.pos_of_ne_zero hl)
      have hchild : ∀ x p, (if b then r else l).subtree p = some (.leaf x) →
          ¬p <+: (w.st.afterReading 1).unreadBits := fun x p hp hpre => by
        refine hnone x (b :: p) (by cases b <;> exact hp) ?_
        rw [hb]
        exact List.prefix_cons_inj b |>.2 hpre
      rw [decodeSymbol, hget, Res.bind_ok]
      cases b with
      | false => exact ihl (w := { w with st := w.st.afterReading 1 }) hok hchild
      | true => exact ihr (w := { w with st := w.st.afterReading 1 }) hok hchild

/-- `Decode` of bits that start with the code of a symbol (spec/44_huffman_coding.md R222). -/
theorem decodeSymbol_of_code (h : ReaderOk w.st) (ht : canonTree lens = some t) (hcode : codeOf lens x = some bits)
    (hu : w.st.unreadBits = bits ++ more) :
    decodeSymbol t w = .ok x { w with st := w.st.afterReading bits.length } :=
  decodeSymbol_ok h (Tree.subtree_of_path ((codeOf_eq_path ht x).symm.trans hcode)) hu

/-- `Decode` of bits that hold no whole code. -/
theorem decodeSymbol_of_no_code (h : ReaderOk w.st) (ht : canonTree lens = some t)
    (hnone : ∀ x bits, codeOf lens x = some bits → ¬bits <+: w.st.unreadBits) :
    ∃ r, decodeSymbol t w = .raise .eos w.st.regs.rlim { w with st := { w.st with regs := r } } :=
  decodeSymbol_eos h fun x p hp =>
    hnone x p ((codeOf_eq_path ht x).trans (Tree.path_of_subtree (canonTree_nodup ht) hp))

/-! ## HUF_DEC (R223) -/

theorem decodeCommand_hufDec (imm : Imm) : decodeCommand (commandWord 0x35#8 imm) = .ok .hufDec := by
  simp [decodeCommand]

theorem execHufDec_of_loaded (hv : s.regs.status.codeValid = true) (htree : loadedTree s.start = .ok t s.start) :
    execHufDec s = runCommand 0x35#8 (fun w => (decodeSymbol t w).bind fun v w =>
      .ok () (w.setRegs fun r => { r with result := BitVec.ofNat 32 v })) s :=
  runCommand_congr ((if_neg (by simp [hv])).trans (by rw [htree, Res.bind_ok]))

/-- Settles O44: with a loaded code HUF_DEC is one `Decode` in its canonical tree. -/
theorem hufDecResult : Obligations.HufDecResult := by
  unfold Obligations.HufDecResult
  intro imm s hs
  have hr := hs.sane.readerOk
  simp only [exec]
  refine ⟨decodeCommand_hufDec imm, fun hv => runCommand_of_raise_start (if_pos (by simp [hv])), fun hv => ?_⟩
  obtain ⟨t, ht, htree⟩ := hs.exists_loadedTree hv
  rw [execHufDec_of_loaded hv htree]
  refine ⟨fun sym bits rest hcode hu => ?_, fun hnone => ?_⟩
  · exact runCommand_of_ok_state (by rw [decodeSymbol_of_code (w := s.start) hr ht hcode hu]; rfl)
  · obtain ⟨r, heos⟩ := decodeSymbol_of_no_code (w := s.start) hr ht hnone
    exact runCommand_of_raise (w := { st := { s with regs := r }, wroteLen := false }) (by rw [heos, Res.bind_raise])

end Sys2Proof.Machine
end

section
/-! HUF_BDEC (spec/44_huffman_coding.md R226): the table read, then `Decode` into SYM. -/

namespace Sys2Proof.Machine

variable {s : State} {w : Work} {t : Tree} {n bpl : Nat} {es : List (Bool × Nat)} {lens list : List Nat}
  {bits rest more : List Bool} {count : Imm}

/-! ## `Decode` into SYM -/

/-- The work after the next `bits` bits have been decoded into the symbols `list` from SYM[k] on. -/
def Work.decoded (w : Work) (bits k : Nat) (list : List Nat) : Work :=
  { w with st := { w.st.afterReading bits with sym := w.st.sym.writeList k (list.map (BitVec.ofNat 16)) } }

/-- The read stream after symbols have been decoded. -/
theorem decoded_readerOk (h : ReaderOk w.st) (hu : w.st.unreadBits = bits ++ more) (k : Nat) (list : List Nat) :
    ReaderOk (w.decoded bits.length k list).st ∧ (w.decoded bits.length k list).st.unreadBits = more := by
  obtain ⟨hmore, hok⟩ := unreadBits_afterReading h hu
  exact ⟨⟨hok.nb, hok.pos, hok.lim, hok.cnt, hok.size⟩, hmore⟩

theorem Work.decoded_decoded (h : ReaderOk w.st) {a b : Nat} (hl : a + b ≤ w.st.unreadBits.length) (k : Nat)
    (xs ys : List Nat) :
    (w.decoded a k xs).decoded b (k + xs.length) ys = w.decoded (a + b) k (xs ++ ys) := by
  rw [decoded, decoded, decoded, ← afterReading_afterReading h hl, List.map_append, Mem.writeList_append,
    List.length_map]
  rfl

/-- The codes of the symbols at the front of the read stream are decoded into SYM. -/
theorem decodeInto_codeBits (h : ReaderOk w.st) (ht : canonTree lens = some t) (hlist : ∀ x ∈ list, 0 < lens.getD x 0)
    (hu : w.st.unreadBits = codeBits lens list ++ more) {k : Nat} (hk : k + list.length ≤ w.st.params.symSize)
    (j : Nat) : decodeInto t (list.length + j) k w =
      decodeInto t j (k + list.length) (w.decoded (codeBits lens list).length k list) := by
  induction list generalizing w k with
  | nil =>
    have hnone : w.decoded (codeBits lens []).length k [] = w := by
      rw [Work.decoded, codeBits, List.flatMap_nil, List.length_nil, afterReading_zero h]
      rfl
    rw [hnone, List.length_nil, Nat.zero_add, Nat.add_zero]
  | cons x list ih =>
    rw [List.forall_mem_cons] at hlist
    rw [List.length_cons] at hk
    obtain ⟨bits, hbits⟩ := exists_codeOf ht hlist.1
    rw [codeBits_cons hbits, List.append_assoc] at hu
    obtain ⟨hok, hleft⟩ := decoded_readerOk h hu k [x]
    have hone : decodeInto t (list.length + j + 1) k w =
        decodeInto t (list.length + j) (k + 1) (w.decoded bits.length k [x]) := by
      rw [decodeInto, decodeSymbol_of_code h ht hbits hu, Res.bind_ok,
        writeSym_ok (w := { w with st := w.st.afterReading bits.length })
          (show k < w.st.params.symSize by omega)]
      rfl
    have hjoin := w.decoded_decoded h (a := bits.length) (b := (codeBits lens list).length)
      (by simp only [hu, List.length_append]; omega) k [x] list
    rw [List.length_cons, Nat.add_right_comm, hone,
      ih hok hlist.2 hleft (show k + 1 + list.length ≤ w.st.params.symSize by omega), codeBits_cons hbits,
      List.length_append, Nat.add_assoc k 1, Nat.add_comm 1]
    exact congrArg _ hjoin

/-! ## The table of a block -/

/-- The state with the lengths `lens` stored from LEN[0] on and loaded as its code. -/
def State.withTable (s : State) (lens : List Nat) : State :=
  { s with
    len := s.len.writeList 0 (lens.map (BitVec.ofNat 8))
    regs := { s.regs with
      limit := BitVec.ofNat 32 lens.length
      maxlen := BitVec.ofNat 32 (maxLen lens)
      status := { s.regs.status with codeValid := true } } }

/-- The work of a command that has read a table of k bits and loaded its lengths. -/
def State.afterTable (s : State) (k : Nat) (lens : List Nat) : Work :=
  { st := (s.readAligned.afterReading k).readAligned.withTable lens, wroteLen := true }

theorem tableRead_of_full (hs : s.Sane) (hn : n ≤ s.params.symLimitMax) (h2 : 2 ≤ n) (hb : bpl < 256)
    (hes : ∀ e ∈ es, e.2 < 2 ^ (if e.1 then bpl else 8)) (hlens : expandEntries none es = some lens)
    (hlen : lens.length = n) (hlast : ∀ ls, expandEntries none es.dropLast = some ls → ls.length < n)
    (hmax : ∀ l ∈ lens, l ≤ s.params.maxCodeLen) (hfull : validate lens = .full)
    (hu : s.readAligned.unreadBits = tableWith n bpl es ++ rest) :
    tableRead s.regs s.start = .ok () (s.afterTable (tableWith n bpl es).length lens) := by
  have hne : lens.isEmpty = false := List.isEmpty_eq_false_iff.2 fun h => by
    rw [h, List.length_nil] at hlen
    omega
  rw [tableRead_of_whole hs hn h2 hb hes hlens hlen hlast hmax hu, tableFinish_reading hs hn hlen hmax, checkFull,
    hfull, Res.bind_ok, State.reading, hne, ← hs.idle, ← hlen]
  rfl

theorem loadedTree_afterTable (hs : s.Sane) (hn : lens.length ≤ s.params.symLimitMax)
    (hmax : ∀ l ∈ lens, l ≤ s.params.maxCodeLen) (ht : canonTree lens = some t) (k : Nat) :
    loadedTree (s.afterTable k lens) = .ok t (s.afterTable k lens) := by
  have hlimit : (s.afterTable k lens).st.regs.limit.toNat = lens.length := ofNat_limit_toNat hs.params hn
  have hlens : (s.afterTable k lens).st.loadedLens = lens := by
    rw [State.loadedLens, hlimit]
    exact lens_writeList hs.len.1 fun l hl => (hmax l hl).trans hs.params.maxCodeLen_le
  exact loadedTree_ok (hlimit.trans_le hn) (by rw [hlens, ht])

/-! ## HUF_BDEC -/

/-- HUF_BDEC of a legal count is the table read and then the block. -/
theorem execHufBdec_of_le (hc : count.toNat ≤ s.params.symSize) :
    execHufBdec count s =
      runCommand 0x37#8 (fun w => (tableRead s.regs w).bind fun _ w => decodeBlock count w) s :=
  runCommand_congr (if_neg (Nat.not_lt.2 hc))

/-- A fault of the table read is one of HUF_TREAD, under the opcode of HUF_BDEC. -/
theorem execHufBdec_of_execHufTread (hs : s.Sane) (hc : count.toNat ≤ s.params.symSize)
    (h0 : s.regs.status.fault = false) {u : State} (hu : execHufTread s = .next u) (hf : u.regs.status.fault = true) :
    execHufBdec count s = .next { u with
      regs := { u.regs with status := { u.regs.status with faultOp := 0x37#8 } } } := by
  rw [execHufBdec_of_le hc]
  rcases runCommand_next hu with ⟨w, hw, rfl⟩ | ⟨c, info, w, hw, rfl⟩
  · have hobeys := tableRead_obeys (fp := { len := Set.univ, reader := true, limit := true, code := true, table := true })
      (w := s.start) rfl rfl rfl rfl (fun _ _ => Set.mem_univ _) s.regs
    have hkept := (hobeys.of_ok hs.bounded hw).2.fault
    rw [hf, h0] at hkept
    cases hkept
  · exact runCommand_of_raise (w := w) (c := c) (i := info) (by rw [hw, Res.bind_raise])

/-- After a table that loads, HUF_BDEC decodes into SYM. -/
theorem execHufBdec_of_table {v : Work} (hc : count.toNat ≤ s.params.symSize)
    (htable : tableRead s.regs s.start = .ok () v) (htree : loadedTree v = .ok t v) :
    execHufBdec count s = runCommand 0x37#8 (fun _ => (decodeInto t count.toNat 0 v).bind fun _ w =>
      .ok () (alignR (w.setRegs fun r => { r with symCnt := zextImm count }))) s := by
  rw [execHufBdec_of_le hc]
  exact runCommand_congr (by rw [htable, Res.bind_ok, decodeBlock, htree, Res.bind_ok])

/-- The state with a block's lengths stored and loaded, and its symbols stored and counted. -/
def State.withBlock (s : State) (lens list : List Nat) (count : Imm) : State :=
  { s with
    len := s.len.writeList 0 (lens.map (BitVec.ofNat 8))
    sym := s.sym.writeList 0 (list.map (BitVec.ofNat 16))
    regs := { s.regs with
      limit := BitVec.ofNat 32 lens.length
      maxlen := BitVec.ofNat 32 (maxLen lens)
      symCnt := zextImm count
      status := { s.regs.status with codeValid := true } } }

theorem decoded_withBlock (s : State) (lens list : List Nat) (c : Nat) (count : Imm) (b : Bool) :
    alignR ((Work.decoded { st := s.withTable lens, wroteLen := b } c 0 list).setRegs
      fun r => { r with symCnt := zextImm count }) =
      { st := (s.afterReading c).readAligned.withBlock lens list count, wroteLen := b } := rfl

section Block

/-! The read stream holds a table that loads, and then the codes of some symbols. -/

variable (hs : s.Sane) (hc : count.toNat ≤ s.params.symSize) (hn : lens.length ≤ s.params.symLimitMax)
  (h2 : 2 ≤ lens.length) (hb : bpl < 256) (hes : ∀ e ∈ es, e.2 < 2 ^ (if e.1 then bpl else 8))
  (hlens : expandEntries none es = some lens)
  (hlast : ∀ ls, expandEntries none es.dropLast = some ls → ls.length < lens.length)
  (hmax : ∀ l ∈ lens, l ≤ s.params.maxCodeLen) (hfull : validate lens = .full)
  (hu : s.readAligned.unreadBits = tableWith lens.length bpl es ++ rest) (hlist : ∀ x ∈ list, 0 < lens.getD x 0)
  (hr : (s.readAligned.afterReading (tableWith lens.length bpl es).length).readAligned.unreadBits =
    codeBits lens list ++ more)

include hs hc hn h2 hb hes hlens hlast hmax hfull hu hlist hr

/-- HUF_BDEC decodes the symbols whose codes are there, and then as many as are missing. -/
theorem execHufBdec_of_codes {j : Nat} (hj : list.length + j = count.toNat) :
    ∃ t, canonTree lens = some t ∧
      let w := (s.afterTable (tableWith lens.length bpl es).length lens).decoded (codeBits lens list).length 0 list
      ReaderOk w.st ∧ w.st.unreadBits = more ∧ execHufBdec count s =
        runCommand 0x37#8 (fun _ => (decodeInto t j list.length w).bind fun _ w =>
          .ok () (alignR (w.setRegs fun r => { r with symCnt := zextImm count }))) s := by
  obtain ⟨t, ht⟩ := exists_canonTree hfull
  have htable := tableRead_of_full hs hn h2 hb hes hlens rfl hlast hmax hfull hu
  have htree := loadedTree_afterTable hs hn hmax ht (tableWith lens.length bpl es).length
  obtain ⟨-, hok⟩ := unreadBits_afterReading hs.readerOk.aligned hu
  have hok : ReaderOk (s.afterTable (tableWith lens.length bpl es).length lens).st :=
    ⟨hok.aligned.nb, hok.pos, hok.lim, hok.cnt, hok.size⟩
  have hsize : 0 + list.length ≤ s.params.symSize := by omega
  have hinto := decodeInto_codeBits hok ht hlist hr hsize j
  rw [Nat.zero_add, hj] at hinto
  obtain ⟨hend, hleft⟩ := decoded_readerOk hok hr 0 list
  refine ⟨t, ht, hend, hleft, ?_⟩
  rw [execHufBdec_of_table hc htable htree, hinto]

theorem execHufBdec_of_block (hcount : list.length = count.toNat) :
    execHufBdec count s = .next (((s.readAligned.afterReading
      (tableWith lens.length bpl es).length).readAligned.afterReading (codeBits lens list).length).readAligned.withBlock
        lens list count) := by
  obtain ⟨t, -, -, -, hrun⟩ := execHufBdec_of_codes (j := 0) hs hc hn h2 hb hes hlens hlast hmax hfull hu hlist hr hcount
  rw [hrun, decodeInto]
  exact runCommand_of_ok_state (b := true) (congrArg (Res.ok ()) (decoded_withBlock ..))

theorem execHufBdec_of_short_block (hcount : list.length < count.toNat)
    (hnone : ∀ x bits, codeOf lens x = some bits → ¬bits <+: more) :
    execHufBdec count s = .next { { s with regs := s.regs.dropCode }.faulted 0x37#8 .eos s.regs.rlim with
      len := s.len.writeList 0 (lens.map (BitVec.ofNat 8))
      sym := s.sym.writeList 0 (list.map (BitVec.ofNat 16)) } := by
  obtain ⟨j, hj⟩ := Nat.exists_eq_add_of_lt hcount
  obtain ⟨t, ht, hok, hleft, hrun⟩ :=
    execHufBdec_of_codes (j := j + 1) hs hc hn h2 hb hes hlens hlast hmax hfull hu hlist hr hj.symm
  obtain ⟨r, heos⟩ := decodeSymbol_of_no_code hok ht (by rwa [hleft])
  rw [hrun, runCommand_of_raise (by rw [decodeInto, heos, Res.bind_raise, Res.bind_raise]), faultEntry_eq_faulted]
  simp [State.faulted, Work.decoded, State.afterTable, State.withTable]

end Block

/-- Settles O46: a fault of the table read is HUF_TREAD's; after a table that loads, the codes are decoded to the end of
the list, or up to the `Decode` that finds no whole code. -/
theorem hufBdecResult : Obligations.HufBdecResult := by
  unfold Obligations.HufBdecResult
  intro count s hs
  simp only [exec]
  refine ⟨decodeCommand_of_encode (i := .hufBdec count) rfl, fun h => runCommand_of_raise_start (if_pos h),
    fun hc h0 u hu hf => execHufBdec_of_execHufTread hs hc h0 hu hf, ?_⟩
  intro hc n bpl es lens list rest more hn h2 hb hes hlens hlen hlast hmax hfull hu hlist hr
  subst hlen
  refine ⟨fun hcount => ?_, execHufBdec_of_short_block hs hc hn h2 hb hes hlens hlast hmax hfull hu hlist hr⟩
  rw [execHufBdec_of_block hs hc hn h2 hb hes hlens hlast hmax hfull hu hlist hr hcount]
  simp only [State.withBlock, State.readAligned_len, State.afterReading_len, State.readAligned_sym,
    State.afterReading_sym, zextImm]

end Sys2Proof.Machine
end

section
/-! HUF_BENC (spec/44_huffman_coding.md R225): the counts of the list's symbols, the code built from them, and the block
as one piece of output. -/

namespace Sys2Proof.Machine

variable {s : State} {w v : Work} {t : Tree} {n i x : Nat} {freqs list : List Nat}

/-! ## The counts -/

/-- How often each of the symbols 0 to n - 1 stands in the list. -/
def symbolCounts (n : Nat) (list : List Nat) : List Nat := (List.range n).map fun i => list.count i

@[simp] theorem symbolCounts_length (n : Nat) (list : List Nat) : (symbolCounts n list).length = n := by
  simp [symbolCounts]

theorem symbolCounts_getD (hi : i < n) (list : List Nat) : (symbolCounts n list).getD i 0 = list.count i := by
  simp [symbolCounts, hi]

/-- `FREQ[s] ← FREQ[s] + 1` for each of the symbols, in order. -/
def Mem.countAll (freq : Mem 32) (list : List Nat) : Mem 32 :=
  list.foldl (fun freq x => freq.write x (freq.read x + 1)) freq

theorem Mem.countAll_cons (freq : Mem 32) (x : Nat) (list : List Nat) :
    freq.countAll (x :: list) = (freq.write x (freq.read x + 1)).countAll list := rfl

theorem Mem.wf_countAll {size : Nat} {freq : Mem 32} (h : freq.wf size) (hlist : ∀ x ∈ list, x < size) :
    (freq.countAll list).wf size := by
  induction list generalizing freq with
  | nil => exact h
  | cons x list ih =>
    rw [List.forall_mem_cons] at hlist
    exact ih (Mem.wf_write x _ hlist.1 h) hlist.2

theorem Mem.read_countAll {freq : Mem 32} (h : freq.Rising) (list : List Nat) (i : Nat) :
    (freq.countAll list).read i = freq.read i + BitVec.ofNat 32 (list.count i) := by
  induction list generalizing freq with
  | nil => simp [countAll]
  | cons x list ih =>
    rw [countAll_cons, ih (rising_write x _ h), read_write _ _ _ _ h]
    by_cases hx : i = x
    · subst hx
      rw [if_pos rfl, List.count_cons_self, Nat.add_comm, BitVec.ofNat_add, BitVec.add_assoc]
      rfl
    · rw [if_neg hx, List.count_cons_of_ne (Ne.symm hx)]

/-- Counting from zero stores the counts of the list's symbols. -/
theorem Mem.zeroBelow_countAll {size : Nat} {freq : Mem 32} (h : freq.wf size) (hn : n ≤ size)
    (hlist : ∀ x ∈ list, x < n) :
    (freq.zeroBelow n).countAll list = freq.writeList 0 ((symbolCounts n list).map (BitVec.ofNat 32)) := by
  have hzero := wf_zeroBelow n h
  refine ext_read (wf_countAll hzero fun x hx => (hlist x hx).trans_le hn)
    (wf_writeList _ _ _ (by simpa using hn) h) fun i => ?_
  rw [read_countAll hzero.1, read_zeroBelow]
  by_cases hi : i < n
  · have hin := read_writeList_inside ((symbolCounts n list).map (BitVec.ofNat 32)) freq 0 i h.1 (by simpa using hi)
    rw [Nat.zero_add] at hin
    rw [if_pos hi, hin]
    simp [symbolCounts]
  · rw [if_neg hi, read_writeList_outside _ _ _ _ (.inr (by simpa using hi)),
      List.count_eq_zero.2 fun hx => hi (hlist i hx)]
    exact BitVec.add_zero _

theorem countSymbols_eq (hlist : ∀ x ∈ list, x < w.st.params.symLimitMax) :
    countSymbols list w = .ok () { w with st := { w.st with freq := w.st.freq.countAll list } } := by
  induction list generalizing w with
  | nil => rfl
  | cons x list ih =>
    rw [List.forall_mem_cons] at hlist
    rw [countSymbols, readFreq_ok hlist.1, Res.bind_ok, writeFreq_ok hlist.1, Res.bind_ok]
    exact ih hlist.2

/-- The state after the counts of a block: FREQ and LIMIT. -/
def State.counted (s : State) (n : Nat) (list : List Nat) : State :=
  { s with
    freq := s.freq.writeList 0 ((symbolCounts n list).map (BitVec.ofNat 32))
    regs := { s.regs with limit := BitVec.ofNat 32 n } }

theorem countBlock_eq (hs : s.Sane) (hn : n ≤ s.params.symLimitMax) (hlist : ∀ x ∈ list, x < n) :
    countBlock n list s.start = .ok () (s.counted n list).start := by
  rw [countBlock, zeroFreqs_ok hn, Res.bind_ok, countSymbols_eq fun x hx => (hlist x hx).trans_le hn]
  simp only [Work.setRegs, Mem.zeroBelow_countAll hs.freq hn hlist]
  rfl

theorem Mem.readList_writeList {k : Nat} {mem : Mem k} (hm : mem.Rising) (vs : List (BitVec k)) :
    (mem.writeList 0 vs).readList vs.length = vs := by
  simpa only [readList, Nat.zero_add] using map_read_writeList hm 0 vs

/-- The counts read back, for a list that no count of can overflow. -/
theorem freqs_counted (hs : s.Sane) (hlist : list.length < 2 ^ 32) (n : Nat) :
    (s.counted n list).freqs n = symbolCounts n list := by
  have hread := Mem.readList_writeList hs.freq.1 ((symbolCounts n list).map (BitVec.ofNat 32))
  rw [List.length_map, symbolCounts_length] at hread
  rw [State.freqs, State.counted, hread, List.map_map]
  refine (List.map_congr_left fun c hc => ?_).trans (List.map_id _)
  obtain ⟨i, -, rfl⟩ := List.mem_map.1 hc
  have hcount := List.count_le_length (a := i) (l := list)
  simp only [Function.comp_apply, BitVec.toNat_ofNat, id_eq]
  exact Nat.mod_eq_of_lt (by omega)

/-! ## The code -/

/-- A symbol with a count has a length in the code that is built. -/
theorem depthList_pos (h2 : 2 ≤ freqs.length) (ht : buildTree freqs = some t) (hx : 0 < freqs.getD x 0) :
    0 < (depthList t freqs.length).getD x 0 := by
  have hperm := buildTree_symbols ht
  have hlt := lt_length_of_getD_pos hx
  have hmem : x ∈ t.symbols := hperm.mem_iff.2
    (List.mem_append.2 (.inl (List.mem_filter.2 ⟨List.mem_range.2 hlt, decide_eq_true hx⟩)))
  obtain ⟨p, hp⟩ := Option.ne_none_iff_exists'.1 fun hnone => Tree.path_eq_none_iff.1 hnone hmem
  rw [depthList_getD_of_path (buildTree_nodup ht) hlt hp, List.length_pos_iff]
  rintro rfl
  cases (Tree.subtree_nil t).symm.trans (Tree.subtree_of_path hp)
  have hlen := hperm.length_eq ▸ two_le_leafSymbols_length h2
  exact absurd hlen (by simp [Tree.symbols])

/-- Every symbol of the list has a length in the code that is built from the list's counts. -/
theorem depthList_pos_of_mem (h2 : 2 ≤ n) (ht : buildTree (symbolCounts n list) = some t) (hlist : ∀ x ∈ list, x < n) :
    ∀ x ∈ list, 0 < (depthList t n).getD x 0 := fun x hx => by
  have hpos := depthList_pos (x := x) (by rwa [symbolCounts_length]) ht
    (by rw [symbolCounts_getD (hlist x hx)]; exact List.count_pos_iff.2 hx)
  rwa [symbolCounts_length] at hpos

theorem validate_depthList_counts (h2 : 2 ≤ n) (ht : buildTree (symbolCounts n list) = some t) :
    validate (depthList t n) = .full := by
  have hfull := buildTree_validate (by rwa [symbolCounts_length]) ht
  rwa [symbolCounts_length] at hfull

/-- The build and load of a nonempty code writes LEN. -/
theorem buildAndLoad_wroteLen {u : Unit} (hn : 0 < n) (h : buildAndLoad n w = .ok u v) : v.wroteLen = true := by
  obtain ⟨_, w₁, -, h⟩ := Res.bind_eq_ok.1 h
  split at h
  · cases h
  · dsimp only at h
    split at h
    · cases h
    · obtain ⟨_, w₂, h₂, h⟩ := Res.bind_eq_ok.1 h
      obtain ⟨-, rfl⟩ := writeLens_eq_ok.1 h₂
      cases h
      simp [depthList, hn.ne']

/-! ## The block -/

theorem tableStreamBits_aligned (nb : Nat) (lens : List Nat) :
    (nb + (tableStreamBits nb lens).length) % 8 = 0 := by
  have hpad := padTo_length nb
  have htable := append_padTo_length (tableBits lens (maxLen lens))
  simp only [tableStreamBits, List.length_append] at htable ⊢
  omega

/-- The table of the loaded code, the codes of symbols that have one, and the padding are one piece of output. -/
theorem writeBlock_eq_putBits (h : WriterOk w.st) (hlim : w.st.regs.limit.toNat ≤ w.st.params.symLimitMax)
    (hmax : w.st.regs.maxlen.toNat = maxLen w.st.loadedLens) (hfull : validate w.st.loadedLens = .full)
    (hlist : ∀ x ∈ list, 0 < w.st.loadedLens.getD x 0) :
    writeBlock list w = putBits (blockBits w.st.regs.wnb.toNat w.st.loadedLens list) w := by
  obtain ⟨t, ht⟩ := exists_canonTree hfull
  rw [writeBlock, tableWrite_eq_putBits h hlim hmax, blockBits, List.append_assoc, putBits_append]
  refine putBits_bind_congr h fun hr => ?_
  obtain ⟨hok, -, hmod⟩ := afterBits_writerOk h hr
  rw [tableStreamBits_aligned] at hmod
  have htree : loadedTree { w with st := w.st.afterBits (tableStreamBits w.st.regs.wnb.toNat w.st.loadedLens) } =
      .ok t { w with st := w.st.afterBits (tableStreamBits w.st.regs.wnb.toNat w.st.loadedLens) } :=
    loadedTree_ok hlim ht
  rw [htree, Res.bind_ok, encodeSymbols_eq_putBits ht hlist]
  exact putBits_bind_alignW hok (BitVec.eq_of_toNat_eq hmod)

/-- What HUF_BENC leaves of the state s but for its output: the counts of the list's symbols below n, and the code of
length array d, loaded. -/
def State.withListCode (s : State) (n : Nat) (list d : List Nat) : State :=
  { s with
    freq := s.freq.writeList 0 ((symbolCounts n list).map (BitVec.ofNat 32))
    len := s.len.writeList 0 (d.map (BitVec.ofNat 8))
    regs := { s.regs with
      limit := BitVec.ofNat 32 n
      maxlen := BitVec.ofNat 32 (maxLen d)
      status := { s.regs.status with codeValid := true } } }

theorem counted_withCode (s : State) (n : Nat) (list d : List Nat) :
    (s.counted n list).withCode d = s.withListCode n list d := rfl

theorem withListCode_afterBits (s : State) (n : Nat) (list d : List Nat) (bits : List Bool) :
    (s.withListCode n list d).afterBits bits = (s.afterBits bits).withListCode n list d := rfl

theorem State.Sane.writerOk_withListCode (hs : s.Sane) (n : Nat) (list d : List Nat) :
    WriterOk (s.withListCode n list d) :=
  have hw := hs.writerOk
  ⟨hw.nb, hw.acc, hw.pos, hw.cnt, hw.size⟩

theorem loadedLens_withListCode (hs : s.Sane) (hn : n ≤ s.params.symLimitMax) {d : List Nat} (hd : d.length = n)
    (hfit : ∀ l ∈ d, l ≤ s.params.maxCodeLen) : (s.withListCode n list d).loadedLens = d := by
  have hlimit : (s.withListCode n list d).regs.limit.toNat = d.length :=
    (ofNat_limit_toNat hs.params hn).trans hd.symm
  rw [State.loadedLens, hlimit]
  exact lens_writeList hs.len.1 fun l hl => (hfit l hl).trans hs.params.maxCodeLen_le

/-! ## HUF_BENC -/

theorem lowestIndex_eq_some_of_getD {d : List Nat} {k : Nat} (hi : i < d.length) (hlong : k < d.getD i 0)
    (hlow : ∀ j < i, d.getD j 0 ≤ k) : lowestIndex (fun l => decide (k < l)) d = some i := by
  refine lowestIndex_eq_some hi (decide_eq_true ?_) fun j hj => decide_eq_false (Nat.not_lt.2 ?_)
  · rwa [List.getD_eq_getElem _ _ hi] at hlong
  · have := hlow j hj
    rwa [List.getD_eq_getElem _ _ (hj.trans hi)] at this

theorem forall_mem_le_of_getD {d : List Nat} {k : Nat} (h : ∀ i < d.length, d.getD i 0 ≤ k) : ∀ l ∈ d, l ≤ k := by
  intro l hl
  obtain ⟨i, hi, rfl⟩ := List.getElem_of_mem hl
  exact (List.getD_eq_getElem _ 0 hi).symm.trans_le (h i hi)

/-- The block's symbol list, SYM[0..SYM_CNT). -/
abbrev State.symList (s : State) : List Nat := s.syms s.regs.symCnt.toNat

theorem State.symList_length (s : State) : s.symList.length = s.regs.symCnt.toNat := by simp [State.syms]

theorem State.lt_blockLimit (s : State) : ∀ x ∈ s.symList, x < s.blockLimit :=
  fun _ hx => Nat.lt_succ_of_le (le_maxLen hx)

theorem decodeCommand_hufBenc (imm : Imm) : decodeCommand (commandWord 0x36#8 imm) = .ok .hufBenc := by
  simp [decodeCommand]

theorem execHufBenc_arg (h : s.params.symSize < s.regs.symCnt.toNat) :
    execHufBenc s = .next (s.faulted 0x36#8 .arg s.regs.symCnt) :=
  runCommand_of_raise_start (if_pos h)

theorem execHufBenc_empty (h0 : s.regs.symCnt.toNat = 0) : execHufBenc s = .next (s.faulted 0x36#8 .config 0) :=
  runCommand_of_raise_start ((if_neg (by rw [h0]; exact Nat.not_lt_zero _)).trans (if_pos h0))

theorem buildTree_counted (hs : s.Sane) (ht : buildTree (symbolCounts s.blockLimit s.symList) = some t) :
    buildTree ((s.counted s.blockLimit s.symList).freqs s.blockLimit) = some t := by
  rwa [freqs_counted hs (by rw [s.symList_length]; exact s.regs.symCnt.isLt)]

section Checked

/-! HUF_BENC of a list that is not empty and lies in SYM. -/

variable (hs : s.Sane) (h0 : 0 < s.regs.symCnt.toNat) (hn : s.regs.symCnt.toNat ≤ s.params.symSize)

include h0 hn

theorem execHufBenc_of_listed : execHufBenc s = runCommand 0x36#8 (fun w =>
    if badLimit s.params s.blockLimit then .raise .config (BitVec.ofNat 32 s.blockLimit) w
    else encodeBlock s.symList w) s := by
  rw [execHufBenc_eq]
  refine runCommand_congr ((if_neg (Nat.not_lt.2 hn)).trans ((if_neg h0.ne').trans ?_))
  rw [readSyms_ok hn]
  rfl

theorem execHufBenc_badLimit (hbad : s.blockLimit < 2 ∨ s.params.symLimitMax < s.blockLimit) :
    execHufBenc s = .next (s.faulted 0x36#8 .config (BitVec.ofNat 32 s.blockLimit)) := by
  rw [execHufBenc_of_listed h0 hn]
  exact runCommand_of_raise_start (if_pos (badLimit_eq_true.2 hbad))

variable (h2 : 2 ≤ s.blockLimit) (hm : s.blockLimit ≤ s.params.symLimitMax)

include hs h2 hm

/-- After its checks HUF_BENC counts the symbols, builds the code, and writes the block. -/
theorem execHufBenc_of_range : execHufBenc s = runCommand 0x36#8 (fun _ =>
    (buildAndLoad s.blockLimit (s.counted s.blockLimit s.symList).start).bind fun _ w => writeBlock s.symList w) s := by
  rw [execHufBenc_of_listed h0 hn]
  refine runCommand_congr ?_
  have hcount : countBlock (maxLen s.symList + 1) s.symList s.start =
      .ok () (s.counted s.blockLimit s.symList).start := countBlock_eq hs hm s.lt_blockLimit
  rw [badLimit_eq_false.2 ⟨h2, hm⟩, if_neg Bool.false_ne_true, encodeBlock, hcount, Res.bind_ok]
  rfl

variable (ht : buildTree (symbolCounts s.blockLimit s.symList) = some t)

include ht

theorem execHufBenc_lenRange
    (hi : lowestIndex (fun l => decide (s.params.maxCodeLen < l)) (depthList t s.blockLimit) = some i) :
    execHufBenc s = .next { s.faulted 0x36#8 .lenRange (BitVec.ofNat 32 i) with
      freq := s.freq.writeList 0 ((symbolCounts s.blockLimit s.symList).map (BitVec.ofNat 32)) } := by
  rw [execHufBenc_of_range hs h0 hn h2 hm]
  exact runCommand_of_raise (w := (s.counted s.blockLimit s.symList).start)
    (by rw [buildAndLoad_lenRange (w := (s.counted _ _).start) hm (buildTree_counted hs ht) hi, Res.bind_raise])

variable (hfit : ∀ l ∈ depthList t s.blockLimit, l ≤ s.params.maxCodeLen)

include hfit

/-- With a code that fits, HUF_BENC is one piece of output from the state with the code loaded. -/
theorem execHufBenc_of_fits : execHufBenc s = runCommand 0x36#8 (fun _ =>
    putBits (blockBits s.regs.wnb.toNat (depthList t s.blockLimit) s.symList)
      { st := s.withListCode s.blockLimit s.symList (depthList t s.blockLimit), wroteLen := true }) s := by
  have hlens := loadedLens_withListCode (list := s.symList) hs hm (depthList_length t _) hfit
  have hmax : maxLen (depthList t s.blockLimit) < 2 ^ 32 := by
    have := maxLen_le hfit
    have := hs.params.maxCodeLen_le
    omega
  have hwrite := writeBlock_eq_putBits (list := s.symList)
    (w := { st := s.withListCode s.blockLimit s.symList (depthList t s.blockLimit), wroteLen := true })
    (hs.writerOk_withListCode ..) ((ofNat_limit_toNat hs.params hm).trans_le hm)
    (by rw [hlens]; exact (BitVec.toNat_ofNat ..).trans (Nat.mod_eq_of_lt hmax))
    (by rw [hlens]; exact validate_depthList_counts h2 ht)
    (by rw [hlens]; exact depthList_pos_of_mem h2 ht s.lt_blockLimit)
  rw [hlens] at hwrite
  rw [execHufBenc_of_range hs h0 hn h2 hm]
  refine runCommand_congr ?_
  obtain ⟨b, hb⟩ := buildAndLoad_of_fits (s := s.counted s.blockLimit s.symList) hm (buildTree_counted hs ht) hfit
  have hb' : b = true := buildAndLoad_wroteLen (Nat.lt_of_lt_of_le Nat.two_pos h2) hb
  rw [hb, Res.bind_ok, counted_withCode, hb']
  exact hwrite

theorem execHufBenc_of_room
    (hr : s.HasRoom (blockBits s.regs.wnb.toNat (depthList t s.blockLimit) s.symList).length) :
    execHufBenc s = .next ((s.afterBits (blockBits s.regs.wnb.toNat (depthList t s.blockLimit) s.symList)).withListCode
      s.blockLimit s.symList (depthList t s.blockLimit)) := by
  rw [execHufBenc_of_fits hs h0 hn h2 hm ht hfit, ← withListCode_afterBits]
  exact runCommand_of_ok_state (b := true) (putBits_room
    (w := { st := s.withListCode s.blockLimit s.symList (depthList t s.blockLimit), wroteLen := true }) _
    (hs.writerOk_withListCode ..) hr)

theorem execHufBenc_full
    (hr : ¬s.HasRoom (blockBits s.regs.wnb.toNat (depthList t s.blockLimit) s.symList).length) :
    execHufBenc s = .next
      { { s with regs := s.regs.dropCode }.faulted 0x36#8 .bufFull (BitVec.ofNat 32 s.params.bufSize) with
        freq := s.freq.writeList 0 ((symbolCounts s.blockLimit s.symList).map (BitVec.ofNat 32))
        len := s.len.writeList 0 ((depthList t s.blockLimit).map (BitVec.ofNat 8))
        buf := s.bufFilled (blockBits s.regs.wnb.toNat (depthList t s.blockLimit) s.symList) } := by
  obtain ⟨r, hput⟩ := putBits_full
    (w := { st := s.withListCode s.blockLimit s.symList (depthList t s.blockLimit), wroteLen := true }) _
    (hs.writerOk_withListCode ..) hr
  rw [execHufBenc_of_fits hs h0 hn h2 hm ht hfit, runCommand_of_raise hput]
  rfl

end Checked

/-- What a successful HUF_BENC has found: a list that is not empty in SYM, with symbols in range, and
room for the block under the code of the tree t, which fits. -/
structure State.Encodes (s : State) (t : Tree) : Prop where
  pos : 0 < s.regs.symCnt.toNat
  listed : s.regs.symCnt.toNat ≤ s.params.symSize
  two_le : 2 ≤ s.blockLimit
  limit : s.blockLimit ≤ s.params.symLimitMax
  tree : buildTree (symbolCounts s.blockLimit s.symList) = some t
  fits : ∀ l ∈ depthList t s.blockLimit, l ≤ s.params.maxCodeLen
  room : s.HasRoom (blockBits s.regs.wnb.toNat (depthList t s.blockLimit) s.symList).length

/-- The state after that HUF_BENC. -/
def State.encoded (s : State) (t : Tree) : State :=
  (s.afterBits (blockBits s.regs.wnb.toNat (depthList t s.blockLimit) s.symList)).withListCode s.blockLimit s.symList
    (depthList t s.blockLimit)

/-- HUF_BENC without a fault: every check has passed. -/
theorem exists_encodes (hs : s.Sane) {u : State} (h : execHufBenc s = .next u) (hf : u.regs.status.fault = false) :
    ∃ t, s.Encodes t ∧ u = s.encoded t := by
  have hnot : ∀ {v : State}, execHufBenc s = .next v → v.regs.status.fault = false := fun hv => by
    cases hv.symm.trans h
    exact hf
  by_cases hn : s.regs.symCnt.toNat ≤ s.params.symSize
  case neg => cases hnot (execHufBenc_arg (Nat.not_le.1 hn))
  by_cases h0 : s.regs.symCnt.toNat = 0
  case pos => cases hnot (execHufBenc_empty h0)
  have h0 := Nat.pos_of_ne_zero h0
  by_cases hm : s.blockLimit < 2 ∨ s.params.symLimitMax < s.blockLimit
  case pos => cases hnot (execHufBenc_badLimit h0 hn hm)
  obtain ⟨h2, hm⟩ := not_or.1 hm
  rw [Nat.not_lt] at h2 hm
  obtain ⟨t, ht, -⟩ := exists_buildTree (freqs := symbolCounts s.blockLimit s.symList) (by rwa [symbolCounts_length])
  cases hlong : lowestIndex (fun l => decide (s.params.maxCodeLen < l)) (depthList t s.blockLimit) with
  | some i => cases hnot (execHufBenc_lenRange hs h0 hn h2 hm ht hlong)
  | none =>
    have hfit : ∀ l ∈ depthList t s.blockLimit, l ≤ s.params.maxCodeLen := by
      simpa using lowestIndex_eq_none.1 hlong
    by_cases hr : s.HasRoom (blockBits s.regs.wnb.toNat (depthList t s.blockLimit) s.symList).length
    case neg => cases hnot (execHufBenc_full hs h0 hn h2 hm ht hfit hr)
    have hu := (execHufBenc_of_room hs h0 hn h2 hm ht hfit hr).symm.trans h
    exact ⟨t, ⟨h0, hn, h2, hm, ht, hfit, hr⟩, by cases hu; rfl⟩

/-- Settles O45: the checks in turn; then the counts, the built code, and the block as one piece of output. -/
theorem hufBencResult : Obligations.HufBencResult := by
  unfold Obligations.HufBencResult
  intro imm s hs n list m counts freq
  refine ⟨decodeCommand_hufBenc imm, execHufBenc_arg, execHufBenc_empty,
    fun h0 hn => ⟨execHufBenc_badLimit h0 hn, fun h2 hm => ?_⟩⟩
  obtain ⟨t, ht, -⟩ := exists_buildTree (freqs := symbolCounts s.blockLimit s.symList) (by rwa [symbolCounts_length])
  refine ⟨t, ht, fun i hi hlong hlow => ?_, fun hfit => ?_⟩
  · exact execHufBenc_lenRange hs h0 hn h2 hm ht
      (lowestIndex_eq_some_of_getD (hi.trans_eq (depthList_length t m).symm) hlong hlow)
  · have hfit := forall_mem_le_of_getD (d := depthList t m) fun i hi => hfit i (hi.trans_eq (depthList_length t m))
    refine ⟨fun hr => ?_, execHufBenc_full hs h0 hn h2 hm ht hfit⟩
    refine (execHufBenc_of_room hs h0 hn h2 hm ht hfit hr).trans ?_
    simp only [State.withListCode, State.afterBits_freq, State.afterBits_len, State.afterBits_status]
    rfl

end Sys2Proof.Machine
end

section
/-! HUF_BENC as the host's own sequence of commands (spec/44_huffman_coding.md R227): what FT_INC of each symbol and
HUF_ENC of each symbol come to, and the sequence step by step. -/

namespace Sys2Proof.Machine

variable {s u : State} {t : Tree} {list : List Nat} {i : Instr} {is js : List Instr}

/-! ## Runs of instructions -/

theorem execAll_cons_of_next (h : exec i s = .next u) : execAll (i :: is) s = execAll is u := by
  rw [execAll, h]

theorem execAll_append_of_next (h : execAll is s = .next u) : execAll (is ++ js) s = execAll js u := by
  induction is generalizing s with
  | nil => cases h; rfl
  | cons i is ih =>
    rw [List.cons_append]
    rw [execAll] at h ⊢
    cases hi : exec i s with
    | next v =>
      rw [hi] at h
      exact ih h
    | fault f =>
      rw [hi] at h
      cases h
    | refused r =>
      rw [hi] at h
      cases h

/-! ## FT_INC of each symbol -/

theorem isNegative_eq_false {f : Word} (h : f.toNat < 2 ^ 31) : isNegative f = false := Nat.testBit_lt_two_pow h

/-- A symbol below a legal limit is kept by an immediate. -/
theorem ofNat_imm_toNat {p : Params} (hp : p.Legal) {x : Nat} (hx : x ≤ p.symLimitMax) :
    (BitVec.ofNat 24 x).toNat = x := by
  have := hp.symLimitMax_le
  rw [BitVec.toNat_ofNat, Nat.mod_eq_of_lt (by omega)]

theorem exec_ftInc_of_lt (hs : s.Sane) {x : Nat} (hx : x < s.regs.limit.toNat)
    (hcap : (s.freq.read x).toNat < 2 ^ 31 - 1) :
    exec (.ftInc (BitVec.ofNat 24 x)) s = .next { s with freq := s.freq.write x (s.freq.read x + 1) } := by
  have hmax : s.freq.read x ≠ Config.freqMax := fun h => by
    rw [h] at hcap
    exact absurd hcap (by decide)
  refine (execFtInc_eq hs _).trans ?_
  rw [ofNat_imm_toNat hs.params (hx.le.trans hs.limit_le), if_neg (Nat.not_le.2 hx),
    isNegative_eq_false (hcap.trans (by decide)), if_neg Bool.false_ne_true, if_neg hmax]

/-- FT_INC of each symbol counts them all, where no count can reach FREQ_MAX before the last. -/
theorem execAll_ftInc (hs : s.Sane) (hlist : ∀ x ∈ list, x < s.regs.limit.toNat)
    (hcap : ∀ x ∈ list, (s.freq.read x).toNat + list.length < 2 ^ 31) :
    execAll (list.map fun x => .ftInc (BitVec.ofNat 24 x)) s = .next { s with freq := s.freq.countAll list } := by
  induction list generalizing s with
  | nil => rfl
  | cons x list ih =>
    simp only [List.forall_mem_cons, List.length_cons] at hlist hcap
    obtain ⟨hx, hlist⟩ := hlist
    obtain ⟨hcx, hcap⟩ := hcap
    have hone := exec_ftInc_of_lt hs hx (by omega)
    rw [List.map_cons, execAll_cons_of_next hone]
    refine ih (exec_sane hs rfl hone) hlist fun y hy => ?_
    have hread : ((s.freq.write x (s.freq.read x + 1)).read y).toNat ≤ (s.freq.read y).toNat + 1 := by
      rw [Mem.read_write _ _ _ _ hs.freq.1]
      split_ifs with hyx
      · rw [hyx, BitVec.toNat_add]
        exact Nat.mod_le _ _
      · exact Nat.le_succ _
    have := hcap y hy
    exact (Nat.add_le_add_right hread _).trans_lt (by omega)

/-! ## HUF_ENC of each symbol -/

theorem hasRoom_of_append (h : WriterOk s) {as bs : List Bool} (hr : s.HasRoom (as ++ bs).length) :
    s.HasRoom as.length ∧ (s.afterBits as).HasRoom bs.length := by
  rw [List.length_append] at hr
  have hroom : s.HasRoom as.length := by
    simp only [State.HasRoom] at hr ⊢
    omega
  obtain ⟨-, hpos, hnb⟩ := afterBits_writerOk h hroom
  refine ⟨hroom, ?_⟩
  simp only [State.HasRoom, hpos, hnb, State.afterBits_params] at hr ⊢
  omega

/-- HUF_ENC of each symbol appends their codes. -/
theorem execAll_hufEnc (hs : s.Inv) (hv : s.regs.status.codeValid = true)
    (hlist : ∀ x ∈ list, 0 < s.loadedLens.getD x 0) (hr : s.HasRoom (codeBits s.loadedLens list).length) :
    execAll (list.map fun x => .hufEnc (BitVec.ofNat 24 x)) s = .next (s.afterBits (codeBits s.loadedLens list)) := by
  induction list generalizing s with
  | nil => exact congrArg _ (afterBits_nil hs.sane.writerOk).symm
  | cons x list ih =>
    rw [List.forall_mem_cons] at hlist
    obtain ⟨hx, hlist⟩ := hlist
    have hw := hs.sane.writerOk
    have hlt : x < s.regs.limit.toNat := (lt_length_of_getD_pos hx).trans_eq (s.lens_length _)
    have himm := ofNat_imm_toNat hs.sane.params (hlt.le.trans hs.sane.limit_le)
    obtain ⟨t, ht, -⟩ := hs.exists_loadedTree hv
    obtain ⟨bits, hbits⟩ := exists_codeOf ht hx
    rw [codeBits_cons hbits] at hr ⊢
    obtain ⟨hroom, hrest⟩ := hasRoom_of_append hw hr
    have hone : exec (.hufEnc (BitVec.ofNat 24 x)) s = .next (s.afterBits bits) :=
      (execHufEnc_of_code hs hv (by rwa [himm]) (by rwa [himm])).trans ((runCommand_putBits hw _ bits).1 hroom)
    rw [List.map_cons, execAll_cons_of_next hone, ← afterBits_append hw hroom]
    exact ih ⟨exec_sane hs.sane rfl hone, exec_codeOk hs hone⟩ hv hlist hrest

/-! ## The output -/

theorem padTo_congr {a b : Nat} (h : a % 8 = b % 8) : padTo a = padTo b := by rw [padTo, padTo, h]

theorem exec_bsWalign_of_room (h : WriterOk s) (hr : s.HasRoom (padTo s.regs.wnb.toNat).length) :
    exec .bsWalign s = .next (s.afterBits (padTo s.regs.wnb.toNat)) :=
  runCommand_of_ok_state ((alignW_eq_putBits_padTo (w := s.start) h).trans (putBits_room _ h hr))

/-- With the code loaded, HUF_TWRITE, HUF_ENC of each symbol and BS_WALIGN write the block. -/
theorem execAll_writeBlock (hs : s.Inv) (hv : s.regs.status.codeValid = true)
    (hlist : ∀ x ∈ list, 0 < s.loadedLens.getD x 0)
    (hr : s.HasRoom (blockBits s.regs.wnb.toNat s.loadedLens list).length) :
    execAll (.hufTwrite :: (list.map (fun x => .hufEnc (BitVec.ofNat 24 x)) ++ [.bsWalign])) s =
      .next (s.afterBits (blockBits s.regs.wnb.toNat s.loadedLens list)) := by
  have hw := hs.sane.writerOk
  rw [blockBits] at hr ⊢
  obtain ⟨hcodes, hpad⟩ := hasRoom_of_append hw hr
  obtain ⟨htable, hcode⟩ := hasRoom_of_append hw hcodes
  have hwrite : exec .hufTwrite s = .next (s.afterBits (tableStreamBits s.regs.wnb.toNat s.loadedLens)) :=
    (execHufTwrite_of_loaded hs hv).trans ((runCommand_putBits hw _ _).1 htable)
  have hsymbols : execAll (list.map fun x => .hufEnc (BitVec.ofNat 24 x))
      (s.afterBits (tableStreamBits s.regs.wnb.toNat s.loadedLens)) =
        .next (s.afterBits (tableStreamBits s.regs.wnb.toNat s.loadedLens ++ codeBits s.loadedLens list)) :=
    (execAll_hufEnc ⟨exec_sane hs.sane rfl hwrite, exec_codeOk hs hwrite⟩ hv hlist hcode).trans
      (congrArg _ (afterBits_append hw htable _))
  obtain ⟨hok, -, hnb⟩ := afterBits_writerOk hw hcodes
  have haligned := tableStreamBits_aligned s.regs.wnb.toNat s.loadedLens
  have hpadding := padTo_congr (a := (s.afterBits (tableStreamBits s.regs.wnb.toNat s.loadedLens ++
    codeBits s.loadedLens list)).regs.wnb.toNat) (b := (codeBits s.loadedLens list).length)
    (by rw [hnb, List.length_append]; omega)
  have halign := exec_bsWalign_of_room hok (by rwa [hpadding])
  rw [hpadding, afterBits_append hw hcodes] at halign
  rw [execAll_cons_of_next hwrite, execAll_append_of_next hsymbols, execAll_cons_of_next halign]
  rfl

/-! ## The sequence -/

/-- The state after FT_INIT and FT_INC of each symbol of the list: its counts, and no code. -/
def State.listCounted (s : State) : State :=
  { s.counted s.blockLimit s.symList with regs := (s.counted s.blockLimit s.symList).regs.dropCode }

namespace State.Encodes

variable (h : s.Encodes t) (hs : s.Sane)

include h hs

theorem execAll_count :
    execAll (.ftInit (BitVec.ofNat 24 s.blockLimit) :: s.symList.map fun x => .ftInc (BitVec.ofNat 24 x)) s =
      .next s.listCounted := by
  have himm := ofNat_imm_toNat hs.params h.limit
  have hlimit : zextImm (BitVec.ofNat 24 s.blockLimit) = BitVec.ofNat 32 s.blockLimit :=
    BitVec.eq_of_toNat_eq (by rw [zextImm_toNat, himm, ofNat_limit_toNat hs.params h.limit])
  have hinit : exec (.ftInit (BitVec.ofNat 24 s.blockLimit)) s = .next { s with
      freq := s.freq.zeroBelow s.blockLimit
      regs := { s.regs with limit := BitVec.ofNat 32 s.blockLimit }.dropCode } := by
    refine (execFtInit_of_range (by rw [himm]; exact h.two_le) (by rw [himm]; exact h.limit)).trans ?_
    rw [himm, hlimit]
  have hlen := s.symList_length
  have hsize := hs.params.symSize_le
  have hlisted := h.listed
  rw [execAll_cons_of_next hinit, execAll_ftInc (exec_sane hs rfl hinit)]
  · simp only [Mem.zeroBelow_countAll hs.freq h.limit s.lt_blockLimit]
    rfl
  · exact fun x hx => (s.lt_blockLimit x hx).trans_eq (ofNat_limit_toNat hs.params h.limit).symm
  · intro x hx
    rw [Mem.read_zeroBelow, if_pos (s.lt_blockLimit x hx), hlen, BitVec.toNat_ofNat, Nat.zero_mod]
    omega

theorem listCounted_inv : s.listCounted.Inv where
  sane := { hs with
    freq := Mem.wf_writeList _ _ _ (by rw [Nat.zero_add, List.length_map, symbolCounts_length]; exact h.limit) hs.freq
    limit := .inr (by
      rw [listCounted, counted, Regs.dropCode_limit, ofNat_limit_toNat hs.params h.limit]
      exact ⟨h.two_le, h.limit⟩)
    maxlen := fun _ => rfl }
  code := State.codeOk_of_invalid rfl

theorem exec_hufBuild :
    exec .hufBuild s.listCounted = .next (s.withListCode s.blockLimit s.symList (depthList t s.blockLimit)) := by
  have hlimit : s.listCounted.regs.limit.toNat = s.blockLimit := ofNat_limit_toNat hs.params h.limit
  have hlen := s.symList_length
  have hsize := hs.params.symSize_le
  have hlisted := h.listed
  have hfreqs : s.listCounted.freqs s.blockLimit = symbolCounts s.blockLimit s.symList :=
    freqs_counted hs (by omega) _
  have hpos : ∀ i < s.blockLimit, isNegative (s.listCounted.freq.read i) = false := fun i hi => by
    have hcount := List.count_le_length (a := i) (l := s.symList)
    refine isNegative_eq_false ?_
    rw [← State.freqs_getD _ hi, hfreqs, symbolCounts_getD hi]
    omega
  have hbuild := execHufBuild_of_fits (t := t) (h.listCounted_inv hs).sane (by rw [hlimit]; exact h.two_le)
    (by rwa [hlimit]) (by rw [hlimit, hfreqs]; exact h.tree) (by rw [hlimit]; exact h.fits)
  rw [hlimit] at hbuild
  exact hbuild

end State.Encodes

/-- Settles O47: the sequence passes through the counts and the loaded code that HUF_BENC passes through, and writes the
same bits. -/
theorem blockIsHostSequence : Obligations.BlockIsHostSequence := by
  unfold Obligations.BlockIsHostSequence
  intro s u hs _ hu hfault list
  obtain ⟨t, h, rfl⟩ := exists_encodes hs hu hfault
  have hbuild := h.exec_hufBuild hs
  have hinv := h.listCounted_inv hs
  have hlens := loadedLens_withListCode (list := s.symList) hs h.limit (depthList_length t _) h.fits
  have hwrite := execAll_writeBlock (list := s.symList)
    ⟨exec_sane hinv.sane rfl hbuild, exec_codeOk hinv hbuild⟩ rfl
    (by rw [hlens]; exact depthList_pos_of_mem h.two_le h.tree s.lt_blockLimit) (by rw [hlens]; exact h.room)
  rw [hlens] at hwrite
  have hrest := (execAll_cons_of_next hbuild).trans hwrite
  have hall := (execAll_append_of_next (h.execAll_count hs)).trans hrest
  simp only [List.append_assoc, List.cons_append, List.nil_append] at hall ⊢
  exact hall

end Sys2Proof.Machine
end

section
/-! The round trip of a block (spec/44_huffman_coding.md R228): HUF_BDEC over the bytes that HUF_BENC has stored. -/

namespace Sys2Proof.Machine

variable {s v : State} {t : Tree} {lens list : List Nat} {bits rest : List Bool}

/-! ## The bits of a block -/

/-- A block between the padding before it and the padding after it. -/
def blockBody (lens list : List Nat) : List Bool :=
  tableBits lens (maxLen lens) ++ padTo (tableBits lens (maxLen lens)).length ++ codeBits lens list

theorem blockBody_length (lens list : List Nat) : (blockBody lens list).length =
    8 * (((tableBits lens (maxLen lens)).length + 7) / 8) + (codeBits lens list).length := by
  rw [blockBody, List.length_append, append_padTo_length]

theorem blockBits_eq (nb : Nat) (lens list : List Nat) :
    blockBits nb lens list = padTo nb ++ blockBody lens list ++ padTo (blockBody lens list).length := by
  have hpad : padTo (blockBody lens list).length = padTo (codeBits lens list).length :=
    padTo_congr (by rw [blockBody_length]; omega)
  rw [hpad, blockBits, tableStreamBits, blockBody]
  simp only [List.append_assoc]

/-- The writer's table is one that the reader accepts. -/
theorem exists_tableWith (hmax : maxLen lens < 256) (hne : lens ≠ []) :
    ∃ bpl es, bpl < 256 ∧ (∀ e ∈ es, e.2 < 2 ^ (if e.1 then bpl else 8)) ∧ expandEntries none es = some lens ∧
      (∀ ls, expandEntries none es.dropLast = some ls → ls.length < lens.length) ∧
      tableBits lens (maxLen lens) = tableWith lens.length bpl es := by
  have hb : bitlength (maxLen lens) < 256 := by
    have := bitlength_le (v := maxLen lens) (k := 8) hmax
    omega
  obtain ⟨fs, hfs⟩ := exists_writtenAs (bitlength (maxLen lens)) lens
  exact ⟨_, fs, hb, hfs.field_lt, hfs.expand none, fun _ => hfs.dropLast_lt hne, tableBits_eq_tableWith hfs hb⟩

/-! ## The block read back -/

/-- `AlignR()` discards the unread bits of the current byte. -/
theorem readAligned_unreadBits (s : State) : s.readAligned.unreadBits = s.unreadBits.drop s.regs.rnb.toNat := by
  rw [State.unreadBits, State.unreadBits, List.drop_left' (fieldBits_length _ _)]
  rfl

/-- From a byte boundary, `AlignR()` after some bits discards their padding. -/
theorem unreadBits_readAligned_of_padded (h : ReaderOk v) (hnb : v.regs.rnb = 0)
    (hu : v.unreadBits = bits ++ (padTo bits.length ++ rest)) :
    (v.afterReading bits.length).readAligned.unreadBits = rest := by
  obtain ⟨hleft, -⟩ := unreadBits_afterReading h hu
  have hrnb : (v.afterReading bits.length).regs.rnb.toNat = (padTo bits.length).length := by
    rw [padTo_length]
    simp [State.afterReading, Regs.fetches, hnb]
    omega
  rw [readAligned_unreadBits, hleft, hrnb, List.drop_left]

@[simp] theorem State.withBlock_fault (s : State) (lens list : List Nat) (count : Imm) :
    (s.withBlock lens list count).regs.status.fault = s.regs.status.fault := rfl

@[simp] theorem State.withBlock_symCnt (s : State) (lens list : List Nat) (count : Imm) :
    (s.withBlock lens list count).regs.symCnt = zextImm count := rfl

@[simp] theorem State.withBlock_rpos (s : State) (lens list : List Nat) (count : Imm) :
    (s.withBlock lens list count).regs.rpos = s.regs.rpos := rfl

/-- Symbols of 16 bits that are stored from SYM[0] on read back. -/
theorem State.syms_withBlock (hm : s.sym.Rising) (hlist : ∀ x ∈ list, x < 65536) (lens : List Nat) (count : Imm) :
    (s.withBlock lens list count).syms list.length = list := by
  have hread := Mem.readList_writeList hm (list.map (BitVec.ofNat 16))
  rw [List.length_map] at hread
  rw [syms, withBlock, hread, List.map_map]
  refine (List.map_congr_left fun x hx => ?_).trans (List.map_id _)
  exact (BitVec.toNat_ofNat ..).trans (Nat.mod_eq_of_lt (hlist x hx))

/-- HUF_BDEC of the block's length, where a block starts at the next byte boundary. -/
theorem execHufBdec_blockBody (hv : v.Sane) (hn : lens.length ≤ v.params.symLimitMax) (h2 : 2 ≤ lens.length)
    (hmax : ∀ l ∈ lens, l ≤ v.params.maxCodeLen) (hfull : validate lens = .full) (hlist : ∀ x ∈ list, 0 < lens.getD x 0)
    {count : Imm} (hcount : list.length = count.toNat) (hsize : count.toNat ≤ v.params.symSize)
    (hu : v.readAligned.unreadBits = blockBody lens list ++ rest) :
    ∃ u, exec (.hufBdec count) v = .next u ∧ u.regs.status.fault = v.regs.status.fault ∧
      u.regs.symCnt = zextImm count ∧ u.syms count.toNat = list ∧
      u.regs.rpos = v.regs.rpos + BitVec.ofNat 32 (((blockBody lens list).length + 7) / 8) := by
  obtain ⟨bpl, es, hb, hes, hexp, hlast, htable⟩ := exists_tableWith
    (Nat.lt_succ_of_le ((maxLen_le hmax).trans hv.params.maxCodeLen_le)) (List.ne_nil_of_length_pos (by omega))
  rw [blockBody, htable, List.append_assoc, List.append_assoc] at hu
  have hcodes := unreadBits_readAligned_of_padded hv.readerOk.aligned rfl hu
  have hbits : ∀ x ∈ list, x < 65536 := fun x hx => by
    have := lt_length_of_getD_pos (hlist x hx)
    have := hv.params.symLimitMax_le
    omega
  refine ⟨_, execHufBdec_of_block hv hsize hn h2 hb hes hexp hlast hmax hfull hu hlist hcodes hcount, by simp, by simp,
    ?_, ?_⟩
  · rw [← hcount]
    exact State.syms_withBlock (by simpa using hv.sym.1) hbits ..
  · rw [blockBody_length, htable, State.withBlock_rpos, State.readAligned_rpos, afterReading_rpos_of_aligned rfl,
      State.readAligned_rpos, afterReading_rpos_of_aligned rfl, State.readAligned_rpos, BitVec.add_assoc,
      ← BitVec.ofNat_add]
    congr 2
    omega

/-- Where HUF_BENC writes the block: between the next byte boundary and the write cursor. -/
theorem State.Encodes.written (h : s.Encodes t) (hs : s.Sane) :
    let aligned := s.afterBits (padTo s.regs.wnb.toNat)
    let body := blockBody (depthList t s.blockLimit) s.symList
    aligned.regs.wnb = 0 ∧ aligned.regs.wpos.toNat = s.regs.wpos.toNat + (s.regs.wnb.toNat + 7) / 8 ∧
      (s.encoded t).buf = (aligned.afterBits (body ++ padTo body.length)).buf ∧
      (s.encoded t).regs.wpos.toNat = aligned.regs.wpos.toNat + (body.length + 7) / 8 := by
  have hroom := h.room
  rw [blockBits_eq] at hroom
  obtain ⟨haligned, hstart, hparts, hend⟩ := afterBits_padded hs.writerOk hroom
  rw [← blockBits_eq] at hparts hend
  exact ⟨haligned, hstart, by rw [← hparts]; rfl, hend⟩

theorem State.Encodes.symCnt_setWidth (h : s.Encodes t) (hs : s.Sane) :
    (s.regs.symCnt.setWidth 24).toNat = s.regs.symCnt.toNat := by
  have := h.listed
  have := hs.params.symSize_le
  rw [BitVec.toNat_setWidth, Nat.mod_eq_of_lt (by omega)]

/-- Settles O48: the block that HUF_BENC writes starts at the next byte boundary, where BS_RINIT points, and HUF_BDEC reads
it to its end. -/
theorem blockRoundTrip : Obligations.BlockRoundTrip := by
  unfold Obligations.BlockRoundTrip
  intro s u sym cnt hs _ hu hfault hsym start
  obtain ⟨t, h, rfl⟩ := exists_encodes hs hu hfault
  have hsane := exec_sane hs rfl hu
  have hcount := h.symCnt_setWidth hs
  obtain ⟨haligned, hstart, hbuf, hend⟩ := h.written hs
  have himm : BitVec.ofNat 24 start = (s.afterBits (padTo s.regs.wnb.toNat)).regs.wpos.setWidth 24 := by
    rw [← BitVec.ofNat_toNat, hstart]
  obtain ⟨v, hinit, hvsane, hvpos, hvlim, hvstatus, hvbuf, hvparams⟩ :=
    exec_bsRinit_setArg (s := { s.encoded t with sym := sym, regs := { (s.encoded t).regs with symCnt := cnt } })
      (a := (s.afterBits (padTo s.regs.wnb.toNat)).regs.wpos) (lim := (s.encoded t).regs.wpos)
      { hsane with sym := hsym } hsane.writer.2.2.1 (by omega)
  have hparams : v.params = s.params := hvparams
  obtain ⟨rest, hbits⟩ := exists_unreadBits_of_afterBits (t := v.readAligned) (Mem.rising_writeList _ _ _ hs.buf.1)
    haligned (hvbuf.trans hbuf) (congrArg BitVec.toNat hvpos) rfl (by rw [State.readAligned_rlim, hvlim, hend])
  obtain ⟨w, hread, hwfault, hwcnt, hwsyms, hwpos⟩ := execHufBdec_blockBody (list := s.symList) hvsane
    (by rw [hparams, depthList_length]; exact h.limit) (by rw [depthList_length]; exact h.two_le)
    (by rw [hparams]; exact h.fits) (validate_depthList_counts h.two_le h.tree)
    (depthList_pos_of_mem h.two_le h.tree s.lt_blockLimit) (s.symList_length.trans hcount.symm)
    (by rw [hparams, hcount]; exact h.listed) hbits
  refine ⟨w, ?_, ?_, ?_, ?_, ?_⟩
  · rw [himm]
    exact (execAll_cons_of_next hinit).trans (execAll_cons_of_next hread)
  · rw [hwfault, hvstatus]
    exact hfault
  · exact hwcnt.trans (BitVec.eq_of_toNat_eq ((zextImm_toNat _).trans hcount))
  · rwa [hcount] at hwsyms
  · have hword := (s.encoded t).regs.wpos.isLt
    apply BitVec.eq_of_toNat_eq
    rw [hwpos, hvpos, BitVec.toNat_add, BitVec.toNat_ofNat]
    omega

end Sys2Proof.Machine
end

section
/-! The input of TRIE_ENC (spec/45_trie_encoder.md R240, R241): the checks of one record, the record lists that parse,
and the first check that fails. The command's ends (R248). -/

namespace Sys2Proof.Machine

variable {s : State} {m : Mem 8} {size sub cnt j p c : Nat} {ordered : Bool} {prev : Option Str} {x : Str}
  {xs words sufs : List Str}

/-! ## The checks on characters and order -/

theorem strLt_iff {u v : Str} : strLt u v = true ↔ u < v := by
  induction u, v using strLt.induct with
  | case1 u => simp [strLt]
  | case2 b v => simp [strLt]
  | case3 a u b v ih => simp [strLt, ih, List.cons_lt_cons_iff, BitVec.lt_def]

theorem badChar_iff {b : Byte} : badChar b = true ↔ ¬IsChar b := by
  simp [badChar, IsChar, imp_iff_not_or]

theorem inOrder_iff : inOrder prev x = true ↔ ∀ y ∈ prev, y < x := by
  cases prev <;> simp [inOrder, strLt_iff]

/-! ## One record -/

/-- The bytes of the record whose length byte is at address p. -/
def recordAt (m : Mem 8) (p : Nat) : Str := readBytes m (p + 1) (m.read p).toNat

@[simp] theorem readBytes_length (m : Mem 8) (a n : Nat) : (readBytes m a n).length = n := by simp [readBytes]

theorem readBytes_append (m : Mem 8) (a n k : Nat) :
    readBytes m a (n + k) = readBytes m a n ++ readBytes m (a + n) k := by
  simp [readBytes, List.range_add, Nat.add_assoc]

theorem readBytes_zero_eq_readList (m : Mem 8) (n : Nat) : readBytes m 0 n = m.readList n := by
  simp [readBytes, Mem.readList]

@[simp] theorem recordAt_length (m : Mem 8) (p : Nat) : (recordAt m p).length = (m.read p).toNat := readBytes_length ..

/-- A word or suffix that a record can hold and TRIE_ENC takes. -/
abbrev GoodRecord (x : Str) : Prop := x ≠ [] ∧ x.length ≤ 255 ∧ ∀ b ∈ x, IsChar b

/-- The sub-code of the first of the four checks of R241 that the record at p fails. -/
def recordFault (m : Mem 8) (size sub : Nat) (ordered : Bool) (p : Nat) (prev : Option Str) : Option Nat :=
  if size ≤ p ∨ size < p + 1 + (m.read p).toNat then some sub
  else if (m.read p).toNat = 0 then some (sub + 1)
  else if ∃ b ∈ recordAt m p, ¬IsChar b then some (sub + 2)
  else if ordered = true ∧ ∃ y ∈ prev, ¬y < recordAt m p then some (sub + 3)
  else none

theorem ite_some_eq_none {α : Type} {q : Prop} [Decidable q] {a : α} {o : Option α} :
    (if q then some a else o) = none ↔ ¬q ∧ o = none := by
  split <;> simp [*]

theorem recordFault_eq_none :
    recordFault m size sub ordered p prev = none ↔
      p + 1 + (recordAt m p).length ≤ size ∧ GoodRecord (recordAt m p) ∧
        (ordered = true → ∀ y ∈ prev, y < recordAt m p) := by
  have hbyte := (m.read p).isLt
  have hend : ¬(size ≤ p ∨ size < p + 1 + (m.read p).toNat) ↔ p + 1 + (m.read p).toNat ≤ size := by omega
  have hne : ¬(m.read p).toNat = 0 ↔ recordAt m p ≠ [] := by
    rw [← recordAt_length, List.length_eq_zero_iff]
  have hlen : (m.read p).toNat ≤ 255 := by omega
  simp only [recordFault, ite_some_eq_none, hend, hne, recordAt_length, hlen, true_and, and_true, and_assoc]
  push Not
  rfl

theorem parseRecords_succ :
    parseRecords m size sub ordered (cnt + 1) j p prev =
      (recordFault m size sub ordered p prev).elim
        ((parseRecords m size sub ordered cnt (j + 1) (p + 1 + (recordAt m p).length) (some (recordAt m p))).map
          (recordAt m p :: ·))
        fun c => .error (c, j) := by
  have hchars : (recordAt m p).any badChar = true ↔ ∃ b ∈ recordAt m p, ¬IsChar b := by
    simp only [List.any_eq_true, badChar_iff]
  have horder : (ordered && !inOrder prev (recordAt m p)) = true ↔
      ordered = true ∧ ∃ y ∈ prev, ¬y < recordAt m p := by
    rw [Bool.and_eq_true, Bool.not_eq_true', ← Bool.not_eq_true, inOrder_iff]
    simp
  have hrec : readBytes m (p + 1) (m.read p).toNat = recordAt m p := rfl
  rw [parseRecords, recordFault, ite_or]
  simp only [hrec, hchars, horder, recordAt_length]
  cases parseRecords m size sub ordered cnt (j + 1) (p + 1 + (m.read p).toNat) (some (recordAt m p)) <;>
    split_ifs <;> rfl

/-! ## Records back to back -/

/-- The records of the words stand in a memory of `size` bytes from address p on. -/
abbrev StoredAt (m : Mem 8) (size p : Nat) (xs : List Str) : Prop :=
  p + (recordBytes xs).length ≤ size ∧ readBytes m p (recordBytes xs).length = recordBytes xs

theorem storedAt_zero : StoredAt m size 0 xs ↔ Stored m size xs := by
  rw [StoredAt, Stored, Nat.zero_add, readBytes_zero_eq_readList]

theorem recordBytes_cons_length (x : Str) (xs : List Str) :
    (recordBytes (x :: xs)).length = 1 + x.length + (recordBytes xs).length := by
  rw [recordBytes_cons, List.length_append, List.length_cons, Nat.add_comm 1]

/-- The record at p, read off its length byte, is x when the length byte and the characters are those of x. -/
theorem recordAt_eq_iff (hx : x.length ≤ 255) :
    recordAt m p = x ↔ m.read p = BitVec.ofNat 8 x.length ∧ readBytes m (p + 1) x.length = x := by
  have hlen : m.read p = BitVec.ofNat 8 x.length ↔ (m.read p).toNat = x.length := by
    rw [BitVec.toNat_eq, BitVec.toNat_ofNat, Nat.mod_eq_of_lt (by omega)]
  rw [hlen]
  constructor
  · rintro rfl
    exact ⟨(recordAt_length m p).symm, by rw [recordAt_length, recordAt]⟩
  · rintro ⟨hn, hb⟩
    rw [recordAt, hn, hb]

theorem storedAt_cons (hx : x.length ≤ 255) :
    StoredAt m size p (x :: xs) ↔ recordAt m p = x ∧ StoredAt m size (p + 1 + x.length) xs := by
  have hbytes : readBytes m p (recordBytes (x :: xs)).length =
      m.read p :: (readBytes m (p + 1) x.length ++ readBytes m (p + 1 + x.length) (recordBytes xs).length) := by
    rw [recordBytes_cons_length, readBytes_append, readBytes_append, Nat.add_assoc p]
    rfl
  rw [StoredAt, StoredAt, hbytes, recordBytes_cons_length, recordBytes_cons, List.cons_append, List.cons.injEq,
    List.append_eq_append_iff_of_size_eq_left (readBytes_length ..), recordAt_eq_iff hx,
    ← and_assoc (c := _ = recordBytes xs), and_left_comm]
  simp only [Nat.add_assoc]

/-! ## Records that parse -/

theorem Except.map_eq_ok {α β ε : Type} {f : α → β} {r : Except ε α} {b : β} :
    r.map f = .ok b ↔ ∃ a, r = .ok a ∧ f a = b := by
  cases r <;> simp [Except.map]

theorem parseRecords_succ_eq_ok :
    parseRecords m size sub ordered (cnt + 1) j p prev = .ok words ↔
      recordFault m size sub ordered p prev = none ∧ ∃ xs,
        parseRecords m size sub ordered cnt (j + 1) (p + 1 + (recordAt m p).length) (some (recordAt m p)) = .ok xs ∧
          recordAt m p :: xs = words := by
  rw [parseRecords_succ, ← Except.map_eq_ok]
  cases recordFault m size sub ordered p prev <;> simp

theorem isChain_toList_append_cons :
    (prev.toList ++ x :: xs).IsChain (· < ·) ↔ (∀ y ∈ prev, y < x) ∧ (x :: xs).IsChain (· < ·) := by
  cases prev <;> simp

/-- The records that parse are the good ones stored from address p on, ascending where the order is checked. -/
theorem parseRecords_eq_ok (hp : p ≤ size) :
    parseRecords m size sub ordered cnt j p prev = .ok xs ↔
      xs.length = cnt ∧ StoredAt m size p xs ∧ (∀ x ∈ xs, GoodRecord x) ∧
        (ordered = true → (prev.toList ++ xs).IsChain (· < ·)) := by
  induction cnt generalizing j p prev xs with
  | zero =>
    rw [parseRecords, Except.ok.injEq, eq_comm, List.length_eq_zero_iff]
    refine ⟨?_, And.left⟩
    rintro rfl
    exact ⟨rfl, ⟨hp, rfl⟩, by simp, fun _ => by cases prev <;> simp⟩
  | succ cnt ih =>
    rw [parseRecords_succ_eq_ok, recordFault_eq_none]
    constructor
    · rintro ⟨⟨hend, hgood, horder⟩, ys, hys, rfl⟩
      obtain ⟨hlen, hstored, hall, hchain⟩ := (ih hend).1 hys
      exact ⟨congrArg (· + 1) hlen, (storedAt_cons hgood.2.1).2 ⟨rfl, hstored⟩, List.forall_mem_cons.2 ⟨hgood, hall⟩,
        fun ho => isChain_toList_append_cons.2 ⟨horder ho, hchain ho⟩⟩
    · rintro ⟨hlen, hstored, hall, hchain⟩
      obtain ⟨x, ys, rfl⟩ := List.exists_cons_of_length_eq_add_one hlen
      obtain ⟨hgood, hrest⟩ := List.forall_mem_cons.1 hall
      obtain ⟨rfl, hstored⟩ := (storedAt_cons hgood.2.1).1 hstored
      have hend := (Nat.le_add_right _ _).trans hstored.1
      exact ⟨⟨hend, hgood, fun ho => (isChain_toList_append_cons.1 (hchain ho)).1⟩, ys, (ih hend).2
        ⟨Nat.succ.inj hlen, hstored, hrest, fun ho => (isChain_toList_append_cons.1 (hchain ho)).2⟩, rfl⟩

/-- Where the first `cnt` records parse and the next one fails a check, that one is reported. -/
theorem parseRecords_of_fault {k : Nat} (hxs : parseRecords m size sub ordered cnt j p prev = .ok xs)
    (h : recordFault m size sub ordered (p + (recordBytes xs).length) (xs.getLast?.or prev) = some c) :
    parseRecords m size sub ordered (cnt + (k + 1)) j p prev = .error (c, j + cnt) := by
  induction cnt generalizing j p prev xs with
  | zero =>
    cases hxs
    rw [Nat.zero_add, parseRecords_succ]
    exact congrArg (Option.elim · _ _) h
  | succ cnt ih =>
    obtain ⟨hgood, ys, hys, rfl⟩ := parseRecords_succ_eq_ok.1 hxs
    have haddr : p + 1 + (recordAt m p).length + (recordBytes ys).length =
        p + (recordBytes (recordAt m p :: ys)).length := by
      rw [recordBytes_cons_length]
      omega
    have hlast : ys.getLast?.or (some (recordAt m p)) = (recordAt m p :: ys).getLast?.or prev := by
      rw [List.getLast?_cons]
      cases ys.getLast? <;> rfl
    rw [Nat.add_right_comm, parseRecords_succ, hgood, Option.elim_none, ih hys (by rw [haddr, hlast, h]),
      Nat.add_right_comm]
    rfl

/-! ## The whole input -/

theorem parseRecords_start_eq_ok :
    parseRecords m size sub ordered cnt 0 0 none = .ok xs ↔
      xs.length = cnt ∧ Stored m size xs ∧ (∀ x ∈ xs, GoodRecord x) ∧ (ordered = true → xs.Pairwise (· < ·)) := by
  rw [parseRecords_eq_ok (Nat.zero_le _), storedAt_zero, ← List.isChain_iff_pairwise]
  rfl

/-- After good records the first one that fails a check is reported, with its index. -/
theorem parseRecords_start_of_fault (hstored : Stored m size xs) (hgood : ∀ x ∈ xs, GoodRecord x)
    (hasc : ordered = true → xs.Pairwise (· < ·)) (hlt : xs.length < cnt)
    (h : recordFault m size sub ordered (recordBytes xs).length xs.getLast? = some c) :
    parseRecords m size sub ordered cnt 0 0 none = .error (c, xs.length) := by
  obtain ⟨k, rfl⟩ := Nat.exists_eq_add_of_lt hlt
  rw [Nat.add_assoc, parseRecords_of_fault (c := c) (parseRecords_start_eq_ok.2 ⟨rfl, hstored, hgood, hasc⟩),
    Nat.zero_add]
  rwa [Nat.zero_add, Option.or_none]

/-- The word list as `trieInput` parses it. -/
def parseWords (s : State) : Except (Nat × Nat) (List Str) :=
  parseRecords s.win s.params.winSize 2 true s.regs.winCnt.toNat 0 0 none

/-- The suffix list as `trieInput` parses it. -/
def parseSuffixes (s : State) : Except (Nat × Nat) (List Str) :=
  parseRecords s.suf s.params.sufSize 6 false s.regs.sufCnt.toNat 0 0 none

theorem trieInput_of_many (h : 7 < s.regs.sufCnt.toNat) : trieInput s = .error (1, s.regs.sufCnt.toNat) := if_pos h

theorem trieInput_of_le (h : s.regs.sufCnt.toNat ≤ 7) :
    trieInput s = (parseWords s).bind fun words => (parseSuffixes s).map fun sufs => (words, sufs) := by
  refine (if_neg (Nat.not_lt.2 h)).trans ?_
  rw [← parseWords, ← parseSuffixes]
  cases parseWords s <;> cases parseSuffixes s <;> rfl

theorem parseWords_eq_ok :
    parseWords s = .ok words ↔ words.length = s.regs.winCnt.toNat ∧ Stored s.win s.params.winSize words ∧
      (∀ x ∈ words, GoodRecord x) ∧ words.Pairwise (· < ·) := by
  rw [parseWords, parseRecords_start_eq_ok, forall_prop_of_true rfl]

theorem parseSuffixes_eq_ok :
    parseSuffixes s = .ok sufs ↔ sufs.length = s.regs.sufCnt.toNat ∧ Stored s.suf s.params.sufSize sufs ∧
      ∀ x ∈ sufs, GoodRecord x := by
  rw [parseSuffixes, parseRecords_start_eq_ok]
  simp

/-- Settles O50: what `parseRecords` accepts, for the words and for the suffixes. -/
theorem trieInputAccepts : Obligations.TrieInputAccepts := by
  unfold Obligations.TrieInputAccepts
  intro s words sufs
  rcases Nat.lt_or_ge 7 s.regs.sufCnt.toNat with h | h
  · rw [trieInput_of_many h]
    constructor
    · exact nofun
    · rintro ⟨-, hlen, hle, -⟩
      omega
  · have hsplit : trieInput s = .ok (words, sufs) ↔ parseWords s = .ok words ∧ parseSuffixes s = .ok sufs := by
      rw [trieInput_of_le h]
      cases parseWords s <;> cases parseSuffixes s <;> simp [Except.bind, Except.map]
    rw [hsplit, parseWords_eq_ok, parseSuffixes_eq_ok, List.forall_mem_append]
    constructor
    · rintro ⟨⟨hcnt, hwin, hwords, hasc⟩, hscnt, hsuf, hsufs⟩
      exact ⟨hcnt, hscnt, hscnt.trans_le h, hwin, hsuf, ⟨hwords, hsufs⟩, hasc⟩
    · rintro ⟨hcnt, hscnt, -, hwin, hsuf, ⟨hwords, hsufs⟩, hasc⟩
      exact ⟨⟨hcnt, hwin, hwords, hasc⟩, hscnt, hsuf, hsufs⟩

/-! ## The command's ends (spec/45_trie_encoder.md R248) -/

theorem execTrieEnc_of_badInput (h : trieInput s = .error (c, j)) :
    execTrieEnc s = .next (s.faulted 0x40#8 .trieInput (subInfo c j)) :=
  runCommand_of_raise_start (by simp only [h])

theorem execTrieEnc_of_badWord (h7 : s.regs.sufCnt.toNat ≤ 7) (h : parseWords s = .error (c, j)) :
    execTrieEnc s = .next (s.faulted 0x40#8 .trieInput (subInfo c j)) :=
  execTrieEnc_of_badInput (by rw [trieInput_of_le h7, h]; rfl)

theorem execTrieEnc_of_badSuffix (h7 : s.regs.sufCnt.toNat ≤ 7) (hwords : parseWords s = .ok words)
    (h : parseSuffixes s = .error (c, j)) : execTrieEnc s = .next (s.faulted 0x40#8 .trieInput (subInfo c j)) :=
  execTrieEnc_of_badInput (by rw [trieInput_of_le h7, hwords, h]; rfl)

/-- Settles O49: the records before the reported one parse, and it is the first that fails a check. -/
theorem trieInputOrder : Obligations.TrieInputOrder := by
  unfold Obligations.TrieInputOrder
  simp only [exec]
  refine fun s => ⟨fun h => execTrieEnc_of_badInput (trieInput_of_many h), fun h7 words hwin hwords hasc => ?_⟩
  refine ⟨fun hlt sub hsub => ?_, fun hcnt sufs hsuf hsufs hlt sub hsub => ?_⟩
  · refine execTrieEnc_of_badWord h7 (parseRecords_start_of_fault hwin hwords (fun _ => hasc) hlt ?_)
    simp only [recordFault, true_and]
    exact hsub
  · refine execTrieEnc_of_badSuffix h7 (parseWords_eq_ok.2 ⟨hcnt, hwin, hwords, hasc⟩)
      (parseRecords_start_of_fault hsuf hsufs nofun hlt ?_)
    simp only [recordFault, Bool.false_eq_true, false_and, if_false]
    exact hsub

/-- A backspace above 30 (spec/45_trie_encoder.md R244). -/
theorem execTrieEnc_of_overflow (h : trieInput s = .ok (words, sufs)) (henc : trieEncode words sufs = .error (c, j)) :
    execTrieEnc s = .next (s.faulted 0x40#8 .bkspOvf (subInfo c j)) :=
  runCommand_of_raise_start (by simp only [h, henc])

theorem execTrieEnc_of_long {out : List Nat} (h : trieInput s = .ok (words, sufs))
    (henc : trieEncode words sufs = .ok out) (hlong : s.params.symSize < out.length) :
    execTrieEnc s = .next (s.faulted 0x40#8 .symFull 0) :=
  runCommand_of_raise_start (by simp only [h, henc, if_pos hlong])

theorem execTrieEnc_of_fits {out : List Nat} (h : trieInput s = .ok (words, sufs))
    (henc : trieEncode words sufs = .ok out) (hfits : out.length ≤ s.params.symSize) :
    execTrieEnc s = .next { s with
      sym := s.sym.writeList 0 (out.map (BitVec.ofNat 16))
      regs := { s.regs with symCnt := BitVec.ofNat 32 out.length } } := by
  refine runCommand_of_ok_state (b := false) ?_
  simp only [h, henc, if_neg (Nat.not_lt.2 hfits)]
  rw [writeSyms_ok ((List.length_map _).trans_le hfits)]
  rfl

theorem decodeCommand_trieEnc (imm : Imm) : decodeCommand (commandWord 0x40#8 imm) = .ok .trieEnc := by
  simp [decodeCommand]

/-- Settles O51: the two checks after the encoder, and then the one write of SYM. -/
theorem trieEncResult : Obligations.TrieEncResult := by
  unfold Obligations.TrieEncResult
  simp only [exec]
  exact fun imm s words sufs h => ⟨decodeCommand_trieEnc imm, fun pops j henc => execTrieEnc_of_overflow h henc,
    fun out henc => ⟨execTrieEnc_of_long h henc, execTrieEnc_of_fits h henc⟩⟩

end Sys2Proof.Machine
end

section
/-! The trie encoder's algorithm (spec/45_trie_encoder.md R242): what one word appends to the code list, that the suffix
bank stays in front, and what the codes behind it are. -/

namespace Sys2Proof.Machine

variable {sufs words : List Str} {zs rest : List (Str × Nat)} {stk w : Str} {removed out bank codes : List Nat}
  {i j mask : Nat}

/-! ## Pops (step 3a) -/

theorem commonLength_le (u v : Str) : commonLength u v ≤ u.length := by
  fun_induction commonLength u v <;> simp_all

theorem commonLength_of_prefix (h : stk <+: w) : commonLength stk w = stk.length := by
  obtain ⟨v, rfl⟩ := h
  induction stk with
  | nil => rfl
  | cons a stk ih => simp [commonLength, ih]

theorem commonLength_concat_of_not_prefix {a : Byte} (h : ¬stk ++ [a] <+: w) :
    commonLength (stk ++ [a]) w = commonLength stk w := by
  induction stk generalizing w with
  | nil =>
    cases w with
    | nil => rfl
    | cons b w => simp_all [commonLength]
  | cons c stk ih =>
    cases w with
    | nil => rfl
    | cons b w =>
      rw [List.cons_append, List.cons_prefix_cons, not_and] at h
      rw [List.cons_append, commonLength, commonLength]
      by_cases hcb : c = b
      · rw [if_pos hcb, if_pos hcb, ih (h hcb)]
      · rw [if_neg hcb, if_neg hcb]

/-- What is left of the stack is what it has in common with w. -/
theorem popToPrefix_eq (w stk : Str) (n : Nat) :
    popToPrefix w stk.length stk n = (stk.take (commonLength stk w), n + popsBetween stk w) := by
  induction stk using List.reverseRecOn generalizing n with
  | nil => rfl
  | append_singleton stk a ih =>
    by_cases h : stk ++ [a] <+: w
    · have hp : (stk ++ [a]).isPrefixOf w = true := List.isPrefixOf_iff_prefix.2 h
      simp [popToPrefix, popsBetween, commonLength_of_prefix h, hp]
    · have hp : (stk ++ [a]).isPrefixOf w = false := by rwa [← Bool.not_eq_true, List.isPrefixOf_iff_prefix]
      have hle := commonLength_le stk w
      have hstep : popToPrefix w (stk ++ [a]).length (stk ++ [a]) n = popToPrefix w stk.length stk (n + 1) := by
        simp [popToPrefix, hp]
      have hpops : popsBetween (stk ++ [a]) w = popsBetween stk w + 1 := by
        rw [popsBetween, popsBetween, commonLength_concat_of_not_prefix h, List.length_append, List.length_singleton,
          Nat.sub_add_comm hle]
      rw [hstep, ih, hpops, commonLength_concat_of_not_prefix h, List.take_append_of_le_length hle,
        Nat.add_right_comm, Nat.add_assoc]

/-! ## One word (step 3) -/

/-- The code list after the word w: a backspace in place of a WORD code, the characters that the stack lacks, and the
close code. -/
def withWord (out : List Nat) (stk w : Str) (mask : Nat) : List Nat :=
  (if 0 < popsBetween stk w then dropMarker out ++ [popsBetween stk w] else out) ++
    ((w.drop (commonLength stk w)).map BitVec.toNat ++ [closeCode mask])

theorem encodeWords_cons_removed (hj : j ∈ removed) :
    encodeWords sufs ((w, j) :: rest) stk removed out = encodeWords sufs rest stk removed out := by
  simp [encodeWords, hj]

theorem encodeWords_cons_overflow (hj : j ∉ removed) (h : 30 < popsBetween stk w) :
    encodeWords sufs ((w, j) :: rest) stk removed out = .error (popsBetween stk w, j) := by
  simp [encodeWords, hj, popToPrefix_eq, Config.maxBksp, h]

theorem encodeWords_cons (hj : j ∉ removed) (h : popsBetween stk w ≤ 30) :
    encodeWords sufs ((w, j) :: rest) stk removed out =
      encodeWords sufs rest w (foldSuffixes w rest sufs 0 removed 0).1
        (withWord out stk w (foldSuffixes w rest sufs 0 removed 0).2) := by
  simp [encodeWords, hj, popToPrefix_eq, Config.maxBksp, h, withWord, commonLength_le]

/-! ## The suffix bank stays in front -/

theorem dropMarker_concat (out : List Nat) (c : Nat) :
    dropMarker (out ++ [c]) = if c = 31 then out else out ++ [c] := by
  simp [dropMarker, Config.wordMarker]

theorem dropMarker_append (hb : bank.getLast? ≠ some 31) (out : List Nat) :
    dropMarker (bank ++ out) = bank ++ dropMarker out := by
  rcases List.eq_nil_or_concat' out with rfl | ⟨out, c, rfl⟩
  · rw [List.append_nil]
    exact (if_neg hb).trans (List.append_nil bank).symm
  · rw [← List.append_assoc, dropMarker_concat, dropMarker_concat]
    split
    · rfl
    · rw [List.append_assoc]

theorem withWord_append (hb : bank.getLast? ≠ some 31) (out : List Nat) (stk w : Str) (mask : Nat) :
    withWord (bank ++ out) stk w mask = bank ++ withWord out stk w mask := by
  unfold withWord
  rw [dropMarker_append hb]
  split <;> simp only [List.append_assoc]

/-- What stands in front of the code list stays there, unless it ends with a WORD code, which a backspace replaces. -/
theorem encodeWords_append (hb : bank.getLast? ≠ some 31) (zs : List (Str × Nat)) (stk : Str)
    (removed out : List Nat) :
    encodeWords sufs zs stk removed (bank ++ out) = (encodeWords sufs zs stk removed out).map (bank ++ ·) := by
  induction zs generalizing stk removed out with
  | nil => rfl
  | cons e zs ih =>
    obtain ⟨w, j⟩ := e
    by_cases hj : j ∈ removed
    · rw [encodeWords_cons_removed hj, encodeWords_cons_removed hj, ih]
    rcases Nat.lt_or_ge 30 (popsBetween stk w) with h | h
    · rw [encodeWords_cons_overflow hj h, encodeWords_cons_overflow hj h]
      rfl
    · rw [encodeWords_cons hj h, encodeWords_cons hj h, withWord_append hb, ih]

theorem suffixBank_getLast?_ne (sufs : List Str) : (suffixBank sufs).getLast? ≠ some 31 := by
  rcases List.eq_nil_or_concat' sufs with rfl | ⟨sufs, x, rfl⟩
  · simp [suffixBank]
  · simp [suffixBank, Config.suffixMarker]

/-- The code list is the suffix bank, and behind it what the word list gives on its own. -/
theorem trieEncode_eq (words sufs : List Str) :
    trieEncode words sufs =
      (encodeWords sufs words.zipIdx [] [] []).map fun codes => suffixBank sufs ++ dropMarker codes := by
  have hb := suffixBank_getLast?_ne sufs
  rw [trieEncode, ← List.append_nil (suffixBank sufs), encodeWords_append hb, List.append_nil]
  cases encodeWords sufs words.zipIdx [] [] []
  · rfl
  · exact congrArg Except.ok (dropMarker_append hb _)

/-! ## Suffixes that match no word (spec/45_trie_encoder.md R249) -/

theorem foldSuffixes_of_no_match (h : ∀ e ∈ rest, ∀ x ∈ sufs, e.1 ≠ w ++ x) (i : Nat) (removed : List Nat)
    (mask : Nat) : foldSuffixes w rest sufs i removed mask = (removed, mask) := by
  induction sufs generalizing i with
  | nil => rfl
  | cons x sufs ih =>
    have hx : (rest.find? fun e => !removed.contains e.2 && e.1 == w ++ x) = none := by
      rw [List.find?_eq_none]
      intro e he
      simp [h e he x]
    rw [foldSuffixes, hx]
    exact ih (fun e he y hy => h e he y (List.mem_cons_of_mem x hy)) (i + 1)

theorem encodeWords_of_no_match (h : ∀ d ∈ zs, ∀ e ∈ zs, ∀ x ∈ sufs, e.1 ≠ d.1 ++ x) (stk : Str)
    (removed out : List Nat) : encodeWords sufs zs stk removed out = encodeWords [] zs stk removed out := by
  induction zs generalizing stk removed out with
  | nil => rfl
  | cons d zs ih =>
    obtain ⟨w, j⟩ := d
    have hrest := ih fun d hd e he => h d (List.mem_cons_of_mem _ hd) e (List.mem_cons_of_mem _ he)
    by_cases hj : j ∈ removed
    · rw [encodeWords_cons_removed hj, encodeWords_cons_removed hj, hrest]
    rcases Nat.lt_or_ge 30 (popsBetween stk w) with hp | hp
    · rw [encodeWords_cons_overflow hj hp, encodeWords_cons_overflow hj hp]
    · have hfold := foldSuffixes_of_no_match (fun e he => h (w, j) List.mem_cons_self e (List.mem_cons_of_mem _ he))
      rw [encodeWords_cons hj hp, encodeWords_cons hj hp, hfold, hrest]
      rfl

/-- Settles O53: no suffix is ever folded, and the bank stays in front. -/
theorem trieSuffixAccounting : Obligations.TrieSuffixAccounting := by
  unfold Obligations.TrieSuffixAccounting
  intro words sufs h
  have hzip : ∀ d ∈ words.zipIdx, d.1 ∈ words := fun d hd => List.fst_mem_of_mem_zipIdx hd
  have hno : ∀ d ∈ words.zipIdx, ∀ e ∈ words.zipIdx, ∀ x ∈ sufs, e.1 ≠ d.1 ++ x :=
    fun d hd e he x hx heq => h d.1 (hzip d hd) x hx (heq ▸ hzip e he)
  rw [trieEncode_eq, trieEncode_eq, encodeWords_of_no_match hno]
  cases encodeWords [] words.zipIdx [] [] [] <;> rfl

/-! ## The range of the codes (spec/45_trie_encoder.md R247) -/

/-- A code behind the suffix bank: a character, a backspace, WORD or a MASK code. -/
abbrev WordCode (c : Nat) : Prop := (32 ≤ c ∧ c ≤ 127) ∨ (1 ≤ c ∧ c ≤ 30) ∨ c = 31 ∨ (129 ≤ c ∧ c ≤ 255)

theorem foldSuffixes_mask_lt (h : mask < 2 ^ i) :
    (foldSuffixes w rest sufs i removed mask).2 < 2 ^ (i + sufs.length) := by
  induction sufs generalizing i removed mask with
  | nil => exact h
  | cons x sufs ih =>
    rw [foldSuffixes, List.length_cons, Nat.add_comm sufs.length, ← Nat.add_assoc]
    split <;> exact ih (by rw [Nat.pow_succ]; omega)

theorem wordCode_closeCode (h : mask < 128) : WordCode (closeCode mask) := by
  simp only [closeCode, Config.suffixMarker, Config.wordMarker, WordCode]
  split <;> omega

theorem dropMarker_subset (out : List Nat) : dropMarker out ⊆ out := by
  unfold dropMarker
  split
  · exact List.dropLast_subset out
  · exact List.Subset.refl out

theorem mem_withWord {c : Nat} (hc : c ∈ withWord out stk w mask) :
    c ∈ out ∨ (0 < popsBetween stk w ∧ c = popsBetween stk w) ∨ (∃ b ∈ w, b.toNat = c) ∨ c = closeCode mask := by
  rcases List.mem_append.1 hc with hfront | hback
  · split at hfront
    case isTrue hp =>
      rcases List.mem_append.1 hfront with hout | hpop
      · exact .inl (dropMarker_subset out hout)
      · exact .inr (.inl ⟨hp, List.mem_singleton.1 hpop⟩)
    case isFalse => exact .inl hfront
  · rcases List.mem_append.1 hback with hchar | hclose
    · obtain ⟨b, hb, rfl⟩ := List.mem_map.1 hchar
      exact .inr (.inr (.inl ⟨b, List.mem_of_mem_drop hb, rfl⟩))
    · exact .inr (.inr (.inr (List.mem_singleton.1 hclose)))

theorem wordCode_of_mem_withWord (hout : ∀ c ∈ out, WordCode c) (hw : ∀ b ∈ w, IsChar b)
    (hp : popsBetween stk w ≤ 30) (hmask : mask < 128) : ∀ c ∈ withWord out stk w mask, WordCode c := by
  intro c hc
  rcases mem_withWord hc with hc | ⟨hpos, rfl⟩ | ⟨b, hb, rfl⟩ | rfl
  · exact hout c hc
  · exact .inr (.inl ⟨hpos, hp⟩)
  · exact .inl (hw b hb)
  · exact wordCode_closeCode hmask

theorem wordCode_of_mem_encodeWords (hsufs : sufs.length ≤ 7) (hzs : ∀ e ∈ zs, ∀ b ∈ e.1, IsChar b)
    (hout : ∀ c ∈ out, WordCode c) (h : encodeWords sufs zs stk removed out = .ok codes) :
    ∀ c ∈ codes, WordCode c := by
  induction zs generalizing stk removed out with
  | nil =>
    cases h
    exact hout
  | cons e zs ih =>
    obtain ⟨w, j⟩ := e
    obtain ⟨hw, hrest⟩ := List.forall_mem_cons.1 hzs
    by_cases hj : j ∈ removed
    · rw [encodeWords_cons_removed hj] at h
      exact ih hrest hout h
    rcases Nat.lt_or_ge 30 (popsBetween stk w) with hp | hp
    · rw [encodeWords_cons_overflow hj hp] at h
      cases h
    · rw [encodeWords_cons hj hp] at h
      have hpow : 2 ^ (0 + sufs.length) ≤ 128 := Nat.pow_le_pow_right (j := 7) Nat.two_pos (by omega)
      have hmask := (foldSuffixes_mask_lt (w := w) (rest := zs) (removed := removed) Nat.one_pos).trans_le hpow
      exact ih hrest (wordCode_of_mem_withWord hout hw hp hmask) h

/-- Settles O52: each word keeps the codes behind the bank in range, and the bank stays in front. -/
theorem trieCodeRange : Obligations.TrieCodeRange := by
  unfold Obligations.TrieCodeRange
  intro words sufs out h hsufs hgood
  rw [trieEncode_eq, Except.map_eq_ok] at h
  obtain ⟨codes, hcodes, rfl⟩ := h
  refine ⟨dropMarker codes, rfl, fun c hc => ?_⟩
  have hchars : ∀ e ∈ words.zipIdx, ∀ b ∈ e.1, IsChar b :=
    fun e he => (hgood e.1 (List.mem_append_left _ (List.fst_mem_of_mem_zipIdx he))).2
  exact wordCode_of_mem_encodeWords hsufs hchars (List.forall_mem_nil _) hcodes c (dropMarker_subset codes hc)

/-! ## Without suffixes: the limit of a backspace (spec/45_trie_encoder.md R244) -/

/-- The pops before word k, where the stack holds `stk` before the first. -/
def popsBefore (stk : Str) (words : List Str) (k : Nat) : Nat :=
  popsBetween ((stk :: words).getD k []) (words.getD k [])

theorem exists_encodeWords_nil (h : ∀ k < words.length, popsBefore stk words k ≤ 30) :
    ∃ codes, encodeWords [] (words.zipIdx j) stk [] out = .ok codes := by
  induction words generalizing stk j out with
  | nil => exact ⟨out, rfl⟩
  | cons w words ih =>
    have hw : popsBetween stk w ≤ 30 := h 0 (Nat.zero_lt_succ _)
    rw [List.zipIdx_cons, encodeWords_cons List.not_mem_nil hw]
    exact ih fun k hk => h (k + 1) (Nat.succ_lt_succ hk)

theorem encodeWords_nil_overflow {k : Nat} (hk : k < words.length) (hpops : 30 < popsBefore stk words k)
    (hlt : ∀ i < k, popsBefore stk words i ≤ 30) :
    encodeWords [] (words.zipIdx j) stk [] out = .error (popsBefore stk words k, j + k) := by
  induction words generalizing stk j out k with
  | nil => cases hk
  | cons w words ih =>
    rw [List.zipIdx_cons]
    cases k with
    | zero => exact encodeWords_cons_overflow List.not_mem_nil hpops
    | succ k =>
      have hw : popsBetween stk w ≤ 30 := hlt 0 (Nat.zero_lt_succ k)
      rw [encodeWords_cons List.not_mem_nil hw]
      refine (ih (Nat.lt_of_succ_lt_succ hk) hpops fun i hi => hlt (i + 1) (Nat.succ_lt_succ hi)).trans ?_
      rw [Nat.add_right_comm]
      rfl

/-- Settles O54: the stack holds the word before, and before the first word nothing is popped. -/
theorem trieBackspaceBoundary : Obligations.TrieBackspaceBoundary := by
  unfold Obligations.TrieBackspaceBoundary
  intro words _ pops
  have hfirst : popsBefore [] words 0 ≤ 30 := by simp [popsBefore, popsBetween]
  refine ⟨fun h => ?_, fun j hj hpops hlt => ?_⟩
  · obtain ⟨codes, hcodes⟩ := exists_encodeWords_nil (stk := []) (words := words) (j := 0) (out := []) fun
      | 0, _ => hfirst
      | k + 1, hk => h k hk
    exact ⟨_, by rw [trieEncode_eq, hcodes]; rfl⟩
  · have herr := encodeWords_nil_overflow (stk := []) (j := 0) (out := []) hj hpops fun
      | 0, _ => hfirst
      | k + 1, hk => hlt k (Nat.lt_of_succ_lt_succ hk)
    rw [trieEncode_eq, herr, Nat.zero_add]
    rfl

end Sys2Proof.Machine
end

section
/-! Writing records to WOUT (spec/46_trie_decoder.md R261, R262): what a piece of a decoder command emits, as one rule
for the words that fit and the first word that does not, and that rule for every trie code. -/

namespace Sys2Proof.Machine

variable {s : State} {w : Work} {r : Res Unit} {f : Unit → Work → Res Unit} {op : Byte} {body : Work → Res Unit}
  {x : Str} {xs ys before after : List Str} {d e : Decoder} {c : FaultCode} {info : Word}

/-! ## Writing one list of words after another -/

@[simp] theorem State.emitting_nil (s : State) : s.emitting [] = s := by
  simp [emitting, recordBytes, Mem.writeList]

/-- The write position behind words that fit. -/
theorem emitting_woutPtr_toNat (hp : s.params.Legal)
    (hfit : s.regs.woutPtr.toNat + (recordBytes xs).length ≤ s.params.woutSize) :
    (s.emitting xs).regs.woutPtr.toNat = s.regs.woutPtr.toNat + (recordBytes xs).length := by
  have hsize := hp.woutSize_le
  rw [State.emitting, BitVec.toNat_add, BitVec.toNat_ofNat]
  omega

theorem emitting_emitting (hp : s.params.Legal)
    (hfit : s.regs.woutPtr.toNat + (recordBytes xs).length ≤ s.params.woutSize) (ys : List Str) :
    (s.emitting xs).emitting ys = s.emitting (xs ++ ys) := by
  have hptr := emitting_woutPtr_toNat hp hfit
  simp only [State.emitting] at hptr
  simp only [State.emitting, hptr, recordBytes_append, Mem.writeList_append, List.length_append, BitVec.ofNat_add,
    BitVec.add_assoc]

theorem canEmit_append (hp : s.params.Legal) :
    s.CanEmit (xs ++ ys) ↔ s.CanEmit xs ∧ (s.emitting xs).CanEmit ys := by
  simp only [State.CanEmit, List.forall_mem_append, recordBytes_append, List.length_append]
  constructor
  · rintro ⟨⟨hxs, hys⟩, hfit⟩
    have hfits : s.regs.woutPtr.toNat + (recordBytes xs).length ≤ s.params.woutSize := by omega
    rw [emitting_woutPtr_toNat hp hfits]
    exact ⟨⟨hxs, hfits⟩, hys, by rw [State.emitting_params]; omega⟩
  · rintro ⟨⟨hxs, hfits⟩, hys, hfit⟩
    rw [emitting_woutPtr_toNat hp hfits] at hfit
    exact ⟨⟨hxs, hys⟩, by rw [State.emitting_params] at hfit; omega⟩

/-- Why the word x, which comes after the words `before`, cannot be written (spec/46_trie_decoder.md R261). -/
def State.Refuses (s : State) (before : List Str) (x : Str) (c : FaultCode) (info : Word) : Prop :=
  (255 < x.length ∧ c = .wordLong ∧ info = BitVec.ofNat 32 x.length) ∨
    (x.length ≤ 255 ∧ s.params.woutSize < s.regs.woutPtr.toNat + (recordBytes (before ++ [x])).length ∧
      c = .woutFull ∧ info = (s.emitting before).regs.woutPtr)

theorem refuses_append (hp : s.params.Legal)
    (hfit : s.regs.woutPtr.toNat + (recordBytes xs).length ≤ s.params.woutSize) :
    s.Refuses (xs ++ before) x c info ↔ (s.emitting xs).Refuses before x c info := by
  have hlen : (recordBytes (xs ++ before ++ [x])).length =
      (recordBytes xs).length + (recordBytes (before ++ [x])).length := by
    rw [List.append_assoc, recordBytes_append, List.length_append]
  rw [State.Refuses, State.Refuses, emitting_emitting hp hfit, emitting_woutPtr_toNat hp hfit, hlen, ← Nat.add_assoc]
  rfl

/-! ## The rule of emission -/

/-- The work after the words are written, with the decoder's state d. -/
def Work.emitted (w : Work) (xs : List Str) (d : Decoder) : Work := { w with st := { w.st.emitting xs with dec := d } }

@[simp] theorem Work.emitted_st_dec (w : Work) (xs : List Str) (d : Decoder) : (w.emitted xs d).st.dec = d := rfl

@[simp] theorem Work.emitted_st_params (w : Work) (xs : List Str) (d : Decoder) :
    (w.emitted xs d).st.params = w.st.params := rfl

theorem Work.emitted_emitted (hp : w.st.params.Legal) (hxs : w.st.CanEmit xs) (d e : Decoder) (ys : List Str) :
    (w.emitted xs d).emitted ys e = w.emitted (xs ++ ys) e := by
  simp only [emitted, ← emitting_emitting hp hxs.2]
  rfl

theorem Work.setDec_eq_emitted (w : Work) (g : Decoder → Decoder) : w.setDec g = w.emitted [] (g w.st.dec) := by
  simp only [emitted, State.emitting_nil, setDec]

/-- The piece r of a command, started in w, writes the words xs and leaves the decoder in the state d. At the first
word that cannot be written it raises, with the records before that word in WOUT. -/
structure Res.Emits (r : Res Unit) (w : Work) (xs : List Str) (d : Decoder) : Prop where
  ok : w.st.CanEmit xs → r = .ok () (w.emitted xs d)
  raise : ∀ {before x after c info}, xs = before ++ x :: after → w.st.CanEmit before →
    w.st.Refuses before x c info → ∃ e, r = .raise c info (w.emitted before e)

theorem Res.Emits.setDec (g : Decoder → Decoder) : (Res.ok () (w.setDec g)).Emits w [] (g w.st.dec) where
  ok _ := by rw [w.setDec_eq_emitted]
  raise h := by simp at h

theorem Res.Emits.pure : (Res.ok () w).Emits w [] w.st.dec := .setDec id

/-- Two pieces in sequence write one list after the other. -/
theorem Res.Emits.bind (hp : w.st.params.Legal) (h : r.Emits w xs d)
    (hf : (f () (w.emitted xs d)).Emits (w.emitted xs d) ys e) : (r.bind f).Emits w (xs ++ ys) e where
  ok hall := by
    obtain ⟨hxs, hys⟩ := (canEmit_append hp).1 hall
    rw [h.ok hxs, Res.bind_ok, hf.ok hys, Work.emitted_emitted hp hxs]
  raise {before x after c info} hsplit hbefore hx := by
    rcases List.append_eq_append_iff.1 hsplit with ⟨mid, rfl, hys⟩ | ⟨mid, rfl, hrest⟩
    · obtain ⟨hxs, hmid⟩ := (canEmit_append hp).1 hbefore
      obtain ⟨e, he⟩ := hf.raise hys hmid ((refuses_append hp hxs.2).1 hx)
      exact ⟨e, by rw [h.ok hxs, Res.bind_ok, he, Work.emitted_emitted hp hxs]⟩
    · cases mid with
      | nil =>
        rw [List.append_nil] at h hf
        rw [List.nil_append] at hrest
        obtain ⟨e, he⟩ := hf.raise (before := []) hrest.symm
          (((canEmit_append hp).1 (by rwa [List.append_nil])).2)
          ((refuses_append hp hbefore.2).1 (by rwa [List.append_nil]))
        exact ⟨e, by rw [h.ok hbefore, Res.bind_ok, he, Work.emitted_emitted hp hbefore, List.append_nil]⟩
      | cons y mid =>
        obtain ⟨rfl, -⟩ := List.cons.inj hrest
        obtain ⟨e, he⟩ := h.raise rfl hbefore hx
        exact ⟨e, by rw [he, Res.bind_raise]⟩

/-- A piece that writes words and then changes the decoder's state. -/
theorem Res.Emits.bind_setDec (hp : w.st.params.Legal) (h : r.Emits w xs d) (g : Decoder → Decoder) :
    (r.bind fun _ v => .ok () (v.setDec g)).Emits w xs (g d) := by
  have := h.bind hp (f := fun _ v => .ok () (v.setDec g)) (.setDec g)
  rwa [List.append_nil] at this

/-- `EmitWord(x)`. -/
theorem emitWord_emits (x : Str) : (emitWord x w).Emits w [x] w.st.dec where
  ok h := by
    obtain ⟨hx, hfit⟩ := h
    rw [recordBytes_singleton_length] at hfit
    exact emitWord_ok (hx x (List.mem_singleton_self x)) (by omega)
  raise {before y after c info} hsplit _ hy := by
    obtain ⟨rfl, rfl, -⟩ : before = [] ∧ y = x ∧ after = [] := by
      cases before <;> simp_all
    refine ⟨w.st.dec, ?_⟩
    have hw : w.emitted [] w.st.dec = w := (w.setDec_eq_emitted id).symm
    rw [hw]
    rcases hy with ⟨hlong, rfl, rfl⟩ | ⟨hshort, hfull, rfl, rfl⟩
    · exact emitWord_long hlong
    · rw [State.emitting_nil]
      rw [List.nil_append, recordBytes_singleton_length] at hfull
      exact emitWord_full hshort (by omega)

/-! ## The command around it -/

theorem runCommand_of_emits (h : (body s.start).Emits s.start xs d) (hxs : s.CanEmit xs) :
    runCommand op body s = .next { s.emitting xs with dec := d } :=
  runCommand_of_ok (h.ok hxs)

/-- A fault of an emission keeps the records before the word, and nothing else of the command. -/
theorem runCommand_of_refused (h : (body s.start).Emits s.start (before ++ x :: after) d) (hbefore : s.CanEmit before)
    (hx : s.Refuses before x c info) :
    runCommand op body s = .next (State.faulted { s with wout := (s.emitting before).wout } op c info) := by
  obtain ⟨e, he⟩ := h.raise rfl hbefore hx
  exact runCommand_of_raise he

/-! ## The closing codes -/

/-- `EmitStack()` (spec/46_trie_decoder.md R262). -/
theorem emitStack_emits (hp : w.st.params.Legal) :
    (emitStack w).Emits w w.st.dec.pendingWord { w.st.dec with emitted := true } := by
  cases h : w.st.dec.emitted with
  | true =>
    have hd : { w.st.dec with emitted := true } = w.st.dec := by rw [← h]
    rw [emitStack_emitted h, Decoder.pendingWord, if_pos h, hd]
    exact .pure
  | false =>
    rw [emitStack_pending h, Decoder.pendingWord, if_neg (by simp [h])]
    exact (emitWord_emits w.st.dec.stk).bind_setDec hp fun d => { d with emitted := true }

theorem emitSuffixed_emits (is : List Nat) (hp : w.st.params.Legal) :
    (emitSuffixed is w).Emits w (is.map fun i => w.st.dec.stk ++ w.st.dec.bank.getD i []) w.st.dec := by
  induction is generalizing w with
  | nil => exact .pure
  | cons i is ih => exact (emitWord_emits _).bind hp (ih (w := w.emitted _ w.st.dec) hp)

/-- MASK, where every selected bank entry is defined (spec/46_trie_decoder.md R265). -/
theorem maskClose_emits {m : Nat} (hp : w.st.params.Legal) (hm : ∀ i ∈ maskBits m, i < w.st.dec.bank.length) :
    (maskClose m w).Emits w
      (w.st.dec.pendingWord ++ (maskBits m).map fun i => w.st.dec.stk ++ w.st.dec.bank.getD i [])
      { w.st.dec with emitted := true } := by
  have hdefined : ¬((maskBits m).any fun i => decide (w.st.dec.bank.length ≤ i)) = true := by
    simpa using hm
  rw [maskClose, if_neg hdefined]
  exact (emitStack_emits hp).bind hp
    (emitSuffixed_emits _ (w := w.emitted _ { w.st.dec with emitted := true }) hp)

theorem maskClose_undefined {m : Nat} (hm : ∃ i ∈ maskBits m, w.st.dec.bank.length ≤ i) :
    maskClose m w = .raise .trieCode (subInfo 3 (128 + m)) w :=
  if_pos (by simpa using hm)

/-- BKSP within the depth (spec/46_trie_decoder.md R266). -/
theorem backspace_emits {n : Nat} (hp : w.st.params.Legal) (hn : n ≤ w.st.dec.stk.length) :
    (backspace n w).Emits w w.st.dec.pendingWord
      { w.st.dec with stk := w.st.dec.stk.take (w.st.dec.stk.length - n), emitted := decide (n = 0) } := by
  rw [backspace, if_neg (Nat.not_lt.2 hn)]
  exact (emitStack_emits hp).bind_setDec hp fun d =>
    { d with stk := d.stk.take (d.stk.length - n), emitted := d.emitted && decide (n = 0) }

/-- `DEnd()` does on a stack that is not empty what WORD does (spec/46_trie_decoder.md R267, R270). -/
theorem decoderEnd_of_ne_nil (h : w.st.dec.stk ≠ []) : decoderEnd w = emitStack w := by
  cases he : w.st.dec.emitted <;> simp [decoderEnd, emitStack, h, he]

theorem decoderEnd_of_nil (h : w.st.dec.stk = []) : decoderEnd w = .ok () w := by
  simp [decoderEnd, h]

/-! ## The codes that emit nothing -/

theorem sufDef_ok (h : w.st.dec.bank.length ≠ 7) :
    sufDef w = .ok () (w.setDec fun d => { stk := [], bank := d.bank ++ [d.stk], emitted := false }) := if_neg h

theorem sufDef_full (h : w.st.dec.bank.length = 7) : sufDef w = .raise .trieCode (subInfo 2 128) w := if_pos h

theorem push_ok {b : Byte} (h : w.st.dec.stk.length ≠ 255) :
    push b w = .ok () (w.setDec fun d => { d with stk := d.stk ++ [b], emitted := false }) := if_neg h

theorem push_full {b : Byte} (h : w.st.dec.stk.length = 255) : push b w = .raise .stackOvf (b.setWidth 32) w := if_pos h

/-! ## The class of a code (spec/46_trie_decoder.md R263) -/

section Classes

variable {k : Imm}

/-- The tests of R263, in order. -/
theorem decoderStep_eq (k : Imm) : decoderStep k = fun w =>
    if k.toNat = 128 then sufDef w
    else if 129 ≤ k.toNat ∧ k.toNat ≤ 255 then maskClose (k.toNat - 128) w
    else if k.toNat ≤ 30 then backspace k.toNat w
    else if k.toNat = 31 then emitStack w
    else if 32 ≤ k.toNat ∧ k.toNat ≤ 127 then push (BitVec.ofNat 8 k.toNat) w
    else invalidCode k w := by
  funext w
  rw [BitVec.ofNat_toNat]
  rfl

theorem decoderStep_of_sufdef (h : k.toNat = 128) : decoderStep k = sufDef := by
  simp only [decoderStep_eq, if_pos h]

theorem decoderStep_of_mask (h : 129 ≤ k.toNat ∧ k.toNat ≤ 255) : decoderStep k = maskClose (k.toNat - 128) := by
  simp only [decoderStep_eq, if_neg (show ¬k.toNat = 128 by omega), if_pos h]

theorem decoderStep_of_bksp (h : k.toNat ≤ 30) : decoderStep k = backspace k.toNat := by
  simp only [decoderStep_eq, if_neg (show ¬k.toNat = 128 by omega), if_pos h,
    if_neg (show ¬(129 ≤ k.toNat ∧ k.toNat ≤ 255) by omega)]

theorem decoderStep_of_word (h : k.toNat = 31) : decoderStep k = emitStack := by
  simp only [decoderStep_eq, h]
  rfl

theorem decoderStep_of_char (h : 32 ≤ k.toNat ∧ k.toNat ≤ 127) : decoderStep k = push (BitVec.ofNat 8 k.toNat) := by
  simp only [decoderStep_eq, if_neg (show ¬k.toNat = 128 by omega), if_pos h,
    if_neg (show ¬(129 ≤ k.toNat ∧ k.toNat ≤ 255) by omega), if_neg (show ¬k.toNat ≤ 30 by omega),
    if_neg (show ¬k.toNat = 31 by omega)]

end Classes

/-! ## The codes as commands -/

theorem decodeCommand_trieDinit (imm : Imm) : decodeCommand (commandWord 0x48#8 imm) = .ok .trieDinit := by
  simp [decodeCommand]

theorem decodeCommand_trieDend (imm : Imm) : decodeCommand (commandWord 0x4A#8 imm) = .ok .trieDend := by
  simp [decodeCommand]

/-- Settles O6: each test of R263 names the meaning of one instruction, and all run under opcode 0x49. -/
theorem dstepRunsTheCode : Obligations.DstepRunsTheCode := by
  unfold Obligations.DstepRunsTheCode
  intro k s
  have hrun : ∀ body, decoderStep k = body → exec (.trieDstep k) s = runCommand 0x49#8 body s := by
    rintro _ rfl
    rfl
  have hbyte : k.toNat ≤ 255 → (BitVec.ofNat 8 k.toNat).toNat = k.toNat := fun h => by
    rw [BitVec.toNat_ofNat, Nat.mod_eq_of_lt (by omega)]
  refine ⟨decodeCommand_of_encode (i := .trieDstep k) rfl, ?_, fun hlo hhi hroom => ?_⟩
  · split_ifs with h128 hmask hbksp hword hchar
    · exact hrun _ (decoderStep_of_sufdef h128)
    · have hm : (BitVec.ofNat 8 (k.toNat - 128)).toNat = k.toNat - 128 := by
        rw [BitVec.toNat_ofNat, Nat.mod_eq_of_lt (by omega)]
      exact hrun _ ((decoderStep_of_mask hmask).trans (congrArg maskClose hm.symm))
    · exact hrun _ ((decoderStep_of_bksp hbksp).trans (congrArg backspace (hbyte (by omega)).symm))
    · exact hrun _ (decoderStep_of_word hword)
    · exact hrun _ (decoderStep_of_char hchar)
    · exact hrun (invalidCode k) (by
        simp only [decoderStep_eq, if_neg h128, if_neg hmask, if_neg hbksp, if_neg hword, if_neg hchar])
  · rw [hrun _ (decoderStep_of_char ⟨hlo, hhi⟩)]
    exact runCommand_of_ok (push_ok (w := s.start) hroom)

/-- Settles O55: the decoder's start, and the codes that write no record. -/
theorem decoderStateCodes : Obligations.DecoderStateCodes := by
  unfold Obligations.DecoderStateCodes
  intro imm k b s
  refine ⟨decodeCommand_trieDinit imm, rfl, fun h => ?_, fun h => ?_, fun h => ?_, fun h => ?_,
    fun h => ⟨decodeTrieCode_invalidCode h, rfl⟩⟩
  · exact runCommand_of_raise_start (sufDef_full h)
  · exact runCommand_of_ok (sufDef_ok (w := s.start) h)
  · exact runCommand_of_raise_start (push_full h)
  · exact runCommand_of_ok (push_ok (w := s.start) h)

theorem maskBits_toNat (m : Byte) : maskBits m.toNat = (List.range 7).filter fun i => m.getLsbD i :=
  List.filter_congr fun _ _ => m.testBit_toNat

/-- Settles O56: the check of the selected entries, then the rule of emission. -/
theorem maskCode : Obligations.MaskCode := by
  unfold Obligations.MaskCode
  intro m s hs _ _
  rw [← maskBits_toNat]
  exact ⟨fun h => runCommand_of_raise_start (maskClose_undefined h),
    fun h hxs => runCommand_of_emits (maskClose_emits (w := s.start) hs.params h) hxs⟩

/-- Settles O57: all three emit the pending word; TRIE_DEND skips an empty stack. -/
theorem wordCloseCodes : Obligations.WordCloseCodes := by
  unfold Obligations.WordCloseCodes
  intro n imm s hs
  have hword := emitStack_emits (w := s.start) hs.params
  refine ⟨fun h => runCommand_of_raise_start (if_pos h),
    fun h => runCommand_of_emits (backspace_emits (w := s.start) hs.params h), runCommand_of_emits hword,
    decodeCommand_trieDend imm, fun h => ?_, fun h => ?_⟩
  · exact runCommand_of_ok (decoderEnd_of_nil (w := s.start) h)
  · exact runCommand_of_emits (body := decoderEnd) (by rwa [decoderEnd_of_ne_nil (w := s.start) h])

/-- Settles O58: each of the four instructions is an emission of its words, and this is the failing side of the rule. -/
theorem emissionFaults : Obligations.EmissionFaults := by
  unfold Obligations.EmissionFaults
  intro i s words hs h before x after hwords hbefore
  have hword := emitStack_emits (w := s.start) hs.params
  obtain ⟨body, d, hexec, hemits⟩ :
      ∃ body d, exec i s = runCommand i.opcode body s ∧ (body s.start).Emits s.start words d := by
    rcases h with ⟨rfl, rfl⟩ | ⟨rfl, hne, rfl⟩ | ⟨n, rfl, hn, rfl⟩ | ⟨m, rfl, hm, rfl⟩
    · exact ⟨emitStack, _, rfl, hword⟩
    · exact ⟨decoderEnd, _, rfl, by rwa [decoderEnd_of_ne_nil (w := s.start) hne]⟩
    · exact ⟨backspace n.toNat, _, rfl, backspace_emits (w := s.start) hs.params hn⟩
    · rw [← maskBits_toNat]
      refine ⟨maskClose m.toNat, _, rfl, maskClose_emits (w := s.start) hs.params fun k hk => ?_⟩
      rw [maskBits_toNat, List.mem_filter, List.mem_range] at hk
      exact hm k hk.1 hk.2
  subst hwords
  rw [hexec]
  exact ⟨fun hlong => runCommand_of_refused hemits hbefore (.inl ⟨hlong, rfl, rfl⟩),
    fun hshort hfull => runCommand_of_refused hemits hbefore (.inr ⟨hshort, hfull, rfl, rfl⟩)⟩

end Sys2Proof.Machine
end

section
/-! Replaying a code list (spec/46_trie_decoder.md R263 to R271): the words it writes and the decoder's state after it,
for each class of code, for the suffix bank, and for TRIE_DRUN. -/

namespace Sys2Proof.Machine

variable {s : State} {w : Work} {as bs codes : List Nat} {x : Str} {xs ys sufs : List Str} {d e f : Decoder}

/-- The code list, replayed from the decoder state d, writes the words xs and leaves the state e. -/
def Replays (d : Decoder) (codes : List Nat) (xs : List Str) (e : Decoder) : Prop :=
  ∀ w : Work, w.st.params.Legal → w.st.dec = d → (decoderSteps (codes.map (BitVec.ofNat 16)) w).Emits w xs e

theorem decoderSteps_append (cs ks : List Half) (w : Work) :
    decoderSteps (cs ++ ks) w = (decoderSteps cs w).bind fun _ w => decoderSteps ks w := by
  induction cs generalizing w with
  | nil => rfl
  | cons c cs ih => simp only [List.cons_append, decoderSteps, ih, Res.bind_assoc]

theorem Replays.nil (d : Decoder) : Replays d [] [] d := by
  rintro w - rfl
  exact .pure

theorem Replays.append (h : Replays d as xs e) (h' : Replays e bs ys f) : Replays d (as ++ bs) (xs ++ ys) f := by
  intro w hp hd
  rw [List.map_append, decoderSteps_append]
  exact (h w hp hd).bind hp (h' _ hp rfl)

/-! ## One code -/

/-- A list of one code is that code's step. -/
theorem replays_code {c : Nat} (hc : c < 65536)
    (h : ∀ (w : Work) (k : Imm), k.toNat = c → w.st.params.Legal → w.st.dec = d → (decoderStep k w).Emits w xs e) :
    Replays d [c] xs e := by
  intro w hp hd
  have hk : ((BitVec.ofNat 16 c).setWidth 24).toNat = c := by
    simp only [BitVec.toNat_setWidth, BitVec.toNat_ofNat]
    omega
  have := (h w _ hk hp hd).bind hp (f := fun _ w => .ok () w) (.pure (w := w.emitted xs e))
  rwa [List.append_nil] at this

theorem replays_char {b : Byte} (hb : IsChar b) (hroom : d.stk.length < 255) :
    Replays d [b.toNat] [] { d with stk := d.stk ++ [b], emitted := false } := by
  refine replays_code (by omega) fun w k hk hp hd => ?_
  subst hd
  rw [decoderStep_of_char (hk ▸ hb), push_ok (by omega), hk, BitVec.ofNat_toNat, BitVec.setWidth_eq]
  exact .setDec fun d => { d with stk := d.stk ++ [b], emitted := false }

theorem replays_bksp {n : Nat} (h30 : n ≤ 30) (hn : n ≤ d.stk.length) :
    Replays d [n] d.pendingWord
      { d with stk := d.stk.take (d.stk.length - n), emitted := decide (n = 0) } := by
  refine replays_code (by omega) fun w k hk hp hd => ?_
  subst hd hk
  rw [decoderStep_of_bksp h30]
  exact backspace_emits hp hn

theorem replays_word (d : Decoder) : Replays d [31] d.pendingWord { d with emitted := true } := by
  refine replays_code (by omega) fun w k hk hp hd => ?_
  subst hd
  rw [decoderStep_of_word hk]
  exact emitStack_emits hp

theorem replays_sufdef (hbank : d.bank.length < 7) :
    Replays d [128] [] { stk := [], bank := d.bank ++ [d.stk], emitted := false } := by
  refine replays_code (by omega) fun w k hk hp hd => ?_
  subst hd
  rw [decoderStep_of_sufdef hk, sufDef_ok (by omega)]
  exact .setDec fun d => { stk := [], bank := d.bank ++ [d.stk], emitted := false }

theorem replays_mask {m : Nat} (h1 : 1 ≤ m) (h127 : m ≤ 127) (hm : ∀ i ∈ maskBits m, i < d.bank.length) :
    Replays d [128 + m] (d.pendingWord ++ (maskBits m).map fun i => d.stk ++ d.bank.getD i [])
      { d with emitted := true } := by
  refine replays_code (by omega) fun w k hk hp hd => ?_
  subst hd
  rw [decoderStep_of_mask (by omega), hk, Nat.add_sub_cancel_left]
  exact maskClose_emits hp hm

/-- The code that closes a word: without suffixes it is WORD, which MASK 0 would equal. -/
theorem replays_closeCode {m : Nat} (hm : m < 128) (hbits : ∀ i ∈ maskBits m, i < d.bank.length) :
    Replays d [closeCode m] (d.pendingWord ++ (maskBits m).map fun i => d.stk ++ d.bank.getD i [])
      { d with emitted := true } := by
  rcases Nat.eq_zero_or_pos m with rfl | hpos
  · have hnone : maskBits 0 = [] := by decide
    rw [hnone, List.map_nil, List.append_nil]
    exact replays_word d
  · rw [closeCode, if_pos hpos]
    exact replays_mask hpos (by omega) hbits

/-! ## Words and the suffix bank -/

theorem replays_chars (hx : ∀ b ∈ x, IsChar b) (hroom : d.stk.length + x.length ≤ 255) :
    Replays d (x.map BitVec.toNat) [] { d with stk := d.stk ++ x, emitted := d.emitted && x.isEmpty } := by
  induction x generalizing d with
  | nil => simpa using Replays.nil d
  | cons b x ih =>
    obtain ⟨hb, hx⟩ := List.forall_mem_cons.1 hx
    rw [List.length_cons] at hroom
    have hrest := ih (d := { d with stk := d.stk ++ [b], emitted := false }) hx (by
      rw [List.length_append, List.length_singleton]
      omega)
    have := (replays_char hb (by omega)).append hrest
    simpa using this

/-- The suffix bank defines its suffixes, one after another (spec/45_trie_encoder.md R242, step 1). -/
theorem replays_suffixBank {bank : List Str} (hsufs : ∀ x ∈ sufs, GoodRecord x) (hlen : bank.length + sufs.length ≤ 7) :
    Replays ⟨[], bank, false⟩ (suffixBank sufs) [] ⟨[], bank ++ sufs, false⟩ := by
  induction sufs generalizing bank with
  | nil => simpa [suffixBank] using Replays.nil ⟨[], bank, false⟩
  | cons x sufs ih =>
    obtain ⟨⟨-, hx255, hchars⟩, hsufs⟩ := List.forall_mem_cons.1 hsufs
    rw [List.length_cons] at hlen
    have hx := replays_chars (d := ⟨[], bank, false⟩) hchars (by simpa using hx255)
    have hdef := hx.append (replays_sufdef (show bank.length < 7 by omega))
    have := hdef.append (ih (bank := bank ++ [x]) hsufs (by
      rw [List.length_append, List.length_singleton]
      omega))
    simpa [suffixBank, Config.suffixMarker] using this

/-! ## The end of the code stream, and the whole list -/

/-- What `DEnd()` writes: the pending word, unless the stack is empty (spec/46_trie_decoder.md R270). -/
def Decoder.finalWords (d : Decoder) : List Str := if d.stk = [] then [] else d.pendingWord

/-- The decoder's state after `DEnd()`. -/
def Decoder.closed (d : Decoder) : Decoder := if d.stk = [] then d else { d with emitted := true }

theorem decoderEnd_emits (hp : w.st.params.Legal) : (decoderEnd w).Emits w w.st.dec.finalWords w.st.dec.closed := by
  rw [Decoder.finalWords, Decoder.closed]
  split
  case isTrue h =>
    rw [decoderEnd_of_nil h]
    exact .pure
  case isFalse h =>
    rw [decoderEnd_of_ne_nil h]
    exact emitStack_emits hp

/-- TRIE_DRUN past its check (spec/46_trie_decoder.md R271). -/
theorem execTrieDrun_of_le (hle : s.regs.symCnt.toNat ≤ s.params.symSize) :
    execTrieDrun s = runCommand 0x4B#8 (fun w =>
      (decoderSteps (s.sym.readList s.regs.symCnt.toNat) (decoderInit w)).bind fun _ w => decoderEnd w) s := by
  refine congrArg (finish _ _ _) ((if_neg (Nat.not_lt.2 hle)).trans ?_)
  rw [readSyms_ok (w := decoderInit s.start) hle]
  rfl

/-- TRIE_DRUN on a list that replays, with room for its words: their records stand in WOUT from address 0 on. -/
theorem execTrieDrun_of_replays (hp : s.params.Legal) (hle : s.regs.symCnt.toNat ≤ s.params.symSize)
    (hcodes : s.sym.readList s.regs.symCnt.toNat = codes.map (BitVec.ofNat 16)) (h : Replays Decoder.reset codes xs d)
    (hshort : ∀ x ∈ xs ++ d.finalWords, x.length ≤ 255)
    (hroom : (recordBytes (xs ++ d.finalWords)).length ≤ s.params.woutSize) :
    execTrieDrun s = .next { s with
      wout := s.wout.writeList 0 (recordBytes (xs ++ d.finalWords))
      dec := d.closed
      regs := { s.regs with
        woutCnt := BitVec.ofNat 32 (xs ++ d.finalWords).length
        woutPtr := BitVec.ofNat 32 (recordBytes (xs ++ d.finalWords)).length } } := by
  have hemits := (h (decoderInit s.start) hp rfl).bind hp (f := fun _ w => decoderEnd w)
    (decoderEnd_emits (w := (decoderInit s.start).emitted xs d) hp)
  rw [execTrieDrun_of_le hle, hcodes]
  refine (runCommand_of_ok (hemits.ok ⟨hshort, ?_⟩)).trans ?_
  · simpa [decoderInit] using hroom
  · simp [Work.emitted, State.emitting, decoderInit, Work.setDec, Work.setRegs]

end Sys2Proof.Machine
end

section
/-! The trie round trip (spec/46_trie_decoder.md R272): while TRIE_ENC works through the words, its code list replays to
the words it has closed so far, each base word with the words folded into it. -/

namespace Sys2Proof.Machine

variable {words sufs bank xs : List Str} {zs rest : List (Str × Nat)} {stk w : Str} {removed out codes : List Nat}
  {i j k mask : Nat}

/-! ## Pops (spec/45_trie_encoder.md R242, steps 3a and 3c) -/

theorem take_commonLength (u v : Str) : u.take (commonLength u v) = v.take (commonLength u v) := by
  fun_induction commonLength u v <;> simp_all

/-- A word above the stack has a character that the stack lacks (spec/45_trie_encoder.md R245). -/
theorem commonLength_lt {u v : Str} (h : u < v) : commonLength u v < v.length := by
  fun_induction commonLength u v with
  | case1 a u v ih => simpa using ih (by simpa using h)
  | case2 a u b v hab => simp
  | case3 u v hne =>
    cases v with
    | nil => exact absurd h (List.not_lt_nil u)
    | cons b v => simp

/-! ## Folded suffixes (step 3d) -/

/-- The words of the list that are not removed. -/
def liveWords (zs : List (Str × Nat)) (removed : List Nat) : List Str :=
  (zs.filter fun e => decide (e.2 ∉ removed)).map Prod.fst

theorem liveWords_cons_removed (hj : j ∈ removed) : liveWords ((w, j) :: zs) removed = liveWords zs removed := by
  simp [liveWords, hj]

theorem liveWords_cons (hj : j ∉ removed) : liveWords ((w, j) :: zs) removed = w :: liveWords zs removed := by
  simp [liveWords, hj]

/-- Removing a word that is not removed yet takes it from the list. -/
theorem liveWords_perm_remove (hnodup : (rest.map Prod.snd).Nodup) {e : Str × Nat} (he : e ∈ rest)
    (hlive : e.2 ∉ removed) : (liveWords rest removed).Perm (e.1 :: liveWords rest (e.2 :: removed)) := by
  induction rest with
  | nil => simp at he
  | cons d rest ih =>
    obtain ⟨v, j⟩ := d
    rw [List.map_cons, List.nodup_cons] at hnodup
    rcases List.mem_cons.1 he with rfl | he
    · have hsame : liveWords rest (j :: removed) = liveWords rest removed := by
        refine congrArg (List.map Prod.fst) (List.filter_congr fun d hd => ?_)
        have hne : d.2 ≠ j := fun h => hnodup.1 (List.mem_map.2 ⟨d, hd, h⟩)
        simp [hne]
      rw [liveWords_cons hlive, liveWords_cons_removed List.mem_cons_self, hsame]
    · have hne : j ≠ e.2 := fun h => hnodup.1 (List.mem_map.2 ⟨e, he, h.symm⟩)
      have hrest := ih hnodup.2 he
      by_cases hj : j ∈ removed
      · rwa [liveWords_cons_removed hj, liveWords_cons_removed (List.mem_cons_of_mem _ hj)]
      · rw [liveWords_cons hj, liveWords_cons (by simp [hne, hj])]
        exact (hrest.cons v).trans (.swap e.1 v _)

/-- The words that the bits of a mask from i on add to the base word w, where n suffixes are left. -/
def foldedWords (w : Str) (bank : List Str) (i n mask : Nat) : List Str :=
  ((List.range' i n).filter fun k => mask.testBit k).map fun k => w ++ bank.getD k []

theorem foldedWords_succ (w : Str) (bank : List Str) (i n mask : Nat) :
    foldedWords w bank i (n + 1) mask =
      (if mask.testBit i then [w ++ bank.getD i []] else []) ++ foldedWords w bank (i + 1) n mask := by
  rw [foldedWords, List.range'_succ, List.filter_cons]
  split <;> rfl

/-- Later suffixes leave the earlier bits of the mask alone. -/
theorem foldSuffixes_testBit (h : k < i) :
    (foldSuffixes w rest sufs i removed mask).2.testBit k = mask.testBit k := by
  induction sufs generalizing i removed mask with
  | nil => rfl
  | cons x sufs ih =>
    rw [foldSuffixes]
    split
    · rw [ih (by omega), Nat.add_comm, Nat.testBit_two_pow_add_gt h]
    · exact ih (by omega)

/-- The words that become removed are those that the mask's new bits stand for. -/
theorem liveWords_perm_foldSuffixes (hnodup : (rest.map Prod.snd).Nodup) (hbank : bank.drop i = sufs)
    (hmask : mask < 2 ^ i) :
    (liveWords rest removed).Perm
      (foldedWords w bank i sufs.length (foldSuffixes w rest sufs i removed mask).2 ++
        liveWords rest (foldSuffixes w rest sufs i removed mask).1) := by
  induction sufs generalizing i removed mask with
  | nil => exact .refl _
  | cons x sufs ih =>
    have hx : bank.getD i [] = x := by
      have hat : bank[i]? = some x := (List.getElem?_drop (i := i) (j := 0)).symm.trans (by rw [hbank]; rfl)
      rw [List.getD_eq_getElem?_getD, hat]
      rfl
    have hdrop : bank.drop (i + 1) = sufs := by rw [← List.drop_drop, hbank]; rfl
    have hpow : 2 ^ (i + 1) = 2 ^ i + 2 ^ i := by omega
    rw [List.length_cons, foldedWords_succ, hx, foldSuffixes]
    split
    case h_1 e he =>
      obtain ⟨hlive, heq⟩ : e.2 ∉ removed ∧ e.1 = w ++ x := by simpa using List.find?_some he
      have hbit : (mask + 2 ^ i).testBit i = true := by
        rw [Nat.add_comm, Nat.testBit_two_pow_add_eq, Nat.testBit_lt_two_pow hmask]
        rfl
      rw [foldSuffixes_testBit (Nat.lt_succ_self i), hbit, if_pos rfl, ← heq]
      exact (liveWords_perm_remove hnodup (List.mem_of_find?_eq_some he) hlive).trans
        ((ih hdrop (by omega)).cons e.1)
    case h_2 =>
      rw [foldSuffixes_testBit (Nat.lt_succ_self i), Nat.testBit_lt_two_pow hmask]
      exact ih hdrop (by omega)

theorem maskBits_of_lt (hmask : mask < 2 ^ k) (hk : k ≤ 7) :
    maskBits mask = (List.range' 0 k).filter fun i => mask.testBit i := by
  obtain ⟨n, hn⟩ := Nat.exists_eq_add_of_le hk
  rw [maskBits, Config.maxSuffixes, hn, List.range_eq_range', ← List.range'_append_1, List.filter_append, Nat.zero_add,
    List.append_right_eq_self, List.filter_eq_nil_iff]
  intro i hi
  have hle : 2 ^ k ≤ 2 ^ i := Nat.pow_le_pow_right Nat.two_pos (List.mem_range'_1.1 hi).1
  simp [Nat.testBit_lt_two_pow (hmask.trans_le hle)]

/-! ## The code list so far -/

/-- The code list `out` behind the suffix bank, with the encoder's stack: it replays to the words xs. Either it does not
end with WORD, and the stack is written or empty; or its last code is the WORD that writes the stack, which a backspace
or the end of the list may yet replace (spec/45_trie_encoder.md R244, R246). -/
inductive Encoded (sufs : List Str) : (out : List Nat) → (stk : Str) → (xs : List Str) → Prop
  | closed {out : List Nat} {stk : Str} {xs : List Str} {emitted : Bool}
      (h : Replays ⟨[], sufs, false⟩ out xs ⟨stk, sufs, emitted⟩) (hstk : emitted = true ∨ stk = [])
      (hlast : out.getLast? ≠ some 31) : Encoded sufs out stk xs
  | marked {out : List Nat} {stk : Str} {xs : List Str} (h : Replays ⟨[], sufs, false⟩ out xs ⟨stk, sufs, false⟩)
      (hstk : stk ≠ []) : Encoded sufs (out ++ [31]) stk (xs ++ [stk])

theorem dropMarker_of_getLast? (h : out.getLast? ≠ some 31) : dropMarker out = out := if_neg h

/-- With its last WORD dropped the list leaves the rest of the words to `DEnd()`. -/
theorem Encoded.exists_finalWords (h : Encoded sufs out stk xs) :
    ∃ ys d, Replays ⟨[], sufs, false⟩ (dropMarker out) ys d ∧ ys ++ d.finalWords = xs := by
  cases h with
  | closed h hstk hlast =>
    rw [dropMarker_of_getLast? hlast]
    refine ⟨_, _, h, ?_⟩
    rcases hstk with rfl | rfl <;> simp [Decoder.finalWords, Decoder.pendingWord]
  | marked h hstk =>
    rw [dropMarker_concat, if_pos rfl]
    exact ⟨_, _, h, by simp [Decoder.finalWords, Decoder.pendingWord, hstk]⟩

/-- After the pops (steps 3a and 3b) every word so far is written and the stack is what it shares with w. -/
theorem Encoded.exists_popped (h : Encoded sufs out stk xs) (hpops : popsBetween stk w ≤ 30) :
    ∃ emitted, Replays ⟨[], sufs, false⟩
      (if 0 < popsBetween stk w then dropMarker out ++ [popsBetween stk w] else out) xs
      ⟨w.take (commonLength stk w), sufs, emitted⟩ := by
  have hle := commonLength_le stk w
  have hkept : stk.length - popsBetween stk w = commonLength stk w := by
    rw [popsBetween]
    omega
  have hdepth : popsBetween stk w ≤ stk.length := Nat.sub_le _ _
  have hbksp emitted : Replays ⟨stk, sufs, emitted⟩ [popsBetween stk w] (Decoder.pendingWord ⟨stk, sufs, emitted⟩)
      ⟨w.take (commonLength stk w), sufs, decide (popsBetween stk w = 0)⟩ := by
    rw [← take_commonLength, ← hkept]
    exact replays_bksp hpops hdepth
  have hall : ¬0 < popsBetween stk w → w.take (commonLength stk w) = stk := fun h0 => by
    rw [← take_commonLength, List.take_of_length_le (by omega)]
  cases h with
  | @closed _ _ _ emitted h hstk hlast =>
    rw [dropMarker_of_getLast? hlast]
    split
    case isTrue hpos =>
      have hem : emitted = true := hstk.resolve_right (by rintro rfl; simp [popsBetween] at hpos)
      subst hem
      have := h.append (hbksp true)
      rw [Decoder.pendingWord, if_pos rfl, List.append_nil] at this
      exact ⟨_, this⟩
    case isFalse h0 => exact ⟨_, by rwa [hall h0]⟩
  | marked h hstk =>
    rw [dropMarker_concat, if_pos rfl]
    split
    case isTrue hpos => exact ⟨_, h.append (hbksp false)⟩
    case isFalse h0 => exact ⟨_, by rw [hall h0]; exact h.append (replays_word _)⟩

/-- One base word with the words that its mask adds. -/
theorem Encoded.add_word (h : Encoded sufs out stk xs) (hpops : popsBetween stk w ≤ 30) (hlt : stk < w)
    (hw : GoodRecord w) (hsufs : sufs.length ≤ 7) (hmask : mask < 2 ^ sufs.length) :
    Encoded sufs (withWord out stk w mask) w (xs ++ w :: foldedWords w sufs 0 sufs.length mask) := by
  obtain ⟨hne, h255, hchars⟩ := hw
  obtain ⟨emitted, hpopped⟩ := h.exists_popped hpops
  have hcl := commonLength_lt hlt
  have hpushed := hpopped.append (replays_chars (x := w.drop (commonLength stk w))
    (fun b hb => hchars b (List.mem_of_mem_drop hb)) (by
      rw [List.length_take, List.length_drop]
      omega))
  have hdrop : (w.drop (commonLength stk w)).isEmpty = false := by simpa using hcl
  simp only [List.take_append_drop, hdrop, Bool.and_false, List.append_nil] at hpushed
  have h128 : mask < 128 := hmask.trans_le (Nat.pow_le_pow_right (j := 7) Nat.two_pos hsufs)
  have hclose := hpushed.append (replays_closeCode (d := ⟨w, sufs, false⟩) h128 (by
    rw [maskBits_of_lt hmask hsufs]
    intro i hi
    exact (List.mem_range'_1.1 (List.mem_filter.1 hi).1).2.trans_eq (Nat.zero_add _)))
  rw [maskBits_of_lt hmask hsufs, List.append_assoc] at hclose
  rw [withWord]
  rcases Nat.eq_zero_or_pos mask with rfl | hpos
  · have := Encoded.marked hpushed hne
    simpa [foldedWords, closeCode, Config.wordMarker] using this
  · exact .closed hclose (.inl rfl) (by
      rw [closeCode, if_pos hpos, ← List.append_assoc, List.getLast?_concat, Config.suffixMarker]
      intro h
      have := Option.some.inj h
      omega)

/-- The encoder's loop keeps the code list's meaning: from a list that replays to xs it makes one that replays to xs and
the words not yet removed. -/
theorem exists_encoded (hsufs : sufs.length ≤ 7) (hnodup : (zs.map Prod.snd).Nodup)
    (hsorted : (stk :: zs.map Prod.fst).Pairwise (· < ·)) (hgood : ∀ e ∈ zs, GoodRecord e.1)
    (h : Encoded sufs out stk xs) (henc : encodeWords sufs zs stk removed out = .ok codes) :
    ∃ last ys, Encoded sufs codes last (xs ++ ys) ∧ ys.Perm (liveWords zs removed) := by
  induction zs generalizing stk removed out xs with
  | nil =>
    cases henc
    exact ⟨stk, [], by rwa [List.append_nil], .refl _⟩
  | cons e zs ih =>
    obtain ⟨w, j⟩ := e
    obtain ⟨hw, hgood⟩ := List.forall_mem_cons.1 hgood
    rw [List.map_cons, List.nodup_cons] at hnodup
    rw [List.map_cons] at hsorted
    by_cases hj : j ∈ removed
    · rw [encodeWords_cons_removed hj] at henc
      rw [liveWords_cons_removed hj]
      exact ih hnodup.2 (hsorted.sublist ((List.sublist_cons_self w _).cons_cons stk)) hgood h henc
    rcases Nat.lt_or_ge 30 (popsBetween stk w) with hp | hp
    · rw [encodeWords_cons_overflow hj hp] at henc
      cases henc
    · rw [encodeWords_cons hj hp] at henc
      obtain ⟨habove, hsorted⟩ := List.pairwise_cons.1 hsorted
      have hmask := foldSuffixes_mask_lt (w := w) (rest := zs) (sufs := sufs) (removed := removed)
        (i := 0) Nat.one_pos
      rw [Nat.zero_add] at hmask
      obtain ⟨last, ys, hlast, hperm⟩ := ih hnodup.2 hsorted hgood
        (h.add_word hp (habove w List.mem_cons_self) hw hsufs hmask) henc
      rw [liveWords_cons hj]
      refine ⟨last, w :: foldedWords w sufs 0 sufs.length _ ++ ys, by rwa [← List.append_assoc], .cons w ?_⟩
      exact (hperm.append_left _).trans
        (liveWords_perm_foldSuffixes hnodup.2 (bank := sufs) (i := 0) rfl Nat.one_pos).symm

/-- The whole code list, replayed from the decoder's start: with what `DEnd()` adds, exactly the words. -/
theorem exists_replays_trieEncode (hsufs : sufs.length ≤ 7) (hgood : ∀ x ∈ words ++ sufs, GoodRecord x)
    (hsorted : words.Pairwise (· < ·)) (henc : trieEncode words sufs = .ok out) :
    ∃ ys d, Replays Decoder.reset out ys d ∧ (ys ++ d.finalWords).Perm words := by
  obtain ⟨hwords, hsuf⟩ := List.forall_mem_append.1 hgood
  rw [trieEncode_eq, Except.map_eq_ok] at henc
  obtain ⟨codes, hcodes, rfl⟩ := henc
  have hfst : words.zipIdx.map Prod.fst = words := List.zipIdx_map_fst 0 words
  have hstart : Encoded sufs [] [] [] := .closed (.nil _) (.inr rfl) nofun
  obtain ⟨last, xs, hlast, hperm⟩ := exists_encoded hsufs
    (by rw [List.zipIdx_map_snd]; exact List.nodup_range')
    (by
      rw [hfst, List.pairwise_cons]
      exact ⟨fun w hw => by
        obtain ⟨b, v, rfl⟩ := List.exists_cons_of_ne_nil (hwords w hw).1
        exact List.nil_lt_cons b v, hsorted⟩)
    (fun e he => hwords e.1 (List.fst_mem_of_mem_zipIdx he)) hstart hcodes
  obtain ⟨ys, d, hys, hfinal⟩ := hlast.exists_finalWords
  refine ⟨ys, d, (replays_suffixBank (bank := []) hsuf (by simpa using hsufs)).append hys, ?_⟩
  rw [hfinal]
  simpa [liveWords, hfst] using hperm

/-! ## The two commands -/

theorem recordBytes_length_of_perm {ys : List Str} (h : xs.Perm ys) :
    (recordBytes xs).length = (recordBytes ys).length :=
  (h.flatMap_right _).length_eq

/-- Settles O60: the code list that TRIE_ENC leaves in SYM replays to a permutation of the words, which has records of
the same total length. -/
theorem trieRoundTrip : Obligations.TrieRoundTrip := by
  unfold Obligations.TrieRoundTrip
  intro s t words sufs hs hf hin hexec hft hroom
  obtain ⟨-, -, hsufs, -, -, hgood, hsorted⟩ := (trieInputAccepts s words sufs).1 hin
  obtain ⟨-, hover, hout⟩ := trieEncResult 0 s words sufs hin
  cases henc : trieEncode words sufs with
  | error e =>
    rw [hover e.1 e.2 henc] at hexec
    cases hexec
    cases hft
  | ok codes =>
    rcases Nat.lt_or_ge s.params.symSize codes.length with hlong | hfits
    · rw [(hout codes henc).1 hlong] at hexec
      cases hexec
      cases hft
    rw [(hout codes henc).2 hfits] at hexec
    cases hexec
    obtain ⟨ys, d, hreplay, hperm⟩ := exists_replays_trieEncode hsufs hgood hsorted henc
    have hcnt : (BitVec.ofNat 32 codes.length).toNat = codes.length := by
      have := hs.params.symSize_le
      rw [BitVec.toNat_ofNat]
      omega
    have hsym := Mem.readList_writeList hs.sym.1 (codes.map (BitVec.ofNat 16))
    rw [List.length_map] at hsym
    have hbytes := recordBytes_length_of_perm hperm
    have hlen := hperm.length_eq
    have hrun := execTrieDrun_of_replays (s := { s with
        sym := s.sym.writeList 0 (codes.map (BitVec.ofNat 16))
        regs := { s.regs with symCnt := BitVec.ofNat 32 codes.length } }) hs.params (hcnt.trans_le hfits)
      (by rw [hcnt]; exact hsym) hreplay
      (fun x hx => (hgood x (List.mem_append_left _ (hperm.mem_iff.1 hx))).2.1) (hbytes.trans_le hroom)
    exact ⟨_, _, hrun, hf, hperm, congrArg (BitVec.ofNat 32) hlen, congrArg (BitVec.ofNat 32) hbytes, rfl⟩

end Sys2Proof.Machine
end

section
/-! TRIE_DRUN as the sequence TRIE_DINIT, a TRIE_DSTEP for each code, TRIE_DEND (spec/46_trie_decoder.md R271): where
neither faults, and what the first fault of the sequence is in the one command. -/

namespace Sys2Proof.Machine

variable {s t u : State} {v w : Work} {op : Byte} {body : Work → Res Unit} {i : Instr} {is : List Instr}
  {codes : List Half} {c : FaultCode} {info : Word}

/-! ## A command of the trie decoder -/

/-- What a command of the trie decoder may change. -/
def decoderFootprint : Footprint := { wout := .free }

theorem decoderSteps_init_obeys (codes : List Half) (w : Work) :
    (decoderSteps codes (decoderInit w)).Obeys decoderFootprint w :=
  (decoderInit_obeys (.inr rfl)).bind (f := fun _ w => decoderSteps codes w) fun _ v hv _ _ => by
    cases hv
    exact decoderSteps_obeys (.inr rfl) codes

theorem decoderSteps_end_obeys (codes : List Half) (w : Work) :
    ((decoderSteps codes (decoderInit w)).bind fun _ w => decoderEnd w).Obeys decoderFootprint w :=
  (decoderSteps_init_obeys codes w).bind fun _ _ _ _ _ => decoderEnd_obeys (.inr rfl)

/-- Where such a command succeeds, its work is that of the state it leaves, and FAULT is as before. -/
theorem eq_start_of_ok (hs : s.Sane) (hb : (body s.start).Obeys decoderFootprint s.start)
    (h : body s.start = .ok () v) : v = v.st.start ∧ v.st.Sane ∧ v.st.regs.status.fault = s.regs.status.fault := by
  obtain ⟨hbound, hkept⟩ := hb.of_ok hs.bounded h
  obtain ⟨-, -, hlen⟩ := hkept.code rfl
  exact ⟨congrArg (Work.mk v.st) hlen, hbound.sane_of_idle ((hkept.table rfl).trans hs.idle), hkept.fault⟩

/-- Such a command ends without a fault where its pseudocode ends. -/
theorem runCommand_eq_next_iff (hs : s.Sane) (hb : (body s.start).Obeys decoderFootprint s.start)
    (ht : t.regs.status.fault = false) : runCommand op body s = .next t ↔ body s.start = .ok () t.start := by
  refine ⟨fun h => ?_, runCommand_of_ok⟩
  rcases runCommand_next h with ⟨v, hv, rfl⟩ | ⟨c, info, v, -, rfl⟩
  · exact hv.trans (congrArg _ (eq_start_of_ok hs hb hv).1)
  · cases ht

/-- Where it is what raises FAULT, its pseudocode raises that fault. -/
theorem exists_raise_of_fault (hs : s.Sane) (hb : (body s.start).Obeys decoderFootprint s.start)
    (hf : s.regs.status.fault = false) (h : runCommand op body s = .next t) (ht : t.regs.status.fault = true) :
    ∃ c info w, body s.start = .raise c info w ∧ t = faultEntry op s.regs s.dec w c info := by
  rcases runCommand_next h with ⟨v, hv, rfl⟩ | ⟨c, info, w, hw, rfl⟩
  · obtain ⟨-, -, hkept⟩ := eq_start_of_ok hs hb hv
    rw [ht, hf] at hkept
    cases hkept
  · exact ⟨c, info, w, hw, rfl⟩

/-- Fault entry from such a command leaves WOUT, and nothing else, as the command had it. -/
theorem faultEntry_of_kept (hs : s.Sane) (hw : w.Bounded) (h : Kept decoderFootprint s.start w) :
    faultEntry op s.regs s.dec w c info = State.faulted { s with wout := w.st.wout } op c info := by
  have hparams := h.params
  have hside := h.hostSide
  have hoperands := h.operands
  simp only [State.hostSide, State.operands, Prod.mk.injEq] at hside hoperands
  obtain ⟨-, hinbox, hresp, hfree⟩ := hside
  obtain ⟨hwin, hsuf, -⟩ := hoperands
  obtain ⟨-, -, hlen⟩ := h.code rfl
  have hfreq : w.st.freq = s.freq :=
    Mem.ext_read (hparams ▸ hw.sane.freq) hs.freq fun a => h.freq a (Set.notMem_empty a)
  have hlens : w.st.len = s.len := Mem.ext_read (hparams ▸ hw.sane.len) hs.len fun a => h.len a (Set.notMem_empty a)
  have hsym : w.st.sym = s.sym := Mem.ext_read (hparams ▸ hw.sane.sym) hs.sym fun a => h.sym a (Set.notMem_empty a)
  have hbuf : w.st.buf = s.buf := Mem.ext_read (hparams ▸ hw.sane.buf) hs.buf h.buf.2
  simp only [faultEntry, State.faulted, hlen, hparams, hinbox, hresp, hfree, hwin, hsuf, hfreq, hlens, hsym, hbuf]
  rfl

/-! ## The sequence -/

theorem Res.bind_pure (r : Res Unit) : (r.bind fun _ w => .ok () w) = r := by cases r <;> rfl

theorem execAll_cons_eq_next :
    execAll (i :: is) s = .next t ↔ ∃ u, exec i s = .next u ∧ execAll is u = .next t := by
  rw [execAll]
  cases exec i s <;> simp

/-- A run without SRESET never leaves the fault state (spec/60_exceptions.md R305). -/
theorem execAll_fault (his : ∀ i ∈ is, i.wf = true ∧ i ≠ .sreset) (hs : s.Sane) (h : execAll is s = .next t)
    (hf : s.regs.status.fault = true) : t.regs.status.fault = true := by
  induction is generalizing s with
  | nil =>
    cases h
    exact hf
  | cons i is ih =>
    obtain ⟨⟨hwf, hreset⟩, his⟩ := List.forall_mem_cons.1 his
    obtain ⟨u, hu, hrest⟩ := execAll_cons_eq_next.1 h
    refine ih his (exec_sane hs hwf hu) hrest ?_
    obtain ⟨w, hkept, -, ⟨rfl, -⟩ | ⟨c, info, rfl⟩⟩ := exec_ends hs hreset hu
    · exact hkept.fault.trans hf
    · rfl

/-- A TRIE_DSTEP for each code. -/
def dsteps (codes : List Half) : List Instr := codes.map fun k => .trieDstep (k.setWidth 24)

theorem map_trieDstep (codes : List Half) :
    ((codes.map BitVec.toNat).map fun k => Instr.trieDstep (BitVec.ofNat 24 k)) = dsteps codes := by
  simp [dsteps, Function.comp_def]

theorem wf_of_mem_dsteps_append (his : ∀ i ∈ is, i.wf = true ∧ i ≠ .sreset) :
    ∀ i ∈ dsteps codes ++ is, i.wf = true ∧ i ≠ .sreset := by
  refine List.forall_mem_append.2 ⟨fun i hi => ?_, his⟩
  obtain ⟨k, -, rfl⟩ := List.mem_map.1 hi
  exact ⟨rfl, nofun⟩

/-- The steps of a list, and then instructions that end without a fault where the piece `body` does. -/
theorem execAll_dsteps_append (his : ∀ i ∈ is, i.wf = true ∧ i ≠ .sreset) (ht : t.regs.status.fault = false)
    (hbody : ∀ u : State, u.Sane → (execAll is u = .next t ↔ body u.start = .ok () t.start)) (hs : s.Sane) :
    execAll (dsteps codes ++ is) s = .next t ↔
      ((decoderSteps codes s.start).bind fun _ w => body w) = .ok () t.start := by
  induction codes generalizing s with
  | nil => exact hbody s hs
  | cons k codes ih =>
    have hstep : (decoderStep (k.setWidth 24) s.start).Obeys decoderFootprint s.start :=
      decoderStep_obeys (.inr rfl) _
    rw [decoderSteps, Res.bind_assoc, Res.bind_eq_ok]
    refine execAll_cons_eq_next.trans ⟨?_, ?_⟩
    · rintro ⟨u, hu, hrest⟩
      have hus := exec_sane hs rfl hu
      have huf : u.regs.status.fault = false := by
        rw [← Bool.not_eq_true]
        intro huf
        have := execAll_fault (wf_of_mem_dsteps_append his) hus hrest huf
        rw [ht] at this
        cases this
      exact ⟨(), u.start, (runCommand_eq_next_iff hs hstep huf).1 hu, (ih hus).1 hrest⟩
    · rintro ⟨⟨⟩, v, hv, hrest⟩
      obtain ⟨hstart, hvs, -⟩ := eq_start_of_ok hs hstep hv
      exact ⟨v.st, runCommand_of_ok hv, (ih hvs).2 (hstart ▸ hrest)⟩

/-- TRIE_DINIT and the steps, without a fault. -/
theorem execAll_trieDinit_dsteps (hs : s.Sane) (ht : t.regs.status.fault = false) :
    execAll ([.trieDinit] ++ dsteps codes) s = .next t ↔ decoderSteps codes (decoderInit s.start) = .ok () t.start := by
  have := execAll_dsteps_append (s := (decoderInit s.start).st) (is := []) (body := fun w => .ok () w) (codes := codes)
    (List.forall_mem_nil _) ht (fun u _ => by simp [execAll]) (exec_sane (i := .trieDinit) hs rfl rfl)
  rwa [List.append_nil, Res.bind_pure] at this

/-- The whole sequence, without a fault. -/
theorem execAll_trieDrun_sequence (hs : s.Sane) (ht : t.regs.status.fault = false) :
    execAll ([.trieDinit] ++ dsteps codes ++ [.trieDend]) s = .next t ↔
      ((decoderSteps codes (decoderInit s.start)).bind fun _ w => decoderEnd w) = .ok () t.start :=
  execAll_dsteps_append (s := (decoderInit s.start).st) (is := [.trieDend]) (by decide) ht
    (fun u hu => by
      rw [execAll_cons_eq_next, ← runCommand_eq_next_iff (op := 0x4A#8) hu (decoderEnd_obeys (.inr rfl)) ht]
      simp only [execAll, Host.Outcome.next.injEq, exists_eq_right]
      rfl)
    (exec_sane (i := .trieDinit) hs rfl rfl)

/-! ## TRIE_DRUN -/

theorem decodeCommand_trieDrun (imm : Imm) : decodeCommand (commandWord 0x4B#8 imm) = .ok .trieDrun := by
  simp [decodeCommand]

theorem execTrieDrun_of_many (h : s.params.symSize < s.regs.symCnt.toNat) :
    execTrieDrun s = .next (s.faulted 0x4B#8 .arg s.regs.symCnt) :=
  runCommand_of_raise_start (if_pos h)

theorem execTrieDrun_eq_next_iff (hs : s.Sane) (hle : s.regs.symCnt.toNat ≤ s.params.symSize)
    (ht : t.regs.status.fault = false) :
    execTrieDrun s = .next t ↔
      ((decoderSteps (s.sym.readList s.regs.symCnt.toNat) (decoderInit s.start)).bind fun _ w => decoderEnd w) =
        .ok () t.start := by
  rw [execTrieDrun_of_le hle]
  exact runCommand_eq_next_iff hs (decoderSteps_end_obeys _ _) ht

/-- A fault inside TRIE_DRUN. -/
theorem execTrieDrun_of_raise (hs : s.Sane) (hle : s.regs.symCnt.toNat ≤ s.params.symSize)
    (h : ((decoderSteps (s.sym.readList s.regs.symCnt.toNat) (decoderInit s.start)).bind fun _ w => decoderEnd w) =
      .raise c info w) :
    execTrieDrun s = .next (State.faulted { s with wout := w.st.wout } 0x4B#8 c info) := by
  obtain ⟨hbound, hkept⟩ := decoderSteps_end_obeys _ s.start hs.bounded w (.inr ⟨c, info, h⟩)
  rw [execTrieDrun_of_le hle, ← faultEntry_of_kept hs hbound hkept]
  exact runCommand_of_raise h

/-- The instruction of the sequence that is the first to fault: what it raises ends the sequence's pseudocode. -/
theorem exists_raise_of_last {before : List Nat} {last : Instr} {s' : State}
    (hlast : (∃ k rest, codes.map BitVec.toNat = before ++ k :: rest ∧ last = .trieDstep (BitVec.ofNat 24 k)) ∨
      (codes.map BitVec.toNat = before ∧ last = .trieDend)) (hs : s.Sane)
    (hrun : execAll ([.trieDinit] ++ before.map fun k => .trieDstep (BitVec.ofNat 24 k)) s = .next u)
    (hu : u.regs.status.fault = false) (hexec : exec last u = .next s') (hf : s'.regs.status.fault = true) :
    ∃ c info w, ((decoderSteps codes (decoderInit s.start)).bind fun _ w => decoderEnd w) = .raise c info w ∧
      s' = faultEntry last.opcode u.regs u.dec w c info := by
  obtain ⟨front, hfront, hcodes⟩ : ∃ front : List Half, before = front.map BitVec.toNat ∧
      ((∃ k rest, codes = front ++ k :: rest ∧ last = .trieDstep (k.setWidth 24)) ∨
        (codes = front ∧ last = .trieDend)) := by
    rcases hlast with ⟨k, rest, hsplit, rfl⟩ | ⟨rfl, rfl⟩
    · obtain ⟨front, back, rfl, rfl, hback⟩ := List.map_eq_append_iff.1 hsplit
      obtain ⟨k, rest, rfl, rfl, -⟩ := List.map_eq_cons_iff.1 hback
      exact ⟨front, rfl, .inl ⟨k, rest, rfl, by rw [BitVec.ofNat_toNat]⟩⟩
    · exact ⟨codes, rfl, .inr ⟨rfl, rfl⟩⟩
  subst hfront
  rw [map_trieDstep, execAll_trieDinit_dsteps hs hu] at hrun
  obtain ⟨-, hus, -⟩ := eq_start_of_ok (body := fun w => decoderSteps front (decoderInit w)) hs
    (decoderSteps_init_obeys front s.start) hrun
  rcases hcodes with ⟨k, rest, rfl, rfl⟩ | ⟨rfl, rfl⟩
  · obtain ⟨c, info, w, hw, rfl⟩ := exists_raise_of_fault hus (decoderStep_obeys (.inr rfl) _) hu hexec hf
    exact ⟨c, info, w, by
      rw [decoderSteps_append, hrun, Res.bind_ok, decoderSteps, hw, Res.bind_raise, Res.bind_raise], rfl⟩
  · obtain ⟨c, info, w, hw, rfl⟩ := exists_raise_of_fault hus (decoderEnd_obeys (.inr rfl)) hu hexec hf
    exact ⟨c, info, w, by rw [hrun, Res.bind_ok, hw], rfl⟩

/-- Settles O59: the command and the sequence run the same pseudocode, which raises where the sequence first faults; a
list of characters replays to one stack content. -/
theorem trieDrunResult : Obligations.TrieDrunResult := by
  unfold Obligations.TrieDrunResult
  intro imm s hs
  refine ⟨decodeCommand_trieDrun imm, execTrieDrun_of_many, fun hle _ t ht => ?_,
    fun hle _ before last u v hlast hrun hu hexec hv => ?_, fun word hcnt hsym h255 hchars hword hroom => ?_⟩
  · rw [State.syms, map_trieDstep, execAll_trieDrun_sequence hs ht]
    exact execTrieDrun_eq_next_iff hs hle ht
  · obtain ⟨c, info, w, hraise, rfl⟩ := exists_raise_of_last hlast hs hrun hu hexec hv
    refine (execTrieDrun_of_raise hs hle hraise).trans ?_
    simp only [State.faulted, hs.idle]
    rfl
  · have hcodes : s.sym.readList s.regs.symCnt.toNat = (word.map BitVec.toNat).map (BitVec.ofNat 16) := by
      rw [hcnt, ← hword, State.syms, List.map_map]
      exact (List.map_id _).symm.trans (List.map_congr_left fun k _ => by simp)
    have hreplay : Replays Decoder.reset (word.map BitVec.toNat) [] ⟨word, [], false⟩ := by
      simpa [Decoder.reset] using replays_chars (d := Decoder.reset) hchars (by simpa [Decoder.reset] using h255)
    have hrun := execTrieDrun_of_replays (s := s) hs.params (hcnt.trans_le hsym) hcodes hreplay
    rcases eq_or_ne word [] with rfl | hne
    · exact hrun (List.forall_mem_nil _) (Nat.zero_le _)
    · have hwords : [] ++ Decoder.finalWords ⟨word, [], false⟩ = [word] := by
        simp [Decoder.finalWords, Decoder.pendingWord, hne]
      have hrecords : recordBytes [word] = BitVec.ofNat 8 word.length :: word := List.append_nil _
      rw [hwords, hrecords, Decoder.closed, if_neg hne] at hrun
      simp only [if_neg hne, decide_eq_true hne, Nat.add_comm 1]
      exact hrun (by simpa using h255) (by simpa [Nat.add_comm] using hroom)

end Sys2Proof.Machine
end

section
/-! The fault state (spec/60_exceptions.md R304, R305): a host access keeps what fault entry has recorded, with the
decoder state, unless it writes SRESET to CMD. -/

namespace Sys2Proof.Machine

variable {s t : State} {a : Word}

/-- What the fault state holds on to: the fault fields of STATUS, FAULT_INFO and the decoder state. -/
def State.faultRecord (s : State) : Bool × Byte × Byte × Word × Decoder :=
  (s.regs.status.fault, s.regs.status.faultCode, s.regs.status.faultOp, s.regs.faultInfo, s.dec)

theorem write8_faultRecord {v : Byte} (h : write8 s a v = some t) : t.faultRecord = s.faultRecord := by
  unfold write8 at h
  split at h
  case h_1 | h_2 | h_3 | h_4 | h_5 | h_6 =>
    obtain ⟨_, -, rfl⟩ := Option.map_eq_some_iff.1 h
    rfl
  all_goals cases h

theorem write16_faultRecord {v : Half} (h : write16 s a v = some t) : t.faultRecord = s.faultRecord := by
  unfold write16 at h
  split at h
  · obtain ⟨_, -, rfl⟩ := Option.map_eq_some_iff.1 h
    rfl
  · cases h

theorem writeReg_faultRecord {offset : Nat} {v : Word} (h : writeReg s offset v = some t) :
    t.faultRecord = s.faultRecord := by
  by_cases ho : offset % 4 = 0 ∧ offset < 0x100
  · rw [writeReg_eq v ho] at h
    cases h
    rfl
  · unfold writeReg at h
    rw [if_neg ho] at h
    cases h

theorem write32_faultRecord {v : Word} (h : write32 s a v = some t) : t.faultRecord = s.faultRecord := by
  unfold write32 at h
  split at h
  · exact writeReg_faultRecord h
  · obtain ⟨_, -, rfl⟩ := Option.map_eq_some_iff.1 h
    rfl
  · cases h

theorem answerRead_faultRecord (s : State) (v : Option Word) : (answerRead s v).faultRecord = s.faultRecord := by
  cases v <;> rfl

/-- An admitted write answers with the state it left, and a write that is not admitted leaves the state. -/
theorem answerWrite_faultRecord {o : Option State} (h : ∀ u, o = some u → u.faultRecord = s.faultRecord) :
    (answerWrite s o).faultRecord = s.faultRecord := by
  cases o with
  | none => rfl
  | some u => exact h u rfl

/-- An access that issues no command. -/
theorem hostAccess_faultRecord {op : HostOp} (hop : ∀ w, op ≠ .write32 cmdAddr w) (h : hostAccess op s = .next t) :
    t.faultRecord = s.faultRecord := by
  cases op with
  | read8 a | read16 a | read32 a => cases h; exact answerRead_faultRecord s _
  | write8 a v => cases h; exact answerWrite_faultRecord (s := countAccess s) fun _ => write8_faultRecord
  | write16 a v => cases h; exact answerWrite_faultRecord (s := countAccess s) fun _ => write16_faultRecord
  | write32 a v =>
    have ha : a ≠ cmdAddr := fun ha => hop v (ha ▸ rfl)
    rw [hostAccess, if_neg ha] at h
    cases h
    exact answerWrite_faultRecord (s := countAccess s) fun _ => write32_faultRecord

/-- In the fault state a write to CMD executes SRESET, and ignores every other word. -/
theorem step_command_of_fault {w : Word} {rest : List HostOp} (ht : s.tread = none) (hf : s.regs.status.fault = true)
    (hq : s.inbox = .write32 cmdAddr w :: rest) : step s =
      .next (if opField w = 0x01#8 then softReset { s with inbox := rest, resp := .done, free := s.free + 1 }
        else { s with inbox := rest, resp := .done, free := s.free + 1 }) := by
  rw [step_of_inbox_cons ht hq, hostAccess_write32_cmdAddr, apply_ite Host.Outcome.next]
  exact issueCommand_of_fault hf

/-- In the fault state a step that does not execute SRESET keeps the record. -/
theorem step_faultRecord (ht : s.tread = none) (hf : s.regs.status.fault = true)
    (hreset : ¬∃ w rest, s.inbox = .write32 cmdAddr w :: rest ∧ opField w = 0x01#8) (h : step s = .next t) :
    t.faultRecord = s.faultRecord := by
  cases hq : s.inbox with
  | nil =>
    rw [step_of_inbox_nil ht hq] at h
    cases h
    rfl
  | cons op rest =>
    by_cases hcmd : ∃ w, op = .write32 cmdAddr w
    · obtain ⟨w, rfl⟩ := hcmd
      rw [step_command_of_fault ht hf hq, if_neg fun hop => hreset ⟨w, rest, hq, hop⟩] at h
      cases h
      rfl
    · rw [step_of_inbox_cons ht hq] at h
      exact hostAccess_faultRecord (s := { s with inbox := rest }) (not_exists.1 hcmd) h

/-- Settles O7: SRESET is the one command that the fault state executes, and every other access keeps the record. -/
theorem faultStateLeftOnlyBySreset : Obligations.FaultStateLeftOnlyBySreset := by
  unfold Obligations.FaultStateLeftOnlyBySreset
  refine fun s t ht hf h => ⟨?_, fun hreset => ?_⟩
  · rintro ⟨w, rest, hq, hop⟩
    rw [step_command_of_fault ht hf hq, if_pos hop] at h
    cases h
    exact ⟨rfl, rfl, rfl, rfl, rfl, rfl, rfl, rfl, rfl⟩
  · have hrecord := step_faultRecord ht hf hreset h
    simp only [State.faultRecord, Prod.mk.injEq, hf] at hrecord
    exact hrecord

end Sys2Proof.Machine
end

section
/-! Where HUF_TREAD writes LEN (spec/43_table_io.md R204, R205): a read of the table at the read cursor has written LEN,
by the time it ends, exactly when the first entry is a whole literal in range (`State.FirstLiteralFits`). -/

namespace Sys2Proof.Machine

variable {s : State} {v : Work} {n bpl l : Nat} {bits rest more : List Bool} {lens : List Nat}

/-! ## The bits of the first entry -/

/-- The first n bits of a stream as a field. -/
theorem exists_fieldBits_append {k : Nat} (h : k ≤ bits.length) :
    ∃ f rest, f < 2 ^ k ∧ bits = fieldBits k f ++ rest :=
  ⟨_, bits.drop k, bitsToNat_take_lt h, by rw [fieldBits_bitsToNat_take h, List.take_append_drop]⟩

/-- A stream holds a whole entry, or ends inside one. -/
theorem exists_fieldsOf_append (bpl : Nat) (bits : List Bool) :
    (∃ e more, e.2 < 2 ^ (if e.1 then bpl else 8) ∧ bits = fieldsOf bpl e ++ more) ∨
      (bits = [] ∨ ∃ f fs, bits = f :: fs ∧ fs.length < if f then bpl else 8) := by
  cases bits with
  | nil => exact .inr (.inl rfl)
  | cons f fs =>
    by_cases hw : (if f then bpl else 8) ≤ fs.length
    · obtain ⟨x, more, hx, rfl⟩ := exists_fieldBits_append hw
      exact .inl ⟨(f, x), more, hx, rfl⟩
    · exact .inr (.inr ⟨f, fs, rfl, Nat.not_le.1 hw⟩)

/-- `State.FirstLiteralFits` by what follows the header. -/
theorem firstLiteralFits_iff (hn : n < 65536) (hb : bpl < 256)
    (hu : s.readAligned.unreadBits = fieldBits 16 n ++ (fieldBits 8 bpl ++ rest)) :
    s.FirstLiteralFits ↔ 2 ≤ n ∧ n ≤ s.params.symLimitMax ∧ 1 + bpl ≤ rest.length ∧ rest.head? = some true ∧
      bitsToNat (rest.tail.take bpl) ≤ s.params.maxCodeLen := by
  have hcount : bitsToNat (s.readAligned.unreadBits.take 16) = n := by
    rw [hu, List.take_left' (fieldBits_length 16 n), bitsToNat_fieldBits_of_lt hn]
  have hdrop : s.readAligned.unreadBits.drop 16 = fieldBits 8 bpl ++ rest := by
    rw [hu, List.drop_left' (fieldBits_length 16 n)]
  have hwidth : bitsToNat ((s.readAligned.unreadBits.drop 16).take 8) = bpl := by
    rw [hdrop, List.take_left' (fieldBits_length 8 bpl), bitsToNat_fieldBits_of_lt hb]
  have hrest : s.readAligned.unreadBits.drop 24 = rest := by
    rw [show 24 = 16 + 8 from rfl, ← List.drop_drop, hdrop, List.drop_left' (fieldBits_length 8 bpl)]
  have hlength : 25 + bpl ≤ s.readAligned.unreadBits.length ↔ 1 + bpl ≤ rest.length := by
    simp only [hu, List.length_append, fieldBits_length]
    omega
  have hflag : s.readAligned.unreadBits.getD 24 false = true ↔ rest.head? = some true := by
    rw [List.getD_eq_getElem?_getD, ← List.head?_drop, hrest]
    cases rest <;> simp
  have hfield : s.readAligned.unreadBits.drop 25 = rest.tail := by
    rw [show 25 = 24 + 1 from rfl, ← List.drop_drop, hrest, List.drop_one]
  simp only [State.FirstLiteralFits, hcount, hwidth, hlength, hflag, hfield]

/-! ## The table read -/

/-- With a first entry that is no whole literal in range, the table read faults before it has written LEN. -/
theorem tableReadFaults_of_not_firstLiteralFits (hs : s.Sane) (h : ¬s.FirstLiteralFits) :
    ∃ c info, s.TableReadFaults [] c info := by
  have hr := hs.readerOk
  by_cases h16 : 16 ≤ s.readAligned.unreadBits.length
  case neg => exact ⟨_, _, tableReadFaults_of_no_count hr (Nat.not_le.1 h16)⟩
  obtain ⟨n, rest, hn, hu⟩ := exists_fieldBits_append h16
  cases hlegal : badLimit s.params n with
  | true => exact ⟨_, _, tableReadFaults_of_badLimit hr hn hlegal hu⟩
  | false =>
    obtain ⟨h2, hmax⟩ := badLimit_eq_false.1 hlegal
    have hpos : 0 < n := Nat.lt_of_lt_of_le Nat.two_pos h2
    by_cases h8 : 8 ≤ rest.length
    case neg => exact ⟨_, _, tableReadFaults_of_no_width hr hn hlegal hu (Nat.not_le.1 h8)⟩
    obtain ⟨bpl, rest, hb, rfl⟩ := exists_fieldBits_append h8
    have htable : s.readAligned.unreadBits = tableWith n bpl [] ++ rest := by
      rw [hu, tableWith_eq, List.flatMap_nil, List.append_nil, List.append_assoc]
    have hentry {e more c info} := tableReadFaults_of_entry (es := []) (lens := []) (e := e) (more := more) (c := c)
      (info := info) hr hs.params hmax h2 hb (List.forall_mem_nil _) rfl hpos
      (List.forall_mem_nil _) htable
    rcases exists_fieldsOf_append bpl rest with ⟨⟨flag, x⟩, more, hx, rfl⟩ | htruncated
    · cases flag with
      | false => exact ⟨_, _, hentry rfl hx fun k => runEntry_reading_nil hmax hpos x⟩
      | true =>
        have hfield : (fieldsOf bpl (true, x) ++ more).tail.take bpl = fieldBits bpl x :=
          List.take_left' (fieldBits_length bpl x)
        have hlong : s.params.maxCodeLen < x := Nat.not_le.1 fun hfit =>
          h ((firstLiteralFits_iff hn hb hu).2 ⟨h2, hmax, by simp [Nat.add_comm], rfl, by
            rwa [hfield, bitsToNat_fieldBits_of_lt (k := bpl) hx]⟩)
        exact ⟨_, _, hentry rfl hx fun k =>
          (literalEntry_reading (lens := []) hmax hpos x).trans (if_pos hlong)⟩
    · exact ⟨_, _, tableReadFaults_of_truncated (es := []) hr hs.params hmax h2 hb (List.forall_mem_nil _) rfl
        hpos (List.forall_mem_nil _) htable htruncated⟩

/-- A first entry that is a whole literal in range, with the header before it. -/
theorem exists_bits_of_firstLiteralFits (h : s.FirstLiteralFits) :
    ∃ n bpl l more, 2 ≤ n ∧ n ≤ s.params.symLimitMax ∧ bpl < 256 ∧ l < 2 ^ bpl ∧ l ≤ s.params.maxCodeLen ∧
      s.readAligned.unreadBits = tableWith n bpl [] ++ (fieldsOf bpl (true, l) ++ more) := by
  have hlength := h.2.2.1
  obtain ⟨n, rest, hn, hu⟩ := exists_fieldBits_append (k := 16) (bits := s.readAligned.unreadBits) (by omega)
  obtain ⟨bpl, rest, hb, rfl⟩ := exists_fieldBits_append (k := 8) (bits := rest) (by
    simp only [hu, List.length_append, fieldBits_length] at hlength
    omega)
  obtain ⟨h2, hmax, hwhole, hflag, hfit⟩ := (firstLiteralFits_iff hn hb hu).1 h
  obtain ⟨fs, rfl⟩ := List.head?_eq_some_iff.1 hflag
  obtain ⟨l, more, hl, rfl⟩ := exists_fieldBits_append (k := bpl) (bits := fs) (by
    rw [List.length_cons] at hwhole
    omega)
  rw [List.tail_cons, List.take_left' (fieldBits_length bpl l), bitsToNat_fieldBits_of_lt hl] at hfit
  refine ⟨n, bpl, l, more, h2, hmax, hb, hl, hfit, ?_⟩
  rw [hu, tableWith_eq, List.flatMap_nil, List.append_nil, List.append_assoc]
  rfl

/-- The work of a table read is within the bounds of a command at work. -/
theorem reading_bounded (hs : s.Sane) (h2 : 2 ≤ n) (hn : n ≤ s.params.symLimitMax) (hlen : lens.length ≤ n)
    (hmax : ∀ l ∈ lens, l ≤ s.params.maxCodeLen) (hu : s.readAligned.unreadBits = bits ++ rest) :
    (s.reading n bpl bits.length lens).Bounded where
  sane := by
    obtain ⟨hok, -⟩ := reading_readerOk (n := n) (bpl := bpl) (lens := lens) hs.readerOk hu
    exact { hs with
      len := Mem.wf_writeList _ _ _ (by simpa using hlen.trans hn) hs.len
      reader := ⟨hok.nb, hok.pos, hok.lim, hok.cnt⟩
      idle := rfl }
  reading := by
    rintro t ⟨⟩
    refine ⟨⟨h2, hn⟩, fun j hj => ?_, byte_ofNat_le ?_⟩
    · have hj : j < (lens.map (BitVec.ofNat 8)).length := by rwa [List.length_map]
      have hread := Mem.read_writeList_inside _ s.len 0 j hs.len.1 hj
      rw [Nat.zero_add] at hread
      obtain ⟨l, hl, hbyte⟩ := List.mem_map.1 (List.getElem_mem hj)
      exact (congrArg BitVec.toNat (hread.trans hbyte.symm)).trans_le (byte_ofNat_le (hmax l hl))
    · cases hlast : lens.getLast? with
      | none => exact Nat.zero_le _
      | some l => exact hmax l (List.mem_of_getLast? hlast)

/-- Once LEN has been written, it stays so to the end of the table read. -/
theorem wroteLen_of_wroteLen {w : Work} {t : TableRead} (hw : w.Bounded) (ht : w.st.tread = some t)
    (hwrote : w.wroteLen = true) {j : Nat} (hv : ((entryLoop j w).bind fun _ w => tableFinish w).EndsIn v) :
    v.wroteLen = true := by
  have hloop := entryLoop_obeys (fp := { len := Set.univ, reader := true, limit := true, code := true, table := true })
    rfl rfl rfl j ht fun _ _ => Set.mem_univ _
  obtain ⟨-, hkept⟩ := hloop.bind (fun _ _ _ _ _ => tableFinish_obeys rfl rfl rfl rfl) hw v hv
  by_contra hnot
  obtain ⟨hnone, -⟩ := hkept.quiet (eq_false_of_ne_true hnot)
  rw [hwrote] at hnone
  cases hnone

/-- A first entry that is a whole literal in range is stored. -/
theorem wroteLen_of_firstLiteralFits (hs : s.Sane) (h : s.FirstLiteralFits)
    (hv : (tableRead s.regs s.start).EndsIn v) : v.wroteLen = true := by
  obtain ⟨n, bpl, l, more, h2, hn, hb, hl, hfit, hu⟩ := exists_bits_of_firstLiteralFits h
  have hpos : 0 < n := Nat.lt_of_lt_of_le Nat.two_pos h2
  have hmax : ∀ x ∈ [l], x ≤ s.params.maxCodeLen := List.forall_mem_singleton.2 hfit
  obtain ⟨j, -, hread⟩ := exists_tableRead_eq_entryLoop (es := []) (lens := []) hs.readerOk hs.params hn h2 hb
    (List.forall_mem_nil _) hu rfl hpos (List.forall_mem_nil _)
  rw [hread, entryLoop_entry (lens := []) (xs := [l]) hs.readerOk hn hb hl hu hpos rfl hpos hmax] at hv
  rw [← List.append_assoc] at hu
  exact wroteLen_of_wroteLen (reading_bounded (lens := [l]) hs h2 hn hpos hmax hu) State.reading_tread rfl hv

/-- The end of a table read tells whether its first entry is a whole literal in range. -/
theorem tableRead_wroteLen (hs : s.Sane) (hv : (tableRead s.regs s.start).EndsIn v) :
    v.wroteLen = true ↔ s.FirstLiteralFits := by
  refine ⟨fun hw => ?_, fun h => wroteLen_of_firstLiteralFits hs h hv⟩
  by_contra h
  obtain ⟨c, info, r, t, hraise⟩ := tableReadFaults_of_not_firstLiteralFits hs h
  rw [hraise] at hv
  rcases hv with ⟨_, hv⟩ | ⟨_, _, hv⟩ <;> cases hv
  cases hw

end Sys2Proof.Machine
end

section
/-! Fault entry over all instructions (spec/60_exceptions.md R302, R303): what an instruction that faults leaves of the
state it started in. -/

namespace Sys2Proof.Machine

variable {s t : State} {w : Work} {fp : Footprint} {op : Byte} {body : Work → Res Unit} {c : FaultCode} {info : Word}
  {i : Instr} {wrote : Prop}

/-! ## The raise behind a fault -/

/-- A command that obeys a footprint and faults has raised. -/
theorem exists_raise_kept_of_fault (hs : s.Sane) (hf : s.regs.status.fault = false) (h : runCommand op body s = .next t)
    (ht : t.regs.status.fault = true) (hb : (body s.start).Obeys fp s.start) :
    ∃ c info w, body s.start = .raise c info w ∧ t = faultEntry op s.regs s.dec w c info ∧ w.Bounded ∧
      Kept fp s.start w := by
  rcases runCommand_next h with ⟨w, hw, rfl⟩ | ⟨c, info, w, hw, rfl⟩
  · have hkept := (hb.of_ok hs.bounded hw).2.fault
    rw [ht, hf] at hkept
    cases hkept
  · obtain ⟨hbounded, hkept⟩ := hb hs.bounded w (.inr ⟨c, info, hw⟩)
    exact ⟨c, info, w, hw, rfl, hbounded, hkept⟩

/-- The instruction i takes s to t by fault entry, from a work state that keeps what lies outside its footprint. -/
def Faults (i : Instr) (s t : State) : Prop :=
  ∃ c info w, t = faultEntry i.opcode s.regs s.dec w c info ∧ w.Bounded ∧ Kept (footprint s i) s.start w

theorem faults_of_obeys (hs : s.Sane) (hf : s.regs.status.fault = false) (h : runCommand i.opcode body s = .next t)
    (ht : t.regs.status.fault = true) (hb : (body s.start).Obeys (footprint s i) s.start) : Faults i s t := by
  obtain ⟨c, info, w, -, h⟩ := exists_raise_kept_of_fault hs hf h ht hb
  exact ⟨c, info, w, h⟩

theorem Ends.faults (h : Ends i s t) (hi : i.wf = true) (hf : s.regs.status.fault = false)
    (ht : t.regs.status.fault = true) : Faults i s t := by
  obtain ⟨w, hkept, hbounded, ⟨rfl, -⟩ | ⟨c, info, rfl⟩⟩ := h
  · rw [hkept.fault.trans hf] at ht
    cases ht
  · exact ⟨c, info, w, rfl, hbounded hi, hkept⟩

/-! ## Instructions that write nothing before a fault -/

/-- Instructions whose checks all come before their first write, so that a fault of theirs leaves every memory and the
loaded code alone, which their footprints do not tell (for CHAR, of a byte that is no character code). -/
def checksFirst : Instr → Bool
  | .ftInit _ => true
  | .ftInc _ => true
  | .ftSet _ => true
  | .hufBuild => true
  | .hufCanon _ => true
  | .trieEnc => true
  | .char _ => true
  | _ => false

theorem execHufCanon_cases (s : State) (limit : Imm) :
    (∃ c info, execHufCanon limit s = .next (s.faulted 0x31#8 c info)) ∨
      execHufCanon limit s = .next { s with
        regs := { s.regs with limit := zextImm limit }.loadCode (maxLen (s.lens limit.toNat)) } := by
  cases hlegal : badLimit s.params limit.toNat with
  | true => exact .inl ⟨_, _, runCommand_of_raise_start (if_pos hlegal)⟩
  | false =>
    obtain ⟨h2, hn⟩ := badLimit_eq_false.1 hlegal
    cases hlong : lowestIndex (fun l => decide (s.params.maxCodeLen < l)) (s.lens limit.toNat) with
    | some i => exact .inl ⟨_, _, execHufCanon_lenRange h2 hn hlong⟩
    | none =>
      have hfit : ∀ l ∈ s.lens limit.toNat, l ≤ s.params.maxCodeLen := by simpa using lowestIndex_eq_none.1 hlong
      cases hv : validate (s.lens limit.toNat) with
      | full => exact .inr (execHufCanon_of_full h2 hn hfit hv)
      | underfull v =>
        rw [execHufCanon_of_fits h2 hn hfit]
        exact .inl ⟨_, _, runCommand_of_raise_start (by rw [checkFull, hv]; rfl)⟩
      | overfull v =>
        rw [execHufCanon_of_fits h2 hn hfit]
        exact .inl ⟨_, _, runCommand_of_raise_start (by rw [checkFull, hv]; rfl)⟩

theorem execTrieEnc_cases (s : State) :
    (∃ c info, execTrieEnc s = .next (s.faulted 0x40#8 c info)) ∨
      ∃ out : List Nat, execTrieEnc s = .next { s with
        sym := s.sym.writeList 0 (out.map (BitVec.ofNat 16))
        regs := { s.regs with symCnt := BitVec.ofNat 32 out.length } } := by
  cases hin : trieInput s with
  | error e => exact .inl ⟨_, _, execTrieEnc_of_badInput hin⟩
  | ok input =>
    cases henc : trieEncode input.1 input.2 with
    | error e => exact .inl ⟨_, _, execTrieEnc_of_overflow hin henc⟩
    | ok out =>
      by_cases hfits : out.length ≤ s.params.symSize
      · exact .inr ⟨out, execTrieEnc_of_fits hin henc hfits⟩
      · exact .inl ⟨_, _, execTrieEnc_of_long hin henc (Nat.not_le.1 hfits)⟩

/-- An instruction that checks first leaves `State.faulted` by its faults, and keeps FAULT otherwise. -/
theorem exec_of_checksFirst (hs : s.Sane) (hi : checksFirst i = true) :
    (∃ c info, exec i s = .next (s.faulted i.opcode c info)) ∨
      ∃ u, exec i s = .next u ∧ u.regs.status.fault = s.regs.status.fault := by
  cases i
  case ftInit limit =>
    rw [exec]
    cases hlegal : badLimit s.params limit.toNat with
    | true => exact .inl ⟨_, _, runCommand_of_raise_start (if_pos hlegal)⟩
    | false =>
      obtain ⟨h2, hn⟩ := badLimit_eq_false.1 hlegal
      exact .inr ⟨_, execFtInit_of_range h2 hn, rfl⟩
  case ftInc sym =>
    rw [exec, execFtInc_eq hs]
    split_ifs
    · exact .inl ⟨_, _, rfl⟩
    · exact .inl ⟨_, _, rfl⟩
    · exact .inl ⟨_, _, rfl⟩
    · exact .inr ⟨_, rfl, rfl⟩
  case ftSet sym =>
    rw [exec, execFtSet_eq hs]
    split_ifs
    · exact .inl ⟨_, _, rfl⟩
    · exact .inl ⟨_, _, rfl⟩
    · exact .inr ⟨_, rfl, rfl⟩
  case hufBuild =>
    rcases execHufBuild_cases hs with hfault | ⟨_, -, -, -, hok⟩
    · exact .inl hfault
    · exact .inr ⟨_, hok, rfl⟩
  case hufCanon limit =>
    rcases execHufCanon_cases s limit with hfault | hok
    · exact .inl hfault
    · exact .inr ⟨_, hok, rfl⟩
  case trieEnc =>
    rcases execTrieEnc_cases s with hfault | ⟨_, hok⟩
    · exact .inl hfault
    · exact .inr ⟨_, hok, rfl⟩
  case char c =>
    rw [exec]
    by_cases hfull : s.dec.stk.length = 255
    · exact .inl ⟨_, _, runCommand_of_raise_start (push_full hfull)⟩
    · exact .inr ⟨_, runCommand_of_ok (push_ok hfull), rfl⟩
  all_goals cases hi

theorem exists_faulted_of_checksFirst (hs : s.Sane) (hi : checksFirst i = true) (hf : s.regs.status.fault = false)
    (h : exec i s = .next t) (ht : t.regs.status.fault = true) : ∃ c info, t = s.faulted i.opcode c info := by
  rcases exec_of_checksFirst hs hi with ⟨c, info, hfault⟩ | ⟨u, hok, hu⟩
  · rw [hfault] at h
    cases h
    exact ⟨c, info, rfl⟩
  · rw [hok] at h
    cases h
    rw [hu, hf] at ht
    cases ht

/-! ## Every instruction -/

/-- Every fault is fault entry from a work state within the bounds, for the terms that are not well formed too. -/
theorem exec_faults (hs : s.Sane) (hf : s.regs.status.fault = false) (h : exec i s = .next t)
    (ht : t.regs.status.fault = true) : Faults i s t := by
  have hi : i ≠ .sreset := by
    rintro rfl
    rw [exec_sreset h] at ht
    cases ht
  have hends := exec_ends hs hi h
  cases i
  case sreset => exact absurd rfl hi
  case mask m => exact faults_of_obeys (body := maskClose m.toNat) hs hf h ht (maskClose_obeys (.inl rfl) _)
  case bksp n => exact faults_of_obeys (body := backspace n.toNat) hs hf h ht (backspace_obeys (.inl rfl) _)
  case char b =>
    obtain ⟨c, info, rfl⟩ := exists_faulted_of_checksFirst hs rfl hf h ht
    exact ⟨c, info, s.start, rfl, hs.bounded, .refl _ _⟩
  case invalidCode b => exact faults_of_obeys (body := invalidCode b) hs hf h ht (.raise _ _)
  case tableLiteral b l =>
    rw [exec, execTableLiteral_idle hs.idle] at h
    cases h
    rw [hf] at ht
    cases ht
  all_goals exact hends.faults rfl hf ht

/-! ## Memories -/

theorem Faults.freq_of_empty (h : Faults i s t) (hs : s.Sane) (hi : (footprint s i).freq = ∅) : t.freq = s.freq := by
  obtain ⟨c, info, w, rfl, hbounded, hkept⟩ := h
  exact Mem.ext_read hbounded.sane.freq (hkept.params ▸ hs.freq) fun a =>
    hkept.freq a (hi ▸ Set.notMem_empty a)

theorem Faults.sym_of_empty (h : Faults i s t) (hs : s.Sane) (hi : (footprint s i).sym = ∅) : t.sym = s.sym := by
  obtain ⟨c, info, w, rfl, hbounded, hkept⟩ := h
  exact Mem.ext_read hbounded.sane.sym (hkept.params ▸ hs.sym) fun a =>
    hkept.sym a (hi ▸ Set.notMem_empty a)

/-- Whatever stores at a cursor leaves what lies below it. -/
theorem StreamUse.Allows.read_below {u : StreamUse} {m m' : Mem 8} {p p' : Nat} (h : u.Allows m m' p p')
    (hu : u ≠ .free) {a : Nat} (ha : a < p) : m'.read a = m.read a := by
  cases u with
  | untouched => exact h.2 a
  | cursor => exact h a
  | append => exact h.2 a (.inl ha)
  | free => exact absurd rfl hu

theorem Faults.buf_below (h : Faults i s t) {a : Nat} (ha : a < s.regs.wpos.toNat) : t.buf.read a = s.buf.read a := by
  obtain ⟨c, info, w, rfl, -, hkept⟩ := h
  exact hkept.buf.read_below (by cases i <;> exact nofun) ha

theorem Faults.wout_below (h : Faults i s t) (hi : i ≠ .trieDrun) {a : Nat} (ha : a < s.regs.woutPtr.toNat) :
    t.wout.read a = s.wout.read a := by
  obtain ⟨c, info, w, rfl, -, hkept⟩ := h
  refine hkept.wout.read_below ?_ ha
  cases i
  case trieDrun => exact absurd rfl hi
  all_goals exact nofun

theorem Faults.freq (h : Faults i s t) (hs : s.Sane) (hf : s.regs.status.fault = false) (hexec : exec i s = .next t)
    (ht : t.regs.status.fault = true) (hi : i ≠ .hufBenc) : t.freq = s.freq := by
  cases i
  case hufBenc => exact absurd rfl hi
  case ftInit | ftInc | ftSet =>
    obtain ⟨c, info, rfl⟩ := exists_faulted_of_checksFirst hs rfl hf hexec ht
    rfl
  all_goals exact h.freq_of_empty hs rfl

theorem Faults.sym (h : Faults i s t) (hs : s.Sane) (hf : s.regs.status.fault = false) (hexec : exec i s = .next t)
    (ht : t.regs.status.fault = true) (hi : ¬∃ n, i = .hufBdec n) : t.sym = s.sym := by
  cases i
  case hufBdec n => exact absurd ⟨n, rfl⟩ hi
  case trieEnc =>
    obtain ⟨c, info, rfl⟩ := exists_faulted_of_checksFirst hs rfl hf hexec ht
    rfl
  all_goals exact h.sym_of_empty hs rfl

/-! ## The loaded code -/

/-- What a fault leaves of the code and of LEN, by whether the command has written LEN
(spec/60_exceptions.md R302). -/
structure CodeAfterFault (s t : State) (wrote : Prop) : Prop where
  dropped : wrote → t.regs.status.codeValid = false ∧ t.regs.maxlen = 0
  kept : ¬wrote → t.regs.status.codeValid = s.regs.status.codeValid ∧ t.regs.maxlen = s.regs.maxlen ∧ t.len = s.len

theorem codeAfterFault_of_wroteLen (hkept : Kept fp s.start w) (hwrote : w.wroteLen = true ↔ wrote) :
    CodeAfterFault s (faultEntry op s.regs s.dec w c info) wrote := by
  refine ⟨fun h => ?_, fun h => ?_⟩
  · simp [faultEntry_regs, hwrote.2 h]
  · have hnone := eq_false_of_ne_true (mt hwrote.1 h)
    obtain ⟨-, hlen⟩ := hkept.quiet hnone
    simp [faultEntry_regs, hnone, hlen]

theorem codeAfterFault_of_faulted (hwrote : ¬wrote) : CodeAfterFault s (s.faulted op c info) wrote :=
  ⟨fun h => absurd h hwrote, fun _ => ⟨rfl, rfl, rfl⟩⟩

theorem Faults.code_of_keeps (h : Faults i s t) (hi : (footprint s i).code = false) : CodeAfterFault s t False := by
  obtain ⟨c, info, w, rfl, -, hkept⟩ := h
  obtain ⟨-, -, hwrote⟩ := hkept.code hi
  exact codeAfterFault_of_wroteLen hkept (by simp [hwrote])

theorem execHufTread_codeAfterFault (hs : s.Sane) (hf : s.regs.status.fault = false) (h : execHufTread s = .next t)
    (ht : t.regs.status.fault = true) : CodeAfterFault s t s.FirstLiteralFits := by
  obtain ⟨c, info, w, hraise, rfl, -, hkept⟩ := exists_raise_kept_of_fault hs hf h ht
    (tableRead_obeys (fp := footprint s .hufTread) (w := s.start) rfl rfl rfl rfl (fun _ ha => ha) _)
  exact codeAfterFault_of_wroteLen hkept (tableRead_wroteLen hs (.inr ⟨c, info, hraise⟩))

/-- The symbols after the table have no part in LEN. -/
theorem decodeBlock_wroteLen {v : Work} {n : Imm} (hv : v.Bounded) (h : decodeBlock n v = .raise c info w) :
    w.wroteLen = v.wroteLen := by
  have hobeys := decodeBlock_obeys (fp := { sym := Set.univ, reader := true, symCnt := true }) (w := v) rfl rfl n
    fun _ _ => Set.mem_univ _
  obtain ⟨-, -, hwrote⟩ := (hobeys hv w (.inr ⟨c, info, h⟩)).2.code rfl
  exact hwrote

theorem execHufBdec_codeAfterFault (hs : s.Sane) (hf : s.regs.status.fault = false) {n : Imm}
    (h : execHufBdec n s = .next t) (ht : t.regs.status.fault = true) :
    CodeAfterFault s t (n.toNat ≤ s.params.symSize ∧ s.FirstLiteralFits) := by
  by_cases hn : n.toNat ≤ s.params.symSize
  case neg =>
    have harg : execHufBdec n s = .next (s.faulted 0x37#8 .arg (zextImm n)) :=
      runCommand_of_raise_start (if_pos (Nat.not_le.1 hn))
    cases harg.symm.trans h
    exact codeAfterFault_of_faulted fun hwrote => hn hwrote.1
  rw [execHufBdec_of_le hn] at h
  have htable := tableRead_obeys (fp := footprint s (.hufBdec n)) (w := s.start) rfl rfl rfl rfl (fun _ ha => ha) s.regs
  obtain ⟨c, info, w, hraise, rfl, -, hkept⟩ := exists_raise_kept_of_fault hs hf h ht
    (htable.bind fun _ _ _ _ _ => decodeBlock_obeys rfl rfl n fun _ ha => ha)
  have hwrote : w.wroteLen = true ↔ s.FirstLiteralFits := by
    rcases Res.bind_eq_raise.1 hraise with hread | ⟨u, v, hread, hblock⟩
    · exact tableRead_wroteLen hs (.inr ⟨c, info, hread⟩)
    · rw [decodeBlock_wroteLen (htable.of_ok hs.bounded hread).1 hblock]
      exact tableRead_wroteLen hs (.inl ⟨u, hread⟩)
  exact codeAfterFault_of_wroteLen hkept (hwrote.trans (and_iff_right hn).symm)

theorem faulted_ne_bufFull (h : c ≠ .bufFull) : (s.faulted op c info).regs.status.faultCode ≠ 0x0C#8 :=
  fun hcode => h (FaultCode.code_injective hcode)

/-- HUF_BENC has written LEN exactly when BUF fills: every other check comes before the code is stored. -/
theorem execHufBenc_codeAfterFault (hs : s.Sane) (hf : s.regs.status.fault = false) (h : execHufBenc s = .next t)
    (ht : t.regs.status.fault = true) : CodeAfterFault s t (t.regs.status.faultCode = 0x0C#8) := by
  by_cases hn : s.regs.symCnt.toNat ≤ s.params.symSize
  case neg =>
    cases (execHufBenc_arg (Nat.not_le.1 hn)).symm.trans h
    exact codeAfterFault_of_faulted (faulted_ne_bufFull nofun)
  by_cases h0 : s.regs.symCnt.toNat = 0
  case pos =>
    cases (execHufBenc_empty h0).symm.trans h
    exact codeAfterFault_of_faulted (faulted_ne_bufFull nofun)
  have h0 := Nat.pos_of_ne_zero h0
  by_cases hlimit : s.blockLimit < 2 ∨ s.params.symLimitMax < s.blockLimit
  case pos =>
    cases (execHufBenc_badLimit h0 hn hlimit).symm.trans h
    exact codeAfterFault_of_faulted (faulted_ne_bufFull nofun)
  obtain ⟨h2, hm⟩ := not_or.1 hlimit
  rw [Nat.not_lt] at h2 hm
  obtain ⟨tree, htree, -⟩ := exists_buildTree (freqs := symbolCounts s.blockLimit s.symList)
    (by rwa [symbolCounts_length])
  cases hlong : lowestIndex (fun l => decide (s.params.maxCodeLen < l)) (depthList tree s.blockLimit) with
  | some i =>
    cases (execHufBenc_lenRange hs h0 hn h2 hm htree hlong).symm.trans h
    exact ⟨fun hfull => absurd hfull (faulted_ne_bufFull nofun), fun _ => ⟨rfl, rfl, rfl⟩⟩
  | none =>
    have hfit : ∀ l ∈ depthList tree s.blockLimit, l ≤ s.params.maxCodeLen := by
      simpa using lowestIndex_eq_none.1 hlong
    by_cases hroom : s.HasRoom (blockBits s.regs.wnb.toNat (depthList tree s.blockLimit) s.symList).length
    case pos =>
      cases (execHufBenc_of_room hs h0 hn h2 hm htree hfit hroom).symm.trans h
      cases hf.symm.trans ht
    cases (execHufBenc_full hs h0 hn h2 hm htree hfit hroom).symm.trans h
    exact ⟨fun _ => ⟨rfl, rfl⟩, fun hnot => absurd rfl hnot⟩

/-! ## The obligation -/

/-- Settles O19: fault entry restores the registers and the decoder; the work behind it keeps what lies outside the
instruction's footprint, and three commands can have written LEN by then. -/
theorem faultEntryRollsBack : Obligations.FaultEntryRollsBack := by
  unfold Obligations.FaultEntryRollsBack
  intro i s t hinv hf h ht wrote
  have hs := hinv.sane
  have hfaults := exec_faults hs hf h ht
  have hcode : CodeAfterFault s t wrote := by
    cases i
    case hufBenc => exact execHufBenc_codeAfterFault hs hf h ht
    case hufTread => exact execHufTread_codeAfterFault hs hf h ht
    case hufBdec n => exact execHufBdec_codeAfterFault hs hf h ht
    case ftInit | hufBuild | hufCanon =>
      obtain ⟨c, info, rfl⟩ := exists_faulted_of_checksFirst hs rfl hf h ht
      exact codeAfterFault_of_faulted not_false
    all_goals exact hfaults.code_of_keeps rfl
  have hfreq : i = .hufBenc ∨ t.freq = s.freq := or_iff_not_imp_left.2 (hfaults.freq hs hf h ht)
  have hsym : (∃ n, i = .hufBdec n) ∨ t.sym = s.sym := or_iff_not_imp_left.2 (hfaults.sym hs hf h ht)
  have hbuf : ∀ a, a < s.regs.wpos.toNat → t.buf.read a = s.buf.read a := fun a => hfaults.buf_below
  have hwout : i = .trieDrun ∨ ∀ a, a < s.regs.woutPtr.toNat → t.wout.read a = s.wout.read a :=
    or_iff_not_imp_left.2 fun hi a => hfaults.wout_below hi
  obtain ⟨c, info, w, rfl, -, hkept⟩ := hfaults
  obtain ⟨hlow, hhigh⟩ := c.code_bounds
  have hoperands := hkept.operands
  simp only [State.operands, Prod.mk.injEq] at hoperands
  obtain ⟨hwin, hsuf, -⟩ := hoperands
  have hregs := faultEntry_regs i.opcode s.regs s.dec w c info
  refine ⟨by rw [hregs], rfl, rfl, by rw [hregs], by rw [hregs]; exact hlow, by rw [hregs]; exact hhigh, hcode.dropped,
    hcode.kept, hfreq, hsym, hwin, hsuf, hbuf, hwout⟩

end Sys2Proof.Machine
end

section
/-! What answers (spec/70_reset_and_hazards.md R342): a piece of a command that starts within the bounds of a command at
work ends, by success or by a raise, and never in a stop of the model. Its elements exist by those bounds, the code
tree exists where CODE_VALID = 1, and each table entry takes a bit of the stream. -/

namespace Sys2Proof.Machine

variable {α β : Type} {fp : Footprint} {w v : Work} {t : TableRead} {u : Unit}

/-! ## Answering -/

/-- The piece ends, by success or by a raise. -/
def Res.Answers (r : Res α) : Prop := ∃ v, r.EndsIn v

theorem Res.Answers.ok (a : α) (w : Work) : (Res.ok a w).Answers := ⟨w, .inl ⟨a, rfl⟩⟩

theorem Res.Answers.raise (c : FaultCode) (i : Word) (w : Work) : (Res.raise c i w : Res α).Answers :=
  ⟨w, .inr ⟨c, i, rfl⟩⟩

/-- Two pieces in sequence. -/
theorem Res.Answers.bind {r : Res α} {f : α → Work → Res β} (h : r.Answers)
    (hf : ∀ a v, r = .ok a v → (f a v).Answers) : (r.bind f).Answers := by
  obtain ⟨v, ⟨a, rfl⟩ | ⟨c, i, rfl⟩⟩ := h
  · exact hf a v rfl
  · exact .raise c i v

/-- Two pieces in sequence, where the second relies on the bounds that the first keeps. -/
theorem Res.Answers.bind_obeys {r : Res α} {f : α → Work → Res β} (h : r.Answers) (hw : w.Bounded)
    (ho : r.Obeys fp w) (hf : ∀ a v, r = .ok a v → v.Bounded → Kept fp w v → (f a v).Answers) : (r.bind f).Answers :=
  h.bind fun a v hr => (ho.of_ok hw hr).elim (hf a v hr)

/-- A command whose body answers has a next state. -/
theorem Res.Answers.exists_next {op : Byte} {body : Work → Res Unit} {s : State} (h : (body s.start).Answers) :
    ∃ t, runCommand op body s = .next t := by
  obtain ⟨w, ⟨_, hw⟩ | ⟨c, i, hw⟩⟩ := h
  · exact ⟨_, runCommand_of_ok hw⟩
  · exact ⟨_, runCommand_of_raise hw⟩

/-! ## The bit streams -/

theorem putBits_answers (hw : w.Bounded) (bits : List Bool) : (putBits bits w).Answers := by
  by_cases hr : w.st.HasRoom bits.length
  · rw [putBits_room bits hw.writerOk hr]
    exact .ok _ _
  · obtain ⟨r, hfull⟩ := putBits_full bits hw.writerOk hr
    rw [hfull]
    exact .raise _ _ _

theorem getBit_answers (hw : w.Bounded) : (getBit w).Answers := by
  by_cases hl : w.st.unreadBits.length = 0
  · rw [getBit_eos hw.readerOk hl]
    exact .raise _ _ _
  · obtain ⟨b, hb, -⟩ := getBit_ok hw.readerOk (Nat.pos_of_ne_zero hl)
    rw [hb]
    exact .ok _ _

theorem getField_answers (hw : w.Bounded) (k : Nat) : (getField k w).Answers := by
  by_cases hk : k ≤ w.st.unreadBits.length
  · rw [getField_ok hw.readerOk hk]
    exact .ok _ _
  · obtain ⟨r, heos⟩ := getField_eos hw.readerOk (Nat.not_le.1 hk)
    rw [heos]
    exact .raise _ _ _

/-! ## The table reader (spec/43_table_io.md R204) -/

theorem alignR_bounded (hw : w.Bounded) : (alignR w).Bounded :=
  ((alignR_obeys (fp := { reader := true }) rfl).of_ok hw rfl).1

theorem tableHeader_answers (hw : w.Bounded) (start : Regs) : (tableHeader start w).Answers := by
  have hw := alignR_bounded hw
  refine (getField_answers hw 16).bind_obeys hw (getField_obeys (fp := { reader := true }) rfl 16)
    fun n v _ hv _ => ?_
  split
  · exact .raise _ _ _
  · exact (getField_answers hv 8).bind fun _ _ _ => .ok _ _

theorem fetchEntry_answers (hw : w.Bounded) (bpl : Byte) : (fetchEntry bpl w).Answers :=
  (getBit_answers hw).bind_obeys hw (getBit_obeys (fp := { reader := true }) rfl) fun _ _ _ hv _ =>
    (getField_answers hv _).bind fun _ _ _ => .ok _ _

theorem entry_answers (hw : w.Bounded) (ht : w.st.tread = some t) (hi : t.i < t.n) (e : Bool × Nat) :
    (entry e w).Answers := by
  obtain ⟨-, hn⟩ := (hw.reading t ht).count
  obtain ⟨flag, f⟩ := e
  cases flag with
  | true =>
    show (literalEntry f w).Answers
    rw [literalEntry_waited ht hi hn]
    split
    · exact .raise _ _ _
    · exact .ok _ _
  | false =>
    show (runEntry f w).Answers
    rw [runEntry_waited ht hi hn]
    split
    · exact .raise _ _ _
    split
    · exact .raise _ _ _
    · exact .ok _ _

/-- An entry stays within the bounds, in its table read, and takes no bits of the stream but those it was fetched
from. -/
theorem entry_continues {e : Bool × Nat} (hw : w.Bounded) (ht : w.st.tread = some t) (h : entry e w = .ok u v) :
    v.Bounded ∧ (∃ t', v.st.tread = some t') ∧ unreadCount v.st.regs = unreadCount w.st.regs := by
  obtain ⟨hv, hk⟩ := (entry_obeys (fp := { len := Set.univ, code := true, table := true }) ht rfl rfl
    (fun _ _ => Set.mem_univ _) e).of_ok hw h
  obtain ⟨t', ht', -⟩ := entry_count ht h
  have hreader := hk.reader rfl
  simp only [Regs.reader, Prod.mk.injEq] at hreader
  obtain ⟨hpos, hlim, hnb, -⟩ := hreader
  exact ⟨hv, ⟨t', ht'⟩, by rw [unreadCount, unreadCount, hpos, hlim, hnb]⟩

/-- Each entry takes a bit, so a bound above the number of unread bits is not reached. -/
theorem entryLoop_answers {k : Nat} (hw : w.Bounded) (ht : w.st.tread = some t) (hk : unreadCount w.st.regs < k) :
    (entryLoop k w).Answers := by
  induction k generalizing w t with
  | zero => exact absurd hk (Nat.not_lt_zero _)
  | succ k ih =>
    simp only [entryLoop, ht]
    split
    case isFalse => exact .ok _ _
    case isTrue hi =>
      refine (fetchEntry_answers hw t.bpl).bind_obeys hw (fetchEntry_obeys (fp := { reader := true }) rfl t.bpl)
        fun e v hfetch hv _ => ?_
      have htv : v.st.tread = some t := (fetchEntry_tread hw hfetch).trans ht
      refine (entry_answers hv htv hi e).bind fun _ x hentry => ?_
      obtain ⟨hx, ⟨t', ht'⟩, hcount⟩ := entry_continues hv htv hentry
      obtain ⟨-, r, rfl, hfewer⟩ := fetchEntry_eq_ok hfetch
      exact ih hx ht' (hcount.trans_lt (hfewer.trans_le (Nat.le_of_lt_succ hk)))

theorem checkFull_answers (lens : List Nat) (w : Work) : (checkFull lens w).Answers := by
  unfold checkFull
  split
  · exact .ok _ _
  · exact .raise _ _ _
  · exact .raise _ _ _

theorem tableFinish_answers (hw : w.Bounded) : (tableFinish w).Answers := by
  cases ht : w.st.tread with
  | none =>
    rw [tableFinish, ht]
    exact .ok _ _
  | some t =>
    have hread : readLens t.n (alignR w) = .ok ((alignR w).st.lens t.n) (alignR w) :=
      readLens_ok (hw.reading t ht).count.2
    simp only [tableFinish, ht, hread, Res.bind_ok]
    exact (checkFull_answers _ _).bind fun _ _ _ => .ok _ _

/-- The header leaves a table read within the bounds. -/
theorem tableHeader_bounded {start : Regs} (hw : w.Bounded) (h : tableHeader start w = .ok u v) : v.Bounded :=
  ((tableHeader_obeys (fp := { reader := true, table := true }) rfl rfl start).of_ok hw h).1

theorem entryLoop_bounded {k : Nat} (hw : w.Bounded) (ht : w.st.tread = some t) (h : entryLoop k w = .ok u v) :
    v.Bounded :=
  ((entryLoop_obeys (fp := { len := Set.univ, reader := true, code := true, table := true }) rfl rfl rfl k ht
    fun _ _ => Set.mem_univ _).of_ok hw h).1

theorem tableRead_answers (hw : w.Bounded) (start : Regs) : (tableRead start w).Answers := by
  refine (tableHeader_answers hw start).bind fun _ x hheader => ?_
  have hx := tableHeader_bounded hw hheader
  obtain ⟨t, ht, -⟩ := tableHeader_ok hw hheader
  exact (entryLoop_answers hx ht (Nat.lt_succ_self _)).bind fun _ _ hloop =>
    tableFinish_answers (entryLoop_bounded hx ht hloop)

/-! ## The loaded code -/

/-- A table read that succeeds has loaded a code. -/
theorem tableRead_codeValid {start : Regs} (hw : w.Bounded) (h : tableRead start w = .ok u v) :
    v.st.regs.status.codeValid = true := by
  obtain ⟨_, x, hheader, h⟩ := Res.bind_eq_ok.1 h
  obtain ⟨_, y, hloop, h⟩ := Res.bind_eq_ok.1 h
  obtain ⟨t, ht, -⟩ := tableHeader_ok hw hheader
  obtain ⟨t', ht', -⟩ := entryLoop_complete (tableHeader_bounded hw hheader) ht hloop
  simp only [tableFinish, ht'] at h
  obtain ⟨_, _, -, h⟩ := Res.bind_eq_ok.1 h
  obtain ⟨_, _, -, h⟩ := Res.bind_eq_ok.1 h
  cases h
  rfl

/-- A loaded code has its canonical tree. -/
theorem Work.Bounded.exists_loadedTree (hw : w.Bounded) (hc : w.st.CodeOk) (hv : w.st.regs.status.codeValid = true) :
    ∃ t, loadedTree w = .ok t w := by
  obtain ⟨t, ht⟩ := exists_canonTree (hc.full hv)
  exact ⟨t, loadedTree_ok hw.sane.limit_le ht⟩

theorem decodeSymbol_answers (hw : w.Bounded) (t : Tree) : (decodeSymbol t w).Answers := by
  induction t generalizing w with
  | leaf x => exact .ok x w
  | node l r ihl ihr =>
    refine (getBit_answers hw).bind_obeys hw (getBit_obeys (fp := { reader := true }) rfl) fun b v _ hv _ => ?_
    cases b with
    | false => exact ihl hv
    | true => exact ihr hv

theorem decodeInto_answers {t : Tree} {count k : Nat} (hw : w.Bounded) (hk : k + count ≤ w.st.params.symSize) :
    (decodeInto t count k w).Answers := by
  induction count generalizing w k with
  | zero => exact .ok () w
  | succ count ih =>
    refine (decodeSymbol_answers hw t).bind_obeys hw (decodeSymbol_obeys (fp := { reader := true }) rfl t)
      fun x v _ hv hkept => ?_
    have hparams := hkept.params
    have hwrite : (writeSym k (BitVec.ofNat 16 x) v).Answers := by
      rw [writeSym_ok (by rw [hparams]; omega)]
      exact .ok _ _
    refine hwrite.bind_obeys hv (writeSym_obeys (fp := { sym := Set.univ }) (Set.mem_univ k) _) fun _ y _ hy hkept => ?_
    exact ih hy (by rw [hkept.params, hparams]; omega)

/-! ## The trie decoder (spec/46_trie_decoder.md) -/

theorem emitWord_answers (x : Str) (w : Work) : (emitWord x w).Answers := by
  by_cases hx : x.length ≤ 255
  · by_cases hr : w.st.regs.woutPtr.toNat + 1 + x.length ≤ w.st.params.woutSize
    · rw [emitWord_ok hx hr]
      exact .ok _ _
    · rw [emitWord_full hx (Nat.not_le.1 hr)]
      exact .raise _ _ _
  · rw [emitWord_long (Nat.not_le.1 hx)]
    exact .raise _ _ _

theorem emitStack_answers (w : Work) : (emitStack w).Answers := by
  unfold emitStack
  split
  · exact .ok _ _
  · exact (emitWord_answers _ w).bind fun _ _ _ => .ok _ _

theorem emitSuffixed_answers (is : List Nat) (w : Work) : (emitSuffixed is w).Answers := by
  induction is generalizing w with
  | nil => exact .ok _ _
  | cons i is ih => exact (emitWord_answers _ w).bind fun _ v _ => ih v

theorem sufDef_answers (w : Work) : (sufDef w).Answers := by
  unfold sufDef
  split
  · exact .raise _ _ _
  · exact .ok _ _

theorem maskClose_answers (m : Nat) (w : Work) : (maskClose m w).Answers := by
  unfold maskClose
  split
  · exact .raise _ _ _
  · exact (emitStack_answers w).bind fun _ v _ => emitSuffixed_answers _ v

theorem backspace_answers (n : Nat) (w : Work) : (backspace n w).Answers := by
  unfold backspace
  split
  · exact .raise _ _ _
  · exact (emitStack_answers w).bind fun _ _ _ => .ok _ _

theorem push_answers (c : Byte) (w : Work) : (push c w).Answers := by
  unfold push
  split
  · exact .raise _ _ _
  · exact .ok _ _

theorem decoderStep_answers (c : Imm) (w : Work) : (decoderStep c w).Answers := by
  unfold decoderStep
  split
  · exact sufDef_answers w
  split
  · exact maskClose_answers _ w
  split
  · exact backspace_answers _ w
  split
  · exact emitStack_answers w
  split
  · exact push_answers _ w
  · exact .raise _ _ _

theorem decoderSteps_answers (cs : List Half) (w : Work) : (decoderSteps cs w).Answers := by
  induction cs generalizing w with
  | nil => exact .ok _ _
  | cons c cs ih => exact (decoderStep_answers _ w).bind fun _ v _ => ih v

theorem decoderEnd_answers (w : Work) : (decoderEnd w).Answers := by
  unfold decoderEnd
  split
  · exact (emitWord_answers _ w).bind fun _ _ _ => .ok _ _
  · exact .ok _ _

end Sys2Proof.Machine
end

section
/-! Power-on reset meets the invariant (spec/70_reset_and_hazards.md R340), and from a state with the invariant every
instruction, every host access and so every step has a next state (R342). -/

namespace Sys2Proof.Machine

variable {s : State}

/-! ## Reset -/

theorem resetWith_sane {p : Params} (hp : p.Legal) : (State.resetWith p).Sane where
  params := hp
  freq := Mem.wf_nil _
  len := Mem.wf_nil _
  sym := Mem.wf_nil _
  buf := Mem.wf_nil _
  win := Mem.wf_nil _
  suf := Mem.wf_nil _
  wout := Mem.wf_nil _
  limit := .inl rfl
  maxlen _ := rfl
  noFault _ := ⟨rfl, rfl, rfl⟩
  faultCode := nofun
  writer := ⟨Nat.zero_le _, Nat.zero_lt_one, Nat.zero_le _, Nat.zero_le _⟩
  reader := ⟨Nat.zero_le _, Nat.zero_le _, Nat.zero_le _, Nat.zero_le _⟩
  stack := ⟨Nat.zero_le _, nofun⟩
  bank := ⟨Nat.zero_le _, nofun⟩
  output := ⟨Nat.zero_le _, Nat.zero_le _⟩
  idle := rfl

theorem default_legal : Params.default.Legal := by decide

/-- Settles O12: the memories list nothing, the registers and the decoder state are within their bounds, and no code is
loaded. -/
theorem resetMeetsInv : Obligations.ResetMeetsInv := by
  unfold Obligations.ResetMeetsInv
  exact ⟨fun _ hp => ⟨resetWith_sane hp, State.codeOk_of_invalid rfl⟩, default_legal, rfl⟩

/-! ## Commands -/

theorem execBsWinit_answers (s : State) (a : Imm) : ∃ t, execBsWinit a s = .next t := by
  refine Res.Answers.exists_next ?_
  split
  · exact .raise _ _ _
  · exact .ok _ _

theorem execBsPut_answers (hs : s.Sane) (n : Imm) : ∃ t, execBsPut n s = .next t := by
  refine Res.Answers.exists_next ?_
  split
  · exact .raise _ _ _
  · exact putBits_answers hs.bounded _

theorem execBsRinit_answers (s : State) (a : Imm) : ∃ t, execBsRinit a s = .next t := by
  refine Res.Answers.exists_next ?_
  split
  · exact .raise _ _ _
  split
  · exact .raise _ _ _
  · exact .ok _ _

theorem execBsGet_answers (hs : s.Sane) (n : Imm) : ∃ t, execBsGet n s = .next t := by
  refine Res.Answers.exists_next ?_
  split
  · exact .raise _ _ _
  · exact (getField_answers hs.bounded _).bind fun _ _ _ => .ok _ _

theorem execFtGet_answers (hs : s.Sane) (n : Imm) : ∃ t, execFtGet n s = .next t := by
  rw [execFtGet_eq hs]
  split
  · exact ⟨_, rfl⟩
  · exact ⟨_, rfl⟩

/-- An instruction that checks before it writes. -/
theorem exec_answers_of_checksFirst (hs : s.Sane) {i : Instr} (hi : checksFirst i = true) :
    ∃ t, exec i s = .next t := by
  rcases exec_of_checksFirst hs hi with ⟨c, info, h⟩ | ⟨t, h, -⟩
  · exact ⟨_, h⟩
  · exact ⟨t, h⟩

theorem execHufTwrite_answers (hs : s.Inv) : ∃ t, execHufTwrite s = .next t := by
  cases hv : s.regs.status.codeValid with
  | false => exact ⟨_, runCommand_of_raise_start (if_neg (by simp [hv]))⟩
  | true =>
    rw [execHufTwrite_of_loaded hs hv]
    exact (putBits_answers hs.sane.bounded _).exists_next

theorem execHufEnc_answers (hs : s.Inv) (sym : Imm) : ∃ t, execHufEnc sym s = .next t := by
  cases hv : s.regs.status.codeValid with
  | false => exact ⟨_, runCommand_of_raise_start (if_pos (by simp [hv]))⟩
  | true =>
    rcases Nat.eq_zero_or_pos (s.loadedLens.getD sym.toNat 0) with h0 | hpos
    · exact ⟨_, execHufEnc_noCode hs hv h0⟩
    · obtain ⟨t, ht, -⟩ := hs.exists_loadedTree hv
      obtain ⟨bits, hbits⟩ := exists_codeOf ht hpos
      rw [execHufEnc_of_code hs hv hbits hpos]
      exact (putBits_answers hs.sane.bounded _).exists_next

theorem execHufDec_answers (hs : s.Inv) : ∃ t, execHufDec s = .next t := by
  cases hv : s.regs.status.codeValid with
  | false => exact ⟨_, runCommand_of_raise_start (if_pos (by simp [hv]))⟩
  | true =>
    obtain ⟨t, -, htree⟩ := hs.exists_loadedTree hv
    rw [execHufDec_of_loaded hv htree]
    exact ((decodeSymbol_answers hs.sane.bounded t).bind fun _ _ _ => .ok _ _).exists_next

/-- The checks of HUF_BENC in turn; then the built code fits or not, and the block has room or not. -/
theorem execHufBenc_answers (hs : s.Sane) : ∃ t, execHufBenc s = .next t := by
  by_cases hn : s.regs.symCnt.toNat ≤ s.params.symSize
  case neg => exact ⟨_, execHufBenc_arg (Nat.not_le.1 hn)⟩
  rcases Nat.eq_zero_or_pos s.regs.symCnt.toNat with h0 | h0
  · exact ⟨_, execHufBenc_empty h0⟩
  by_cases hlimit : s.blockLimit < 2 ∨ s.params.symLimitMax < s.blockLimit
  case pos => exact ⟨_, execHufBenc_badLimit h0 hn hlimit⟩
  obtain ⟨h2, hm⟩ := not_or.1 hlimit
  rw [Nat.not_lt] at h2 hm
  obtain ⟨t, ht, -⟩ := exists_buildTree (freqs := symbolCounts s.blockLimit s.symList)
    (by rwa [symbolCounts_length])
  cases hlong : lowestIndex (fun l => decide (s.params.maxCodeLen < l)) (depthList t s.blockLimit) with
  | some i => exact ⟨_, execHufBenc_lenRange hs h0 hn h2 hm ht hlong⟩
  | none =>
    have hfit : ∀ l ∈ depthList t s.blockLimit, l ≤ s.params.maxCodeLen := by
      simpa using lowestIndex_eq_none.1 hlong
    by_cases hroom : s.HasRoom (blockBits s.regs.wnb.toNat (depthList t s.blockLimit) s.symList).length
    · exact ⟨_, execHufBenc_of_room hs h0 hn h2 hm ht hfit hroom⟩
    · exact ⟨_, execHufBenc_full hs h0 hn h2 hm ht hfit hroom⟩

/-- After a table read the code is loaded, so HUF_BDEC decodes in its tree. -/
theorem execHufBdec_answers (hs : s.Sane) (n : Imm) : ∃ t, execHufBdec n s = .next t := by
  by_cases hn : n.toNat ≤ s.params.symSize
  case neg => exact ⟨_, runCommand_of_raise_start (if_pos (Nat.not_le.1 hn))⟩
  rw [execHufBdec_of_le hn]
  refine Res.Answers.exists_next ((tableRead_answers hs.bounded s.regs).bind_obeys hs.bounded
    (tableRead_obeys (fp := footprint s .hufTread) (w := s.start) rfl rfl rfl rfl (fun _ ha => ha) _)
    fun _ v hread hv hkept => ?_)
  obtain ⟨t, htree⟩ := hv.exists_loadedTree (tableRead_codeOk hs.bounded hread)
    (tableRead_codeValid hs.bounded hread)
  rw [decodeBlock, htree, Res.bind_ok]
  exact (decodeInto_answers hv (by rw [hkept.params, Nat.zero_add]; exact hn)).bind fun _ _ _ => .ok _ _

theorem execTrieDrun_answers (s : State) : ∃ t, execTrieDrun s = .next t := by
  by_cases hle : s.regs.symCnt.toNat ≤ s.params.symSize
  · rw [execTrieDrun_of_le hle]
    exact ((decoderSteps_answers _ _).bind fun _ v _ => decoderEnd_answers v).exists_next
  · exact ⟨_, execTrieDrun_of_many (Nat.not_le.1 hle)⟩

/-- With the invariant every instruction has a next state. -/
theorem exec_answers (hs : s.Inv) (i : Instr) : ∃ t, exec i s = .next t := by
  have hsane := hs.sane
  have hw := hsane.bounded
  cases i with
  | nop => exact ⟨s, exec_nop s⟩
  | sreset => exact ⟨softReset s, rfl⟩
  | bsWinit a => exact execBsWinit_answers s a
  | bsPut n => exact execBsPut_answers hsane n
  | bsWalign => exact (putBits_answers hw _).exists_next
  | bsRinit a => exact execBsRinit_answers s a
  | bsGet n => exact execBsGet_answers hsane n
  | bsRalign => exact ⟨_, rfl⟩
  | ftInit _ | ftInc _ | ftSet _ | hufBuild | hufCanon _ | trieEnc | char _ =>
    exact exec_answers_of_checksFirst hsane rfl
  | ftGet n => exact execFtGet_answers hsane n
  | hufTwrite => exact execHufTwrite_answers hs
  | hufTread => exact (tableRead_answers hw _).exists_next
  | hufEnc sym => exact execHufEnc_answers hs sym
  | hufDec => exact execHufDec_answers hs
  | hufBenc => exact execHufBenc_answers hsane
  | hufBdec n => exact execHufBdec_answers hsane n
  | trieDinit => exact ⟨_, rfl⟩
  | trieDstep c => exact (decoderStep_answers c s.start).exists_next
  | trieDend => exact (decoderEnd_answers s.start).exists_next
  | trieDrun => exact execTrieDrun_answers s
  | sufdef => exact (sufDef_answers s.start).exists_next
  | mask m => exact (maskClose_answers m.toNat s.start).exists_next
  | bksp n => exact (backspace_answers n.toNat s.start).exists_next
  | word => exact (emitStack_answers s.start).exists_next
  | invalidCode c => exact ⟨_, rfl⟩
  | tableLiteral bpl l => exact ⟨s, execTableLiteral_idle hsane.idle bpl l⟩
  | tableRun r => exact ⟨s, execTableRun_idle hsane.idle r⟩

/-! ## Steps -/

/-- A word written to CMD is executed, ignored in the fault state, or faults as no command (spec/40_control.md R131). -/
theorem issueCommand_answers (hs : s.Inv) (w : Word) : ∃ t, issueCommand w s = .next t := by
  cases hf : s.regs.status.fault with
  | true =>
    rw [issueCommand_of_fault hf]
    split
    · exact exec_answers hs .sreset
    · exact ⟨s, rfl⟩
  | false =>
    cases hdec : decodeCommand w with
    | ok i =>
      rw [issueCommand_of_ok hf hdec]
      exact exec_answers hs i
    | error e => exact ⟨_, issueCommand_of_error hf hdec⟩

/-- The invariant does not speak of the host's side of the port. -/
theorem State.Inv.hostSide (hs : s.Inv) (inbox : List HostOp) (resp : PortResp) (free : Nat) :
    State.Inv { s with inbox := inbox, resp := resp, free := free } :=
  have hp := preserves_hostSide s inbox resp free
  ⟨hp.sane hs.sane, hp.code hs⟩

theorem hostAccess_answers (hs : s.Inv) (op : HostOp) : ∃ t, hostAccess op s = .next t := by
  cases op with
  | read8 a | read16 a | read32 a | write8 a v | write16 a v => exact ⟨_, rfl⟩
  | write32 a v =>
    rw [hostAccess]
    split
    · exact issueCommand_answers (hs.hostSide s.inbox .done (s.free + 1)) v
    · exact ⟨_, rfl⟩

theorem step_answers (hs : s.Inv) : ∃ t, step s = .next t := by
  cases hq : s.inbox with
  | nil => exact ⟨s, step_of_inbox_nil hs.sane.idle hq⟩
  | cons op rest =>
    rw [step_of_inbox_cons hs.sane.idle hq]
    exact hostAccess_answers (hs.hostSide rest s.resp s.free) op

/-- Settles O15: each step has a next state, which has the invariant again. -/
theorem invIsSafe : Obligations.InvIsSafe := by
  unfold Obligations.InvIsSafe
  intro s hs n
  induction n generalizing s with
  | zero => exact ⟨s, rfl⟩
  | succ n ih =>
    obtain ⟨t, ht⟩ := step_answers hs
    obtain ⟨u, hu⟩ := ih t (stepKeepsInv s t hs ht)
    exact ⟨u, (run_succ_of_step (M := Sys2Proof.core) ht n).trans hu⟩

end Sys2Proof.Machine
end
